-- ==== Sys2Proof/Word.lean ====
section
/-! DEFINITION. The machine's words and bytes (R4): little-endian, 32-bit words. -/

namespace Sys2Proof

/-- A 32-bit word: a register of a group, an instruction word, a system register. -/
abbrev Word := BitVec 32

/-- A byte of memory. -/
abbrev Byte := BitVec 8

/-- A 64-bit address or doubleword. -/
abbrev DWord := BitVec 64

end Sys2Proof
end

