-- ==== Sys2Proof/Syntax/Fields.lean ====
section
/-! DEFINITION. The coded fields of instructions: the extra first word (R44), conditions, types, sizes, scopes and
register classes (R22, R46, R85, R109). -/

namespace Sys2Proof

/-- The rounding field `rnd` of an instruction's extra first word (R44). Code 7 is illegal (R48). -/
inductive Rnd where
  | fmt | rne | rtz | rup | rdn | rna | rsto
  deriving DecidableEq, Repr

/-- The fields of the word with major 0x7E that may stand before a base word (R44). -/
structure Prefix where
  ms  : BitVec 3
  rnd : Rnd
  vc  : BitVec 6
  z   : Bool
  sat : Bool
  gx  : BitVec 3
  imm : BitVec 8
  deriving DecidableEq, Repr

/-- The conditions of VCM, GCMP and GCMPI (R85). -/
inductive CmpCond where
  | eq | ne | lt | le | gt | ge | un | or
  deriving DecidableEq, Repr

/-- The operand types of VCM (R85). -/
inductive CmpType where
  | f32 | i32 | n32 | f16l | bf16l
  deriving DecidableEq, Repr

/-- How VCM joins its result to the mask bit (R85). -/
inductive CmpComb where
  | set | and | or | andn
  deriving DecidableEq, Repr

/-- The operand types of GCMP (R109). -/
inductive GCmpType where
  | i32 | n32 | f32 | i64
  deriving DecidableEq, Repr

/-- The access size field `sz` (R46). -/
inductive MemSize where
  | b8 | b16 | b32 | b64
  deriving DecidableEq, Repr

/-- The ten scopes (R22). -/
inductive Scope where
  | thr | quad | grp | blk | core | clu | dev | sys | pod | span
  deriving DecidableEq, Repr

/-- The register class of XRD and XWR (R46, R266). -/
inductive RegClass where
  | v | g | m | f | w | group
  deriving DecidableEq, Repr

/-- The storage a soft error strikes (R295). -/
inductive ErrUnit where
  | vreg | greg | acc | scratch | memory | l1 | l2 | msc | replay | exchange
  deriving DecidableEq, Repr

/-- What the kind 2 message of an abort says (R200, R203): the region, the slice that caused the abort, or 0, and the cause. -/
structure AbortNote where
  aid    : Nat
  source : Nat
  cause  : Nat
  deriving DecidableEq, Repr

end Sys2Proof
end

