-- ==== Sys2Proof/Syntax.lean ====
section
/-! DEFINITION. The instructions of the Krovdal Tamundeo D9: one constructor for each row of the opcode
table (R42 to R46), with the coded fields read into types of their own. A destination, source or base register
keeps its field's width; whether it names a register the group has is R49's matter, checked when it runs. -/

namespace Sys2Proof

/-- Every row of the opcode table: 302 instruction words (R42 to R46), then the device's own steps,
which have no encoding and happen when `State.pending` lists them. -/
inductive Instr where
  /-- FADD Each active thread writes a + b in FP32, rounded once. (R77) -/
  | fadd (p : Option Prefix) (d a b : BitVec 6)
  /-- FSUB Each active thread writes a − b in FP32, rounded once. (R77) -/
  | fsub (p : Option Prefix) (d a b : BitVec 6)
  /-- FMUL Each active thread writes a × b in FP32, rounded once. (R77) -/
  | fmul (p : Option Prefix) (d a b : BitVec 6)
  /-- FFMA Each active thread writes a × b + c with a single rounding; c comes from vc. (R77) -/
  | ffma (p : Option Prefix) (d a b : BitVec 6)
  /-- FFMS Each active thread writes a × b − c with a single rounding. (R77) -/
  | ffms (p : Option Prefix) (d a b : BitVec 6)
  /-- FNMA Each active thread writes −(a × b) + c with a single rounding. (R77) -/
  | fnma (p : Option Prefix) (d a b : BitVec 6)
  /-- FMIN Each active thread writes minimumNumber(a, b) without rounding. (R77) -/
  | fmin (p : Option Prefix) (d a b : BitVec 6)
  /-- FMAX Each active thread writes maximumNumber(a, b) without rounding. (R77) -/
  | fmax (p : Option Prefix) (d a b : BitVec 6)
  /-- FDIV Each active thread writes a ÷ b correctly rounded, as a class C operation. (R77) -/
  | fdiv (p : Option Prefix) (d a b : BitVec 6)
  /-- FSQRT Each active thread writes the correctly rounded square root of a. (R77) -/
  | fsqrt (p : Option Prefix) (d a : BitVec 6)
  /-- FRCP Each active thread writes the correctly rounded reciprocal of a. (R77) -/
  | frcp (p : Option Prefix) (d a : BitVec 6)
  /-- FRSQ Each active thread writes the correctly rounded reciprocal square root of a. (R77) -/
  | frsq (p : Option Prefix) (d a : BitVec 6)
  /-- FEXP2 Each active thread writes 2^a, correctly rounded. (R77) -/
  | fexp2 (p : Option Prefix) (d a : BitVec 6)
  /-- FLOG2 Each active thread writes log2 a, correctly rounded. (R77) -/
  | flog2 (p : Option Prefix) (d a : BitVec 6)
  /-- FSIGM Each active thread writes the logistic sigmoid of a, rounded once. (R77) -/
  | fsigm (p : Option Prefix) (d a : BitVec 6)
  /-- FTANH Each active thread writes tanh a, rounded once. (R77) -/
  | ftanh (p : Option Prefix) (d a : BitVec 6)
  /-- FABS Each active thread writes a with its sign bit cleared, as a bit operation. (R77) -/
  | fabs (p : Option Prefix) (d a : BitVec 6)
  /-- FNEG Each active thread writes a with its sign bit inverted, as a bit operation. (R77) -/
  | fneg (p : Option Prefix) (d a : BitVec 6)
  /-- FRINT Each active thread writes a rounded to an integral value in the effective rounding mode. (R77) -/
  | frint (p : Option Prefix) (d a : BitVec 6)
  /-- FCPYS Each active thread writes the magnitude of a with the sign of b. (R77) -/
  | fcpys (p : Option Prefix) (d a b : BitVec 6)
  /-- FCLASS Each active thread writes a one-hot class word for a. (R78) -/
  | fclass (p : Option Prefix) (d a : BitVec 6)
  /-- FSCALE Each active thread writes a × 2^n, with n the integer in b, rounded once. (R77) -/
  | fscale (p : Option Prefix) (d a b : BitVec 6)
  /-- FADD_G FADD with a uniform register as the second operand. (R79) -/
  | faddG (p : Option Prefix) (d a : BitVec 6) (g : BitVec 9)
  /-- FSUB_G FSUB with a uniform register as the second operand. (R79) -/
  | fsubG (p : Option Prefix) (d a : BitVec 6) (g : BitVec 9)
  /-- FMUL_G FMUL with a uniform register as the second operand. (R79) -/
  | fmulG (p : Option Prefix) (d a : BitVec 6) (g : BitVec 9)
  /-- FFMA_G FFMA with a uniform multiplier and the addend taken from vc. (R79) -/
  | ffmaG (p : Option Prefix) (d a : BitVec 6) (g : BitVec 9)
  /-- FMIN_G FMIN with a uniform register as the second operand. (R79) -/
  | fminG (p : Option Prefix) (d a : BitVec 6) (g : BitVec 9)
  /-- FMAX_G FMAX with a uniform register as the second operand. (R79) -/
  | fmaxG (p : Option Prefix) (d a : BitVec 6) (g : BitVec 9)
  /-- FDIV_G FDIV with a uniform divisor. (R79) -/
  | fdivG (p : Option Prefix) (d a : BitVec 6) (g : BitVec 9)
  /-- FSCALE_G FSCALE with the exponent taken from a uniform register. (R79) -/
  | fscaleG (p : Option Prefix) (d a : BitVec 6) (g : BitVec 9)
  /-- HADD2 Adds the packed FP16 or BF16 halves separately. (R80) -/
  | hadd2 (p : Option Prefix) (bf : Bool) (d a b : BitVec 6)
  /-- HSUB2 Subtracts the packed halves separately. (R80) -/
  | hsub2 (p : Option Prefix) (bf : Bool) (d a b : BitVec 6)
  /-- HMUL2 Multiplies the packed halves separately. (R80) -/
  | hmul2 (p : Option Prefix) (bf : Bool) (d a b : BitVec 6)
  /-- HFMA2 Performs a fused multiply-add on each packed half. (R80) -/
  | hfma2 (p : Option Prefix) (bf : Bool) (d a b : BitVec 6)
  /-- HMIN2 Takes minimumNumber of each packed half pair. (R80) -/
  | hmin2 (p : Option Prefix) (bf : Bool) (d a b : BitVec 6)
  /-- HMAX2 Takes maximumNumber of each packed half pair. (R80) -/
  | hmax2 (p : Option Prefix) (bf : Bool) (d a b : BitVec 6)
  /-- HDOT2 Writes c + a.lo·b.lo + a.hi·b.hi rounded once into FP32. (R80) -/
  | hdot2 (p : Option Prefix) (bf : Bool) (d a b : BitVec 6)
  /-- IADD Each active thread writes the wrapping integer sum a + b. (R81) -/
  | iadd (p : Option Prefix) (d a b : BitVec 6)
  /-- ISUB Each active thread writes the wrapping integer difference a − b. (R81) -/
  | isub (p : Option Prefix) (d a b : BitVec 6)
  /-- IMUL Each active thread writes the low 32 bits of a × b. (R81) -/
  | imul (p : Option Prefix) (d a b : BitVec 6)
  /-- IMULH Each active thread writes the high 32 bits of the signed product. (R81) -/
  | imulh (p : Option Prefix) (d a b : BitVec 6)
  /-- NMULH Each active thread writes the high 32 bits of the unsigned product. (R81) -/
  | nmulh (p : Option Prefix) (d a b : BitVec 6)
  /-- IMAD Each active thread writes the low 32 bits of a × b + c. (R81) -/
  | imad (p : Option Prefix) (d a b : BitVec 6)
  /-- IMIN Each active thread writes the signed minimum of a and b. (R81) -/
  | imin (p : Option Prefix) (d a b : BitVec 6)
  /-- IMAX Each active thread writes the signed maximum of a and b. (R81) -/
  | imax (p : Option Prefix) (d a b : BitVec 6)
  /-- NMIN Each active thread writes the unsigned minimum of a and b. (R81) -/
  | nmin (p : Option Prefix) (d a b : BitVec 6)
  /-- NMAX Each active thread writes the unsigned maximum of a and b. (R81) -/
  | nmax (p : Option Prefix) (d a b : BitVec 6)
  /-- AND Each active thread writes a & b. (R81) -/
  | and (p : Option Prefix) (d a b : BitVec 6)
  /-- OR Each active thread writes a | b. (R81) -/
  | or (p : Option Prefix) (d a b : BitVec 6)
  /-- XOR Each active thread writes a ^ b. (R81) -/
  | xor (p : Option Prefix) (d a b : BitVec 6)
  /-- ANDN Each active thread writes a & ~b. (R81) -/
  | andn (p : Option Prefix) (d a b : BitVec 6)
  /-- SHL Each active thread writes a shifted left by the unsigned count b. (R81) -/
  | shl (p : Option Prefix) (d a b : BitVec 6)
  /-- SHR Each active thread writes a shifted right logically by b. (R81) -/
  | shr (p : Option Prefix) (d a b : BitVec 6)
  /-- SAR Each active thread writes a shifted right arithmetically by b. (R81) -/
  | sar (p : Option Prefix) (d a b : BitVec 6)
  /-- ROTL Each active thread writes a rotated left by b mod 32. (R81) -/
  | rotl (p : Option Prefix) (d a b : BitVec 6)
  /-- POPC Each active thread writes the number of 1 bits in a. (R81) -/
  | popc (p : Option Prefix) (d a : BitVec 6)
  /-- CLZ Each active thread writes the number of leading zeros of a. (R81) -/
  | clz (p : Option Prefix) (d a : BitVec 6)
  /-- BREV Each active thread writes a with its bit order reversed. (R81) -/
  | brev (p : Option Prefix) (d a : BitVec 6)
  /-- IABS Each active thread writes the signed absolute value of a. (R81) -/
  | iabs (p : Option Prefix) (d a : BitVec 6)
  /-- IADDS Each active thread writes the saturating signed sum a + b. (R81) -/
  | iadds (p : Option Prefix) (d a b : BitVec 6)
  /-- ISUBS Each active thread writes the saturating signed difference a − b. (R81) -/
  | isubs (p : Option Prefix) (d a b : BitVec 6)
  /-- IDP4 Each active thread writes c plus the 4-way signed byte dot product of a and b. (R81) -/
  | idp4 (p : Option Prefix) (d a b : BitVec 6)
  /-- IADD_G IADD with a uniform register as the second operand. (R82) -/
  | iaddG (p : Option Prefix) (d a : BitVec 6) (g : BitVec 9)
  /-- ISUB_G Subtracts a uniform register from each thread's value. (R82) -/
  | isubG (p : Option Prefix) (d a : BitVec 6) (g : BitVec 9)
  /-- IMUL_G IMUL with a uniform register as the second operand. (R82) -/
  | imulG (p : Option Prefix) (d a : BitVec 6) (g : BitVec 9)
  /-- IMAD_G Computes a × G + c, with c taken from vc. (R82) -/
  | imadG (p : Option Prefix) (d a : BitVec 6) (g : BitVec 9)
  /-- AND_G AND with a uniform register as the second operand. (R82) -/
  | andG (p : Option Prefix) (d a : BitVec 6) (g : BitVec 9)
  /-- OR_G OR with a uniform register as the second operand. (R82) -/
  | orG (p : Option Prefix) (d a : BitVec 6) (g : BitVec 9)
  /-- XOR_G XOR with a uniform register as the second operand. (R82) -/
  | xorG (p : Option Prefix) (d a : BitVec 6) (g : BitVec 9)
  /-- SHL_G SHL with the count taken from a uniform register. (R82) -/
  | shlG (p : Option Prefix) (d a : BitVec 6) (g : BitVec 9)
  /-- SHR_G SHR with the count taken from a uniform register. (R82) -/
  | shrG (p : Option Prefix) (d a : BitVec 6) (g : BitVec 9)
  /-- SAR_G SAR with the count taken from a uniform register. (R82) -/
  | sarG (p : Option Prefix) (d a : BitVec 6) (g : BitVec 9)
  /-- IMIN_G IMIN with a uniform register as the second operand. (R82) -/
  | iminG (p : Option Prefix) (d a : BitVec 6) (g : BitVec 9)
  /-- IMAX_G IMAX with a uniform register as the second operand. (R82) -/
  | imaxG (p : Option Prefix) (d a : BitVec 6) (g : BitVec 9)
  /-- NMIN_G NMIN with a uniform register as the second operand. (R82) -/
  | nminG (p : Option Prefix) (d a : BitVec 6) (g : BitVec 9)
  /-- NMAX_G NMAX with a uniform register as the second operand. (R82) -/
  | nmaxG (p : Option Prefix) (d a : BitVec 6) (g : BitVec 9)
  /-- CVT_F32_I32 Converts a signed integer to FP32. (R83) -/
  | cvtF32I32 (p : Option Prefix) (d a : BitVec 6)
  /-- CVT_F32_N32 Converts an unsigned integer to FP32. (R83) -/
  | cvtF32N32 (p : Option Prefix) (d a : BitVec 6)
  /-- CVT_I32_F32 Converts FP32 to a signed integer, clamping out-of-range values and raising IV for them. (R84) -/
  | cvtI32F32 (p : Option Prefix) (d a : BitVec 6)
  /-- CVT_N32_F32 Converts FP32 to an unsigned integer, clamping out-of-range values and raising IV for them. (R84) -/
  | cvtN32F32 (p : Option Prefix) (d a : BitVec 6)
  /-- CVT_F16X2 Narrows two FP32 values into a packed FP16 pair. (R83) -/
  | cvtF16x2 (p : Option Prefix) (d a b : BitVec 6)
  /-- CVT_BF16X2 Narrows two FP32 values into a packed BF16 pair. (R83) -/
  | cvtBf16x2 (p : Option Prefix) (d a b : BitVec 6)
  /-- CVT_F32_F16L Widens the low FP16 half to FP32, exactly. (R83) -/
  | cvtF32F16l (p : Option Prefix) (d a : BitVec 6)
  /-- CVT_F32_F16H Widens the high FP16 half to FP32, exactly. (R83) -/
  | cvtF32F16h (p : Option Prefix) (d a : BitVec 6)
  /-- CVT_F32_BF16L Widens the low BF16 half to FP32, exactly. (R83) -/
  | cvtF32Bf16l (p : Option Prefix) (d a : BitVec 6)
  /-- CVT_F32_BF16H Widens the high BF16 half to FP32, exactly. (R83) -/
  | cvtF32Bf16h (p : Option Prefix) (d a : BitVec 6)
  /-- CVT_E4M3X2_L Narrows two FP32 values into an E4M3 pair in the low half and keeps the high half. (R83) -/
  | cvtE4m3x2L (p : Option Prefix) (d a b : BitVec 6)
  /-- CVT_E4M3X2_H Narrows two FP32 values into an E4M3 pair in the high half and keeps the low half. (R83) -/
  | cvtE4m3x2H (p : Option Prefix) (d a b : BitVec 6)
  /-- CVT_E5M2X2_L Narrows two FP32 values into an E5M2 pair in the low half. (R83) -/
  | cvtE5m2x2L (p : Option Prefix) (d a b : BitVec 6)
  /-- CVT_E5M2X2_H Narrows two FP32 values into an E5M2 pair in the high half. (R83) -/
  | cvtE5m2x2H (p : Option Prefix) (d a b : BitVec 6)
  /-- CVT_F32_E4M3_B0 Widens E4M3 byte 0 to FP32. (R83) -/
  | cvtF32E4m3B0 (p : Option Prefix) (d a : BitVec 6)
  /-- CVT_F32_E4M3_B1 Widens E4M3 byte 1 to FP32. (R83) -/
  | cvtF32E4m3B1 (p : Option Prefix) (d a : BitVec 6)
  /-- CVT_F32_E4M3_B2 Widens E4M3 byte 2 to FP32. (R83) -/
  | cvtF32E4m3B2 (p : Option Prefix) (d a : BitVec 6)
  /-- CVT_F32_E4M3_B3 Widens E4M3 byte 3 to FP32. (R83) -/
  | cvtF32E4m3B3 (p : Option Prefix) (d a : BitVec 6)
  /-- CVT_F32_E5M2_B0 Widens E5M2 byte 0 to FP32. (R83) -/
  | cvtF32E5m2B0 (p : Option Prefix) (d a : BitVec 6)
  /-- CVT_F32_E5M2_B1 Widens E5M2 byte 1 to FP32. (R83) -/
  | cvtF32E5m2B1 (p : Option Prefix) (d a : BitVec 6)
  /-- CVT_F32_E5M2_B2 Widens E5M2 byte 2 to FP32. (R83) -/
  | cvtF32E5m2B2 (p : Option Prefix) (d a : BitVec 6)
  /-- CVT_F32_E5M2_B3 Widens E5M2 byte 3 to FP32. (R83) -/
  | cvtF32E5m2B3 (p : Option Prefix) (d a : BitVec 6)
  /-- CMP Compares two vector registers per active thread and combines the result into bit t of a mask register. (R85) -/
  | cmp (m : BitVec 3) (c : CmpCond) (a b : BitVec 6) (t : CmpType) (o : CmpComb)
  /-- SHDN Shifts values down the active threads in one pass; the first active thread takes vb. (R100) -/
  | shdn (p : Option Prefix) (d a b : BitVec 6)
  /-- SHUP Shifts values up the active threads; the last active thread takes vb. (R100) -/
  | shup (p : Option Prefix) (d a b : BitVec 6)
  /-- PSUM_F Writes the inclusive FP32 prefix sum over the active threads. (R100) -/
  | psumF (p : Option Prefix) (d a : BitVec 6)
  /-- PSUMX_F Writes the exclusive FP32 prefix sum over the active threads. (R100) -/
  | psumxF (p : Option Prefix) (d a : BitVec 6)
  /-- PSUM_I Writes the inclusive wrapping integer prefix sum. (R100) -/
  | psumI (p : Option Prefix) (d a : BitVec 6)
  /-- PSUMX_I Writes the exclusive wrapping integer prefix sum. (R100) -/
  | psumxI (p : Option Prefix) (d a : BitVec 6)
  /-- PMAX_I Writes the running signed maximum over the active threads. (R99) -/
  | pmaxI (p : Option Prefix) (d a : BitVec 6)
  /-- PMIN_I Writes the running signed minimum over the active threads. (R99) -/
  | pminI (p : Option Prefix) (d a : BitVec 6)
  /-- SHFL In two passes, each thread takes va from the thread that its vb names. (R99) -/
  | shfl (p : Option Prefix) (d a b : BitVec 6)
  /-- QSWH Swaps values between the horizontal partners of each quad. (R101) -/
  | qswh (p : Option Prefix) (d a : BitVec 6)
  /-- QSWV Swaps values between the vertical partners of each quad. (R101) -/
  | qswv (p : Option Prefix) (d a : BitVec 6)
  /-- QSWD Swaps values between the diagonal partners of each quad. (R101) -/
  | qswd (p : Option Prefix) (d a : BitVec 6)
  /-- ZIP2 Interleaves 2 source registers across the active threads. (R102) -/
  | zip2 (p : Option Prefix) (d a : BitVec 6)
  /-- ZIP3 Interleaves 3 source registers across the active threads. (R102) -/
  | zip3 (p : Option Prefix) (d a : BitVec 6)
  /-- ZIP4 Interleaves 4 source registers across the active threads. (R102) -/
  | zip4 (p : Option Prefix) (d a : BitVec 6)
  /-- UZP2 De-interleaves into 2 destination registers. (R102) -/
  | uzp2 (p : Option Prefix) (d a : BitVec 6)
  /-- UZP3 De-interleaves into 3 destination registers. (R102) -/
  | uzp3 (p : Option Prefix) (d a : BitVec 6)
  /-- UZP4 De-interleaves into 4 destination registers. (R102) -/
  | uzp4 (p : Option Prefix) (d a : BitVec 6)
  /-- PMAX_F Writes the running maximumNumber over the active threads. (R99) -/
  | pmaxF (p : Option Prefix) (d a : BitVec 6)
  /-- PMIN_F Writes the running minimumNumber over the active threads. (R99) -/
  | pminF (p : Option Prefix) (d a : BitVec 6)
  /-- RSUM_F Left-folds the FP32 sum of the active threads into a uniform register. (R103) -/
  | rsumF (g : BitVec 9) (a : BitVec 6)
  /-- RSUM_I Folds the wrapping integer sum of the active threads into a uniform register. (R103) -/
  | rsumI (g : BitVec 9) (a : BitVec 6)
  /-- RMAX_F Folds maximumNumber over the active threads into a uniform register. (R103) -/
  | rmaxF (g : BitVec 9) (a : BitVec 6)
  /-- RMIN_F Folds minimumNumber over the active threads into a uniform register. (R103) -/
  | rminF (g : BitVec 9) (a : BitVec 6)
  /-- RMAX_I Folds the signed maximum over the active threads into a uniform register. (R103) -/
  | rmaxI (g : BitVec 9) (a : BitVec 6)
  /-- RMIN_I Folds the signed minimum over the active threads into a uniform register. (R103) -/
  | rminI (g : BitVec 9) (a : BitVec 6)
  /-- RAND Folds the bitwise AND of the active threads into a uniform register. (R103) -/
  | rand (g : BitVec 9) (a : BitVec 6)
  /-- ROR Folds the bitwise OR of the active threads into a uniform register. (R103) -/
  | ror (g : BitVec 9) (a : BitVec 6)
  /-- RXOR Folds the bitwise XOR of the active threads into a uniform register. (R103) -/
  | rxor (g : BitVec 9) (a : BitVec 6)
  /-- VGET Copies one thread's vector register into a uniform register. (R103) -/
  | vget (g : BitVec 9) (a : BitVec 6) (i : BitVec 5)
  /-- VPUT Copies a uniform register into one thread's vector register. (R103) -/
  | vput (g : BitVec 9) (a : BitVec 6) (i : BitVec 5)
  /-- FIRST Copies the value of the lowest active thread into a uniform register. (R103) -/
  | first (g : BitVec 9) (a : BitVec 6)
  /-- BALLOT Builds a bit mask of the active threads whose value is nonzero. (R103) -/
  | ballot (g : BitVec 9) (a : BitVec 6)
  /-- FADDI Adds an f20 immediate to vd in every active thread. (R87) -/
  | faddi (d : BitVec 6) (i : BitVec 20)
  /-- FMULI Multiplies vd by an f20 immediate in every active thread. (R87) -/
  | fmuli (d : BitVec 6) (i : BitVec 20)
  /-- FMOVI Moves an f20 immediate into vd. (R87) -/
  | fmovi (d : BitVec 6) (i : BitVec 20)
  /-- IADDI Adds a signed 20-bit immediate to vd, wrapping. (R87) -/
  | iaddi (d : BitVec 6) (i : BitVec 20)
  /-- IMOVI Moves a sign-extended 20-bit immediate into vd. (R87) -/
  | imovi (d : BitVec 6) (i : BitVec 20)
  /-- FADD_L FADD with a literal-word operand. (R88) -/
  | faddL (p : Option Prefix) (d a : BitVec 6) (lit : Word)
  /-- FMUL_L FMUL with a literal-word operand. (R88) -/
  | fmulL (p : Option Prefix) (d a : BitVec 6) (lit : Word)
  /-- FFMA_L Computes a × b + literal with a single rounding. (R88) -/
  | ffmaL (p : Option Prefix) (d a b : BitVec 6) (lit : Word)
  /-- FMOV_L Moves a literal word into vd as bits. (R88) -/
  | fmovL (p : Option Prefix) (d : BitVec 6) (lit : Word)
  /-- IADD_L Adds a literal integer word, wrapping. (R88) -/
  | iaddL (p : Option Prefix) (d a : BitVec 6) (lit : Word)
  /-- IMOV_L Moves a literal integer word into vd. (R88) -/
  | imovL (p : Option Prefix) (d : BitVec 6) (lit : Word)
  /-- AND_L ANDs each thread's value with a literal word. (R88) -/
  | andL (p : Option Prefix) (d a : BitVec 6) (lit : Word)
  /-- FMIN_L Takes minimumNumber with a literal word. (R88) -/
  | fminL (p : Option Prefix) (d a : BitVec 6) (lit : Word)
  /-- FMAX_L Takes maximumNumber with a literal word. (R88) -/
  | fmaxL (p : Option Prefix) (d a : BitVec 6) (lit : Word)
  /-- FFMA_K Computes vd × va + a constant-bank word with a single rounding. (R89) -/
  | ffmaK (d a : BitVec 6) (k : BitVec 4) (f : BitVec 9)
  /-- FADD_K Adds a constant-bank word to va. (R89) -/
  | faddK (d a : BitVec 6) (k : BitVec 4) (f : BitVec 9)
  /-- FMUL_K Multiplies va by a constant-bank word. (R89) -/
  | fmulK (d a : BitVec 6) (k : BitVec 4) (f : BitVec 9)
  /-- IADD_K Adds a constant-bank word to va, wrapping. (R89) -/
  | iaddK (d a : BitVec 6) (k : BitVec 4) (f : BitVec 9)
  /-- MOV_K Moves a constant-bank word into vd. (R89) -/
  | movK (d : BitVec 6) (k : BitVec 4) (f : BitVec 9)
  /-- MOV Copies va to vd in every active thread. (R104) -/
  | mov (p : Option Prefix) (d a : BitVec 6)
  /-- SEL Selects va or vb in each thread according to the select mask. (R105) -/
  | sel (p : Option Prefix) (d a b : BitVec 6)
  /-- TIDX Writes each thread's index within its group. (R104) -/
  | tidx (p : Option Prefix) (d : BitVec 6)
  /-- QIDX Writes each thread's quad index. (R104) -/
  | qidx (p : Option Prefix) (d : BitVec 6)
  /-- LIDX Writes each thread's index within its block. (R104) -/
  | lidx (p : Option Prefix) (d : BitVec 6)
  /-- MOVG Broadcasts a uniform register into vd. (R104) -/
  | movg (p : Option Prefix) (d : BitVec 6) (g : BitVec 9)
  /-- SEL_G Selects va or a uniform register in each thread according to the select mask. (R105) -/
  | selG (p : Option Prefix) (d a : BitVec 6) (g : BitVec 9)
  /-- MAND Writes the AND of two mask registers. (R106) -/
  | mand (d a b : BitVec 3)
  /-- MOR Writes the OR of two mask registers. (R106) -/
  | mor (d a b : BitVec 3)
  /-- MXOR Writes the XOR of two mask registers. (R106) -/
  | mxor (d a b : BitVec 3)
  /-- MANDN Writes ma & ~mb. (R106) -/
  | mandn (d a b : BitVec 3)
  /-- MNOT Writes the complement of a mask register. (R106) -/
  | mnot (d a : BitVec 3)
  /-- MTOG Copies a mask register into a uniform register. (R106) -/
  | mtog (a : BitVec 3) (n : BitVec 9)
  /-- GTOM Copies a uniform register into a mask register. (R106) -/
  | gtom (d : BitVec 3) (n : BitVec 9)
  /-- MPOP Writes the population count of a mask register into a uniform register. (R106) -/
  | mpop (a : BitVec 3) (n : BitVec 9)
  /-- MFFS Writes the index of the lowest set bit of a mask register, or 32 when none is set. (R106) -/
  | mffs (a : BitVec 3) (n : BitVec 9)
  /-- MALL Writes the launch mask into a mask register. (R106) -/
  | mall (d : BitVec 3)
  /-- MCLR Clears a mask register. (R106) -/
  | mclr (d : BitVec 3)
  /-- GADD Uniform 32-bit wrapping add. (R107) -/
  | gadd (p : Option Prefix) (d a b : BitVec 8)
  /-- GSUB Uniform 32-bit wrapping subtract. (R107) -/
  | gsub (p : Option Prefix) (d a b : BitVec 8)
  /-- GMUL Uniform multiply, low 32 bits. (R107) -/
  | gmul (p : Option Prefix) (d a b : BitVec 8)
  /-- GMULH Uniform signed multiply, high 32 bits. (R107) -/
  | gmulh (p : Option Prefix) (d a b : BitVec 8)
  /-- GAND Uniform bitwise AND. (R107) -/
  | gand (p : Option Prefix) (d a b : BitVec 8)
  /-- GOR Uniform bitwise OR. (R107) -/
  | gor (p : Option Prefix) (d a b : BitVec 8)
  /-- GXOR Uniform bitwise XOR. (R107) -/
  | gxor (p : Option Prefix) (d a b : BitVec 8)
  /-- GANDN Uniform a & ~b. (R107) -/
  | gandn (p : Option Prefix) (d a b : BitVec 8)
  /-- GSHL Uniform shift left. (R107) -/
  | gshl (p : Option Prefix) (d a b : BitVec 8)
  /-- GSHR Uniform logical shift right. (R107) -/
  | gshr (p : Option Prefix) (d a b : BitVec 8)
  /-- GSAR Uniform arithmetic shift right. (R107) -/
  | gsar (p : Option Prefix) (d a b : BitVec 8)
  /-- GNMULH Uniform unsigned multiply, high 32 bits. (R107) -/
  | gnmulh (p : Option Prefix) (d a b : BitVec 8)
  /-- GMIN Uniform signed minimum. (R107) -/
  | gmin (p : Option Prefix) (d a b : BitVec 8)
  /-- GMAX Uniform signed maximum. (R107) -/
  | gmax (p : Option Prefix) (d a b : BitVec 8)
  /-- GNMIN Uniform unsigned minimum. (R107) -/
  | gnmin (p : Option Prefix) (d a b : BitVec 8)
  /-- GNMAX Uniform unsigned maximum. (R107) -/
  | gnmax (p : Option Prefix) (d a b : BitVec 8)
  /-- GADD64 Adds two uniform register pairs modulo 2^64. (R107) -/
  | gadd64 (p : Option Prefix) (d a b : BitVec 8)
  /-- GSUB64 Subtracts two uniform register pairs modulo 2^64. (R107) -/
  | gsub64 (p : Option Prefix) (d a b : BitVec 8)
  /-- GFADD Uniform FP32 add, with flags raised once. (R107) -/
  | gfadd (p : Option Prefix) (d a b : BitVec 8)
  /-- GFMUL Uniform FP32 multiply. (R107) -/
  | gfmul (p : Option Prefix) (d a b : BitVec 8)
  /-- GFFMA Uniform FP32 a × b + G[gd] with a single rounding. (R107) -/
  | gffma (p : Option Prefix) (d a b : BitVec 8)
  /-- GMAD Uniform integer a × b + G[gd], low 32 bits. (R107) -/
  | gmad (p : Option Prefix) (d a b : BitVec 8)
  /-- GMOV Copies a uniform register. (R107) -/
  | gmov (p : Option Prefix) (d a : BitVec 8)
  /-- GNOT Writes the complement of a uniform register. (R107) -/
  | gnot (p : Option Prefix) (d a : BitVec 8)
  /-- GMOVI Loads a sign-extended 16-bit immediate into a uniform register. (R108) -/
  | gmovi (d : BitVec 9) (i : BitVec 16)
  /-- GADDI Adds a sign-extended 16-bit immediate to a uniform register. (R108) -/
  | gaddi (d : BitVec 9) (i : BitVec 16)
  /-- GMOVHI Replaces the high half of a uniform register with an immediate. (R108) -/
  | gmovhi (d : BitVec 9) (i : BitVec 16)
  /-- GCMP Compares two uniform registers and writes the result into a flag. (R109) -/
  | gcmp (f : BitVec 2) (c : CmpCond) (t : GCmpType) (a b : BitVec 9)
  /-- GCMPI Compares a uniform register with an 11-bit immediate and writes the result into a flag. (R109) -/
  | gcmpi (f : BitVec 2) (c : CmpCond) (a : BitVec 9) (i : BitVec 11)
  /-- GLD Loads one 32-bit word into a uniform register, with an interlocked destination. (R110) -/
  | gld (d : BitVec 9) (gp : BitVec 7) (i : BitVec 9)
  /-- GLD64 Loads a 64-bit doubleword into a uniform register pair. (R110) -/
  | gld64 (d : BitVec 9) (gp : BitVec 7) (i : BitVec 9)
  /-- GST Stores a uniform register to memory as a single access by the group. (R110) -/
  | gst (d : BitVec 9) (gp : BitVec 7) (i : BitVec 9)
  /-- BR Branches unconditionally. (R111) -/
  | br (o : BitVec 18)
  /-- BR_F Branches when the named flag is 1. (R111) -/
  | brF (f : BitVec 2) (o : BitVec 18)
  /-- BR_NF Branches when the named flag is 0. (R111) -/
  | brNf (f : BitVec 2) (o : BitVec 18)
  /-- BR_MNZ Branches when the named mask is nonzero. (R111) -/
  | brMnz (m : BitVec 3) (o : BitVec 18)
  /-- BR_MZ Branches when the named mask is zero. (R111) -/
  | brMz (m : BitVec 3) (o : BitVec 18)
  /-- BR_MALL Branches when the named mask equals m0 on the present threads. (R111) -/
  | brMall (m : BitVec 3) (o : BitVec 18)
  /-- BR_MNALL Branches when the named mask differs from m0 on the present threads. (R111) -/
  | brMnall (m : BitVec 3) (o : BitVec 18)
  /-- LOOP Decrements a uniform counter and branches while it is nonzero. (R112) -/
  | loop (d : BitVec 9) (o : BitVec 16)
  /-- CALL Writes the link to g380:g381 and branches. (R112) -/
  | call (o : BitVec 25)
  /-- JG Jumps to CODEBASE + G[ga], after checking that the target is LAND, optionally writing a link. (R113) -/
  | jg (a l : BitVec 9)
  /-- BRX Branches to the target of the lowest non-helper active thread, narrows m0 to the threads that share that target and leaves the
  rest in G[gl]. (R115) -/
  | brx (a : BitVec 6) (l : BitVec 9)
  /-- LAND Marks a legal indirect-branch target and otherwise does nothing. (R114) -/
  | land
  /-- NOP Does nothing for one issue cycle. (R114) -/
  | nop
  /-- LDV Loads per-thread global memory, zero-extended, into a vector register. (R173) -/
  | ldv (p : Option Prefix) (v a : BitVec 6) (gp : BitVec 7) (w : BitVec 4) (s : MemSize)
  /-- LDVS Loads per-thread global memory, sign-extended, into a vector register. (R173) -/
  | ldvs (p : Option Prefix) (v a : BitVec 6) (gp : BitVec 7) (w : BitVec 4) (s : MemSize)
  /-- STV Stores per-thread values to global memory. (R173) -/
  | stv (p : Option Prefix) (v a : BitVec 6) (gp : BitVec 7) (w : BitVec 4) (s : MemSize)
  /-- LDS Loads per-thread scratchpad data. (R175) -/
  | lds (p : Option Prefix) (v a : BitVec 6) (w : BitVec 4) (s : MemSize)
  /-- STS Stores per-thread values to the scratchpad. (R175) -/
  | sts (p : Option Prefix) (v a : BitVec 6) (w : BitVec 4) (s : MemSize)
  /-- ATOM_ADD_I Global atomic integer add. (R177) -/
  | atomAddI (p : Option Prefix) (v a : BitVec 6) (gp : BitVec 7) (z r : Bool)
  /-- ATOM_ADD_F Global atomic FP32 add. (R177) -/
  | atomAddF (p : Option Prefix) (v a : BitVec 6) (gp : BitVec 7) (r : Bool)
  /-- ATOM_MIN_I Global atomic signed minimum. (R177) -/
  | atomMinI (p : Option Prefix) (v a : BitVec 6) (gp : BitVec 7) (z r : Bool)
  /-- ATOM_MAX_I Global atomic signed maximum. (R177) -/
  | atomMaxI (p : Option Prefix) (v a : BitVec 6) (gp : BitVec 7) (z r : Bool)
  /-- ATOM_MIN_N Global atomic unsigned minimum. (R177) -/
  | atomMinN (p : Option Prefix) (v a : BitVec 6) (gp : BitVec 7) (z r : Bool)
  /-- ATOM_MAX_N Global atomic unsigned maximum. (R177) -/
  | atomMaxN (p : Option Prefix) (v a : BitVec 6) (gp : BitVec 7) (z r : Bool)
  /-- ATOM_AND Global atomic AND. (R177) -/
  | atomAnd (p : Option Prefix) (v a : BitVec 6) (gp : BitVec 7) (z r : Bool)
  /-- ATOM_OR Global atomic OR. (R177) -/
  | atomOr (p : Option Prefix) (v a : BitVec 6) (gp : BitVec 7) (z r : Bool)
  /-- ATOM_XOR Global atomic XOR. (R177) -/
  | atomXor (p : Option Prefix) (v a : BitVec 6) (gp : BitVec 7) (z r : Bool)
  /-- ATOM_XCHG Global atomic exchange. (R177) -/
  | atomXchg (p : Option Prefix) (v a : BitVec 6) (gp : BitVec 7) (z r : Bool)
  /-- ATOM_CAS Global atomic compare-and-swap. (R177) -/
  | atomCas (p : Option Prefix) (v a : BitVec 6) (gp : BitVec 7) (z r : Bool)
  /-- ATOM_MIN_F Global atomic FP32 minimumNumber. (R177) -/
  | atomMinF (p : Option Prefix) (v a : BitVec 6) (gp : BitVec 7) (r : Bool)
  /-- ATOM_MAX_F Global atomic FP32 maximumNumber. (R177) -/
  | atomMaxF (p : Option Prefix) (v a : BitVec 6) (gp : BitVec 7) (r : Bool)
  /-- ATOM_ADD_BF16X2 Global atomic packed BF16 add, with no return. (R177) -/
  | atomAddBf16x2 (p : Option Prefix) (v a : BitVec 6) (gp : BitVec 7)
  /-- ATOMS_ADD_I Scratch atomic integer add. (R177) -/
  | atomsAddI (p : Option Prefix) (v a : BitVec 6) (z r : Bool)
  /-- ATOMS_ADD_F Scratch atomic FP32 add. (R177) -/
  | atomsAddF (p : Option Prefix) (v a : BitVec 6) (r : Bool)
  /-- ATOMS_MIN_I Scratch atomic signed minimum. (R177) -/
  | atomsMinI (p : Option Prefix) (v a : BitVec 6) (z r : Bool)
  /-- ATOMS_MAX_I Scratch atomic signed maximum. (R177) -/
  | atomsMaxI (p : Option Prefix) (v a : BitVec 6) (z r : Bool)
  /-- ATOMS_MIN_N Scratch atomic unsigned minimum. (R177) -/
  | atomsMinN (p : Option Prefix) (v a : BitVec 6) (z r : Bool)
  /-- ATOMS_MAX_N Scratch atomic unsigned maximum. (R177) -/
  | atomsMaxN (p : Option Prefix) (v a : BitVec 6) (z r : Bool)
  /-- ATOMS_AND Scratch atomic AND. (R177) -/
  | atomsAnd (p : Option Prefix) (v a : BitVec 6) (z r : Bool)
  /-- ATOMS_OR Scratch atomic OR. (R177) -/
  | atomsOr (p : Option Prefix) (v a : BitVec 6) (z r : Bool)
  /-- ATOMS_XOR Scratch atomic XOR. (R177) -/
  | atomsXor (p : Option Prefix) (v a : BitVec 6) (z r : Bool)
  /-- ATOMS_XCHG Scratch atomic exchange. (R177) -/
  | atomsXchg (p : Option Prefix) (v a : BitVec 6) (z r : Bool)
  /-- ATOMS_CAS Scratch atomic compare-and-swap. (R177) -/
  | atomsCas (p : Option Prefix) (v a : BitVec 6) (z r : Bool)
  /-- ATOMS_MIN_F Scratch atomic FP32 minimumNumber. (R177) -/
  | atomsMinF (p : Option Prefix) (v a : BitVec 6) (r : Bool)
  /-- ATOMS_MAX_F Scratch atomic FP32 maximumNumber. (R177) -/
  | atomsMaxF (p : Option Prefix) (v a : BitVec 6) (r : Bool)
  /-- ATOMS_ADD_BF16X2 Scratch atomic packed BF16 add. (R177) -/
  | atomsAddBf16x2 (p : Option Prefix) (v a : BitVec 6)
  /-- PRF Prefetches tracked lines into L1 as shared copies, never trapping. (R179) -/
  | prf (p : Option Prefix) (a : BitVec 6) (gp : BitVec 7) (w : BitVec 4) (s : MemSize)
  /-- EXIT Retires the selected present threads and, when none remains, the group. (R116) -/
  | exit (p : Option Prefix)
  /-- FENCE_FULL Full fence: a no-op at scopes up to dev, release then acquire at sys, pod and span. (R143) -/
  | fenceFull (s : Scope)
  /-- FENCE_ACQ Acquire fence: raises LCLK to the port clock at sys, pod and span. (R143) -/
  | fenceAcq (s : Scope)
  /-- FENCE_REL Release fence: waits for earlier direct and untracked stores at sys, pod and span. (R143) -/
  | fenceRel (s : Scope)
  /-- CADD Sends a 64-bit counter addition to the counter's home slice as a release. (R221) -/
  | cadd (gp : BitVec 7) (a : BitVec 9) (w : BitVec 4)
  /-- CWAIT Stalls the group until a counter reaches a target, then acquires. (R223) -/
  | cwait (gp : BitVec 7) (a : BitVec 9)
  /-- CREAD Reads a counter into a uniform pair and acquires. (R222) -/
  | cread (gp : BitVec 7) (a : BitVec 9) (w : BitVec 4)
  /-- CWAITY Counter wait that enters the lull and continues at a literal continuation. (R223) -/
  | cwaity (gp : BitVec 7) (a : BitVec 9) (lit : Word)
  /-- WAIT Stalls until at most n operations remain outstanding on an arrival counter, then joins the arrived commands. (R219) -/
  | wait (w : BitVec 4) (n : BitVec 8)
  /-- WAITY Arrival-counter wait that enters the lull with a literal continuation. (R219) -/
  | waity (w : BitVec 4) (n : BitVec 8) (lit : Word)
  /-- BAR_SYNC Arrives at a block barrier and stalls until its generation completes. (R225) -/
  | barSync (i : BitVec 4) (n : BitVec 9)
  /-- BAR_ARRIVE Arrives at a block barrier without waiting. (R225) -/
  | barArrive (i : BitVec 4) (n : BitVec 9)
  /-- BAR_WAIT Enters the lull until the generation of the group's last arrival completes. (R225) -/
  | barWait (i : BitVec 4) (n : BitVec 9)
  /-- BAR_GSYNC Arrives at a grid barrier and waits in the lull. (R226) -/
  | barGsync (i : BitVec 4)
  /-- BAR_GARRIVE Arrives at a grid barrier without waiting. (R226) -/
  | barGarrive (i : BitVec 4)
  /-- BAR_GWAIT Waits in the lull for a grid barrier generation. (R226) -/
  | barGwait (i : BitVec 4)
  /-- YIELD Puts the group into the lull for 64 cycles. (R228) -/
  | yield
  /-- LTADV_REG Advances LCLK by the amount held in a uniform register, capped below the front window. (R230) -/
  | ltadvReg (g : BitVec 9)
  /-- LTADV_IMM Advances LCLK by a signed immediate amount. (R230) -/
  | ltadvImm (i : BitVec 16)
  /-- CPY_LOAD Issues a copy-engine command that copies rows from global memory to the scratchpad. (R183) -/
  | cpyLoad (g : BitVec 6) (w : BitVec 4) (r c : Bool)
  /-- CPY_STORE Issues a copy-engine command that copies rows from the scratchpad to global memory. (R183) -/
  | cpyStore (g : BitVec 6) (w : BitVec 4) (r c : Bool)
  /-- CPY_GATHER Copies indexed global rows into the scratchpad. (R183) -/
  | cpyGather (g : BitVec 6) (w : BitVec 4) (r c : Bool)
  /-- CPY_SCATTER Copies scratch rows to indexed global rows. (R183) -/
  | cpyScatter (g : BitVec 6) (w : BitVec 4) (r c : Bool)
  /-- CPY_PACKLOAD Loads and packs an operand into the plane-tile layout in the scratchpad. (R184) -/
  | cpyPackload (g : BitVec 6) (w : BitVec 4) (r c : Bool)
  /-- CPY_REMOTE Copies rows between two global addresses. (R183) -/
  | cpyRemote (g : BitVec 6) (w : BitVec 4) (r c : Bool)
  /-- CPY_FILL Fills global rows, or scratch rows with SCR, with a 4-byte pattern. (R183) -/
  | cpyFill (g : BitVec 6) (w : BitVec 4) (s r c : Bool)
  /-- CPY_REDSTORE Combines scratch rows into global memory element by element. (R183) -/
  | cpyRedstore (g : BitVec 6) (w : BitVec 4) (r c : Bool)
  /-- MMA Issues a block-scaled matrix multiply-accumulate into an accumulator tile. (R124) -/
  | mma (t : BitVec 3) (g : BitVec 6) (w : BitVec 4) (r : Bool)
  /-- ACLD Loads 32 columns of one tile row, or the restart header, into a vector register. (R129) -/
  | acld (d : BitVec 6) (z : BitVec 3) (a : BitVec 9)
  /-- ACST Stores a vector register into 32 elements of a tile row. (R129) -/
  | acst (s : BitVec 6) (z : BitVec 3) (a : BitVec 9)
  /-- ACADD Adds a vector register into tile elements, rounding to nearest even. (R129) -/
  | acadd (s : BitVec 6) (z : BitVec 3) (a : BitVec 9)
  /-- ACZ Zeroes 32 tile elements. (R129) -/
  | acz (z : BitVec 3) (a : BitVec 9)
  /-- PKPL_F32 Packs 32 FP32 thread values into two KX blocks in scratch. (R131) -/
  | pkplF32 (v : BitVec 6) (a : BitVec 9) (pm : BitVec 4)
  /-- PKPL_BF16L Packs 32 low BF16 halves into two KX blocks in scratch. (R131) -/
  | pkplBf16l (v : BitVec 6) (a : BitVec 9) (pm : BitVec 4)
  /-- SYSC_SIGRET Parks the group with a sigreturn record for the supervisor. (R264) -/
  | syscSigret (g : BitVec 6)
  /-- SYSC_FUTURE Posts a system-call future to the supervisor and interlocks its result pair. (R232) -/
  | syscFuture (w : BitVec 4) (n : BitVec 12) (g : BitVec 6)
  /-- TRAP Traps precisely with cause TRAP and its immediate as the sub-cause. (R263) -/
  | trap (i : BitVec 25)
  /-- BKPT Traps as a breakpoint, or holds the group under the debug port. (R263) -/
  | bkpt
  /-- SRR Reads a system register into a uniform register. (R261) -/
  | srr (g : BitVec 9) (i : BitVec 12)
  /-- SRW Writes a uniform register into a system register. (R261) -/
  | srw (g : BitVec 9) (i : BitVec 12)
  /-- ERET Ends the save or restore routine: it swaps the group out, or reloads its frame and continues. (R271) -/
  | eret
  /-- XRD Supervisor read of a register of a parked or held group. (R267) -/
  | xrd (g t : BitVec 9) (c : RegClass)
  /-- XWR Supervisor write of a register of a parked or held group, including resume through STATE and answering a future. (R267) -/
  | xwr (g t : BitVec 9) (c : RegClass)
  /-- TLBI_ALL Drops every TLB and walk-cache entry, and every instruction-cache line. (R272) -/
  | tlbiAll
  /-- TLBI_ASID Drops every entry of one ASID. (R272) -/
  | tlbiAsid (gp : BitVec 7)
  /-- TLBI_PAGE Drops the leaves of one page, and the walk-cache entries of its ASID. (R272) -/
  | tlbiPage (gp : BitVec 7)
  /-- LTSET Sets the front by a raise or a rebase. (R273) -/
  | ltset (a : BitVec 9)
  /-- ARBEG_FIRM Opens a firm atomic region at one fixed position. (R192) -/
  | arbegFirm (g : BitVec 9) (lit : Word)
  /-- ARBEG_ELASTIC Opens an elastic atomic region with an interval of logical times. (R192) -/
  | arbegElastic (g : BitVec 9) (lit : Word)
  /-- AREND Prepares and commits the open region at c = ALO, or aborts it when the interval is empty. (R202) -/
  | arend
  /-- ARABT Aborts the open region with a code. (R204) -/
  | arabt (i : BitVec 8)
  /-- ARNRW Narrows the open region's interval to uniform bounds. (R205) -/
  | arnrw (a b : BitVec 9)
  /-- WMARK Advances the context's undo-log window and parks for a checkpoint when logging is on. (R274) -/
  | wmark (i : BitVec 16)
  /-- LAUNCH Reads a launch record and asks the command processor to enqueue it. (R231) -/
  | launch (gp : BitVec 7) (w : BitVec 4)
  -- steps of the device without an encoding
  /-- BRANCH_RESOLVE A branch resolves 3 cycles after issue and the group becomes selectable again. (R95) -/
  | branchResolve (gid : Nat)
  /-- LOAD_DATA_RETURN A load's lines return data, its destination becomes ready and it arrives on its counter, possibly as poison. (R171)
  -/
  | loadDataReturn (gid op : Nat) (poison : Word)
  /-- STORE_PERFORMED A store's last thread is performed and the operation arrives on its counter. (R172) -/
  | storePerformed (gid op : Nat)
  /-- SCRATCH_PHASE A scratch request reaches the array in order and completes after D cycles. (R96) -/
  | scratchPhase (core : Nat)
  /-- CONSTANT_LINE_FILL A constant-cache miss fetches its 128-byte line and lets the waiting instruction issue. (R319) -/
  | constantLineFill (gid va : Nat)
  /-- SCRATCH_PAGE_REFILL An unpinned scratch page is refilled with its contents on first use. (R288) -/
  | scratchPageRefill (blk page : Nat)
  /-- PAGE_WALK A TLB miss walks the four-level tables, sets A and D by compare-and-swap, and installs a leaf or faults. (R239) -/
  | pageWalk (core asid va : Nat) (wr : Bool)
  /-- FAULT_RECORD_POST A replay-queue entry's record is written into the supervisor's fault ring and the tail counter is added. (R280) -/
  | faultRecordPost (core : Nat)
  /-- DRIFT_TICK A group's drift count reaches TICK and its LCLK increases by 1. (R156) -/
  | driftTick (gid : Nat)
  /-- TICK_RESTART After a TICK write, every resident group of the context restarts its drift count. (R156) -/
  | tickRestart (ctx : Nat)
  /-- LULL_WAKE A lulled group's wake condition holds and it becomes ready at its continuation. (R227) -/
  | lullWake (gid : Nat)
  /-- YIELD_EXPIRY A YIELD delay ends and the group becomes ready. (R228) -/
  | yieldExpiry (gid : Nat)
  /-- WATCHDOG_EXPIRY A group stalled longer than WDOG traps with cause watchdog. (R285) -/
  | watchdogExpiry (gid cycles : Nat)
  /-- PC_BREAKPOINT An armed PC breakpoint matches the next instruction and traps the group as BKPT does. (R306) -/
  | pcBreakpoint (gid : Nat)
  /-- PREEMPTION_REQUEST A pre-emption request reaches a block's core, stopping its MMAs and copies and aborting its regions. (R285) -/
  | preemptionRequest (blk : Nat)
  /-- PREEMPTION_VECTOR A group vectors to PVEC at an instruction boundary, writing its frame and entering the save routine with PRIV.
  (R268) -/
  | preemptionVector (gid : Nat)
  /-- COPY_COMMAND_START The copy engine begins the next queued command once its start conditions hold. (R186) -/
  | copyCommandStart (core : Nat)
  /-- COPY_UNIT The copy engine performs one unit, reading its source and writing its destination at one logical time. (R183) -/
  | copyUnit (core : Nat)
  /-- COPY_COMPLETE A copy command completes, adds its memory counter when CNT is set, and arrives on w. (R186) -/
  | copyComplete (core : Nat)
  /-- CPYCTL_RESOLVE Resumes a parked copy at its NEXT unit. (R284) -/
  | cpyctlResolve (core idx : Nat)
  /-- CPYCTL_CANCEL Cancels a parked copy, which arrives without its counter addition and traps its group. (R284) -/
  | cpyctlCancel (core idx : Nat)
  /-- MMA_ARRAY_START An MMA begins its array phase once its fill, wake and ordering terms allow. (R126) -/
  | mmaArrayStart (core : Nat)
  /-- MMA_COMPLETE An MMA writes its last K-block and arrives on w. (R124) -/
  | mmaComplete (core : Nat)
  /-- MMA_RUNTIME_FAULT An MMA meets poison, stops at a K-block boundary, is recorded and traps its group. (R133) -/
  | mmaRuntimeFault (core sub off : Nat)
  /-- SUBARRAY_WAKE Gated sub-arrays finish waking CAP_MXWAKE cycles after the command reaches the head of the queue. (R136) -/
  | subarrayWake (core : Nat)
  /-- SUBARRAY_GATE A sub-array idle for more than MXIDLE cycles is power-gated. (R136) -/
  | subarrayGate (core sub : Nat)
  /-- SLICE_READ_SERVICE A home slice serves a tracked read miss, extending rts by the lease and returning data. (R153) -/
  | sliceReadService (core asid line : Nat) (t : Word)
  /-- OWNERSHIP_REQUEST A slice recalls any owner and grants a line exclusive to the requesting core. (R155) -/
  | ownershipRequest (core asid line : Nat)
  /-- OWNER_RECALL A recalled owner writes back data and times and keeps a shared copy. (R155) -/
  | ownerRecall (line : Nat)
  /-- L1_REPLACEMENT An L1 makes room, dropping a shared copy silently or writing back an exclusive line. (R154) -/
  | l1Replacement (core asid line : Nat)
  /-- L2_EVICTION A line leaves a slice, recalling any owner and raising EVTS to its rts. (R150) -/
  | l2Eviction (line : Nat)
  /-- UNTRACKED_ACCESS A slice performs an untracked or direct access, recalling any owner. (R160) -/
  | untrackedAccess (gid pa n : Nat) (direct : Bool) (data : Option Nat)
  /-- MSC_LINE_MISS The memory-side cache allocates a line and fetches sectors under the footprint predictor. (R161) -/
  | mscLineMiss (pa ctx : Nat) (noAlloc : Bool)
  /-- MSC_EVICTION The memory-side cache evicts a line and writes its sector vector into the predictor. (R162) -/
  | mscEviction (stack set tag : Nat)
  /-- MSCGRANT_CONVERT Writing EN = 1 converts cache ways into zeroed MSC scratch for one context. (R164) -/
  | mscgrantConvert (stack : Nat) (val : Word)
  /-- MSCGRANT_RETURN Writing EN = 0 zeroes the scratch ways and returns them to the cache. (R164) -/
  | mscgrantReturn (stack : Nat)
  /-- HBM_READ A read reaches its bank queue and activates, reads and bursts under the controller's timing. (R321) -/
  | hbmRead (pa : Nat)
  /-- ROW_IDLE_CLOSE A bank's row closes after 32 idle cycles. (R166) -/
  | rowIdleClose (bank : Nat)
  /-- REFRESH_SLOT At each refresh slot the pseudo-channel refreshes, postpones, forces or skips a refresh. (R167) -/
  | refreshSlot (pc : Nat)
  /-- ALL_BANK_REFRESH After issued reads finish and banks precharge, a forced REFab runs for tRFCab. (R167) -/
  | allBankRefresh (pc : Nat)
  /-- MEMORY_WRITEBACK A write-back to verified memory advances the line's minor and the counter tree. (R249) -/
  | memoryWriteback (line : Nat)
  /-- GROUP_REENCRYPTION A minor overflow re-encrypts the line group under a new major while accesses wait. (R249) -/
  | groupReencryption (grp : Nat)
  /-- FRONT_REPORT Every 4,096 fabric cycles, cores, slices and ports report their latest time to the command processor. (R157) -/
  | frontReport (sender : Nat)
  /-- FRONT_RAISE The command processor decides on the reports and raises the front when the window demands it. (R157) -/
  | frontRaise
  /-- FRONT_BROADCAST A front raise reaches a core, slice or port and raises the clocks it holds. (R157) -/
  | frontBroadcast (dest : Nat)
  /-- SLICE_SWEEP A slice visits one line per fabric cycle and rewrites times that lie before the front. (R157) -/
  | sliceSweep (slice : Nat)
  /-- L1_SWEEP An L1 sweeps its lines, clamping exclusive times and dropping stale shared copies. (R157) -/
  | l1Sweep (core : Nat)
  /-- REBASE The command processor drains requests, flushes the L1s, sets every time to F and aborts regions. (R158) -/
  | rebase (f : Word)
  /-- PORT_STORE A host or peer store reaches a slice and takes max(port clock, rts + 1). (R148) -/
  | portStore (port pa n data : Nat)
  /-- PORT_LOAD A host or peer load reads the slice as an untracked load. (R148) -/
  | portLoad (port pa n : Nat)
  /-- BISNP_RESPONSE A back-invalidation response arrives, its data is placed and held host requests are served. (R256) -/
  | bisnpResponse (line : Nat) (data : Option Nat)
  /-- HOST_SNOOP A host snoop of the device finds nothing and is answered at once. (R254) -/
  | hostSnoop (line : Nat)
  /-- REGION_REGISTRATION A region's first access to a line registers it at the home slice, narrowing bounds under the precedence rules.
  (R196) -/
  | regionRegistration (gid line : Nat) (wr : Bool)
  /-- NARROWING_MESSAGE A narrowing message reaches the region's core, updating ALO or AHI and relaying to its slices. (R199) -/
  | narrowingMessage (kind aid : Nat) (bound : Word) (slice cause : Nat)
  /-- REGION_PREPARE A slice freezes a preparing region's entries and answers. (R202) -/
  | regionPrepare (slice aid : Nat)
  /-- FINAL_POSITION A kind 3 message reaches a slice, which settles the region's edges and releases its entries. (R202) -/
  | finalPosition (slice aid : Nat) (c : Word)
  /-- REGION_ABORT_MESSAGE A kind 2 message reaches a slice, which drops the region's entries and edges. (R203) -/
  | regionAbortMessage (slice : Nat) (aid : AbortNote)
  /-- REGION_ABORT An abort takes effect at the group's boundary, discarding the write buffer and going to the handler. (R203) -/
  | regionAbort (gid cause : Nat)
  /-- CADD_AT_SLICE A CADD is performed at its slice and re-evaluates the counter's monitors. (R221) -/
  | caddAtSlice (gid addr amount op : Nat)
  /-- CADD_ANSWER A CADD's completion returns and arrives on w; a refusal traps as counter exhausted. (R221) -/
  | caddAnswer (gid op : Nat)
  /-- CWAIT_REQUEST A counter-wait request reaches its slice and is answered, given a monitor entry or NACKed with a ticket. (R223) -/
  | cwaitRequest (gid : Nat)
  /-- MONITOR_REPLY A monitor whose condition becomes true replies 4 cycles after the write, and the waiting group acquires. (R223) -/
  | monitorReply (gid : Nat)
  /-- MONITOR_REARM A monitor entry held for 8,192 fabric cycles is freed and the request repeated. (R224) -/
  | monitorRearm (gid : Nat)
  /-- NACK_RETRY A core retries a NACKed counter wait with its ticket every 512 fabric cycles. (R224) -/
  | nackRetry (gid : Nat)
  /-- TICKET_RESERVATION_EXPIRY A freed entry's 1,024-fabric-cycle reservation for the lowest ticket ends. (R224) -/
  | ticketReservationExpiry (slice : Nat)
  /-- GRID_BLOCK_ARRIVAL A block's grid-barrier arrival reaches the command processor, possibly completing and releasing the generation.
  (R226) -/
  | gridBlockArrival (blk id : Nat)
  /-- OVSUB_SWAP The firmware swaps out a block that is waiting at a grid barrier so that a pending block can run. (R226) -/
  | ovsubSwap (blk : Nat)
  /-- QUEUE_RECORD_READ The command processor reads and checks the next launch record of a queue. (R209) -/
  | queueRecordRead (q : Nat)
  /-- TASK_HANDOFF A task whose handles allow it is handed to placement with its initial LCLK. (R212) -/
  | taskHandoff (task : Nat)
  /-- PLACEMENT The firmware chooses cores for a pending block and writes its bind records. (R214) -/
  | placement (blk core pbase seq entry n : Nat)
  /-- BIND_NEW_BLOCK Dispatch binds a KIND 0 entry, granting zeroed resources and starting its groups. (R216) -/
  | bindNewBlock (core : Nat)
  /-- BIND_RESTORE Dispatch binds a KIND 1 entry, reloading its barriers and vectoring its groups to the restore routine. (R324) -/
  | bindRestore (core : Nat)
  /-- LAUNCH_ENQUEUE The command processor appends a LAUNCH record to its queue once the ring has room. (R231) -/
  | launchEnqueue (gid op : Nat)
  /-- TASK_COMPLETE A task's last block retires; handles are updated and CINC is added to CCTR. (R213) -/
  | taskComplete (task : Nat)
  /-- LULL_SWAP The firmware swaps out a block lulled for LULLMAX in favour of a pending block. (R229) -/
  | lullSwap (blk : Nat)
  /-- PREEMPTDLY_EXPIRY A higher-level block pending for PREEMPTDLY causes a lower-level block to be pre-empted. (R214) -/
  | preemptdlyExpiry (blk : Nat)
  /-- SYSCALL_TIMEOUT A future unanswered within SYSCTMO is answered by the firmware with status −2. (R232) -/
  | syscallTimeout (tag : Nat)
  /-- CORESPLIT_WRITE A firmware write moves the boundary between L1 and scratchpad after writing back and dropping L1 lines. (R16) -/
  | coresplitWrite (core : Nat) (scr : BitVec 3)
  /-- CORESPLIT_RESET A core that has held no block for 100 µs has its scratchpad share returned to its reset value. (R16) -/
  | coresplitReset (core : Nat)
  /-- STALL_COUNTER_CLEAR A write at offset 0x03F8 zeroes every partition stall counter of the core. (R302) -/
  | stallCounterClear (core : Nat)
  /-- SAMPLE A partition samples the next resident group every max(N, 64) cycles into the trace ring. (R304) -/
  | sample (core part : Nat)
  /-- REGISTER_WRITE A store to an MMIO or management register that has no behaviour of its own. (R313) -/
  | registerWrite (pa n data : Nat)
  /-- DEBUG_HOLD The debug port holds a group at its next instruction boundary. (R307) -/
  | debugHold (gid : Nat)
  /-- DEBUG_RELEASE The debug port releases a held group. (R307) -/
  | debugRelease (gid : Nat)
  /-- DEBUG_STEP The debug port releases a group for one instruction and holds it again. (R307) -/
  | debugStep (gid : Nat)
  /-- REWIND The firmware rewinds a debug-enabled context to the opening of an undo-log window. (R293) -/
  | rewind (ctx n : Nat)
  /-- STEPBACK Undoes the last k single steps of the stepped group. (R294) -/
  | stepback (gid k : Nat)
  /-- LOADFW The recovery loader checks a firmware image, writes it to flash and resets the device. (R311) -/
  | loadfw
  /-- MKCTX Creates a context with its key, or tears one down. (R316) -/
  | mkctx
  /-- LOADSV Loads and measures the supervisor image and starts every supervisor group at TVEC. (R316) -/
  | loadsv
  /-- SETQ Writes a queue descriptor. (R316) -/
  | setq
  /-- REGH Registers or removes a buffer handle. (R316) -/
  | regh
  /-- MOVEPG Moves a page to a new owner, invalidating, draining and scrubbing it. (R243) -/
  | movepg
  /-- PODMAP Writes the pod map. (R315) -/
  | podmap
  /-- ADMIT Lifts the fence from a peer. (R316) -/
  | admitPeer
  /-- ATTEST Returns a signed attestation report for a nonce. (R253) -/
  | attest
  /-- ERRLOG Returns error-log records from a given sequence number. (R317) -/
  | errlog
  /-- D3HOT Puts the module into D3hot, or answers BUSY. (R309) -/
  | d3hot
  /-- D0 Returns the module from D3hot to D0. (R309) -/
  | d0
  /-- DEVICE_RESET Power-good or a host reset runs the boot sequence through to READY or RECOVERY. (R310) -/
  | deviceReset
  /-- POWER_REMOVAL Power is removed (D3cold): everything is lost and the key slots are destroyed. (R309) -/
  | powerRemoval
  /-- THERMAL_THROTTLE A junction sensor at 100 °C or more makes the firmware lower the clocks by 10 % per 1 ms step. (R308) -/
  | thermalThrottle
  /-- THERMAL_RECOVER A sensor at 95 °C or less makes the firmware raise the clocks again. (R308) -/
  | thermalRecover
  /-- THERMAL_SHUTDOWN At 110 °C the module removes power from the die. (R308) -/
  | thermalShutdown
  /-- LANE_FAILING A lane with 16 CRC errors within 1 ms is marked failing and its port moves to half width. (R297) -/
  | laneFailing (port lane : Nat)
  /-- LINK_RETRAIN A link whose replay fails 3 times retrains, and is marked down after 3 failed retrainings. (R297) -/
  | linkRetrain (port : Nat) (ok : Bool)
  /-- HEARTBEAT_SEND Every 50 µs the management core sends a heartbeat to each neighbour. (R298) -/
  | heartbeatSend
  /-- PEER_FENCE After 4 missed heartbeats a neighbour fences the silent device. (R298) -/
  | peerFence (peer : Nat)
  /-- ILLEGAL_INSTRUCTION A fetched word with a guard, reserved or unlisted encoding traps as ILL_GUARD or ILL_ENC before any thread's
  effect. (R47) -/
  | illegalInstruction (guard : Bool) (word : Nat)
  /-- ICACHE_FILL An instruction word's fetch completes into the instruction cache, or faults, and the waiting group may then decode or
  trap. (R39) -/
  | icacheFill (gid : Nat)
  /-- MMA_STOP An MMA in its array phase reaches the K-block boundary after a pre-emption request, writes that block, records itself in the
  tile header and is withdrawn. (R133) -/
  | mmaStop (core : Nat)
  /-- SOFT_ERROR A bit of a register file, SRAM, cache or HBM4E location is corrupted, leaving a correctable or uncorrectable error that
  later reads detect. (R295) -/
  | softError (unit : ErrUnit) (place index : Nat) (fatal : Bool)
  /-- EXTERNAL_MEMORY_CHANGE Off-die memory contents are changed from outside the die, so that a later MAC check on verified memory fails.
  (R251) -/
  | externalMemoryChange (pa : Nat) (data : Byte)
  /-- SCRATCH_PAGE_WRITEBACK The scratch pager writes back a dirty unpinned scratch page to its backing store at its own pace. (R285) -/
  | scratchPageWriteback (blk page : Nat)
  /-- HEARTBEAT_RECEIVE A heartbeat from a neighbour arrives and restarts the count of missed beats for that device. (R298) -/
  | heartbeatReceive (peer : Nat)
  /-- LINK_FLIT_CRC_ERROR A CXL or UALink flit arrives with a CRC error, is counted against its lane, and is replayed. (R297) -/
  | linkFlitCrcError (port lane : Nat)
  /-- MESH_FLIT_CRC_ERROR A mesh flit fails its CRC-16 and is retransmitted; after 8 failures the access is answered with poison and the
  hop is logged as failed. (R295) -/
  | meshFlitCrcError (hop fails gid op : Nat)
  /-- LINK_RESTORED A port that was down comes back up, after which the firmware again accepts host-queue records or routes peer traffic
  over it. (R297) -/
  | linkRestored (port : Nat)
  /-- DEBUG_PORT_ATTACH The debug port attaches or detaches, which changes whether BKPT holds a group and whether a saved held group is
  restored held. (R263) -/
  | debugPortAttach (on : Bool)
  /-- DEBUG_REGISTER_ACCESS The debug port reads or writes a register of a parked or held group, served at the core in arrival order with
  XRD and XWR. (R267) -/
  | debugRegisterAccess (gid : Nat) (c : RegClass) (sel : Word) (val : Option Word)
  /-- PORT_ATOMIC A UALink atomic request from a peer, such as a 64-bit counter add, is performed at the home slice of this device's
  memory. (R178) -/
  | portAtomic (port pa aop n data cmp : Nat)
  deriving DecidableEq, Repr

end Sys2Proof
end

