-- ==== Sys2Proof/WellFormed.lean ====
section
/-! DEFINITION. Which terms of `Instr` are instruction words the decoder accepts (R44, R45, R48): the fields of the
extra first word that have a meaning, and the operand values that R48, R109, R220 and R261 call illegal. A step of the
device has no encoding and is not well formed. -/

namespace Sys2Proof

/-- The fields of the word with major 0x7E that an instruction gives a meaning. `gx` masks the bits of gx, `imm` is the
number of bits of imm that may be used (R45). -/
structure PrefixUse where
  ms  : Bool := false
  rnd : Bool := false
  vc  : Bool := false
  z   : Bool := false
  sat : Bool := false
  gx  : BitVec 3 := 0
  imm : Nat := 0
  deriving DecidableEq, Repr

/-- Every field that has no meaning holds its default (R44, R48). -/
def prefixFits (u : PrefixUse) (p : Prefix) : Bool :=
  (u.ms || p.ms == 0) && (u.rnd || p.rnd == .fmt) && (u.vc || p.vc == 0) && (u.z || !p.z) && (u.sat || !p.sat) &&
  (p.gx &&& ~~~u.gx == 0) && (p.imm.toNat < 2 ^ u.imm)

/-- The word with major 0x7E that stands before an instruction (R44). -/
def prefixOf : Instr → Option Prefix
  | .fadd p _ _ _ => p
  | .fsub p _ _ _ => p
  | .fmul p _ _ _ => p
  | .ffma p _ _ _ => p
  | .ffms p _ _ _ => p
  | .fnma p _ _ _ => p
  | .fmin p _ _ _ => p
  | .fmax p _ _ _ => p
  | .fdiv p _ _ _ => p
  | .fsqrt p _ _ => p
  | .frcp p _ _ => p
  | .frsq p _ _ => p
  | .fexp2 p _ _ => p
  | .flog2 p _ _ => p
  | .fsigm p _ _ => p
  | .ftanh p _ _ => p
  | .fabs p _ _ => p
  | .fneg p _ _ => p
  | .frint p _ _ => p
  | .fcpys p _ _ _ => p
  | .fclass p _ _ => p
  | .fscale p _ _ _ => p
  | .faddG p _ _ _ => p
  | .fsubG p _ _ _ => p
  | .fmulG p _ _ _ => p
  | .ffmaG p _ _ _ => p
  | .fminG p _ _ _ => p
  | .fmaxG p _ _ _ => p
  | .fdivG p _ _ _ => p
  | .fscaleG p _ _ _ => p
  | .hadd2 p _ _ _ _ => p
  | .hsub2 p _ _ _ _ => p
  | .hmul2 p _ _ _ _ => p
  | .hfma2 p _ _ _ _ => p
  | .hmin2 p _ _ _ _ => p
  | .hmax2 p _ _ _ _ => p
  | .hdot2 p _ _ _ _ => p
  | .iadd p _ _ _ => p
  | .isub p _ _ _ => p
  | .imul p _ _ _ => p
  | .imulh p _ _ _ => p
  | .nmulh p _ _ _ => p
  | .imad p _ _ _ => p
  | .imin p _ _ _ => p
  | .imax p _ _ _ => p
  | .nmin p _ _ _ => p
  | .nmax p _ _ _ => p
  | .and p _ _ _ => p
  | .or p _ _ _ => p
  | .xor p _ _ _ => p
  | .andn p _ _ _ => p
  | .shl p _ _ _ => p
  | .shr p _ _ _ => p
  | .sar p _ _ _ => p
  | .rotl p _ _ _ => p
  | .popc p _ _ => p
  | .clz p _ _ => p
  | .brev p _ _ => p
  | .iabs p _ _ => p
  | .iadds p _ _ _ => p
  | .isubs p _ _ _ => p
  | .idp4 p _ _ _ => p
  | .iaddG p _ _ _ => p
  | .isubG p _ _ _ => p
  | .imulG p _ _ _ => p
  | .imadG p _ _ _ => p
  | .andG p _ _ _ => p
  | .orG p _ _ _ => p
  | .xorG p _ _ _ => p
  | .shlG p _ _ _ => p
  | .shrG p _ _ _ => p
  | .sarG p _ _ _ => p
  | .iminG p _ _ _ => p
  | .imaxG p _ _ _ => p
  | .nminG p _ _ _ => p
  | .nmaxG p _ _ _ => p
  | .cvtF32I32 p _ _ => p
  | .cvtF32N32 p _ _ => p
  | .cvtI32F32 p _ _ => p
  | .cvtN32F32 p _ _ => p
  | .cvtF16x2 p _ _ _ => p
  | .cvtBf16x2 p _ _ _ => p
  | .cvtF32F16l p _ _ => p
  | .cvtF32F16h p _ _ => p
  | .cvtF32Bf16l p _ _ => p
  | .cvtF32Bf16h p _ _ => p
  | .cvtE4m3x2L p _ _ _ => p
  | .cvtE4m3x2H p _ _ _ => p
  | .cvtE5m2x2L p _ _ _ => p
  | .cvtE5m2x2H p _ _ _ => p
  | .cvtF32E4m3B0 p _ _ => p
  | .cvtF32E4m3B1 p _ _ => p
  | .cvtF32E4m3B2 p _ _ => p
  | .cvtF32E4m3B3 p _ _ => p
  | .cvtF32E5m2B0 p _ _ => p
  | .cvtF32E5m2B1 p _ _ => p
  | .cvtF32E5m2B2 p _ _ => p
  | .cvtF32E5m2B3 p _ _ => p
  | .shdn p _ _ _ => p
  | .shup p _ _ _ => p
  | .psumF p _ _ => p
  | .psumxF p _ _ => p
  | .psumI p _ _ => p
  | .psumxI p _ _ => p
  | .pmaxI p _ _ => p
  | .pminI p _ _ => p
  | .shfl p _ _ _ => p
  | .qswh p _ _ => p
  | .qswv p _ _ => p
  | .qswd p _ _ => p
  | .zip2 p _ _ => p
  | .zip3 p _ _ => p
  | .zip4 p _ _ => p
  | .uzp2 p _ _ => p
  | .uzp3 p _ _ => p
  | .uzp4 p _ _ => p
  | .pmaxF p _ _ => p
  | .pminF p _ _ => p
  | .faddL p _ _ _ => p
  | .fmulL p _ _ _ => p
  | .ffmaL p _ _ _ _ => p
  | .fmovL p _ _ => p
  | .iaddL p _ _ _ => p
  | .imovL p _ _ => p
  | .andL p _ _ _ => p
  | .fminL p _ _ _ => p
  | .fmaxL p _ _ _ => p
  | .mov p _ _ => p
  | .sel p _ _ _ => p
  | .tidx p _ => p
  | .qidx p _ => p
  | .lidx p _ => p
  | .movg p _ _ => p
  | .selG p _ _ _ => p
  | .gadd p _ _ _ => p
  | .gsub p _ _ _ => p
  | .gmul p _ _ _ => p
  | .gmulh p _ _ _ => p
  | .gand p _ _ _ => p
  | .gor p _ _ _ => p
  | .gxor p _ _ _ => p
  | .gandn p _ _ _ => p
  | .gshl p _ _ _ => p
  | .gshr p _ _ _ => p
  | .gsar p _ _ _ => p
  | .gnmulh p _ _ _ => p
  | .gmin p _ _ _ => p
  | .gmax p _ _ _ => p
  | .gnmin p _ _ _ => p
  | .gnmax p _ _ _ => p
  | .gadd64 p _ _ _ => p
  | .gsub64 p _ _ _ => p
  | .gfadd p _ _ _ => p
  | .gfmul p _ _ _ => p
  | .gffma p _ _ _ => p
  | .gmad p _ _ _ => p
  | .gmov p _ _ => p
  | .gnot p _ _ => p
  | .ldv p _ _ _ _ _ => p
  | .ldvs p _ _ _ _ _ => p
  | .stv p _ _ _ _ _ => p
  | .lds p _ _ _ _ => p
  | .sts p _ _ _ _ => p
  | .atomAddI p _ _ _ _ _ => p
  | .atomAddF p _ _ _ _ => p
  | .atomMinI p _ _ _ _ _ => p
  | .atomMaxI p _ _ _ _ _ => p
  | .atomMinN p _ _ _ _ _ => p
  | .atomMaxN p _ _ _ _ _ => p
  | .atomAnd p _ _ _ _ _ => p
  | .atomOr p _ _ _ _ _ => p
  | .atomXor p _ _ _ _ _ => p
  | .atomXchg p _ _ _ _ _ => p
  | .atomCas p _ _ _ _ _ => p
  | .atomMinF p _ _ _ _ => p
  | .atomMaxF p _ _ _ _ => p
  | .atomAddBf16x2 p _ _ _ => p
  | .atomsAddI p _ _ _ _ => p
  | .atomsAddF p _ _ _ => p
  | .atomsMinI p _ _ _ _ => p
  | .atomsMaxI p _ _ _ _ => p
  | .atomsMinN p _ _ _ _ => p
  | .atomsMaxN p _ _ _ _ => p
  | .atomsAnd p _ _ _ _ => p
  | .atomsOr p _ _ _ _ => p
  | .atomsXor p _ _ _ _ => p
  | .atomsXchg p _ _ _ _ => p
  | .atomsCas p _ _ _ _ => p
  | .atomsMinF p _ _ _ => p
  | .atomsMaxF p _ _ _ => p
  | .atomsAddBf16x2 p _ _ => p
  | .prf p _ _ _ _ => p
  | .exit p => p
  | _ => none

/-- Which fields of the extra first word have a meaning on an instruction (R45, R75, R99, R104, R176). -/
def prefixUse : Instr → PrefixUse
  | .fadd _ _ _ _ | .fsub _ _ _ _ | .fmul _ _ _ _ | .fmin _ _ _ _ | .fmax _ _ _ _ | .fdiv _ _ _ _ | .fsqrt _ _ _
  | .frcp _ _ _ | .frsq _ _ _ | .fexp2 _ _ _ | .flog2 _ _ _ | .fsigm _ _ _ | .ftanh _ _ _ | .fabs _ _ _
  | .fneg _ _ _ | .frint _ _ _ | .fcpys _ _ _ _ | .fclass _ _ _ | .fscale _ _ _ _ | .faddG _ _ _ _
  | .fsubG _ _ _ _ | .fmulG _ _ _ _ | .fminG _ _ _ _ | .fmaxG _ _ _ _ | .fdivG _ _ _ _ | .fscaleG _ _ _ _
  | .hadd2 _ _ _ _ _ | .hsub2 _ _ _ _ _ | .hmul2 _ _ _ _ _ | .hmin2 _ _ _ _ _ | .hmax2 _ _ _ _ _
  | .cvtF32I32 _ _ _ | .cvtF32N32 _ _ _ | .cvtI32F32 _ _ _ | .cvtN32F32 _ _ _ | .cvtF32F16l _ _ _
  | .cvtF32F16h _ _ _ | .cvtF32Bf16l _ _ _ | .cvtF32Bf16h _ _ _ | .cvtF32E4m3B0 _ _ _ | .cvtF32E4m3B1 _ _ _
  | .cvtF32E4m3B2 _ _ _ | .cvtF32E4m3B3 _ _ _ | .cvtF32E5m2B0 _ _ _ | .cvtF32E5m2B1 _ _ _ | .cvtF32E5m2B2 _ _ _
  | .cvtF32E5m2B3 _ _ _ | .psumF _ _ _ | .psumxF _ _ _ | .pmaxF _ _ _ | .pminF _ _ _ | .faddL _ _ _ _
  | .fmulL _ _ _ _ | .ffmaL _ _ _ _ _ | .fmovL _ _ _ | .fminL _ _ _ _ | .fmaxL _ _ _ _ =>
    { ms := true, z := true, rnd := true }
  | .ffma _ _ _ _ | .ffms _ _ _ _ | .fnma _ _ _ _ | .ffmaG _ _ _ _ | .hfma2 _ _ _ _ _ | .hdot2 _ _ _ _ _ =>
    { ms := true, z := true, rnd := true, vc := true }
  | .iadd _ _ _ _ | .isub _ _ _ _ | .imul _ _ _ _ | .imulh _ _ _ _ | .nmulh _ _ _ _ | .imin _ _ _ _
  | .imax _ _ _ _ | .nmin _ _ _ _ | .nmax _ _ _ _ | .and _ _ _ _ | .or _ _ _ _ | .xor _ _ _ _ | .andn _ _ _ _
  | .shl _ _ _ _ | .shr _ _ _ _ | .sar _ _ _ _ | .rotl _ _ _ _ | .popc _ _ _ | .clz _ _ _ | .brev _ _ _
  | .iabs _ _ _ | .iadds _ _ _ _ | .isubs _ _ _ _ | .iaddG _ _ _ _ | .isubG _ _ _ _ | .imulG _ _ _ _
  | .andG _ _ _ _ | .orG _ _ _ _ | .xorG _ _ _ _ | .shlG _ _ _ _ | .shrG _ _ _ _ | .sarG _ _ _ _ | .iminG _ _ _ _
  | .imaxG _ _ _ _ | .nminG _ _ _ _ | .nmaxG _ _ _ _ | .shdn _ _ _ _ | .shup _ _ _ _ | .psumI _ _ _
  | .psumxI _ _ _ | .pmaxI _ _ _ | .pminI _ _ _ | .shfl _ _ _ _ | .qswh _ _ _ | .qswv _ _ _ | .qswd _ _ _
  | .zip2 _ _ _ | .zip3 _ _ _ | .zip4 _ _ _ | .uzp2 _ _ _ | .uzp3 _ _ _ | .uzp4 _ _ _ | .iaddL _ _ _ _
  | .imovL _ _ _ | .andL _ _ _ _ | .mov _ _ _ | .sel _ _ _ _ | .tidx _ _ | .qidx _ _ | .lidx _ _ | .movg _ _ _
  | .selG _ _ _ _ =>
    { ms := true, z := true }
  | .imad _ _ _ _ | .idp4 _ _ _ _ | .imadG _ _ _ _ =>
    { ms := true, z := true, vc := true }
  | .cvtF16x2 _ _ _ _ | .cvtBf16x2 _ _ _ _ | .cvtE4m3x2L _ _ _ _ | .cvtE4m3x2H _ _ _ _ | .cvtE5m2x2L _ _ _ _
  | .cvtE5m2x2H _ _ _ _ =>
    { ms := true, z := true, rnd := true, sat := true }
  | .gadd _ _ _ _ | .gsub _ _ _ _ | .gmul _ _ _ _ | .gmulh _ _ _ _ | .gand _ _ _ _ | .gor _ _ _ _ | .gxor _ _ _ _
  | .gandn _ _ _ _ | .gshl _ _ _ _ | .gshr _ _ _ _ | .gsar _ _ _ _ | .gnmulh _ _ _ _ | .gmin _ _ _ _
  | .gmax _ _ _ _ | .gnmin _ _ _ _ | .gnmax _ _ _ _ | .gadd64 _ _ _ _ | .gsub64 _ _ _ _ | .gfadd _ _ _ _
  | .gfmul _ _ _ _ | .gffma _ _ _ _ | .gmad _ _ _ _ =>
    { gx := 7 }
  | .gmov _ _ _ | .gnot _ _ _ =>
    { gx := 6 }
  | .ldv _ _ _ _ _ _ | .ldvs _ _ _ _ _ _ =>
    { ms := true, z := true, imm := 8 }
  | .stv _ _ _ _ _ _ | .prf _ _ _ _ _ =>
    { ms := true, imm := 8 }
  | .lds _ _ _ _ _ =>
    { ms := true, z := true, imm := 7 }
  | .sts _ _ _ _ _ =>
    { ms := true, imm := 7 }
  | .atomAddI _ _ _ _ _ r | .atomMinI _ _ _ _ _ r | .atomMaxI _ _ _ _ _ r | .atomMinN _ _ _ _ _ r
  | .atomMaxN _ _ _ _ _ r | .atomAnd _ _ _ _ _ r | .atomOr _ _ _ _ _ r | .atomXor _ _ _ _ _ r
  | .atomXchg _ _ _ _ _ r | .atomCas _ _ _ _ _ r | .atomMinF _ _ _ _ r | .atomMaxF _ _ _ _ r =>
    { ms := true, z := r, imm := 8 }
  | .atomAddF _ _ _ _ r =>
    { ms := true, z := r, rnd := true, imm := 8 }
  | .atomAddBf16x2 _ _ _ _ =>
    { ms := true, rnd := true, imm := 8 }
  | .atomsAddI _ _ _ _ r | .atomsMinI _ _ _ _ r | .atomsMaxI _ _ _ _ r | .atomsMinN _ _ _ _ r
  | .atomsMaxN _ _ _ _ r | .atomsAnd _ _ _ _ r | .atomsOr _ _ _ _ r | .atomsXor _ _ _ _ r | .atomsXchg _ _ _ _ r
  | .atomsCas _ _ _ _ r | .atomsMinF _ _ _ r | .atomsMaxF _ _ _ r =>
    { ms := true, z := r, imm := 7 }
  | .atomsAddF _ _ _ r =>
    { ms := true, z := r, rnd := true, imm := 7 }
  | .atomsAddBf16x2 _ _ _ =>
    { ms := true, rnd := true, imm := 7 }
  | .exit _ =>
    { ms := true }
  | _ => {}

/-- A pair name: an even register number (R48, R107). -/
def evenNum {n : Nat} (b : BitVec n) : Bool := b.toNat % 2 == 0

/-- A 64-bit access names an even register (R48, MEM with sz = 3). -/
def pairFits (s : MemSize) (v : BitVec 6) : Bool := s != .b64 || evenNum v

/-- CAS names an even register, and a multiple of 4 with sz64 = 1 (R48). -/
def casFits (z : Bool) (v : BitVec 6) : Bool := v.toNat % (if z then 4 else 2) == 0

/-- The operand values that R48 and the instructions' own descriptions require. -/
def operandsFit : Instr → Bool
  | .ldv _ v _ _ _ s | .stv _ v _ _ _ s | .lds _ v _ _ s | .sts _ v _ _ s => pairFits s v
  | .ldvs _ _ _ _ _ s => s == .b8 || s == .b16
  | .atomCas _ v _ _ z _ | .atomsCas _ v _ z _ => casFits z v
  | .gadd64 _ d a b | .gsub64 _ d a b => evenNum d && evenNum a && evenNum b
  | .gcmp _ _ t a b => t != .i64 || (evenNum a && evenNum b)
  | .gld64 d _ _ => evenNum d
  | .jg _ l => l == 0x1FF || evenNum l
  | .cwait _ a | .cwaity _ a _ | .cread _ a _ => evenNum a
  | .barSync _ g | .barArrive _ g | .barWait _ g => g != 0
  | .pkplF32 _ _ pm | .pkplBf16l _ _ pm => pm != 0
  | .syscFuture _ n _ => n != 0
  | .srr g i => i != 0x024 || evenNum g
  | _ => true

/-- The first of the steps of the device (the rows of the opcode table without an encoding). -/
def isEvent : Instr → Bool
  | .branchResolve _ | .loadDataReturn _ _ _ | .storePerformed _ _ | .scratchPhase _ | .constantLineFill _ _
  | .scratchPageRefill _ _ | .pageWalk _ _ _ _ | .faultRecordPost _ | .driftTick _ | .tickRestart _ | .lullWake _
  | .yieldExpiry _ | .watchdogExpiry _ _ | .pcBreakpoint _ | .preemptionRequest _ | .preemptionVector _
  | .copyCommandStart _ | .copyUnit _ | .copyComplete _ | .cpyctlResolve _ _ | .cpyctlCancel _ _
  | .mmaArrayStart _ | .mmaComplete _ | .mmaRuntimeFault _ _ _ | .subarrayWake _ | .subarrayGate _ _
  | .sliceReadService _ _ _ _ | .ownershipRequest _ _ _ | .ownerRecall _ | .l1Replacement _ _ _ | .l2Eviction _
  | .untrackedAccess _ _ _ _ _ | .mscLineMiss _ _ _ | .mscEviction _ _ _ | .mscgrantConvert _ _
  | .mscgrantReturn _ | .hbmRead _ | .rowIdleClose _ | .refreshSlot _ | .allBankRefresh _ | .memoryWriteback _
  | .groupReencryption _ | .frontReport _ | .frontRaise | .frontBroadcast _ | .sliceSweep _ | .l1Sweep _
  | .rebase _ | .portStore _ _ _ _ | .portLoad _ _ _ | .bisnpResponse _ _ | .hostSnoop _
  | .regionRegistration _ _ _ | .narrowingMessage _ _ _ _ _ | .regionPrepare _ _ | .finalPosition _ _ _
  | .regionAbortMessage _ _ | .regionAbort _ _ | .caddAtSlice _ _ _ _ | .caddAnswer _ _ | .cwaitRequest _
  | .monitorReply _ | .monitorRearm _ | .nackRetry _ | .ticketReservationExpiry _ | .gridBlockArrival _ _
  | .ovsubSwap _ | .queueRecordRead _ | .taskHandoff _ | .placement _ _ _ _ _ _ | .bindNewBlock _ | .bindRestore _
  | .launchEnqueue _ _ | .taskComplete _ | .lullSwap _ | .preemptdlyExpiry _ | .syscallTimeout _
  | .coresplitWrite _ _ | .coresplitReset _ | .stallCounterClear _ | .sample _ _ | .registerWrite _ _ _
  | .debugHold _ | .debugRelease _ | .debugStep _ | .rewind _ _ | .stepback _ _ | .loadfw | .mkctx | .loadsv
  | .setq | .regh | .movepg | .podmap | .admitPeer | .attest | .errlog | .d3hot | .d0 | .deviceReset | .powerRemoval
  | .thermalThrottle | .thermalRecover | .thermalShutdown | .laneFailing _ _ | .linkRetrain _ _ | .heartbeatSend
  | .peerFence _ | .illegalInstruction _ _ | .icacheFill _ | .mmaStop _ | .softError _ _ _ _
  | .externalMemoryChange _ _ | .scratchPageWriteback _ _ | .heartbeatReceive _ | .linkFlitCrcError _ _
  | .meshFlitCrcError _ _ _ _ | .linkRestored _ | .debugPortAttach _ | .debugRegisterAccess _ _ _ _
  | .portAtomic _ _ _ _ _ _ => true
  | _ => false

/-- An instruction word that R48 does not reject. The privilege and identifier rules of R48 and R52 depend on the
group and are checked when the instruction runs. -/
def wellFormed (i : Instr) : Bool :=
  !isEvent i && operandsFit i && (prefixOf i).all (prefixFits (prefixUse i))

end Sys2Proof
end

