-- ==== Sys2Proof/Decode.lean ====
section
/-! DEFINITION. Reading instruction words (R37 to R50) and writing them. `decodeWords` takes the words fetched so far
and answers the instruction and its length, the word that traps, or that another word is needed (R50). `encode` writes
the words of an instruction from the same formats (R42) and opcode map (R46). -/

namespace Sys2Proof

/-- Bits `lo` to `lo + n - 1` of a word. -/
def fld (w : Word) (lo n : Nat) : BitVec n := w.extractLsb' lo n

/-- The number whose low `n` bits are `x` and whose higher bits are `acc`. -/
def cat {n : Nat} (acc : Nat) (x : BitVec n) : Nat := acc * 2 ^ n + x.toNat

/-- The major opcode, bits [31:25] (R37). -/
def majorOf (w : Word) : Nat := (fld w 25 7).toNat

/-- The guard majors (R47). -/
def isGuard (m : Nat) : Bool :=
  m == 0x00 || (0x1E ≤ m && m ≤ 0x21) || (0x5E ≤ m && m ≤ 0x61) || m == 0x7F

/-- The majors that accept a word with major 0x7E before them (R45). -/
def takesPrefix (m : Nat) : Bool :=
  (1 ≤ m && m ≤ 6) || m == 0x08 || m == 0x14 || m == 0x1A || m == 0x1B || (0x22 ≤ m && m ≤ 0x2D) ||
  (0x40 ≤ m && m ≤ 0x48)

noncomputable section

/-! ## Coded fields (R46, R85, R109, R22) -/

def flagOfBit (b : BitVec 1) : Bool := b == 1
def flagBit (b : Bool) : BitVec 1 := if b then 1 else 0

def condOfBits (b : BitVec 3) : CmpCond :=
  match b.toNat with
  | 0 => .eq | 1 => .ne | 2 => .lt | 3 => .le | 4 => .gt | 5 => .ge | 6 => .un | _ => .or

def condBits : CmpCond → BitVec 3
  | .eq => 0 | .ne => 1 | .lt => 2 | .le => 3 | .gt => 4 | .ge => 5 | .un => 6 | .or => 7

def typeOfBits (b : BitVec 4) : Option CmpType :=
  match b.toNat with
  | 0 => some .f32 | 1 => some .i32 | 2 => some .n32 | 3 => some .f16l | 4 => some .bf16l | _ => none

def typeBits : CmpType → BitVec 4
  | .f32 => 0 | .i32 => 1 | .n32 => 2 | .f16l => 3 | .bf16l => 4

def combOfBits (b : BitVec 2) : CmpComb :=
  match b.toNat with
  | 0 => .set | 1 => .and | 2 => .or | _ => .andn

def combBits : CmpComb → BitVec 2
  | .set => 0 | .and => 1 | .or => 2 | .andn => 3

def gtypeOfBits (b : BitVec 2) : GCmpType :=
  match b.toNat with
  | 0 => .i32 | 1 => .n32 | 2 => .f32 | _ => .i64

def gtypeBits : GCmpType → BitVec 2
  | .i32 => 0 | .n32 => 1 | .f32 => 2 | .i64 => 3

def sizeOfBits (b : BitVec 2) : MemSize :=
  match b.toNat with
  | 0 => .b8 | 1 => .b16 | 2 => .b32 | _ => .b64

def sizeBits : MemSize → BitVec 2
  | .b8 => 0 | .b16 => 1 | .b32 => 2 | .b64 => 3

def scopeOfBits (b : BitVec 4) : Option Scope :=
  match b.toNat with
  | 0 => some .thr | 1 => some .quad | 2 => some .grp | 3 => some .blk | 4 => some .core
  | 5 => some .clu | 6 => some .dev | 7 => some .sys | 8 => some .pod | 9 => some .span | _ => none

def scopeBits : Scope → BitVec 4
  | .thr => 0 | .quad => 1 | .grp => 2 | .blk => 3 | .core => 4
  | .clu => 5 | .dev => 6 | .sys => 7 | .pod => 8 | .span => 9

def classOfBits (b : BitVec 3) : Option RegClass :=
  match b.toNat with
  | 0 => some .v | 1 => some .g | 2 => some .m | 3 => some .f | 4 => some .w | 5 => some .group | _ => none

def classBits : RegClass → BitVec 3
  | .v => 0 | .g => 1 | .m => 2 | .f => 3 | .w => 4 | .group => 5

/-- The rnd field (R44); code 7 is illegal. -/
def rndOfBits (b : BitVec 3) : Option Rnd :=
  match b.toNat with
  | 0 => some .fmt | 1 => some .rne | 2 => some .rtz | 3 => some .rup | 4 => some .rdn | 5 => some .rna
  | 6 => some .rsto | _ => none

def rndBits : Rnd → BitVec 3
  | .fmt => 0 | .rne => 1 | .rtz => 2 | .rup => 3 | .rdn => 4 | .rna => 5 | .rsto => 6

/-- Reading a word with major 0x7E (R44); none for rnd = 7. -/
def prefixOfWord (w : Word) : Option Prefix :=
  (rndOfBits (fld w 19 3)).map fun r =>
    { ms := fld w 22 3, rnd := r, vc := fld w 13 6, z := flagOfBit (fld w 12 1), sat := flagOfBit (fld w 11 1),
      gx := fld w 8 3, imm := fld w 0 8 }

/-- Writing a word with major 0x7E (R42, format PFX). -/
def prefixWord (p : Prefix) : Word :=
  BitVec.ofNat 32
    (cat (cat (cat (cat (cat (cat (cat 0x7E p.ms) (rndBits p.rnd)) p.vc) (flagBit p.z)) (flagBit p.sat)) p.gx) p.imm)

/-! ## The formats (R42): a base word from its fields, most significant first -/

/-- Format VVV. -/
def packVvv (maj : BitVec 7) (d : BitVec 6) (a : BitVec 6) (b : BitVec 6) (op : BitVec 7) : Word :=
  BitVec.ofNat 32 (cat (cat (cat (cat maj.toNat d) a) b) op)

/-- Format VVG. -/
def packVvg (maj : BitVec 7) (d : BitVec 6) (a : BitVec 6) (g : BitVec 9) (op : BitVec 4) : Word :=
  BitVec.ofNat 32 (cat (cat (cat (cat maj.toNat d) a) g) op)

/-- Format VVK. -/
def packVvk (maj : BitVec 7) (d : BitVec 6) (a : BitVec 6) (k : BitVec 4) (f : BitVec 9) : Word :=
  BitVec.ofNat 32 (cat (cat (cat (cat maj.toNat d) a) k) f)

/-- Format VCM. -/
def packVcm (maj : BitVec 7) (m : BitVec 3) (c : BitVec 3) (a : BitVec 6) (b : BitVec 6) (t : BitVec 4) (o : BitVec 2) (z6 : BitVec 1) : Word :=
  BitVec.ofNat 32 (cat (cat (cat (cat (cat (cat (cat maj.toNat m) c) a) b) t) o) z6)

/-- Format GV. -/
def packGv (maj : BitVec 7) (g : BitVec 9) (a : BitVec 6) (op : BitVec 5) (i : BitVec 5) : Word :=
  BitVec.ofNat 32 (cat (cat (cat (cat maj.toNat g) a) op) i)

/-- Format MK. -/
def packMk (maj : BitVec 7) (d : BitVec 3) (a : BitVec 3) (b : BitVec 3) (n : BitVec 9) (op : BitVec 4) (z5 : BitVec 3) : Word :=
  BitVec.ofNat 32 (cat (cat (cat (cat (cat (cat maj.toNat d) a) b) n) op) z5)

/-- Format GGG. -/
def packGgg (maj : BitVec 7) (d : BitVec 8) (a : BitVec 8) (b : BitVec 8) (op : BitVec 1) : Word :=
  BitVec.ofNat 32 (cat (cat (cat (cat maj.toNat d) a) b) op)

/-- Format GI16. -/
def packGi16 (maj : BitVec 7) (d : BitVec 9) (i : BitVec 16) : Word :=
  BitVec.ofNat 32 (cat (cat maj.toNat d) i)

/-- Format GC. -/
def packGc (maj : BitVec 7) (f : BitVec 2) (c : BitVec 3) (t : BitVec 2) (a : BitVec 9) (b : BitVec 9) : Word :=
  BitVec.ofNat 32 (cat (cat (cat (cat (cat maj.toNat f) c) t) a) b)

/-- Format GCI. -/
def packGci (maj : BitVec 7) (f : BitVec 2) (c : BitVec 3) (a : BitVec 9) (i : BitVec 11) : Word :=
  BitVec.ofNat 32 (cat (cat (cat (cat maj.toNat f) c) a) i)

/-- Format GM. -/
def packGm (maj : BitVec 7) (d : BitVec 9) (gp : BitVec 7) (i : BitVec 9) : Word :=
  BitVec.ofNat 32 (cat (cat (cat maj.toNat d) gp) i)

/-- Format B. -/
def packB (maj : BitVec 7) (op : BitVec 4) (s : BitVec 3) (o : BitVec 18) : Word :=
  BitVec.ofNat 32 (cat (cat (cat maj.toNat op) s) o)

/-- Format LP. -/
def packLp (maj : BitVec 7) (d : BitVec 9) (o : BitVec 16) : Word :=
  BitVec.ofNat 32 (cat (cat maj.toNat d) o)

/-- Format CL. -/
def packCl (maj : BitVec 7) (o : BitVec 25) : Word :=
  BitVec.ofNat 32 (cat maj.toNat o)

/-- Format JG. -/
def packJg (maj : BitVec 7) (a : BitVec 9) (l : BitVec 9) (z2 : BitVec 7) : Word :=
  BitVec.ofNat 32 (cat (cat (cat maj.toNat a) l) z2)

/-- Format BX. -/
def packBx (maj : BitVec 7) (a : BitVec 6) (l : BitVec 9) (z2 : BitVec 10) : Word :=
  BitVec.ofNat 32 (cat (cat (cat maj.toNat a) l) z2)

/-- Format Z. -/
def packZ (maj : BitVec 7) (z0 : BitVec 25) : Word :=
  BitVec.ofNat 32 (cat maj.toNat z0)

/-- Format MEM. -/
def packMem (maj : BitVec 7) (v : BitVec 6) (a : BitVec 6) (gp : BitVec 7) (w : BitVec 4) (s : BitVec 2) : Word :=
  BitVec.ofNat 32 (cat (cat (cat (cat (cat maj.toNat v) a) gp) w) s)

/-- Format ATM. -/
def packAtm (maj : BitVec 7) (v : BitVec 6) (a : BitVec 6) (gp : BitVec 7) (op : BitVec 4) (z : BitVec 1) (r : BitVec 1) : Word :=
  BitVec.ofNat 32 (cat (cat (cat (cat (cat (cat maj.toNat v) a) gp) op) z) r)

/-- Format FN. -/
def packFn (maj : BitVec 7) (s : BitVec 4) (op : BitVec 2) (z2 : BitVec 19) : Word :=
  BitVec.ofNat 32 (cat (cat (cat maj.toNat s) op) z2)

/-- Format CT. -/
def packCt (maj : BitVec 7) (gp : BitVec 7) (a : BitVec 9) (w : BitVec 4) (op : BitVec 5) : Word :=
  BitVec.ofNat 32 (cat (cat (cat (cat maj.toNat gp) a) w) op)

/-- Format WT. -/
def packWt (maj : BitVec 7) (w : BitVec 4) (n : BitVec 8) (op : BitVec 1) (z3 : BitVec 12) : Word :=
  BitVec.ofNat 32 (cat (cat (cat (cat maj.toNat w) n) op) z3)

/-- Format BA. -/
def packBa (maj : BitVec 7) (op : BitVec 3) (i : BitVec 4) (g : BitVec 9) (z3 : BitVec 9) : Word :=
  BitVec.ofNat 32 (cat (cat (cat (cat maj.toNat op) i) g) z3)

/-- Format LT0. -/
def packLt0 (maj : BitVec 7) (op : BitVec 1) (g : BitVec 9) (z2 : BitVec 15) : Word :=
  BitVec.ofNat 32 (cat (cat (cat maj.toNat op) g) z2)

/-- Format LT1. -/
def packLt1 (maj : BitVec 7) (op : BitVec 1) (z1 : BitVec 8) (i : BitVec 16) : Word :=
  BitVec.ofNat 32 (cat (cat (cat maj.toNat op) z1) i)

/-- Format ENG. -/
def packEng (maj : BitVec 7) (op : BitVec 4) (t : BitVec 3) (g : BitVec 6) (w : BitVec 4) (hi : BitVec 5) (s : BitVec 1) (r : BitVec 1) (c : BitVec 1) : Word :=
  BitVec.ofNat 32 (cat (cat (cat (cat (cat (cat (cat (cat maj.toNat op) t) g) w) hi) s) r) c)

/-- Format AC. -/
def packAc (maj : BitVec 7) (d : BitVec 6) (z : BitVec 3) (a : BitVec 9) (op : BitVec 7) : Word :=
  BitVec.ofNat 32 (cat (cat (cat (cat maj.toNat d) z) a) op)

/-- Format PK. -/
def packPk (maj : BitVec 7) (v : BitVec 6) (a : BitVec 9) (pm : BitVec 4) (op : BitVec 6) : Word :=
  BitVec.ofNat 32 (cat (cat (cat (cat maj.toNat v) a) pm) op)

/-- Format SY. -/
def packSy (maj : BitVec 7) (w : BitVec 4) (n : BitVec 12) (g : BitVec 6) (z3 : BitVec 3) : Word :=
  BitVec.ofNat 32 (cat (cat (cat (cat maj.toNat w) n) g) z3)

/-- Format TI. -/
def packTi (maj : BitVec 7) (i : BitVec 25) : Word :=
  BitVec.ofNat 32 (cat maj.toNat i)

/-- Format SI. -/
def packSi (maj : BitVec 7) (g : BitVec 9) (i : BitVec 12) (z2 : BitVec 4) : Word :=
  BitVec.ofNat 32 (cat (cat (cat maj.toNat g) i) z2)

/-- Format XG. -/
def packXg (maj : BitVec 7) (g : BitVec 9) (t : BitVec 9) (c : BitVec 3) (z3 : BitVec 4) : Word :=
  BitVec.ofNat 32 (cat (cat (cat (cat maj.toNat g) t) c) z3)

/-- Format TL. -/
def packTl (maj : BitVec 7) (gp : BitVec 7) (op : BitVec 2) (z2 : BitVec 16) : Word :=
  BitVec.ofNat 32 (cat (cat (cat maj.toNat gp) op) z2)

/-- Format G1. -/
def packG1 (maj : BitVec 7) (a : BitVec 9) (z1 : BitVec 16) : Word :=
  BitVec.ofNat 32 (cat (cat maj.toNat a) z1)

/-- Format G2. -/
def packG2 (maj : BitVec 7) (a : BitVec 9) (b : BitVec 9) (z2 : BitVec 7) : Word :=
  BitVec.ofNat 32 (cat (cat (cat maj.toNat a) b) z2)

/-- Format AB. -/
def packAb (maj : BitVec 7) (op : BitVec 1) (g : BitVec 9) (z2 : BitVec 15) : Word :=
  BitVec.ofNat 32 (cat (cat (cat maj.toNat op) g) z2)

/-- Format I8. -/
def packI8 (maj : BitVec 7) (z0 : BitVec 17) (i : BitVec 8) : Word :=
  BitVec.ofNat 32 (cat (cat maj.toNat z0) i)

/-- Format I16. -/
def packI16 (maj : BitVec 7) (z0 : BitVec 9) (i : BitVec 16) : Word :=
  BitVec.ofNat 32 (cat (cat maj.toNat z0) i)

/-- Format LA. -/
def packLa (maj : BitVec 7) (gp : BitVec 7) (w : BitVec 4) (z2 : BitVec 14) : Word :=
  BitVec.ofNat 32 (cat (cat (cat maj.toNat gp) w) z2)

/-- Format VH. -/
def packVh (maj : BitVec 7) (d : BitVec 6) (a : BitVec 6) (b : BitVec 6) (bf : BitVec 1) (op : BitVec 6) : Word :=
  BitVec.ofNat 32 (cat (cat (cat (cat (cat maj.toNat d) a) b) bf) op)

/-- Format ENGM. -/
def packEngm (maj : BitVec 7) (op : BitVec 4) (t : BitVec 3) (g : BitVec 6) (w : BitVec 4) (hi : BitVec 7) (r : BitVec 1) : Word :=
  BitVec.ofNat 32 (cat (cat (cat (cat (cat (cat maj.toNat op) t) g) w) hi) r)

/-- Format VI20: the class is bits 31:26 (R42, R43). -/
def packVi20 (cls : BitVec 6) (d : BitVec 6) (i : BitVec 20) : Word :=
  BitVec.ofNat 32 (cat (cat cls.toNat d) i)

/-! ## Reading a base word, one definition per major (R46) -/

/-- Major 0x01: FADD to FSCALE. -/
def decode01 (p : Option Prefix) (w : Word) : Option Instr :=
  match (fld w 0 7).toNat with
  | 0 => some (.fadd p (fld w 19 6) (fld w 13 6) (fld w 7 6))
  | 1 => some (.fsub p (fld w 19 6) (fld w 13 6) (fld w 7 6))
  | 2 => some (.fmul p (fld w 19 6) (fld w 13 6) (fld w 7 6))
  | 3 => some (.ffma p (fld w 19 6) (fld w 13 6) (fld w 7 6))
  | 4 => some (.ffms p (fld w 19 6) (fld w 13 6) (fld w 7 6))
  | 5 => some (.fnma p (fld w 19 6) (fld w 13 6) (fld w 7 6))
  | 6 => some (.fmin p (fld w 19 6) (fld w 13 6) (fld w 7 6))
  | 7 => some (.fmax p (fld w 19 6) (fld w 13 6) (fld w 7 6))
  | 8 => some (.fdiv p (fld w 19 6) (fld w 13 6) (fld w 7 6))
  | 9 => if fld w 7 6 = 0 then some (.fsqrt p (fld w 19 6) (fld w 13 6)) else none
  | 10 => if fld w 7 6 = 0 then some (.frcp p (fld w 19 6) (fld w 13 6)) else none
  | 11 => if fld w 7 6 = 0 then some (.frsq p (fld w 19 6) (fld w 13 6)) else none
  | 12 => if fld w 7 6 = 0 then some (.fexp2 p (fld w 19 6) (fld w 13 6)) else none
  | 13 => if fld w 7 6 = 0 then some (.flog2 p (fld w 19 6) (fld w 13 6)) else none
  | 14 => if fld w 7 6 = 0 then some (.fsigm p (fld w 19 6) (fld w 13 6)) else none
  | 15 => if fld w 7 6 = 0 then some (.ftanh p (fld w 19 6) (fld w 13 6)) else none
  | 16 => if fld w 7 6 = 0 then some (.fabs p (fld w 19 6) (fld w 13 6)) else none
  | 17 => if fld w 7 6 = 0 then some (.fneg p (fld w 19 6) (fld w 13 6)) else none
  | 18 => if fld w 7 6 = 0 then some (.frint p (fld w 19 6) (fld w 13 6)) else none
  | 19 => some (.fcpys p (fld w 19 6) (fld w 13 6) (fld w 7 6))
  | 20 => if fld w 7 6 = 0 then some (.fclass p (fld w 19 6) (fld w 13 6)) else none
  | 21 => some (.fscale p (fld w 19 6) (fld w 13 6) (fld w 7 6))
  | _ => none

/-- Major 0x02: FADD_G to FSCALE_G. -/
def decode02 (p : Option Prefix) (w : Word) : Option Instr :=
  match (fld w 0 4).toNat with
  | 0 => some (.faddG p (fld w 19 6) (fld w 13 6) (fld w 4 9))
  | 1 => some (.fsubG p (fld w 19 6) (fld w 13 6) (fld w 4 9))
  | 2 => some (.fmulG p (fld w 19 6) (fld w 13 6) (fld w 4 9))
  | 3 => some (.ffmaG p (fld w 19 6) (fld w 13 6) (fld w 4 9))
  | 4 => some (.fminG p (fld w 19 6) (fld w 13 6) (fld w 4 9))
  | 5 => some (.fmaxG p (fld w 19 6) (fld w 13 6) (fld w 4 9))
  | 6 => some (.fdivG p (fld w 19 6) (fld w 13 6) (fld w 4 9))
  | 7 => some (.fscaleG p (fld w 19 6) (fld w 13 6) (fld w 4 9))
  | _ => none

/-- Major 0x03: HADD2, HSUB2, HMUL2, HFMA2, HMIN2, HMAX2, HDOT2. -/
def decode03 (p : Option Prefix) (w : Word) : Option Instr :=
  match (fld w 0 6).toNat with
  | 0 => some (.hadd2 p (flagOfBit (fld w 6 1)) (fld w 19 6) (fld w 13 6) (fld w 7 6))
  | 1 => some (.hsub2 p (flagOfBit (fld w 6 1)) (fld w 19 6) (fld w 13 6) (fld w 7 6))
  | 2 => some (.hmul2 p (flagOfBit (fld w 6 1)) (fld w 19 6) (fld w 13 6) (fld w 7 6))
  | 3 => some (.hfma2 p (flagOfBit (fld w 6 1)) (fld w 19 6) (fld w 13 6) (fld w 7 6))
  | 4 => some (.hmin2 p (flagOfBit (fld w 6 1)) (fld w 19 6) (fld w 13 6) (fld w 7 6))
  | 5 => some (.hmax2 p (flagOfBit (fld w 6 1)) (fld w 19 6) (fld w 13 6) (fld w 7 6))
  | 6 => some (.hdot2 p (flagOfBit (fld w 6 1)) (fld w 19 6) (fld w 13 6) (fld w 7 6))
  | _ => none

/-- Major 0x04: IADD to IDP4. -/
def decode04 (p : Option Prefix) (w : Word) : Option Instr :=
  match (fld w 0 7).toNat with
  | 0 => some (.iadd p (fld w 19 6) (fld w 13 6) (fld w 7 6))
  | 1 => some (.isub p (fld w 19 6) (fld w 13 6) (fld w 7 6))
  | 2 => some (.imul p (fld w 19 6) (fld w 13 6) (fld w 7 6))
  | 3 => some (.imulh p (fld w 19 6) (fld w 13 6) (fld w 7 6))
  | 4 => some (.nmulh p (fld w 19 6) (fld w 13 6) (fld w 7 6))
  | 5 => some (.imad p (fld w 19 6) (fld w 13 6) (fld w 7 6))
  | 6 => some (.imin p (fld w 19 6) (fld w 13 6) (fld w 7 6))
  | 7 => some (.imax p (fld w 19 6) (fld w 13 6) (fld w 7 6))
  | 8 => some (.nmin p (fld w 19 6) (fld w 13 6) (fld w 7 6))
  | 9 => some (.nmax p (fld w 19 6) (fld w 13 6) (fld w 7 6))
  | 10 => some (.and p (fld w 19 6) (fld w 13 6) (fld w 7 6))
  | 11 => some (.or p (fld w 19 6) (fld w 13 6) (fld w 7 6))
  | 12 => some (.xor p (fld w 19 6) (fld w 13 6) (fld w 7 6))
  | 13 => some (.andn p (fld w 19 6) (fld w 13 6) (fld w 7 6))
  | 14 => some (.shl p (fld w 19 6) (fld w 13 6) (fld w 7 6))
  | 15 => some (.shr p (fld w 19 6) (fld w 13 6) (fld w 7 6))
  | 16 => some (.sar p (fld w 19 6) (fld w 13 6) (fld w 7 6))
  | 17 => some (.rotl p (fld w 19 6) (fld w 13 6) (fld w 7 6))
  | 18 => if fld w 7 6 = 0 then some (.popc p (fld w 19 6) (fld w 13 6)) else none
  | 19 => if fld w 7 6 = 0 then some (.clz p (fld w 19 6) (fld w 13 6)) else none
  | 20 => if fld w 7 6 = 0 then some (.brev p (fld w 19 6) (fld w 13 6)) else none
  | 21 => if fld w 7 6 = 0 then some (.iabs p (fld w 19 6) (fld w 13 6)) else none
  | 22 => some (.iadds p (fld w 19 6) (fld w 13 6) (fld w 7 6))
  | 23 => some (.isubs p (fld w 19 6) (fld w 13 6) (fld w 7 6))
  | 24 => some (.idp4 p (fld w 19 6) (fld w 13 6) (fld w 7 6))
  | _ => none

/-- Major 0x05: IADD_G to NMAX_G. -/
def decode05 (p : Option Prefix) (w : Word) : Option Instr :=
  match (fld w 0 4).toNat with
  | 0 => some (.iaddG p (fld w 19 6) (fld w 13 6) (fld w 4 9))
  | 1 => some (.isubG p (fld w 19 6) (fld w 13 6) (fld w 4 9))
  | 2 => some (.imulG p (fld w 19 6) (fld w 13 6) (fld w 4 9))
  | 3 => some (.imadG p (fld w 19 6) (fld w 13 6) (fld w 4 9))
  | 4 => some (.andG p (fld w 19 6) (fld w 13 6) (fld w 4 9))
  | 5 => some (.orG p (fld w 19 6) (fld w 13 6) (fld w 4 9))
  | 6 => some (.xorG p (fld w 19 6) (fld w 13 6) (fld w 4 9))
  | 7 => some (.shlG p (fld w 19 6) (fld w 13 6) (fld w 4 9))
  | 8 => some (.shrG p (fld w 19 6) (fld w 13 6) (fld w 4 9))
  | 9 => some (.sarG p (fld w 19 6) (fld w 13 6) (fld w 4 9))
  | 10 => some (.iminG p (fld w 19 6) (fld w 13 6) (fld w 4 9))
  | 11 => some (.imaxG p (fld w 19 6) (fld w 13 6) (fld w 4 9))
  | 12 => some (.nminG p (fld w 19 6) (fld w 13 6) (fld w 4 9))
  | 13 => some (.nmaxG p (fld w 19 6) (fld w 13 6) (fld w 4 9))
  | _ => none

/-- Major 0x06: CVT_F32_I32 to CVT_F32_E5M2_B3. -/
def decode06 (p : Option Prefix) (w : Word) : Option Instr :=
  match (fld w 0 7).toNat with
  | 0 => if fld w 7 6 = 0 then some (.cvtF32I32 p (fld w 19 6) (fld w 13 6)) else none
  | 1 => if fld w 7 6 = 0 then some (.cvtF32N32 p (fld w 19 6) (fld w 13 6)) else none
  | 2 => if fld w 7 6 = 0 then some (.cvtI32F32 p (fld w 19 6) (fld w 13 6)) else none
  | 3 => if fld w 7 6 = 0 then some (.cvtN32F32 p (fld w 19 6) (fld w 13 6)) else none
  | 4 => some (.cvtF16x2 p (fld w 19 6) (fld w 13 6) (fld w 7 6))
  | 5 => some (.cvtBf16x2 p (fld w 19 6) (fld w 13 6) (fld w 7 6))
  | 6 => if fld w 7 6 = 0 then some (.cvtF32F16l p (fld w 19 6) (fld w 13 6)) else none
  | 7 => if fld w 7 6 = 0 then some (.cvtF32F16h p (fld w 19 6) (fld w 13 6)) else none
  | 8 => if fld w 7 6 = 0 then some (.cvtF32Bf16l p (fld w 19 6) (fld w 13 6)) else none
  | 9 => if fld w 7 6 = 0 then some (.cvtF32Bf16h p (fld w 19 6) (fld w 13 6)) else none
  | 10 => some (.cvtE4m3x2L p (fld w 19 6) (fld w 13 6) (fld w 7 6))
  | 11 => some (.cvtE4m3x2H p (fld w 19 6) (fld w 13 6) (fld w 7 6))
  | 12 => some (.cvtE5m2x2L p (fld w 19 6) (fld w 13 6) (fld w 7 6))
  | 13 => some (.cvtE5m2x2H p (fld w 19 6) (fld w 13 6) (fld w 7 6))
  | 14 => if fld w 7 6 = 0 then some (.cvtF32E4m3B0 p (fld w 19 6) (fld w 13 6)) else none
  | 15 => if fld w 7 6 = 0 then some (.cvtF32E4m3B1 p (fld w 19 6) (fld w 13 6)) else none
  | 16 => if fld w 7 6 = 0 then some (.cvtF32E4m3B2 p (fld w 19 6) (fld w 13 6)) else none
  | 17 => if fld w 7 6 = 0 then some (.cvtF32E4m3B3 p (fld w 19 6) (fld w 13 6)) else none
  | 18 => if fld w 7 6 = 0 then some (.cvtF32E5m2B0 p (fld w 19 6) (fld w 13 6)) else none
  | 19 => if fld w 7 6 = 0 then some (.cvtF32E5m2B1 p (fld w 19 6) (fld w 13 6)) else none
  | 20 => if fld w 7 6 = 0 then some (.cvtF32E5m2B2 p (fld w 19 6) (fld w 13 6)) else none
  | 21 => if fld w 7 6 = 0 then some (.cvtF32E5m2B3 p (fld w 19 6) (fld w 13 6)) else none
  | _ => none

/-- Major 0x07: CMP. -/
def decode07 (w : Word) : Option Instr :=
  if fld w 0 1 = 0 then (typeOfBits (fld w 3 4)).bind fun t => some (.cmp (fld w 22 3) (condOfBits (fld w 19 3)) (fld w 13 6) (fld w 7 6) t (combOfBits (fld w 1 2))) else none

/-- Major 0x08: SHDN to PMIN_F. -/
def decode08 (p : Option Prefix) (w : Word) : Option Instr :=
  match (fld w 0 7).toNat with
  | 0 => some (.shdn p (fld w 19 6) (fld w 13 6) (fld w 7 6))
  | 1 => some (.shup p (fld w 19 6) (fld w 13 6) (fld w 7 6))
  | 2 => if fld w 7 6 = 0 then some (.psumF p (fld w 19 6) (fld w 13 6)) else none
  | 3 => if fld w 7 6 = 0 then some (.psumxF p (fld w 19 6) (fld w 13 6)) else none
  | 4 => if fld w 7 6 = 0 then some (.psumI p (fld w 19 6) (fld w 13 6)) else none
  | 5 => if fld w 7 6 = 0 then some (.psumxI p (fld w 19 6) (fld w 13 6)) else none
  | 6 => if fld w 7 6 = 0 then some (.pmaxI p (fld w 19 6) (fld w 13 6)) else none
  | 7 => if fld w 7 6 = 0 then some (.pminI p (fld w 19 6) (fld w 13 6)) else none
  | 8 => some (.shfl p (fld w 19 6) (fld w 13 6) (fld w 7 6))
  | 9 => if fld w 7 6 = 0 then some (.qswh p (fld w 19 6) (fld w 13 6)) else none
  | 10 => if fld w 7 6 = 0 then some (.qswv p (fld w 19 6) (fld w 13 6)) else none
  | 11 => if fld w 7 6 = 0 then some (.qswd p (fld w 19 6) (fld w 13 6)) else none
  | 12 => if fld w 7 6 = 0 then some (.zip2 p (fld w 19 6) (fld w 13 6)) else none
  | 13 => if fld w 7 6 = 0 then some (.zip3 p (fld w 19 6) (fld w 13 6)) else none
  | 14 => if fld w 7 6 = 0 then some (.zip4 p (fld w 19 6) (fld w 13 6)) else none
  | 15 => if fld w 7 6 = 0 then some (.uzp2 p (fld w 19 6) (fld w 13 6)) else none
  | 16 => if fld w 7 6 = 0 then some (.uzp3 p (fld w 19 6) (fld w 13 6)) else none
  | 17 => if fld w 7 6 = 0 then some (.uzp4 p (fld w 19 6) (fld w 13 6)) else none
  | 18 => if fld w 7 6 = 0 then some (.pmaxF p (fld w 19 6) (fld w 13 6)) else none
  | 19 => if fld w 7 6 = 0 then some (.pminF p (fld w 19 6) (fld w 13 6)) else none
  | _ => none

/-- Major 0x09: RSUM_F to BALLOT. -/
def decode09 (w : Word) : Option Instr :=
  match (fld w 5 5).toNat with
  | 0 => if fld w 0 5 = 0 then some (.rsumF (fld w 16 9) (fld w 10 6)) else none
  | 1 => if fld w 0 5 = 0 then some (.rsumI (fld w 16 9) (fld w 10 6)) else none
  | 2 => if fld w 0 5 = 0 then some (.rmaxF (fld w 16 9) (fld w 10 6)) else none
  | 3 => if fld w 0 5 = 0 then some (.rminF (fld w 16 9) (fld w 10 6)) else none
  | 4 => if fld w 0 5 = 0 then some (.rmaxI (fld w 16 9) (fld w 10 6)) else none
  | 5 => if fld w 0 5 = 0 then some (.rminI (fld w 16 9) (fld w 10 6)) else none
  | 6 => if fld w 0 5 = 0 then some (.rand (fld w 16 9) (fld w 10 6)) else none
  | 7 => if fld w 0 5 = 0 then some (.ror (fld w 16 9) (fld w 10 6)) else none
  | 8 => if fld w 0 5 = 0 then some (.rxor (fld w 16 9) (fld w 10 6)) else none
  | 9 => some (.vget (fld w 16 9) (fld w 10 6) (fld w 0 5))
  | 10 => some (.vput (fld w 16 9) (fld w 10 6) (fld w 0 5))
  | 11 => if fld w 0 5 = 0 then some (.first (fld w 16 9) (fld w 10 6)) else none
  | 12 => if fld w 0 5 = 0 then some (.ballot (fld w 16 9) (fld w 10 6)) else none
  | _ => none

/-- Majors 0x0A and 0x0B: FADDI. -/
def decode0A (w : Word) : Option Instr :=
  some (.faddi (fld w 20 6) (fld w 0 20))

/-- Majors 0x0C and 0x0D: FMULI. -/
def decode0C (w : Word) : Option Instr :=
  some (.fmuli (fld w 20 6) (fld w 0 20))

/-- Majors 0x0E and 0x0F: FMOVI. -/
def decode0E (w : Word) : Option Instr :=
  some (.fmovi (fld w 20 6) (fld w 0 20))

/-- Majors 0x10 and 0x11: IADDI. -/
def decode10 (w : Word) : Option Instr :=
  some (.iaddi (fld w 20 6) (fld w 0 20))

/-- Majors 0x12 and 0x13: IMOVI. -/
def decode12 (w : Word) : Option Instr :=
  some (.imovi (fld w 20 6) (fld w 0 20))

/-- Major 0x14: FADD_L to FMAX_L. -/
def decode14 (p : Option Prefix) (w : Word) (lit : Word) : Option Instr :=
  match (fld w 0 7).toNat with
  | 0 => if fld w 7 6 = 0 then some (.faddL p (fld w 19 6) (fld w 13 6) lit) else none
  | 1 => if fld w 7 6 = 0 then some (.fmulL p (fld w 19 6) (fld w 13 6) lit) else none
  | 2 => some (.ffmaL p (fld w 19 6) (fld w 13 6) (fld w 7 6) lit)
  | 3 => if fld w 13 6 = 0 ∧ fld w 7 6 = 0 then some (.fmovL p (fld w 19 6) lit) else none
  | 4 => if fld w 7 6 = 0 then some (.iaddL p (fld w 19 6) (fld w 13 6) lit) else none
  | 5 => if fld w 13 6 = 0 ∧ fld w 7 6 = 0 then some (.imovL p (fld w 19 6) lit) else none
  | 6 => if fld w 7 6 = 0 then some (.andL p (fld w 19 6) (fld w 13 6) lit) else none
  | 7 => if fld w 7 6 = 0 then some (.fminL p (fld w 19 6) (fld w 13 6) lit) else none
  | 8 => if fld w 7 6 = 0 then some (.fmaxL p (fld w 19 6) (fld w 13 6) lit) else none
  | _ => none

/-- Major 0x15: FFMA_K. -/
def decode15 (w : Word) : Option Instr :=
  some (.ffmaK (fld w 19 6) (fld w 13 6) (fld w 9 4) (fld w 0 9))

/-- Major 0x16: FADD_K. -/
def decode16 (w : Word) : Option Instr :=
  some (.faddK (fld w 19 6) (fld w 13 6) (fld w 9 4) (fld w 0 9))

/-- Major 0x17: FMUL_K. -/
def decode17 (w : Word) : Option Instr :=
  some (.fmulK (fld w 19 6) (fld w 13 6) (fld w 9 4) (fld w 0 9))

/-- Major 0x18: IADD_K. -/
def decode18 (w : Word) : Option Instr :=
  some (.iaddK (fld w 19 6) (fld w 13 6) (fld w 9 4) (fld w 0 9))

/-- Major 0x19: MOV_K. -/
def decode19 (w : Word) : Option Instr :=
  if fld w 13 6 = 0 then some (.movK (fld w 19 6) (fld w 9 4) (fld w 0 9)) else none

/-- Major 0x1A: MOV, SEL, TIDX, QIDX, LIDX. -/
def decode1A (p : Option Prefix) (w : Word) : Option Instr :=
  match (fld w 0 7).toNat with
  | 0 => if fld w 7 6 = 0 then some (.mov p (fld w 19 6) (fld w 13 6)) else none
  | 1 => some (.sel p (fld w 19 6) (fld w 13 6) (fld w 7 6))
  | 2 => if fld w 13 6 = 0 ∧ fld w 7 6 = 0 then some (.tidx p (fld w 19 6)) else none
  | 3 => if fld w 13 6 = 0 ∧ fld w 7 6 = 0 then some (.qidx p (fld w 19 6)) else none
  | 4 => if fld w 13 6 = 0 ∧ fld w 7 6 = 0 then some (.lidx p (fld w 19 6)) else none
  | _ => none

/-- Major 0x1B: MOVG, SEL_G. -/
def decode1B (p : Option Prefix) (w : Word) : Option Instr :=
  match (fld w 0 4).toNat with
  | 0 => if fld w 13 6 = 0 then some (.movg p (fld w 19 6) (fld w 4 9)) else none
  | 1 => some (.selG p (fld w 19 6) (fld w 13 6) (fld w 4 9))
  | _ => none

/-- Major 0x1C: MAND to MCLR. -/
def decode1C (w : Word) : Option Instr :=
  match (fld w 3 4).toNat with
  | 0 => if fld w 7 9 = 0 ∧ fld w 0 3 = 0 then some (.mand (fld w 22 3) (fld w 19 3) (fld w 16 3)) else none
  | 1 => if fld w 7 9 = 0 ∧ fld w 0 3 = 0 then some (.mor (fld w 22 3) (fld w 19 3) (fld w 16 3)) else none
  | 2 => if fld w 7 9 = 0 ∧ fld w 0 3 = 0 then some (.mxor (fld w 22 3) (fld w 19 3) (fld w 16 3)) else none
  | 3 => if fld w 7 9 = 0 ∧ fld w 0 3 = 0 then some (.mandn (fld w 22 3) (fld w 19 3) (fld w 16 3)) else none
  | 4 => if fld w 16 3 = 0 ∧ fld w 7 9 = 0 ∧ fld w 0 3 = 0 then some (.mnot (fld w 22 3) (fld w 19 3)) else none
  | 5 => if fld w 22 3 = 0 ∧ fld w 16 3 = 0 ∧ fld w 0 3 = 0 then some (.mtog (fld w 19 3) (fld w 7 9)) else none
  | 6 => if fld w 19 3 = 0 ∧ fld w 16 3 = 0 ∧ fld w 0 3 = 0 then some (.gtom (fld w 22 3) (fld w 7 9)) else none
  | 7 => if fld w 22 3 = 0 ∧ fld w 16 3 = 0 ∧ fld w 0 3 = 0 then some (.mpop (fld w 19 3) (fld w 7 9)) else none
  | 8 => if fld w 22 3 = 0 ∧ fld w 16 3 = 0 ∧ fld w 0 3 = 0 then some (.mffs (fld w 19 3) (fld w 7 9)) else none
  | 9 => if fld w 19 3 = 0 ∧ fld w 16 3 = 0 ∧ fld w 7 9 = 0 ∧ fld w 0 3 = 0 then some (.mall (fld w 22 3)) else none
  | 10 => if fld w 19 3 = 0 ∧ fld w 16 3 = 0 ∧ fld w 7 9 = 0 ∧ fld w 0 3 = 0 then some (.mclr (fld w 22 3)) else none
  | _ => none

/-- Major 0x22: GADD, GSUB. -/
def decode22 (p : Option Prefix) (w : Word) : Option Instr :=
  if fld w 0 1 = 0 then (some (.gadd p (fld w 17 8) (fld w 9 8) (fld w 1 8))) else some (.gsub p (fld w 17 8) (fld w 9 8) (fld w 1 8))

/-- Major 0x23: GMUL, GMULH. -/
def decode23 (p : Option Prefix) (w : Word) : Option Instr :=
  if fld w 0 1 = 0 then (some (.gmul p (fld w 17 8) (fld w 9 8) (fld w 1 8))) else some (.gmulh p (fld w 17 8) (fld w 9 8) (fld w 1 8))

/-- Major 0x24: GAND, GOR. -/
def decode24 (p : Option Prefix) (w : Word) : Option Instr :=
  if fld w 0 1 = 0 then (some (.gand p (fld w 17 8) (fld w 9 8) (fld w 1 8))) else some (.gor p (fld w 17 8) (fld w 9 8) (fld w 1 8))

/-- Major 0x25: GXOR, GANDN. -/
def decode25 (p : Option Prefix) (w : Word) : Option Instr :=
  if fld w 0 1 = 0 then (some (.gxor p (fld w 17 8) (fld w 9 8) (fld w 1 8))) else some (.gandn p (fld w 17 8) (fld w 9 8) (fld w 1 8))

/-- Major 0x26: GSHL, GSHR. -/
def decode26 (p : Option Prefix) (w : Word) : Option Instr :=
  if fld w 0 1 = 0 then (some (.gshl p (fld w 17 8) (fld w 9 8) (fld w 1 8))) else some (.gshr p (fld w 17 8) (fld w 9 8) (fld w 1 8))

/-- Major 0x27: GSAR, GNMULH. -/
def decode27 (p : Option Prefix) (w : Word) : Option Instr :=
  if fld w 0 1 = 0 then (some (.gsar p (fld w 17 8) (fld w 9 8) (fld w 1 8))) else some (.gnmulh p (fld w 17 8) (fld w 9 8) (fld w 1 8))

/-- Major 0x28: GMIN, GMAX. -/
def decode28 (p : Option Prefix) (w : Word) : Option Instr :=
  if fld w 0 1 = 0 then (some (.gmin p (fld w 17 8) (fld w 9 8) (fld w 1 8))) else some (.gmax p (fld w 17 8) (fld w 9 8) (fld w 1 8))

/-- Major 0x29: GNMIN, GNMAX. -/
def decode29 (p : Option Prefix) (w : Word) : Option Instr :=
  if fld w 0 1 = 0 then (some (.gnmin p (fld w 17 8) (fld w 9 8) (fld w 1 8))) else some (.gnmax p (fld w 17 8) (fld w 9 8) (fld w 1 8))

/-- Major 0x2A: GADD64, GSUB64. -/
def decode2A (p : Option Prefix) (w : Word) : Option Instr :=
  if fld w 0 1 = 0 then (some (.gadd64 p (fld w 17 8) (fld w 9 8) (fld w 1 8))) else some (.gsub64 p (fld w 17 8) (fld w 9 8) (fld w 1 8))

/-- Major 0x2B: GFADD, GFMUL. -/
def decode2B (p : Option Prefix) (w : Word) : Option Instr :=
  if fld w 0 1 = 0 then (some (.gfadd p (fld w 17 8) (fld w 9 8) (fld w 1 8))) else some (.gfmul p (fld w 17 8) (fld w 9 8) (fld w 1 8))

/-- Major 0x2C: GFFMA, GMAD. -/
def decode2C (p : Option Prefix) (w : Word) : Option Instr :=
  if fld w 0 1 = 0 then (some (.gffma p (fld w 17 8) (fld w 9 8) (fld w 1 8))) else some (.gmad p (fld w 17 8) (fld w 9 8) (fld w 1 8))

/-- Major 0x2D: GMOV, GNOT. -/
def decode2D (p : Option Prefix) (w : Word) : Option Instr :=
  if fld w 0 1 = 0 then (if fld w 1 8 = 0 then some (.gmov p (fld w 17 8) (fld w 9 8)) else none) else if fld w 1 8 = 0 then some (.gnot p (fld w 17 8) (fld w 9 8)) else none

/-- Major 0x2E: GMOVI. -/
def decode2E (w : Word) : Option Instr :=
  some (.gmovi (fld w 16 9) (fld w 0 16))

/-- Major 0x2F: GADDI. -/
def decode2F (w : Word) : Option Instr :=
  some (.gaddi (fld w 16 9) (fld w 0 16))

/-- Major 0x30: GMOVHI. -/
def decode30 (w : Word) : Option Instr :=
  some (.gmovhi (fld w 16 9) (fld w 0 16))

/-- Major 0x31: GCMP. -/
def decode31 (w : Word) : Option Instr :=
  some (.gcmp (fld w 23 2) (condOfBits (fld w 20 3)) (gtypeOfBits (fld w 18 2)) (fld w 9 9) (fld w 0 9))

/-- Major 0x32: GCMPI. -/
def decode32 (w : Word) : Option Instr :=
  some (.gcmpi (fld w 23 2) (condOfBits (fld w 20 3)) (fld w 11 9) (fld w 0 11))

/-- Major 0x33: GLD. -/
def decode33 (w : Word) : Option Instr :=
  some (.gld (fld w 16 9) (fld w 9 7) (fld w 0 9))

/-- Major 0x34: GLD64. -/
def decode34 (w : Word) : Option Instr :=
  some (.gld64 (fld w 16 9) (fld w 9 7) (fld w 0 9))

/-- Major 0x35: GST. -/
def decode35 (w : Word) : Option Instr :=
  some (.gst (fld w 16 9) (fld w 9 7) (fld w 0 9))

/-- Major 0x36: BR, BR_F, BR_NF, BR_MNZ, BR_MZ, BR_MALL, BR_MNALL. -/
def decode36 (w : Word) : Option Instr :=
  match (fld w 21 4).toNat with
  | 0 => if fld w 18 3 = 0 then some (.br (fld w 0 18)) else none
  | 1 => if fld w 20 1 = 0 then some (.brF (fld w 18 2) (fld w 0 18)) else none
  | 2 => if fld w 20 1 = 0 then some (.brNf (fld w 18 2) (fld w 0 18)) else none
  | 3 => some (.brMnz (fld w 18 3) (fld w 0 18))
  | 4 => some (.brMz (fld w 18 3) (fld w 0 18))
  | 5 => some (.brMall (fld w 18 3) (fld w 0 18))
  | 6 => some (.brMnall (fld w 18 3) (fld w 0 18))
  | _ => none

/-- Major 0x37: LOOP. -/
def decode37 (w : Word) : Option Instr :=
  some (.loop (fld w 16 9) (fld w 0 16))

/-- Major 0x38: CALL. -/
def decode38 (w : Word) : Option Instr :=
  some (.call (fld w 0 25))

/-- Major 0x39: JG. -/
def decode39 (w : Word) : Option Instr :=
  if fld w 0 7 = 0 then some (.jg (fld w 16 9) (fld w 7 9)) else none

/-- Major 0x3A: BRX. -/
def decode3A (w : Word) : Option Instr :=
  if fld w 0 10 = 0 then some (.brx (fld w 19 6) (fld w 10 9)) else none

/-- Major 0x3B: LAND. -/
def decode3B (w : Word) : Option Instr :=
  if fld w 0 25 = 0 then some .land else none

/-- Major 0x3C: NOP. -/
def decode3C (w : Word) : Option Instr :=
  if fld w 0 25 = 0 then some .nop else none

/-- Major 0x40: LDV. -/
def decode40 (p : Option Prefix) (w : Word) : Option Instr :=
  some (.ldv p (fld w 19 6) (fld w 13 6) (fld w 6 7) (fld w 2 4) (sizeOfBits (fld w 0 2)))

/-- Major 0x41: LDVS. -/
def decode41 (p : Option Prefix) (w : Word) : Option Instr :=
  some (.ldvs p (fld w 19 6) (fld w 13 6) (fld w 6 7) (fld w 2 4) (sizeOfBits (fld w 0 2)))

/-- Major 0x42: STV. -/
def decode42 (p : Option Prefix) (w : Word) : Option Instr :=
  some (.stv p (fld w 19 6) (fld w 13 6) (fld w 6 7) (fld w 2 4) (sizeOfBits (fld w 0 2)))

/-- Major 0x43: LDS. -/
def decode43 (p : Option Prefix) (w : Word) : Option Instr :=
  if fld w 6 7 = 0 then some (.lds p (fld w 19 6) (fld w 13 6) (fld w 2 4) (sizeOfBits (fld w 0 2))) else none

/-- Major 0x44: STS. -/
def decode44 (p : Option Prefix) (w : Word) : Option Instr :=
  if fld w 6 7 = 0 then some (.sts p (fld w 19 6) (fld w 13 6) (fld w 2 4) (sizeOfBits (fld w 0 2))) else none

/-- Major 0x45: ATOM_ADD_I to ATOM_ADD_BF16X2. -/
def decode45 (p : Option Prefix) (w : Word) : Option Instr :=
  match (fld w 2 4).toNat with
  | 0 => some (.atomAddI p (fld w 19 6) (fld w 13 6) (fld w 6 7) (flagOfBit (fld w 1 1)) (flagOfBit (fld w 0 1)))
  | 1 => if fld w 1 1 = 0 then some (.atomAddF p (fld w 19 6) (fld w 13 6) (fld w 6 7) (flagOfBit (fld w 0 1))) else none
  | 2 => some (.atomMinI p (fld w 19 6) (fld w 13 6) (fld w 6 7) (flagOfBit (fld w 1 1)) (flagOfBit (fld w 0 1)))
  | 3 => some (.atomMaxI p (fld w 19 6) (fld w 13 6) (fld w 6 7) (flagOfBit (fld w 1 1)) (flagOfBit (fld w 0 1)))
  | 4 => some (.atomMinN p (fld w 19 6) (fld w 13 6) (fld w 6 7) (flagOfBit (fld w 1 1)) (flagOfBit (fld w 0 1)))
  | 5 => some (.atomMaxN p (fld w 19 6) (fld w 13 6) (fld w 6 7) (flagOfBit (fld w 1 1)) (flagOfBit (fld w 0 1)))
  | 6 => some (.atomAnd p (fld w 19 6) (fld w 13 6) (fld w 6 7) (flagOfBit (fld w 1 1)) (flagOfBit (fld w 0 1)))
  | 7 => some (.atomOr p (fld w 19 6) (fld w 13 6) (fld w 6 7) (flagOfBit (fld w 1 1)) (flagOfBit (fld w 0 1)))
  | 8 => some (.atomXor p (fld w 19 6) (fld w 13 6) (fld w 6 7) (flagOfBit (fld w 1 1)) (flagOfBit (fld w 0 1)))
  | 9 => some (.atomXchg p (fld w 19 6) (fld w 13 6) (fld w 6 7) (flagOfBit (fld w 1 1)) (flagOfBit (fld w 0 1)))
  | 10 => some (.atomCas p (fld w 19 6) (fld w 13 6) (fld w 6 7) (flagOfBit (fld w 1 1)) (flagOfBit (fld w 0 1)))
  | 11 => if fld w 1 1 = 0 then some (.atomMinF p (fld w 19 6) (fld w 13 6) (fld w 6 7) (flagOfBit (fld w 0 1))) else none
  | 12 => if fld w 1 1 = 0 then some (.atomMaxF p (fld w 19 6) (fld w 13 6) (fld w 6 7) (flagOfBit (fld w 0 1))) else none
  | 13 => if fld w 1 1 = 0 ∧ fld w 0 1 = 0 then some (.atomAddBf16x2 p (fld w 19 6) (fld w 13 6) (fld w 6 7)) else none
  | _ => none

/-- Major 0x46: ATOMS_ADD_I to ATOMS_ADD_BF16X2. -/
def decode46 (p : Option Prefix) (w : Word) : Option Instr :=
  match (fld w 2 4).toNat with
  | 0 => if fld w 6 7 = 0 then some (.atomsAddI p (fld w 19 6) (fld w 13 6) (flagOfBit (fld w 1 1)) (flagOfBit (fld w 0 1))) else none
  | 1 => if fld w 6 7 = 0 ∧ fld w 1 1 = 0 then some (.atomsAddF p (fld w 19 6) (fld w 13 6) (flagOfBit (fld w 0 1))) else none
  | 2 => if fld w 6 7 = 0 then some (.atomsMinI p (fld w 19 6) (fld w 13 6) (flagOfBit (fld w 1 1)) (flagOfBit (fld w 0 1))) else none
  | 3 => if fld w 6 7 = 0 then some (.atomsMaxI p (fld w 19 6) (fld w 13 6) (flagOfBit (fld w 1 1)) (flagOfBit (fld w 0 1))) else none
  | 4 => if fld w 6 7 = 0 then some (.atomsMinN p (fld w 19 6) (fld w 13 6) (flagOfBit (fld w 1 1)) (flagOfBit (fld w 0 1))) else none
  | 5 => if fld w 6 7 = 0 then some (.atomsMaxN p (fld w 19 6) (fld w 13 6) (flagOfBit (fld w 1 1)) (flagOfBit (fld w 0 1))) else none
  | 6 => if fld w 6 7 = 0 then some (.atomsAnd p (fld w 19 6) (fld w 13 6) (flagOfBit (fld w 1 1)) (flagOfBit (fld w 0 1))) else none
  | 7 => if fld w 6 7 = 0 then some (.atomsOr p (fld w 19 6) (fld w 13 6) (flagOfBit (fld w 1 1)) (flagOfBit (fld w 0 1))) else none
  | 8 => if fld w 6 7 = 0 then some (.atomsXor p (fld w 19 6) (fld w 13 6) (flagOfBit (fld w 1 1)) (flagOfBit (fld w 0 1))) else none
  | 9 => if fld w 6 7 = 0 then some (.atomsXchg p (fld w 19 6) (fld w 13 6) (flagOfBit (fld w 1 1)) (flagOfBit (fld w 0 1))) else none
  | 10 => if fld w 6 7 = 0 then some (.atomsCas p (fld w 19 6) (fld w 13 6) (flagOfBit (fld w 1 1)) (flagOfBit (fld w 0 1))) else none
  | 11 => if fld w 6 7 = 0 ∧ fld w 1 1 = 0 then some (.atomsMinF p (fld w 19 6) (fld w 13 6) (flagOfBit (fld w 0 1))) else none
  | 12 => if fld w 6 7 = 0 ∧ fld w 1 1 = 0 then some (.atomsMaxF p (fld w 19 6) (fld w 13 6) (flagOfBit (fld w 0 1))) else none
  | 13 => if fld w 6 7 = 0 ∧ fld w 1 1 = 0 ∧ fld w 0 1 = 0 then some (.atomsAddBf16x2 p (fld w 19 6) (fld w 13 6)) else none
  | _ => none

/-- Major 0x47: PRF. -/
def decode47 (p : Option Prefix) (w : Word) : Option Instr :=
  if fld w 19 6 = 0 then some (.prf p (fld w 13 6) (fld w 6 7) (fld w 2 4) (sizeOfBits (fld w 0 2))) else none

/-- Major 0x48: EXIT. -/
def decode48 (p : Option Prefix) (w : Word) : Option Instr :=
  if fld w 0 25 = 0 then some (.exit p) else none

/-- Major 0x49: FENCE_FULL, FENCE_ACQ, FENCE_REL. -/
def decode49 (w : Word) : Option Instr :=
  match (fld w 19 2).toNat with
  | 0 => if fld w 0 19 = 0 then (scopeOfBits (fld w 21 4)).bind fun s => some (.fenceFull s) else none
  | 1 => if fld w 0 19 = 0 then (scopeOfBits (fld w 21 4)).bind fun s => some (.fenceAcq s) else none
  | 2 => if fld w 0 19 = 0 then (scopeOfBits (fld w 21 4)).bind fun s => some (.fenceRel s) else none
  | _ => none

/-- Major 0x4A: CADD, CWAIT, CREAD, CWAITY. -/
def decode4A (w : Word) (lit : Word) : Option Instr :=
  match (fld w 0 5).toNat with
  | 0 => some (.cadd (fld w 18 7) (fld w 9 9) (fld w 5 4))
  | 1 => if fld w 5 4 = 0 then some (.cwait (fld w 18 7) (fld w 9 9)) else none
  | 2 => some (.cread (fld w 18 7) (fld w 9 9) (fld w 5 4))
  | 3 => if fld w 5 4 = 0 then some (.cwaity (fld w 18 7) (fld w 9 9) lit) else none
  | _ => none

/-- Major 0x4B: WAIT, WAITY. -/
def decode4B (w : Word) (lit : Word) : Option Instr :=
  if fld w 12 1 = 0 then (if fld w 0 12 = 0 then some (.wait (fld w 21 4) (fld w 13 8)) else none) else if fld w 0 12 = 0 then some (.waity (fld w 21 4) (fld w 13 8) lit) else none

/-- Major 0x4C: BAR_SYNC, BAR_ARRIVE, BAR_WAIT, BAR_GSYNC, BAR_GARRIVE, BAR_GWAIT. -/
def decode4C (w : Word) : Option Instr :=
  match (fld w 22 3).toNat with
  | 0 => if fld w 0 9 = 0 then some (.barSync (fld w 18 4) (fld w 9 9)) else none
  | 1 => if fld w 0 9 = 0 then some (.barArrive (fld w 18 4) (fld w 9 9)) else none
  | 2 => if fld w 0 9 = 0 then some (.barWait (fld w 18 4) (fld w 9 9)) else none
  | 3 => if fld w 9 9 = 0x1FF ∧ fld w 0 9 = 0 then some (.barGsync (fld w 18 4)) else none
  | 4 => if fld w 9 9 = 0x1FF ∧ fld w 0 9 = 0 then some (.barGarrive (fld w 18 4)) else none
  | 5 => if fld w 9 9 = 0x1FF ∧ fld w 0 9 = 0 then some (.barGwait (fld w 18 4)) else none
  | _ => none

/-- Major 0x4D: YIELD. -/
def decode4D (w : Word) : Option Instr :=
  if fld w 0 25 = 0 then some .yield else none

/-- Major 0x4E: LTADV_REG, LTADV_IMM. -/
def decode4E (w : Word) : Option Instr :=
  if fld w 24 1 = 0 then (if fld w 0 15 = 0 then some (.ltadvReg (fld w 15 9)) else none) else if fld w 16 8 = 0 then some (.ltadvImm (fld w 0 16)) else none

/-- Major 0x50: CPY_LOAD to CPY_REDSTORE. -/
def decode50 (w : Word) : Option Instr :=
  match (fld w 21 4).toNat with
  | 0 => if fld w 18 3 = 0 ∧ fld w 3 5 = 0 ∧ fld w 2 1 = 0 then some (.cpyLoad (fld w 12 6) (fld w 8 4) (flagOfBit (fld w 1 1)) (flagOfBit (fld w 0 1))) else none
  | 1 => if fld w 18 3 = 0 ∧ fld w 3 5 = 0 ∧ fld w 2 1 = 0 then some (.cpyStore (fld w 12 6) (fld w 8 4) (flagOfBit (fld w 1 1)) (flagOfBit (fld w 0 1))) else none
  | 2 => if fld w 18 3 = 0 ∧ fld w 3 5 = 0 ∧ fld w 2 1 = 0 then some (.cpyGather (fld w 12 6) (fld w 8 4) (flagOfBit (fld w 1 1)) (flagOfBit (fld w 0 1))) else none
  | 3 => if fld w 18 3 = 0 ∧ fld w 3 5 = 0 ∧ fld w 2 1 = 0 then some (.cpyScatter (fld w 12 6) (fld w 8 4) (flagOfBit (fld w 1 1)) (flagOfBit (fld w 0 1))) else none
  | 4 => if fld w 18 3 = 0 ∧ fld w 3 5 = 0 ∧ fld w 2 1 = 0 then some (.cpyPackload (fld w 12 6) (fld w 8 4) (flagOfBit (fld w 1 1)) (flagOfBit (fld w 0 1))) else none
  | 5 => if fld w 18 3 = 0 ∧ fld w 3 5 = 0 ∧ fld w 2 1 = 0 then some (.cpyRemote (fld w 12 6) (fld w 8 4) (flagOfBit (fld w 1 1)) (flagOfBit (fld w 0 1))) else none
  | 6 => if fld w 18 3 = 0 ∧ fld w 3 5 = 0 then some (.cpyFill (fld w 12 6) (fld w 8 4) (flagOfBit (fld w 2 1)) (flagOfBit (fld w 1 1)) (flagOfBit (fld w 0 1))) else none
  | 7 => if fld w 18 3 = 0 ∧ fld w 3 5 = 0 ∧ fld w 2 1 = 0 then some (.cpyRedstore (fld w 12 6) (fld w 8 4) (flagOfBit (fld w 1 1)) (flagOfBit (fld w 0 1))) else none
  | _ => none

/-- Major 0x51: MMA. -/
def decode51 (w : Word) : Option Instr :=
  match (fld w 21 4).toNat with
  | 0 => if fld w 1 7 = 0 then some (.mma (fld w 18 3) (fld w 12 6) (fld w 8 4) (flagOfBit (fld w 0 1))) else none
  | _ => none

/-- Major 0x52: ACLD, ACST, ACADD, ACZ. -/
def decode52 (w : Word) : Option Instr :=
  match (fld w 0 7).toNat with
  | 0 => some (.acld (fld w 19 6) (fld w 16 3) (fld w 7 9))
  | 1 => some (.acst (fld w 19 6) (fld w 16 3) (fld w 7 9))
  | 2 => some (.acadd (fld w 19 6) (fld w 16 3) (fld w 7 9))
  | 3 => if fld w 19 6 = 0 then some (.acz (fld w 16 3) (fld w 7 9)) else none
  | _ => none

/-- Major 0x53: PKPL_F32, PKPL_BF16L. -/
def decode53 (w : Word) : Option Instr :=
  match (fld w 0 6).toNat with
  | 0 => some (.pkplF32 (fld w 19 6) (fld w 10 9) (fld w 6 4))
  | 1 => some (.pkplBf16l (fld w 19 6) (fld w 10 9) (fld w 6 4))
  | _ => none

/-- Major 0x62: SYSC. -/
def decode62 (w : Word) : Option Instr :=
  if fld w 9 12 = 0 then (if fld w 21 4 = 0 ∧ fld w 9 12 = 0 ∧ fld w 0 3 = 0 then some (.syscSigret (fld w 3 6)) else none) else if fld w 0 3 = 0 then some (.syscFuture (fld w 21 4) (fld w 9 12) (fld w 3 6)) else none

/-- Major 0x63: TRAP. -/
def decode63 (w : Word) : Option Instr :=
  some (.trap (fld w 0 25))

/-- Major 0x64: BKPT. -/
def decode64 (w : Word) : Option Instr :=
  if fld w 0 25 = 0 then some .bkpt else none

/-- Major 0x65: SRR. -/
def decode65 (w : Word) : Option Instr :=
  if fld w 0 4 = 0 then some (.srr (fld w 16 9) (fld w 4 12)) else none

/-- Major 0x66: SRW. -/
def decode66 (w : Word) : Option Instr :=
  if fld w 0 4 = 0 then some (.srw (fld w 16 9) (fld w 4 12)) else none

/-- Major 0x67: ERET. -/
def decode67 (w : Word) : Option Instr :=
  if fld w 0 25 = 0 then some .eret else none

/-- Major 0x68: XRD. -/
def decode68 (w : Word) : Option Instr :=
  if fld w 0 4 = 0 then (classOfBits (fld w 4 3)).bind fun c => some (.xrd (fld w 16 9) (fld w 7 9) c) else none

/-- Major 0x69: XWR. -/
def decode69 (w : Word) : Option Instr :=
  if fld w 0 4 = 0 then (classOfBits (fld w 4 3)).bind fun c => some (.xwr (fld w 16 9) (fld w 7 9) c) else none

/-- Major 0x6A: TLBI_ALL, TLBI_ASID, TLBI_PAGE. -/
def decode6A (w : Word) : Option Instr :=
  match (fld w 16 2).toNat with
  | 0 => if fld w 18 7 = 0 ∧ fld w 0 16 = 0 then some .tlbiAll else none
  | 1 => if fld w 0 16 = 0 then some (.tlbiAsid (fld w 18 7)) else none
  | 2 => if fld w 0 16 = 0 then some (.tlbiPage (fld w 18 7)) else none
  | _ => none

/-- Major 0x6B: LTSET. -/
def decode6B (w : Word) : Option Instr :=
  if fld w 0 16 = 0 then some (.ltset (fld w 16 9)) else none

/-- Major 0x6C: ARBEG_FIRM, ARBEG_ELASTIC. -/
def decode6C (w : Word) (lit : Word) : Option Instr :=
  if fld w 24 1 = 0 then (if fld w 0 15 = 0 then some (.arbegFirm (fld w 15 9) lit) else none) else if fld w 0 15 = 0 then some (.arbegElastic (fld w 15 9) lit) else none

/-- Major 0x6D: AREND. -/
def decode6D (w : Word) : Option Instr :=
  if fld w 0 25 = 0 then some .arend else none

/-- Major 0x6E: ARABT. -/
def decode6E (w : Word) : Option Instr :=
  if fld w 8 17 = 0 then some (.arabt (fld w 0 8)) else none

/-- Major 0x6F: ARNRW. -/
def decode6F (w : Word) : Option Instr :=
  if fld w 0 7 = 0 then some (.arnrw (fld w 16 9) (fld w 7 9)) else none

/-- Major 0x70: WMARK. -/
def decode70 (w : Word) : Option Instr :=
  if fld w 16 9 = 0 then some (.wmark (fld w 0 16)) else none

/-- Major 0x71: LAUNCH. -/
def decode71 (w : Word) : Option Instr :=
  if fld w 0 14 = 0 then some (.launch (fld w 18 7) (fld w 14 4)) else none

/-- The instruction of base word `w`, by its major (R46); `lit` is its literal word where R38 gives it one.
A major that R45 does not list accepts no word with major 0x7E before it (R48). -/
def parseBase (p : Option Prefix) (w lit : Word) : Option Instr :=
  if p.isSome ∧ ¬ takesPrefix (majorOf w) then none else
  match majorOf w with
  | 0x01 => decode01 p w
  | 0x02 => decode02 p w
  | 0x03 => decode03 p w
  | 0x04 => decode04 p w
  | 0x05 => decode05 p w
  | 0x06 => decode06 p w
  | 0x07 => decode07 w
  | 0x08 => decode08 p w
  | 0x09 => decode09 w
  | 0x0A | 0x0B => decode0A w
  | 0x0C | 0x0D => decode0C w
  | 0x0E | 0x0F => decode0E w
  | 0x10 | 0x11 => decode10 w
  | 0x12 | 0x13 => decode12 w
  | 0x14 => decode14 p w lit
  | 0x15 => decode15 w
  | 0x16 => decode16 w
  | 0x17 => decode17 w
  | 0x18 => decode18 w
  | 0x19 => decode19 w
  | 0x1A => decode1A p w
  | 0x1B => decode1B p w
  | 0x1C => decode1C w
  | 0x22 => decode22 p w
  | 0x23 => decode23 p w
  | 0x24 => decode24 p w
  | 0x25 => decode25 p w
  | 0x26 => decode26 p w
  | 0x27 => decode27 p w
  | 0x28 => decode28 p w
  | 0x29 => decode29 p w
  | 0x2A => decode2A p w
  | 0x2B => decode2B p w
  | 0x2C => decode2C p w
  | 0x2D => decode2D p w
  | 0x2E => decode2E w
  | 0x2F => decode2F w
  | 0x30 => decode30 w
  | 0x31 => decode31 w
  | 0x32 => decode32 w
  | 0x33 => decode33 w
  | 0x34 => decode34 w
  | 0x35 => decode35 w
  | 0x36 => decode36 w
  | 0x37 => decode37 w
  | 0x38 => decode38 w
  | 0x39 => decode39 w
  | 0x3A => decode3A w
  | 0x3B => decode3B w
  | 0x3C => decode3C w
  | 0x40 => decode40 p w
  | 0x41 => decode41 p w
  | 0x42 => decode42 p w
  | 0x43 => decode43 p w
  | 0x44 => decode44 p w
  | 0x45 => decode45 p w
  | 0x46 => decode46 p w
  | 0x47 => decode47 p w
  | 0x48 => decode48 p w
  | 0x49 => decode49 w
  | 0x4A => decode4A w lit
  | 0x4B => decode4B w lit
  | 0x4C => decode4C w
  | 0x4D => decode4D w
  | 0x4E => decode4E w
  | 0x50 => decode50 w
  | 0x51 => decode51 w
  | 0x52 => decode52 w
  | 0x53 => decode53 w
  | 0x62 => decode62 w
  | 0x63 => decode63 w
  | 0x64 => decode64 w
  | 0x65 => decode65 w
  | 0x66 => decode66 w
  | 0x67 => decode67 w
  | 0x68 => decode68 w
  | 0x69 => decode69 w
  | 0x6A => decode6A w
  | 0x6B => decode6B w
  | 0x6C => decode6C w lit
  | 0x6D => decode6D w
  | 0x6E => decode6E w
  | 0x6F => decode6F w
  | 0x70 => decode70 w
  | 0x71 => decode71 w
  | _ => none

/-- A base word carries a literal word after it in exactly these cases (R38). -/
def takesLiteral (w : Word) : Bool :=
  majorOf w == 0x14 || (majorOf w == 0x4A && fld w 0 5 == 3) || (majorOf w == 0x4B && fld w 12 1 == 1) ||
  majorOf w == 0x6C

/-- A base word that R48 does not reject. -/
def legalBase (p : Option Prefix) (w lit : Word) : Option Instr :=
  (parseBase p w lit).filter wellFormed

/-- What the words fetched so far hold (R50): an instruction of `n` words; a word that traps as ILL_GUARD (R47) or
ILL_ENC (R48), named by its index; or the beginning of an instruction whose next word is still to be fetched. -/
inductive Decoded where
  | instr (i : Instr) (n : Nat)
  | guard (k : Nat)
  | enc (k : Nat)
  | more
  deriving DecidableEq, Repr

/-- The base word `w`, the `k`-th word of its instruction, and the words after it (R50 steps 3 to 5). -/
def decodeBase (p : Option Prefix) (k : Nat) (w : Word) (rest : List Word) : Decoded :=
  if isGuard (majorOf w) then .guard k
  else
    match legalBase p w 0 with
    | none => .enc k
    | some i =>
      if takesLiteral w then
        match rest with
        | [] => .more
        | lit :: _ =>
          match legalBase p w lit with
          | some i => .instr i (k + 2)
          | none => .enc k
      else .instr i (k + 1)

/-- The steps of R50 on the words of an instruction, in order. -/
def decodeWords : List Word → Decoded
  | [] => .more
  | w :: rest =>
    if majorOf w == 0x7E then
      match prefixOfWord w with
      | none => .enc 0
      | some p =>
        match rest with
        | [] => .more
        | b :: rest' => decodeBase (some p) 1 b rest'
    else decodeBase none 0 w rest

/-! ## Writing words -/

/-- The base word of an instruction (R42, R46); a step of the device has none and gives 0. -/
def baseWord : Instr → Word
  | .fadd _ d a b => packVvv 0x01 d a b 0
  | .fsub _ d a b => packVvv 0x01 d a b 1
  | .fmul _ d a b => packVvv 0x01 d a b 2
  | .ffma _ d a b => packVvv 0x01 d a b 3
  | .ffms _ d a b => packVvv 0x01 d a b 4
  | .fnma _ d a b => packVvv 0x01 d a b 5
  | .fmin _ d a b => packVvv 0x01 d a b 6
  | .fmax _ d a b => packVvv 0x01 d a b 7
  | .fdiv _ d a b => packVvv 0x01 d a b 8
  | .fsqrt _ d a => packVvv 0x01 d a 0 9
  | .frcp _ d a => packVvv 0x01 d a 0 10
  | .frsq _ d a => packVvv 0x01 d a 0 11
  | .fexp2 _ d a => packVvv 0x01 d a 0 12
  | .flog2 _ d a => packVvv 0x01 d a 0 13
  | .fsigm _ d a => packVvv 0x01 d a 0 14
  | .ftanh _ d a => packVvv 0x01 d a 0 15
  | .fabs _ d a => packVvv 0x01 d a 0 16
  | .fneg _ d a => packVvv 0x01 d a 0 17
  | .frint _ d a => packVvv 0x01 d a 0 18
  | .fcpys _ d a b => packVvv 0x01 d a b 19
  | .fclass _ d a => packVvv 0x01 d a 0 20
  | .fscale _ d a b => packVvv 0x01 d a b 21
  | .faddG _ d a g => packVvg 0x02 d a g 0
  | .fsubG _ d a g => packVvg 0x02 d a g 1
  | .fmulG _ d a g => packVvg 0x02 d a g 2
  | .ffmaG _ d a g => packVvg 0x02 d a g 3
  | .fminG _ d a g => packVvg 0x02 d a g 4
  | .fmaxG _ d a g => packVvg 0x02 d a g 5
  | .fdivG _ d a g => packVvg 0x02 d a g 6
  | .fscaleG _ d a g => packVvg 0x02 d a g 7
  | .hadd2 _ bf d a b => packVh 0x03 d a b (flagBit bf) 0
  | .hsub2 _ bf d a b => packVh 0x03 d a b (flagBit bf) 1
  | .hmul2 _ bf d a b => packVh 0x03 d a b (flagBit bf) 2
  | .hfma2 _ bf d a b => packVh 0x03 d a b (flagBit bf) 3
  | .hmin2 _ bf d a b => packVh 0x03 d a b (flagBit bf) 4
  | .hmax2 _ bf d a b => packVh 0x03 d a b (flagBit bf) 5
  | .hdot2 _ bf d a b => packVh 0x03 d a b (flagBit bf) 6
  | .iadd _ d a b => packVvv 0x04 d a b 0
  | .isub _ d a b => packVvv 0x04 d a b 1
  | .imul _ d a b => packVvv 0x04 d a b 2
  | .imulh _ d a b => packVvv 0x04 d a b 3
  | .nmulh _ d a b => packVvv 0x04 d a b 4
  | .imad _ d a b => packVvv 0x04 d a b 5
  | .imin _ d a b => packVvv 0x04 d a b 6
  | .imax _ d a b => packVvv 0x04 d a b 7
  | .nmin _ d a b => packVvv 0x04 d a b 8
  | .nmax _ d a b => packVvv 0x04 d a b 9
  | .and _ d a b => packVvv 0x04 d a b 10
  | .or _ d a b => packVvv 0x04 d a b 11
  | .xor _ d a b => packVvv 0x04 d a b 12
  | .andn _ d a b => packVvv 0x04 d a b 13
  | .shl _ d a b => packVvv 0x04 d a b 14
  | .shr _ d a b => packVvv 0x04 d a b 15
  | .sar _ d a b => packVvv 0x04 d a b 16
  | .rotl _ d a b => packVvv 0x04 d a b 17
  | .popc _ d a => packVvv 0x04 d a 0 18
  | .clz _ d a => packVvv 0x04 d a 0 19
  | .brev _ d a => packVvv 0x04 d a 0 20
  | .iabs _ d a => packVvv 0x04 d a 0 21
  | .iadds _ d a b => packVvv 0x04 d a b 22
  | .isubs _ d a b => packVvv 0x04 d a b 23
  | .idp4 _ d a b => packVvv 0x04 d a b 24
  | .iaddG _ d a g => packVvg 0x05 d a g 0
  | .isubG _ d a g => packVvg 0x05 d a g 1
  | .imulG _ d a g => packVvg 0x05 d a g 2
  | .imadG _ d a g => packVvg 0x05 d a g 3
  | .andG _ d a g => packVvg 0x05 d a g 4
  | .orG _ d a g => packVvg 0x05 d a g 5
  | .xorG _ d a g => packVvg 0x05 d a g 6
  | .shlG _ d a g => packVvg 0x05 d a g 7
  | .shrG _ d a g => packVvg 0x05 d a g 8
  | .sarG _ d a g => packVvg 0x05 d a g 9
  | .iminG _ d a g => packVvg 0x05 d a g 10
  | .imaxG _ d a g => packVvg 0x05 d a g 11
  | .nminG _ d a g => packVvg 0x05 d a g 12
  | .nmaxG _ d a g => packVvg 0x05 d a g 13
  | .cvtF32I32 _ d a => packVvv 0x06 d a 0 0
  | .cvtF32N32 _ d a => packVvv 0x06 d a 0 1
  | .cvtI32F32 _ d a => packVvv 0x06 d a 0 2
  | .cvtN32F32 _ d a => packVvv 0x06 d a 0 3
  | .cvtF16x2 _ d a b => packVvv 0x06 d a b 4
  | .cvtBf16x2 _ d a b => packVvv 0x06 d a b 5
  | .cvtF32F16l _ d a => packVvv 0x06 d a 0 6
  | .cvtF32F16h _ d a => packVvv 0x06 d a 0 7
  | .cvtF32Bf16l _ d a => packVvv 0x06 d a 0 8
  | .cvtF32Bf16h _ d a => packVvv 0x06 d a 0 9
  | .cvtE4m3x2L _ d a b => packVvv 0x06 d a b 10
  | .cvtE4m3x2H _ d a b => packVvv 0x06 d a b 11
  | .cvtE5m2x2L _ d a b => packVvv 0x06 d a b 12
  | .cvtE5m2x2H _ d a b => packVvv 0x06 d a b 13
  | .cvtF32E4m3B0 _ d a => packVvv 0x06 d a 0 14
  | .cvtF32E4m3B1 _ d a => packVvv 0x06 d a 0 15
  | .cvtF32E4m3B2 _ d a => packVvv 0x06 d a 0 16
  | .cvtF32E4m3B3 _ d a => packVvv 0x06 d a 0 17
  | .cvtF32E5m2B0 _ d a => packVvv 0x06 d a 0 18
  | .cvtF32E5m2B1 _ d a => packVvv 0x06 d a 0 19
  | .cvtF32E5m2B2 _ d a => packVvv 0x06 d a 0 20
  | .cvtF32E5m2B3 _ d a => packVvv 0x06 d a 0 21
  | .cmp m c a b t o => packVcm 0x07 m (condBits c) a b (typeBits t) (combBits o) 0
  | .shdn _ d a b => packVvv 0x08 d a b 0
  | .shup _ d a b => packVvv 0x08 d a b 1
  | .psumF _ d a => packVvv 0x08 d a 0 2
  | .psumxF _ d a => packVvv 0x08 d a 0 3
  | .psumI _ d a => packVvv 0x08 d a 0 4
  | .psumxI _ d a => packVvv 0x08 d a 0 5
  | .pmaxI _ d a => packVvv 0x08 d a 0 6
  | .pminI _ d a => packVvv 0x08 d a 0 7
  | .shfl _ d a b => packVvv 0x08 d a b 8
  | .qswh _ d a => packVvv 0x08 d a 0 9
  | .qswv _ d a => packVvv 0x08 d a 0 10
  | .qswd _ d a => packVvv 0x08 d a 0 11
  | .zip2 _ d a => packVvv 0x08 d a 0 12
  | .zip3 _ d a => packVvv 0x08 d a 0 13
  | .zip4 _ d a => packVvv 0x08 d a 0 14
  | .uzp2 _ d a => packVvv 0x08 d a 0 15
  | .uzp3 _ d a => packVvv 0x08 d a 0 16
  | .uzp4 _ d a => packVvv 0x08 d a 0 17
  | .pmaxF _ d a => packVvv 0x08 d a 0 18
  | .pminF _ d a => packVvv 0x08 d a 0 19
  | .rsumF g a => packGv 0x09 g a 0 0
  | .rsumI g a => packGv 0x09 g a 1 0
  | .rmaxF g a => packGv 0x09 g a 2 0
  | .rminF g a => packGv 0x09 g a 3 0
  | .rmaxI g a => packGv 0x09 g a 4 0
  | .rminI g a => packGv 0x09 g a 5 0
  | .rand g a => packGv 0x09 g a 6 0
  | .ror g a => packGv 0x09 g a 7 0
  | .rxor g a => packGv 0x09 g a 8 0
  | .vget g a i => packGv 0x09 g a 9 i
  | .vput g a i => packGv 0x09 g a 10 i
  | .first g a => packGv 0x09 g a 11 0
  | .ballot g a => packGv 0x09 g a 12 0
  | .faddi d i => packVi20 5 d i
  | .fmuli d i => packVi20 6 d i
  | .fmovi d i => packVi20 7 d i
  | .iaddi d i => packVi20 8 d i
  | .imovi d i => packVi20 9 d i
  | .faddL _ d a _ => packVvv 0x14 d a 0 0
  | .fmulL _ d a _ => packVvv 0x14 d a 0 1
  | .ffmaL _ d a b _ => packVvv 0x14 d a b 2
  | .fmovL _ d _ => packVvv 0x14 d 0 0 3
  | .iaddL _ d a _ => packVvv 0x14 d a 0 4
  | .imovL _ d _ => packVvv 0x14 d 0 0 5
  | .andL _ d a _ => packVvv 0x14 d a 0 6
  | .fminL _ d a _ => packVvv 0x14 d a 0 7
  | .fmaxL _ d a _ => packVvv 0x14 d a 0 8
  | .ffmaK d a k f => packVvk 0x15 d a k f
  | .faddK d a k f => packVvk 0x16 d a k f
  | .fmulK d a k f => packVvk 0x17 d a k f
  | .iaddK d a k f => packVvk 0x18 d a k f
  | .movK d k f => packVvk 0x19 d 0 k f
  | .mov _ d a => packVvv 0x1A d a 0 0
  | .sel _ d a b => packVvv 0x1A d a b 1
  | .tidx _ d => packVvv 0x1A d 0 0 2
  | .qidx _ d => packVvv 0x1A d 0 0 3
  | .lidx _ d => packVvv 0x1A d 0 0 4
  | .movg _ d g => packVvg 0x1B d 0 g 0
  | .selG _ d a g => packVvg 0x1B d a g 1
  | .mand d a b => packMk 0x1C d a b 0 0 0
  | .mor d a b => packMk 0x1C d a b 0 1 0
  | .mxor d a b => packMk 0x1C d a b 0 2 0
  | .mandn d a b => packMk 0x1C d a b 0 3 0
  | .mnot d a => packMk 0x1C d a 0 0 4 0
  | .mtog a n => packMk 0x1C 0 a 0 n 5 0
  | .gtom d n => packMk 0x1C d 0 0 n 6 0
  | .mpop a n => packMk 0x1C 0 a 0 n 7 0
  | .mffs a n => packMk 0x1C 0 a 0 n 8 0
  | .mall d => packMk 0x1C d 0 0 0 9 0
  | .mclr d => packMk 0x1C d 0 0 0 10 0
  | .gadd _ d a b => packGgg 0x22 d a b 0
  | .gsub _ d a b => packGgg 0x22 d a b 1
  | .gmul _ d a b => packGgg 0x23 d a b 0
  | .gmulh _ d a b => packGgg 0x23 d a b 1
  | .gand _ d a b => packGgg 0x24 d a b 0
  | .gor _ d a b => packGgg 0x24 d a b 1
  | .gxor _ d a b => packGgg 0x25 d a b 0
  | .gandn _ d a b => packGgg 0x25 d a b 1
  | .gshl _ d a b => packGgg 0x26 d a b 0
  | .gshr _ d a b => packGgg 0x26 d a b 1
  | .gsar _ d a b => packGgg 0x27 d a b 0
  | .gnmulh _ d a b => packGgg 0x27 d a b 1
  | .gmin _ d a b => packGgg 0x28 d a b 0
  | .gmax _ d a b => packGgg 0x28 d a b 1
  | .gnmin _ d a b => packGgg 0x29 d a b 0
  | .gnmax _ d a b => packGgg 0x29 d a b 1
  | .gadd64 _ d a b => packGgg 0x2A d a b 0
  | .gsub64 _ d a b => packGgg 0x2A d a b 1
  | .gfadd _ d a b => packGgg 0x2B d a b 0
  | .gfmul _ d a b => packGgg 0x2B d a b 1
  | .gffma _ d a b => packGgg 0x2C d a b 0
  | .gmad _ d a b => packGgg 0x2C d a b 1
  | .gmov _ d a => packGgg 0x2D d a 0 0
  | .gnot _ d a => packGgg 0x2D d a 0 1
  | .gmovi d i => packGi16 0x2E d i
  | .gaddi d i => packGi16 0x2F d i
  | .gmovhi d i => packGi16 0x30 d i
  | .gcmp f c t a b => packGc 0x31 f (condBits c) (gtypeBits t) a b
  | .gcmpi f c a i => packGci 0x32 f (condBits c) a i
  | .gld d gp i => packGm 0x33 d gp i
  | .gld64 d gp i => packGm 0x34 d gp i
  | .gst d gp i => packGm 0x35 d gp i
  | .br o => packB 0x36 0 0 o
  | .brF f o => packB 0x36 1 ((0 : BitVec 1) ++ f) o
  | .brNf f o => packB 0x36 2 ((0 : BitVec 1) ++ f) o
  | .brMnz m o => packB 0x36 3 m o
  | .brMz m o => packB 0x36 4 m o
  | .brMall m o => packB 0x36 5 m o
  | .brMnall m o => packB 0x36 6 m o
  | .loop d o => packLp 0x37 d o
  | .call o => packCl 0x38 o
  | .jg a l => packJg 0x39 a l 0
  | .brx a l => packBx 0x3A a l 0
  | .land => packZ 0x3B 0
  | .nop => packZ 0x3C 0
  | .ldv _ v a gp w s => packMem 0x40 v a gp w (sizeBits s)
  | .ldvs _ v a gp w s => packMem 0x41 v a gp w (sizeBits s)
  | .stv _ v a gp w s => packMem 0x42 v a gp w (sizeBits s)
  | .lds _ v a w s => packMem 0x43 v a 0 w (sizeBits s)
  | .sts _ v a w s => packMem 0x44 v a 0 w (sizeBits s)
  | .atomAddI _ v a gp z r => packAtm 0x45 v a gp 0 (flagBit z) (flagBit r)
  | .atomAddF _ v a gp r => packAtm 0x45 v a gp 1 0 (flagBit r)
  | .atomMinI _ v a gp z r => packAtm 0x45 v a gp 2 (flagBit z) (flagBit r)
  | .atomMaxI _ v a gp z r => packAtm 0x45 v a gp 3 (flagBit z) (flagBit r)
  | .atomMinN _ v a gp z r => packAtm 0x45 v a gp 4 (flagBit z) (flagBit r)
  | .atomMaxN _ v a gp z r => packAtm 0x45 v a gp 5 (flagBit z) (flagBit r)
  | .atomAnd _ v a gp z r => packAtm 0x45 v a gp 6 (flagBit z) (flagBit r)
  | .atomOr _ v a gp z r => packAtm 0x45 v a gp 7 (flagBit z) (flagBit r)
  | .atomXor _ v a gp z r => packAtm 0x45 v a gp 8 (flagBit z) (flagBit r)
  | .atomXchg _ v a gp z r => packAtm 0x45 v a gp 9 (flagBit z) (flagBit r)
  | .atomCas _ v a gp z r => packAtm 0x45 v a gp 10 (flagBit z) (flagBit r)
  | .atomMinF _ v a gp r => packAtm 0x45 v a gp 11 0 (flagBit r)
  | .atomMaxF _ v a gp r => packAtm 0x45 v a gp 12 0 (flagBit r)
  | .atomAddBf16x2 _ v a gp => packAtm 0x45 v a gp 13 0 0
  | .atomsAddI _ v a z r => packAtm 0x46 v a 0 0 (flagBit z) (flagBit r)
  | .atomsAddF _ v a r => packAtm 0x46 v a 0 1 0 (flagBit r)
  | .atomsMinI _ v a z r => packAtm 0x46 v a 0 2 (flagBit z) (flagBit r)
  | .atomsMaxI _ v a z r => packAtm 0x46 v a 0 3 (flagBit z) (flagBit r)
  | .atomsMinN _ v a z r => packAtm 0x46 v a 0 4 (flagBit z) (flagBit r)
  | .atomsMaxN _ v a z r => packAtm 0x46 v a 0 5 (flagBit z) (flagBit r)
  | .atomsAnd _ v a z r => packAtm 0x46 v a 0 6 (flagBit z) (flagBit r)
  | .atomsOr _ v a z r => packAtm 0x46 v a 0 7 (flagBit z) (flagBit r)
  | .atomsXor _ v a z r => packAtm 0x46 v a 0 8 (flagBit z) (flagBit r)
  | .atomsXchg _ v a z r => packAtm 0x46 v a 0 9 (flagBit z) (flagBit r)
  | .atomsCas _ v a z r => packAtm 0x46 v a 0 10 (flagBit z) (flagBit r)
  | .atomsMinF _ v a r => packAtm 0x46 v a 0 11 0 (flagBit r)
  | .atomsMaxF _ v a r => packAtm 0x46 v a 0 12 0 (flagBit r)
  | .atomsAddBf16x2 _ v a => packAtm 0x46 v a 0 13 0 0
  | .prf _ a gp w s => packMem 0x47 0 a gp w (sizeBits s)
  | .exit _ => packZ 0x48 0
  | .fenceFull s => packFn 0x49 (scopeBits s) 0 0
  | .fenceAcq s => packFn 0x49 (scopeBits s) 1 0
  | .fenceRel s => packFn 0x49 (scopeBits s) 2 0
  | .cadd gp a w => packCt 0x4A gp a w 0
  | .cwait gp a => packCt 0x4A gp a 0 1
  | .cread gp a w => packCt 0x4A gp a w 2
  | .cwaity gp a _ => packCt 0x4A gp a 0 3
  | .wait w n => packWt 0x4B w n 0 0
  | .waity w n _ => packWt 0x4B w n 1 0
  | .barSync i n => packBa 0x4C 0 i n 0
  | .barArrive i n => packBa 0x4C 1 i n 0
  | .barWait i n => packBa 0x4C 2 i n 0
  | .barGsync i => packBa 0x4C 3 i 0x1FF 0
  | .barGarrive i => packBa 0x4C 4 i 0x1FF 0
  | .barGwait i => packBa 0x4C 5 i 0x1FF 0
  | .yield => packZ 0x4D 0
  | .ltadvReg g => packLt0 0x4E 0 g 0
  | .ltadvImm i => packLt1 0x4E 1 0 i
  | .cpyLoad g w r c => packEng 0x50 0 0 g w 0 0 (flagBit r) (flagBit c)
  | .cpyStore g w r c => packEng 0x50 1 0 g w 0 0 (flagBit r) (flagBit c)
  | .cpyGather g w r c => packEng 0x50 2 0 g w 0 0 (flagBit r) (flagBit c)
  | .cpyScatter g w r c => packEng 0x50 3 0 g w 0 0 (flagBit r) (flagBit c)
  | .cpyPackload g w r c => packEng 0x50 4 0 g w 0 0 (flagBit r) (flagBit c)
  | .cpyRemote g w r c => packEng 0x50 5 0 g w 0 0 (flagBit r) (flagBit c)
  | .cpyFill g w s r c => packEng 0x50 6 0 g w 0 (flagBit s) (flagBit r) (flagBit c)
  | .cpyRedstore g w r c => packEng 0x50 7 0 g w 0 0 (flagBit r) (flagBit c)
  | .mma t g w r => packEngm 0x51 0 t g w 0 (flagBit r)
  | .acld d z a => packAc 0x52 d z a 0
  | .acst s z a => packAc 0x52 s z a 1
  | .acadd s z a => packAc 0x52 s z a 2
  | .acz z a => packAc 0x52 0 z a 3
  | .pkplF32 v a pm => packPk 0x53 v a pm 0
  | .pkplBf16l v a pm => packPk 0x53 v a pm 1
  | .syscSigret g => packSy 0x62 0 0 g 0
  | .syscFuture w n g => packSy 0x62 w n g 0
  | .trap i => packTi 0x63 i
  | .bkpt => packZ 0x64 0
  | .srr g i => packSi 0x65 g i 0
  | .srw g i => packSi 0x66 g i 0
  | .eret => packZ 0x67 0
  | .xrd g t c => packXg 0x68 g t (classBits c) 0
  | .xwr g t c => packXg 0x69 g t (classBits c) 0
  | .tlbiAll => packTl 0x6A 0 0 0
  | .tlbiAsid gp => packTl 0x6A gp 1 0
  | .tlbiPage gp => packTl 0x6A gp 2 0
  | .ltset a => packG1 0x6B a 0
  | .arbegFirm g _ => packAb 0x6C 0 g 0
  | .arbegElastic g _ => packAb 0x6C 1 g 0
  | .arend => packZ 0x6D 0
  | .arabt i => packI8 0x6E 0 i
  | .arnrw a b => packG2 0x6F a b 0
  | .wmark i => packI16 0x70 0 i
  | .launch gp w => packLa 0x71 gp w 0
  | _ => 0

/-- The literal word of an instruction (R38). -/
def literalOf : Instr → Option Word
  | .faddL _ _ _ lit => some lit
  | .fmulL _ _ _ lit => some lit
  | .ffmaL _ _ _ _ lit => some lit
  | .fmovL _ _ lit => some lit
  | .iaddL _ _ _ lit => some lit
  | .imovL _ _ lit => some lit
  | .andL _ _ _ lit => some lit
  | .fminL _ _ _ lit => some lit
  | .fmaxL _ _ _ lit => some lit
  | .cwaity _ _ lit => some lit
  | .waity _ _ lit => some lit
  | .arbegFirm _ lit => some lit
  | .arbegElastic _ lit => some lit
  | _ => none

/-- The words of an instruction, in their order in memory (R37). -/
def encode (i : Instr) : List Word :=
  ((prefixOf i).map prefixWord).toList ++ [baseWord i] ++ (literalOf i).toList

/-- The number of words of an instruction (R37). -/
def wordCount (i : Instr) : Nat :=
  (if (prefixOf i).isSome then 1 else 0) + 1 + (if (literalOf i).isSome then 1 else 0)

/-- The `k`-th 32-bit word of a number whose bit 0 is the least significant bit of the first word. -/
def tableWord (w k : Nat) : Word := BitVec.ofNat 32 (w / 2 ^ (32 * k))

/-- The instruction the decoder reads from an instruction whose bits are `w`, numbered as the opcode table numbers
them; `nbits` bits are given and every bit above them is 0. -/
def decodeTableWord (nbits w : Nat) : Option Instr :=
  let v := w % 2 ^ nbits
  match decodeWords [tableWord v 0, tableWord v 1, tableWord v 2] with
  | .instr i _ => some i
  | _ => none

end

end Sys2Proof
end

