-- ==== Sys2Proof/Config.lean ====
section
/-! DEFINITION. What the device fixes (capabilities, sizes) and the values the spec leaves open. An `opaque` constant
has no body: nothing can be proved of its value, so a claim holds whatever it is. Each is named in the assumption log. -/

namespace Sys2Proof.Config

/-- The number of cores (R7). -/
def cores : Nat := 192

/-- The group slot of a core's supervisor group: R265 gives slots 0 to 1,023 to user groups (DESIGN CHOICE 1,024, log 3). -/
def supSlot : Nat := 1024

/-- The place of the command processor's own translations and copies of lines, beside the cores' (log 20). -/
def cpCore : Nat := 192

/-- Free value: which of two allowed contents a fetch or a constant read returns (R41, R90; log 2). -/
opaque freeBit : Nat → Bool

/-- Free value: how far a counter of cycles has advanced by a turn of the model (R258, R300; log 2). -/
opaque cycles : Nat → Nat

/-- Free value: which of several things a choice takes that the spec does not make (R192, R264; log 2). -/
opaque pick : Nat → Nat

/-- Free value: whether the matrix engine reads a word of scratch as it stood before a store that nothing orders before
the command (R125; log 2). -/
opaque oldWord : Nat → Nat → Bool

/-- Free value: the sub-cause of a poison trap on an accumulator element, for which R278 lists none (log 7). -/
opaque tileSub : Nat

/-- Free value: what a register of a launch or a block, named by its ID, reads in a supervisor group (R258; log 17). -/
opaque noBlock : Nat → Word

/-- Free value: the value that the firmware answers with for a system call that was not answered in time (R232; log 2). -/
opaque noAnswer : Nat → Word

/-- Free value: a byte of host memory that the device has not written (log 6). -/
opaque hostByte : Nat → Byte

/-- Free value: a byte of a peer's memory that the device has not written (log 6). -/
opaque peerByte : Nat → Byte

/-- Free value: the dirty data, if any, that the host returns for a line it owns (R255; log 6). -/
opaque hostLine : Nat → Option Nat

/-- Free value: the address of the command processor's copy of a task's launch record (R215; log 2). -/
opaque recordCopy : Nat → Nat

/-- Free value: the 128 bytes, as a number, that the decryption of a line gives under another key than its own (R247): of the key it was
written under, the key it is read under, the line and its bytes (log 13). -/
opaque garbled : Nat → Nat → Nat → Nat → Nat

/-- Free value: the data MAC of a line (R248): of the key it was written under, the line, its bytes, its group's major and its minor (log
13). -/
opaque dataMac : Nat → Nat → Nat → Nat → Nat → BitVec 64

/-- Free value: the MAC of a counter block or a node (R248): of its place, its major, its minors and its parent's minor for it (log 13). -/
opaque treeMac : Nat → Nat → List (Nat × Nat) → Nat → BitVec 64

/-- Free value: byte `i` of the SHA-512 digest of some bytes (R234, R252, R253; log 13). -/
opaque digest : List Byte → Nat → Byte

/-- Free value: an image passes the boot ROM's Ed25519 check (R252; log 13). -/
opaque imageGood : List Byte → Bool

/-- Free value: byte `i` of the alias public key that a firmware measurement gives (R252; log 13). -/
opaque aliasKey : List Byte → Nat → Byte

/-- Free value: byte `i` of the alias key's signature over some bytes (R253; log 13). -/
opaque signature : List Byte → Nat → Byte

/-- Free values: the length in bytes of the alias certificate, and its bytes (R252, R316; log 13). -/
opaque certLength : List Byte → Nat
opaque certificate : List Byte → Nat → Byte

end Sys2Proof.Config
end

