-- ==== Sys2Proof/Machine/Map.lean ====
section
/-! DEFINITION. Finite maps as lists of pairs with strictly rising keys. `mput` keeps the canonical form of a map with
a default: an entry equal to the default is not listed, so equal maps are equal lists. -/

namespace Sys2Proof.Machine

/-- A finite map: pairs of a key and a value, keys strictly rising. -/
abbrev SMap (α : Type) := List (Nat × α)

/-- The entry at a key. -/
def mfind {α : Type} : SMap α → Nat → Option α
  | [], _ => none
  | (k, v) :: r, i => if i = k then some v else mfind r i

/-- The entry at a key, or the default. -/
def mget {α : Type} (d : α) (m : SMap α) (i : Nat) : α := (mfind m i).getD d

/-- The map without the entry at a key. -/
def mdel {α : Type} : SMap α → Nat → SMap α
  | [], _ => []
  | (k, v) :: r, i => if i = k then mdel r i else (k, v) :: mdel r i

/-- The map with an entry at a key. -/
def mset {α : Type} : SMap α → Nat → α → SMap α
  | [], i, x => [(i, x)]
  | (k, v) :: r, i, x => if i = k then (i, x) :: r else if i < k then (i, x) :: (k, v) :: r else (k, v) :: mset r i x

/-- The map with a value at a key, an entry equal to the default being removed. -/
def mput {α : Type} [DecidableEq α] (d : α) (m : SMap α) (i : Nat) (x : α) : SMap α :=
  if x = d then mdel m i else mset m i x

/-- The map with the entry at a key, or the default, changed by a function. -/
def mmod {α : Type} (d : α) (m : SMap α) (i : Nat) (f : α → α) : SMap α := mset m i (f (mget d m i))

/-- Keys strictly rising. -/
def mrising {α : Type} : SMap α → Bool
  | [] => true
  | [_] => true
  | (k, _) :: (k', v) :: r => k < k' && mrising ((k', v) :: r)

end Sys2Proof.Machine
end

