-- ==== Sys2Proof/Machine/State.lean ====
section
/-! DEFINITION. The state of the device as plain data: the groups, the blocks, the cores, the memory system, the command
processor, the firmware, the links and the trace unit (INVENTORY.md lists every field with its rule and reset value).
Registers that hold zero, and memory bytes that hold zero, are not listed in their maps. -/

namespace Sys2Proof.Machine

/-- A byte-addressed memory: pairs of an address and a byte, addresses strictly rising. -/
abbrev Memory := List Host.Cell

/-- A record for the supervisor's fault queue (R189, R279): its 16 words, the group it concerns, whether it has been
posted, whether its replay-queue entry is freed when it is posted (a parked copy, a record with RGN = 1; R280), and for a
parked copy the stamp of its command; `bad` lists its 8-byte words that an uncorrectable error has struck (R295). -/
structure FaultRec where
  words  : List Word
  gid    : Nat
  posted : Bool
  frees  : Bool
  cmd    : Option Nat := none
  bad    : List Nat := []
  deriving DecidableEq, Repr

/-- What a group in the lull waits for (R219, R223, R225, R226, R228). -/
inductive Wake where
  | count (w n : Nat)
  | monitor (pa target : Nat)
  | barrier (id : Nat)
  | grid (id : Nat)
  | yielded
  deriving DecidableEq, Repr

/-- The states of R19. A stalled group carries its stall reason (R300) and whether it retries its instruction by
itself (`retry`) or an event releases it; a group stalled in BAR SYNC names its barrier (R225, R268); the lull carries
the wake condition and the continuation. -/
inductive GState where
  | ready
  | stalled (reason : Nat) (retry : Bool)
  | atBarrier (id : Nat)
  | lull (wake : Wake) (cont : DWord)
  | parked
  | held
  | swapped
  | retired
  deriving DecidableEq, Repr

/-- The kinds of operation that a group issues and that arrive later. -/
inductive OpKind where
  | load | store | scrLoad | scrStore | atom | prf | gld | gst | cadd | cread | cwait | copy | mma | launch | future | fence
  deriving DecidableEq, Repr

/-- An L1 copy (R153): exclusive with its dirty bit, or shared with the bytes it was fetched with and
those of its 8-byte words that an uncorrectable error has struck (R295), and the clock of the request that brought it. -/
structure L1Line where
  excl  : Bool := false
  dirty : Bool := false
  wts   : Word := 0
  rts   : Word := 0
  data  : Memory := []
  bad   : SMap Nat := []
  asked : Option Word := none
  deriving DecidableEq, Repr

/-- An operation issued and not arrived (R171, R172, R221, R222, R231, R232): the registers it interlocks, the counter
it is bound to, its clock, and for a CADD its addresses and whether it was refused, with the cause and the sub-cause. Tag 1
marks the operation of an interrupted instruction (R174), whose address is then `fba`, whose generator `gen` (R177), and which stopped
before thread `rix`; `served` holds the copies of lines that its threads share while one of them waits (R320); `lines` lists the lines of
device memory that it has reached, whose reads from memory its data waits for (R321); `peers` lists the devices that an
access has reached, each with the threads that reached it (R298); `host` says that it reached the host and `untr` that it stored to
untracked memory (R143); `ulog` is the place, the sequence number and the step of the undo-log record reserved for a CADD (R290, R291). -/
structure OpRec where
  id    : Nat
  kind  : OpKind
  w     : Option Nat := none
  vregs : List Nat := []
  gregs : List Nat := []
  clk   : Word := 0
  fba   : DWord := 0
  addr  : DWord := 0
  bad   : Bool := false
  tag   : Nat := 0
  peers : List (Nat × Word) := []
  gen   : DWord := 0
  host  : Bool := false
  untr  : Bool := false
  ulog  : Option (Nat × Nat × Nat) := none
  why   : Nat × Nat := (14, 0)
  rix   : Nat := 0
  served : SMap L1Line := []
  lines : List Nat := []
  deriving DecidableEq, Repr

/-- A trap due at the group's next instruction boundary (R133, R187, R221); `fba` is none where the record names the
next instruction. -/
structure DueTrap where
  cause : Nat
  sub   : Nat
  scr   : Bool := false
  fba   : Option DWord := none
  faddr : DWord
  deriving DecidableEq, Repr

/-- An open atomic region (R192 to R195): its handler, the lines read and written, the bytes buffered, the virtual
address of each 8-byte word buffered (for the undo log, R203), the slices where it is registered, for each line the bytes,
and those of its words that are poisoned, as its slice registered them (R196), and the 8-byte words of the buffer that an atomic made
from poison (R295). -/
structure Region where
  elastic : Bool
  handler : DWord
  reads   : List Nat
  writes  : List Nat
  buf     : SMap Byte
  vas     : SMap Nat
  slices  : List Nat
  seen    : SMap (Memory × SMap Nat) := []
  bad     : SMap Nat := []
  deriving DecidableEq, Repr

/-- What the debug port keeps of a group before a step (R294): its lane, uniform and mask registers, the poison of the first two, and its
group registers in the order of `steppedRegs`. -/
structure Kept where
  v     : SMap Word := []
  g     : SMap Word := []
  m     : SMap Word := []
  vBad  : SMap Nat := []
  gBad  : SMap Nat := []
  frame : List Word := []
  deriving DecidableEq, Repr

/-- A counter wait that its slice has not answered (R223): the counter and the target, the continuation of a reply to
the first request, and the continuation of CWAITY. -/
structure CtrReq where
  va     : Nat
  pa     : Nat
  target : Nat
  next   : DWord
  yields : Option DWord
  deriving DecidableEq, Repr

/-- A piece of a block image that the device writes: its address, its bytes, its value, and the poison of the registers it holds (R268,
R295). -/
structure Piece where
  va  : Nat
  n   : Nat
  val : Nat
  bad : Option Nat := none
  deriving DecidableEq, Repr

/-- A group (R14, R19, R258): the registers programs can name, its place, and what it has outstanding. `under` is its state beneath a debug
hold, `susp` its state when it was pre-empted; `barRaise` stands in the entry of a saved group; `drift` counts the cycles since the last
tick (R156); `mid` names the tile and the next thread of an accumulator pass in progress (R130); `bound` orders the groups by when they
were bound (R218); `setF` is the front that its LTSET waits for (R273); `tried` is the turn at which it last had its turn, and `sampled`
says that a sample awaits what it does next (R304); `walks` holds the pages whose walks for its instruction have ended (R241); `unsaved`
holds what was refused of its image (R271); `steps` holds what the debug port keeps of the last steps, each with its number, and `stepNo`
the number of the latest (R294). -/
structure Group where
  core     : Nat := 0
  slot     : Nat := 0
  seq      : Nat := 0
  part     : Nat := 0
  lane     : Nat := 0
  bound    : Nat := 0
  sup      : Bool := false
  priv     : Bool := false
  ctx      : Nat := 0
  blk      : Nat := 0
  grpib    : Nat := 0
  vb       : Nat := 16
  ub       : Nat := 96
  ab       : Nat := 0
  v        : SMap Word := []
  g        : SMap Word := []
  m        : SMap Word := []
  f        : BitVec 4 := 0
  w        : SMap Nat := []
  joins    : SMap Word := []
  pc       : DWord := 0
  codebase : DWord := 0
  fmt      : Word := 0
  flags    : Word := 0
  srs      : DWord := 0
  lclk     : Word := 0
  rix      : Nat := 0
  xc       : Word := 0
  xcv      : Bool := false
  alo      : Word := 0
  ahi      : Word := 0
  astat    : Word := 0
  aid      : Word := 0
  rgn      : Option Region := none
  lmask    : Word := 0
  pmask    : Word := 0
  hmask    : Word := 0
  st       : GState := .ready
  under    : GState := .ready
  barRaise : Option Word := none
  ops      : List OpRec := []
  nextOp   : Nat := 0
  due      : List DueTrap := []
  preempt  : Bool := false
  holdReq  : Bool := false
  stepReq  : Bool := false
  bpSkip   : Bool := false
  vPoison  : SMap Nat := []
  gPoison  : SMap Nat := []
  instret  : Word := 0
  stall    : SMap Word := []
  cycHi    : Word := 0
  age      : Nat := 0
  req      : Option CtrReq := none
  setF     : Option Word := none
  ticket   : Option Nat := none
  gra      : DWord := 0
  restore  : Bool := false
  susp     : GState := .ready
  steps    : List (Nat × Kept) := []
  stepNo   : Nat := 0
  drift    : Nat := 0
  walks    : List Nat := []
  mid      : Option (Nat × Nat) := none
  tried    : Nat := 0
  sampled  : Bool := false
  unsaved  : List Piece := []
  deriving DecidableEq, Repr

/-- A block barrier (R225): the gcount, the arrivals and the groups of its current generation and the greatest clock
carried. -/
structure Barrier where
  gcount  : Nat := 0
  count   : Nat := 0
  arrived : List Nat := []
  clk     : Word := 0
  gen     : Nat := 0
  deriving DecidableEq, Repr

/-- The states of a block: not yet bound, bound, being saved, in the swap area, all groups retired. -/
inductive BlkState where
  | waiting | resident | saving | swapped | retired
  deriving DecidableEq, Repr

/-- A block (R8, R17, R215, R225, R226, R285): its scratchpad with the pages that are unpinned and, of these, those in the backing store;
its tiles and restart headers per core of its span, and when each command recorded in a header issued (R134); its barriers; the groups that
have retired; and, from a group's pre-emption to the end of its restore, what the device keeps of it beside its image (R268, R324). -/
structure Block where
  task     : Nat := 0
  idx      : Nat := 0
  bx       : Nat := 0
  by_      : Nat := 0
  bz       : Nat := 0
  ng       : Nat := 0
  span     : List Nat := []
  atiles   : Nat := 0
  scrSize  : Nat := 0
  scr      : SMap Byte := []
  scrBad   : List Nat := []
  unpinned : List Nat := []
  paged    : List Nat := []
  backing  : SMap Byte := []
  tiles    : SMap Word := []
  hdrs     : SMap Word := []
  hdrAge   : SMap Nat := []
  tileBad  : List Nat := []
  bars     : SMap Barrier := []
  gbars    : SMap Barrier := []
  ggen     : SMap Nat := []
  st       : BlkState := .waiting
  saveIdx  : Nat := 0
  gone     : List Nat := []
  waiting  : SMap Group := []
  deriving DecidableEq, Repr

/-- A command of a core's copy engine (R181 to R190): its group and operation, its descriptor and extension registers
as captured, its rounding mode and generator, the first unit not begun, its clock, the fault that parked it, the ring
index of its record, the index word of the row in progress, and the turn at which it issued. -/
structure CopyCmd where
  gid     : Nat := 0
  opId    : Nat := 0
  ctx     : Nat := 0
  blk     : Nat := 0
  grpib   : Nat := 0
  user    : Bool := true
  op      : Nat := 0
  w       : Nat := 0
  flags   : Nat := 0
  desc    : List Word := []
  ext     : List Word := []
  rm      : Nat := 0
  gen     : DWord := 0
  next    : Nat := 0
  eclk    : Word := 0
  pc      : DWord := 0
  sub     : Nat := 0
  faddr   : DWord := 0
  scr     : Bool := false
  ring    : Option Nat := none
  idx     : Option (Nat × Nat) := none
  stamp   : Nat := 0
  started : Bool := false
  deriving DecidableEq, Repr

/-- A command of a core's matrix engine (R121 to R127): its group and operation, its tile and descriptor as captured,
the first K-block not yet run, its clock, whether its array phase has begun and whether it is to stop, and the scratch
bytes that a store not ordered before it has replaced since it issued (R125). -/
structure MmaCmd where
  gid      : Nat := 0
  opId     : Nat := 0
  blk      : Nat := 0
  grpib    : Nat := 0
  w        : Nat := 0
  tile     : Nat := 0
  desc     : List Word := []
  next     : Nat := 0
  eclk     : Word := 0
  stamp    : Nat := 0
  age      : Nat := 0
  started  : Bool := false
  stopping : Bool := false
  olds     : SMap Byte := []
  deriving DecidableEq, Repr

/-- A cached translation (R240): its context, page base, level and leaf entry; or a cached table entry. -/
structure TlbEnt where
  asid  : Nat
  base  : Nat
  level : Nat
  ent   : DWord
  deriving DecidableEq, Repr

/-- A bind record of a slot table (R215), and whether dispatch has bound its share (R216); `blk` is the model's name of its block. -/
structure BindRec where
  kind    : Nat := 0
  ctx     : Nat := 0
  spanIdx : Nat := 0
  spanM1  : Nat := 0
  g0      : Nat := 0
  seq     : Nat := 0
  pbase   : Nat := 0
  ngM1    : Nat := 0
  trec    : Nat := 0
  bx      : Nat := 0
  by_     : Nat := 0
  bz      : Nat := 0
  task    : Nat := 0
  blk     : Nat := 0
  saveIdx : Nat := 0
  bound   : Bool := false
  deriving DecidableEq, Repr

/-- A core (R16, R18, R41, R90, R137, R153, R215, R235, R240, R259, R280, R302, R304, R306). `idleLim` holds for a sub-array the MXIDLE
that governs the idle interval it is in (R136, R137); `rounds` for a partition the turn since when each of its stalled groups has one try
(R218; log 1). -/
structure Core where
  tvec      : Word := 0
  pvec      : Word := 0
  savebase  : Word := 0
  faultq    : Word := 0
  mxidle    : Word := 4096
  sampleN   : Word := 0
  lastSlot  : SMap Nat := []
  asid      : Nat := 0
  fqHead    : Nat := 0
  fqTail    : Nat := 0
  scr       : BitVec 3 := 2
  cpyq      : List CopyCmd := []
  parkedCpy : List CopyCmd := []
  mmaq      : List MmaCmd := []
  gated     : List Nat := List.range 16
  idleLim   : SMap Word := []
  replay    : List FaultRec := []
  unposted  : List FaultRec := []
  slots     : SMap BindRec := []
  l1        : SMap L1Line := []
  tlb       : List TlbEnt := []
  icache    : SMap (Memory × SMap Nat) := []
  ccache    : SMap (Memory × SMap Nat) := []
  bps       : SMap DWord := []
  pstall    : SMap Nat := []
  scq       : List (Nat × Nat) := []
  cpyErr    : Bool := false
  ulogSeq   : Nat := 0
  rounds    : SMap Nat := []
  deriving DecidableEq, Repr

/-- A cluster (R240): its L2 TLB and its walk cache. -/
structure Cluster where
  tlb2   : List TlbEnt := []
  wcache : List TlbEnt := []
  deriving DecidableEq, Repr

/-- A monitor or an unserved request of a slice (R224); `due` says that its condition has come true (R223). -/
structure Mon where
  gid    : Nat
  pa     : Nat
  target : Nat
  ticket : Option Nat := none
  due    : Bool := false
  deriving DecidableEq, Repr

/-- A region entry of a slice (R195 to R199). -/
structure RgnEnt where
  aid     : Nat
  gid     : Nat
  line    : Nat
  reader  : Bool
  writer  : Bool
  elastic : Bool
  lo      : Word
  hi      : Word
  frozen  : Bool := false
  deriving DecidableEq, Repr

/-- An edge between two regions on a line: `x` precedes `y` (R197). -/
structure Edge where
  line : Nat
  x    : Nat
  y    : Nat
  deriving DecidableEq, Repr

/-- A line that the host holds, owned or shared, and when its entry was filled (R255). -/
structure HostLine where
  owned  : Bool
  filled : Nat
  deriving DecidableEq, Repr

/-- A slice of the L2 (R150, R195, R224, R255, R256). -/
structure Slice where
  evts   : Word := 0
  mons   : List Mon := []
  tickNo : Nat := 0
  nacked : List Mon := []
  resv   : List Nat := []
  rents  : List RgnEnt := []
  edges  : List Edge := []
  snoop  : SMap HostLine := []
  bisnp  : SMap (List Instr) := []
  sweep  : Nat := 0
  swept  : Bool := false
  deriving DecidableEq, Repr

/-- A line resident in the L2 (R150): its times, its owner (core × 64 + context), its last writer, whether it is dirty,
whether the page it was filled through is MSC no-allocate (R161), and the key mode × 64 + key slot of that page (R247), if it was
filled through one. -/
structure L2Line where
  wts    : Word := 0
  rts    : Word := 0
  owner  : Option Nat := none
  writer : Nat := 0
  dirty  : Bool := false
  na     : Bool := false
  key    : Option Nat := none
  deriving DecidableEq, Repr

/-- A line of the memory-side cache (R161): its tag and the valid, dirty and accessed vectors of its sectors. -/
structure MscLine where
  tag   : Nat
  valid : BitVec 32 := 0
  dirty : BitVec 32 := 0
  acc   : BitVec 32 := 0
  ctx   : Nat := 0
  deriving DecidableEq, Repr

/-- A bank of HBM4E (R166): its open row, its pass count, its pending reads, and the rows of those that wait in its queue,
oldest first. -/
structure Bank where
  row   : Option Nat := none
  pass  : Nat := 0
  pend  : Nat := 0
  queue : List Nat := []
  deriving DecidableEq, Repr

/-- A pseudo-channel (R167): its postpone count, its rotation pointer, its all-bank refresh flag, and the refresh slots that have
passed. DESIGN CHOICE (log 58): the rotation starts at bank 0 of bank group 0, the first in R167's order. -/
structure PseudoCh where
  ppc   : Nat := 0
  ptr   : Nat := 0
  refab : Bool := false
  slots : Nat := 0
  deriving DecidableEq, Repr

/-- A counter block or tree node (R248): a major, the minors that are not 0, and its MAC. -/
structure CtrBlk where
  maj    : Nat := 0
  minors : SMap Nat := []
  mac    : BitVec 64 := 0
  deriving DecidableEq, Repr

/-- The groups of lines beneath a node of a stack's counter tree that are poisoned (R250), but for those that a page move
has freed since; level 0 is one group. -/
structure DeadNode where
  stack  : Nat
  level  : Nat
  idx    : Nat
  exempt : List Nat := []
  deriving DecidableEq, Repr

/-- The memory system beneath the cores (R150, R161 to R167, R242, R247 to R251, R295): `bad` holds the 8-byte words that
read as poison, `under` those poisoned in HBM4E beneath a line resident in the L2; `keys` the key mode × 64 + key slot under which
a line was last written to the memory side, and 256 more for each time that the slot's key has been destroyed since, none for a line that
a scrub left; `macs` the data MACs of the lines of verified memory (R248); `sealed` the bytes of a line beneath an L2 line that
was filled through another key; `badTree` the counter blocks (level 0) and nodes of a stack's tree whose MACs no longer match; `metaFrom`
the first byte of the META pages, once the firmware has laid them out. -/
structure MemSys where
  mem      : Memory := []
  hostMem  : SMap Byte := []
  peerMem  : SMap Byte := []
  lines    : SMap L2Line := []
  bad      : SMap Nat := []
  under    : SMap Nat := []
  tampered : List Nat := []
  badTree  : List (Nat × Nat × Nat) := []
  keys     : SMap Nat := []
  macs     : SMap (BitVec 64) := []
  sealed   : SMap Memory := []
  metaFrom : Option Nat := none
  dead     : List DeadNode := []
  ctrs     : SMap CtrBlk := []
  nodes    : SMap CtrBlk := []
  own      : SMap (BitVec 16) := []
  msc      : SMap (List MscLine) := []
  fpred    : SMap (Nat × BitVec 32) := []
  psel     : SMap Nat := []
  grant    : SMap Word := []
  banks    : SMap Bank := []
  pcs      : SMap PseudoCh := []
  deriving DecidableEq, Repr

/-- A queue descriptor (R208) with its processed count (R209), the physical address of its tail counter as last
translated, the last task read from it, and the clocks of the records that LAUNCHes have put into it (R231). -/
structure Queue where
  desc      : List Word := List.replicate 8 0
  processed : Nat := 0
  tailPa    : Option Nat := none
  lastTask  : Option Nat := none
  launchClk : SMap Word := []
  deriving DecidableEq, Repr

/-- A buffer handle (R212). -/
structure Handle where
  base  : Nat := 0
  size  : Nat := 0
  dom   : Nat := 0
  lastw : Option Nat := none
  ctx   : Nat := 0
  done  : Bool := true
  fin   : Word := 0
  rdrs  : Nat := 0
  rfin  : Word := 0
  deriving DecidableEq, Repr

/-- The states of a task: read from its queue, handed to placement, completed. -/
inductive TaskState where
  | queued | running | done
  deriving DecidableEq, Repr

/-- A task in progress (R210 to R213). -/
structure Task where
  record  : List Word := []
  banks   : SMap (Nat × Nat) := []
  ctx     : Nat := 0
  queue   : Nat := 0
  index   : Nat := 0
  st      : TaskState := .queued
  clk     : Word := 0
  fin     : Word := 0
  placed  : Nat := 0
  retired : Nat := 0
  deriving DecidableEq, Repr

/-- A future outstanding on the device (R232, R264). -/
structure Future where
  tag  : Nat
  gid  : Nat
  blk  : Nat
  grpib : Nat
  w    : Nat
  reg  : Nat
  deriving DecidableEq, Repr

/-- A LAUNCH that its ring has not taken (R231): its group and operation, the turn at which it issued, the launch
record, its context and the clock at issue. -/
structure Launch where
  gid    : Nat
  op     : Nat
  stamp  : Nat
  blk    : Nat
  grpib  : Nat
  ctx    : Nat
  clk    : Word
  record : List Word
  deriving DecidableEq, Repr

/-- The command processor (R157, R158, R192, R208 to R213, R226, R229, R264). `slots` holds the region slots taken, with the
slices each still waits for; `served` for each level the queue served last and the records taken from it in this round. -/
structure CmdProc where
  front    : Word := 0
  rebases  : Nat := 0
  reports  : SMap Word := []
  l1Swept  : List Nat := []
  raised   : Bool := false
  clk      : Word := 0
  queues   : SMap Queue := []
  handles  : SMap Handle := []
  tasks    : SMap Task := []
  nextTask : Nat := 0
  grid     : SMap Barrier := []
  futures  : List Future := []
  launches : List Launch := []
  answers  : List (Nat × Word × Word) := []
  slots    : SMap Nat := []
  served   : SMap (Nat × Nat) := []
  deriving DecidableEq, Repr

/-- The firmware's entry for a context (R235, R251, R253, R258); `stepped` counts the single steps taken in it (R291). -/
structure Ctx where
  live     : Bool := false
  ver      : Bool := false
  dbg      : Bool := false
  root     : Nat := 0
  tick     : BitVec 16 := 256
  tickNow  : BitVec 16 := 256
  lease    : BitVec 16 := 10
  ulogBase : Nat := 0
  ulogSize : Word := 0
  ulogPol  : Word := 0
  kshare   : DWord := 0
  wdog     : Word := 0
  window   : BitVec 16 := 0
  integ    : Bool := false
  ctxm     : List Byte := []
  key      : Bool := false
  lullmax  : Word := 94000
  stepped  : Nat := 0
  deriving DecidableEq, Repr

/-- The power states of R309. -/
inductive Power where
  | d0 | d3hot | d3cold
  deriving DecidableEq, Repr

/-- The firmware and the mailbox (R214, R229, R234, R235, R252, R253, R285, R308 to R318); its settings PREEMPTDLY and SYSCTMO are in
microseconds. -/
structure Firmware where
  status   : Nat := 0
  detail   : Word := 0
  go       : Bool := false
  cmd      : Word := 0
  res      : Word := 0
  data     : SMap Word := []
  ctxs     : SMap Ctx := []
  svm      : List Byte := []
  fwm      : List Byte := []
  podmap   : SMap DWord := []
  fenced   : List Nat := []
  missed   : SMap Nat := []
  errlog   : List (List Word) := []
  errSeq   : Nat := 0
  power    : Power := .d0
  throttle : Nat := 0
  flash    : Bool := true
  stackBad : List Nat := []
  portBad  : List Nat := []
  cxlBad   : Bool := false
  image    : List Byte := []
  pages    : Nat := 0
  preemptDly : Nat := 1000
  sysctmo  : Nat := 10000
  deriving DecidableEq, Repr

/-- A link's lanes (R297). -/
structure Link where
  crc     : SMap Nat := []
  failing : List Nat := []
  half    : Bool := false
  down    : Bool := false
  retries : Nat := 0
  deriving DecidableEq, Repr

/-- A message that leaves the device: its kind, its place, its data. -/
structure OutMsg where
  kind : Nat
  port : Nat
  pa   : Nat
  data : List Nat
  deriving DecidableEq, Repr

/-- The links, their port clocks and the debug port (R148, R255, R263, R297, R298). -/
structure Links where
  cxlClk : Word := 0
  ualClk : SMap Word := []
  links  : SMap Link := []
  dbgOn  : Bool := false
  beats  : Nat := 0
  out    : List OutMsg := []
  deriving DecidableEq, Repr

/-- The trace unit (R303, R304). -/
structure Trace where
  base  : Word := 0
  ctl   : Word := 0
  head  : Word := 0
  tail  : Word := 0
  drop  : Word := 0
  deriving DecidableEq, Repr

/-- The device. `cur` is the group whose instruction an instruction word executes and `others` the remaining groups;
`pending` lists the steps of the device that are due, oldest first (log 1); `turn` counts steps and indexes the free
values (log 2); `lead` names the group whose turn has been chosen, if one has (log 1). -/
structure State where
  turn     : Nat
  pending  : List Instr
  lead     : Option Nat
  cur      : Group
  others   : List Group
  blocks   : SMap Block
  nextBlk  : Nat
  cores    : SMap Core
  clusters : SMap Cluster
  slices   : SMap Slice
  mm       : MemSys
  cp       : CmdProc
  fw       : Firmware
  io       : Links
  tr       : Trace
  deriving DecidableEq, Repr

/-- What stops the machine. -/
inductive Fault where
  /-- Raised by `step` when the device has no power (R309, D3cold) and no reset is due: nothing steps. Safe: the
  hardware does nothing either. -/
  | powerOff
  deriving DecidableEq, Repr

/-- Why an instruction has no meaning. -/
inductive Refusal where
  /-- Raised by an arm of `exec` whose instruction has no meaning yet. Safe: nothing is claimed of such a step. -/
  | notModelled (mnemonic : String)
  deriving DecidableEq, Repr

/-- The supervisor group of a core before the supervisor is loaded (R7, R276): all threads present, registers zero,
held. Its slot and its uniform budget are DESIGN CHOICES (log 3). -/
def supGroup (core : Nat) : Group :=
  { core := core, slot := Config.supSlot, part := 0, lane := 32, sup := true, vb := 64, ub := 384,
    m := [(0, 0xFFFFFFFF)], lmask := 0xFFFFFFFF, pmask := 0xFFFFFFFF, st := .held }

/-- A context as the firmware finds it at reset (R235): context n may name key slot n. -/
def ctxReset (n : Nat) : Ctx := { kshare := BitVec.ofNat 64 (2 ^ n) }

/-- The device right after reset (R150, R310, R314): the firmware has not run, no user group is resident, every clock is 0. DESIGN CHOICE
(log 67): the memory-side cache and the footprint predictor are empty. Every core's supervisor group is held; core 0's is the current
group, the others are those `supGroup` gives. -/
def State.reset : State :=
  { turn := 0, pending := [], lead := none, cur := supGroup 0, others := [], blocks := [], nextBlk := 0, cores := [], clusters := [],
    slices := [], mm := {}, cp := {}, fw := {}, io := {}, tr := {} }

end Sys2Proof.Machine
end

