-- ==== Sys2Proof/Machine/Ops.lean ====
section
/-! DEFINITION. The operations the meanings share: groups, registers, clocks, the error log, the open region's abort,
and taking a trap (R21, R277 to R282). -/

namespace Sys2Proof.Machine

noncomputable section

/-- The outcome of a step of this device. -/
abbrev Out := Host.Outcome State Fault Refusal

/-! ## Logical time (R151, R157) -/

/-- `a` is before `b` in serial-number arithmetic (R151). -/
def before (a b : Word) : Bool := 1 ≤ (b - a).toNat && (b - a).toNat < 2 ^ 31

/-- The later of two times (R151). -/
def ltMax (a b : Word) : Word := if before a b then b else a

/-- The earlier of two times (R151). -/
def ltMin (a b : Word) : Word := if before b a then b else a

/-! ## Groups and cores -/

/-- The model's name of a group: its core and slot; slots 0 to 1,023 are those of handles (R265), and 1,024 is the
supervisor group's (log 3). -/
def gidOf (g : Group) : Nat := g.core * 2048 + g.slot

/-- The name is that of a supervisor group. -/
def isSupName (gid : Nat) : Bool := gid % 2048 == Config.supSlot

/-- The handle of a group (R265): sequence, core, slot. -/
def handleOf (g : Group) : Word := BitVec.ofNat 32 (g.seq * 2 ^ 18 + g.core * 2 ^ 10 + g.slot % 1024)

/-- A group by name; the supervisor group of a core that has not been touched is as it stands at reset, with its clock at
the front (R157). -/
def group (s : State) (gid : Nat) : Option Group :=
  if gidOf s.cur = gid then some s.cur
  else
    match s.others.find? (fun g => gidOf g == gid) with
    | some g => some g
    | none => if isSupName gid ∧ gid / 2048 < Config.cores then some { supGroup (gid / 2048) with lclk := s.cp.front }
      else none

/-- The list of groups with one group put in place of the group of its name. -/
def putGroup (gs : List Group) (g : Group) : List Group :=
  if gs.any (fun h => gidOf h == gidOf g) then gs.map (fun h => if gidOf h == gidOf g then g else h) else gs ++ [g]

/-- The state with a group put back. -/
def setGroup (s : State) (g : Group) : State :=
  if gidOf s.cur = gidOf g then { s with cur := g } else { s with others := putGroup s.others g }

/-- The state with a group, if there is one of that name, changed. -/
def modGroup (s : State) (gid : Nat) (f : Group → Group) : State :=
  match group s gid with
  | some g => setGroup s (f g)
  | none => s

/-- The state with the current group changed. -/
def modCur (s : State) (f : Group → Group) : State := { s with cur := f s.cur }

/-- The state with every group changed. -/
def modAll (s : State) (f : Group → Group) : State := { s with cur := f s.cur, others := s.others.map f }

/-- The state with a group made the current one. -/
def makeCur (s : State) (gid : Nat) : State :=
  if gidOf s.cur = gid then s
  else
    match group s gid with
    | none => s
    | some g => { s with cur := g, others := s.others.filter (fun h => gidOf h != gid) ++ [s.cur] }

/-- Every group that the state lists. -/
def allGroups (s : State) : List Group := s.cur :: s.others

/-- A core. -/
def core (s : State) (c : Nat) : Core := mget {} s.cores c

/-- The state with a core changed. -/
def modCore (s : State) (c : Nat) (f : Core → Core) : State := { s with cores := mmod {} s.cores c f }

/-- A slice as it stands untouched: its EVTS reads as the front (R157). -/
def sliceNew (s : State) : Slice := { evts := s.cp.front }

/-- A slice. -/
def slice (s : State) (i : Nat) : Slice := mget (sliceNew s) s.slices i

/-- The state with a slice changed. -/
def modSlice (s : State) (i : Nat) (f : Slice → Slice) : State := { s with slices := mmod (sliceNew s) s.slices i f }

/-- The firmware's entry of a context (R235). -/
def ctx (s : State) (n : Nat) : Ctx := mget (ctxReset n) s.fw.ctxs n

/-- The state with a context's entry changed. -/
def modCtx (s : State) (n : Nat) (f : Ctx → Ctx) : State :=
  { s with fw := { s.fw with ctxs := mmod (ctxReset n) s.fw.ctxs n f } }

/-- A block. -/
def block (s : State) (b : Nat) : Block := mget {} s.blocks b

/-- The state with a block changed, if there is one of that name. -/
def modBlock (s : State) (b : Nat) (f : Block → Block) : State :=
  match mfind s.blocks b with
  | some x => { s with blocks := mset s.blocks b (f x) }
  | none => s

/-- The state with a step of the device made due (log 1). -/
def pend (s : State) (e : Instr) : State := { s with pending := s.pending ++ [e] }

/-- Supervisor privilege: a supervisor group, or a group with PRIV set (R234, R268). -/
def privileged (g : Group) : Bool := g.sup || g.priv

/-- The context whose registers of context scope the group reaches (R235, R257). -/
def scopeCtx (s : State) (g : Group) : Nat := if g.sup then (core s g.core).asid else g.ctx

/-! ## Registers -/

/-- Vector register `r` of thread `t`. -/
def vget (g : Group) (r t : Nat) : Word := mget 0 g.v (r * 32 + t)

/-- A value written to vector register `r` of thread `t`; a write clears its poison (R295). -/
def vset (g : Group) (r t : Nat) (x : Word) : Group :=
  { g with v := mput 0 g.v (r * 32 + t) x, vPoison := mdel g.vPoison (r * 32 + t) }

/-- Uniform register `r`. -/
def gget (g : Group) (r : Nat) : Word := mget 0 g.g r

/-- A value written to uniform register `r`; a write clears its poison (R295). -/
def gset (g : Group) (r : Nat) (x : Word) : Group :=
  { g with g := mput 0 g.g r x, gPoison := mdel g.gPoison r }

/-- The 64-bit pair at `r`, low word first. -/
def gpair (g : Group) (r : Nat) : Nat := (gget g r).toNat + (gget g (r + 1)).toNat * 2 ^ 32

/-- A 64-bit value written to the pair at `r`. -/
def gsetPair (g : Group) (r : Nat) (x : Nat) : Group :=
  gset (gset g r (BitVec.ofNat 32 x)) (r + 1) (BitVec.ofNat 32 (x / 2 ^ 32))

/-- Mask register `r`. -/
def mreg (g : Group) (r : Nat) : Word := mget 0 g.m r

/-- A value written to mask register `r`. -/
def mwrite (g : Group) (r : Nat) (x : Word) : Group := { g with m := mput 0 g.m r x }

/-- Flag `r`. -/
def fget (g : Group) (r : Nat) : Bool := g.f.getLsbD r

/-- A value written to flag `r`. -/
def fset (g : Group) (r : Nat) (b : Bool) : Group :=
  { g with f := if b then g.f ||| BitVec.ofNat 4 (2 ^ r) else g.f &&& ~~~BitVec.ofNat 4 (2 ^ r) }

/-- The operations outstanding on counter `w` (R219). -/
def wget (g : Group) (w : Nat) : Nat := mget 0 g.w w

/-- One operation more on counter `w`. -/
def wInc (g : Group) (w : Nat) : Group := { g with w := mput 0 g.w w (wget g w + 1) }

/-- One operation fewer on counter `w`. -/
def wDec (g : Group) (w : Nat) : Group := { g with w := mput 0 g.w w (wget g w - 1) }

/-- The threads of a mask, in ascending order. -/
def threads (m : Word) : List Nat := (List.range 32).filter m.getLsbD

/-- The threads that an instruction under mask register `ms` visits: in the mask and present (R10, R12). -/
def activeMask (g : Group) (ms : Nat) : Word := mreg g ms &&& g.pmask

/-- Thread `t` is a helper (R8); while PRIV is set none acts as one (R268). -/
def helper (g : Group) (t : Nat) : Bool := g.hmask.getLsbD t && !g.priv

/-- The number of bits of a word that are 1. -/
def popcount (x : Word) : Nat := (threads x).length

/-- CODEBASE as the group sees it: 0 for code of context 0 (R268). -/
def codeBase (g : Group) : DWord := if g.priv then 0 else g.codebase

/-- The context that the group's code is fetched from (R234, R268). -/
def codeCtx (g : Group) : Nat := if g.priv || g.sup then 0 else g.ctx

/-- A code offset: the PC less CODEBASE (R258, R266). -/
def pcOffset (g : Group) : Word := (g.pc - codeBase g).setWidth 32

/-! ## Completing and stalling -/

/-- A word of a list of state-indexed free values: `k` names the choice within a step (log 2). -/
def freeIx (s : State) (k : Nat) : Nat := 64 * s.turn + k

/-- A count accrued under a stall reason by a group (R300, R301). -/
def addStall (reason n : Nat) (g : Group) : Group :=
  { g with stall := mput 0 g.stall reason (mget 0 g.stall reason + BitVec.ofNat 32 n), drift := g.drift + n }

/-- A count accrued under a stall reason by a partition of a core (R302). -/
def addPart (part reason n : Nat) (c : Core) : Core :=
  { c with pstall := mput 0 c.pstall (part * 32 + reason) ((mget 0 c.pstall (part * 32 + reason) + n) % 2 ^ 48) }

/-- A count accrued under a stall reason by the group and its partition. -/
def countStall (s : State) (gid reason n : Nat) : State :=
  match group s gid with
  | none => s
  | some g => modCore (setGroup s (addStall reason n g)) g.core (addPart g.part reason n)

/-- An instruction counted by its group (R258), which is now the youngest. -/
def addIssue (turn : Nat) (g : Group) : Group := { g with instret := g.instret + 1, age := turn }

/-- The current group counts an issued instruction (R258, R300). -/
def countIssue (s : State) : State := countStall (modCur s (addIssue s.turn)) (gidOf s.cur) 0 1

/-- The state of a group beneath a debug hold (R307), and the group with that state changed. -/
def inner (g : Group) : GState := if g.st = .held then g.under else g.st

def setInner (g : Group) (x : GState) : Group := if g.st = .held then { g with under := x } else { g with st := x }

/-- Some operations of interrupted instructions are withdrawn from their counters (R174): such an operation carries the tag 1
until its instruction is resumed and completes. -/
def withdrawOps (gone : OpRec → Bool) (g : Group) : Group :=
  let n := fun w => (g.ops.filter fun o => o.tag == 1 && gone o && o.w == some w).length
  { g with ops := g.ops.filter (fun o => !(o.tag == 1 && gone o)),
           w := (List.range 16).foldl (fun m w => if n w = 0 then m else mput 0 m w (mget 0 m w - n w)) g.w }

/-- All of them are. -/
def withdrawInterrupted (g : Group) : Group := withdrawOps (fun _ => true) g

/-- A group at the next instruction: RIX, XC and XCV return to 0 (R21, R98). -/
def atNext (pc : DWord) (g : Group) : Group :=
  { g with pc := pc, rix := 0, xc := 0, xcv := false, bpSkip := false, walks := [], mid := none }

/-- The instruction completes and the PC advances by 4 × words (R37). -/
def advance (words : Nat) (s : State) : State :=
  modCur (countIssue s) fun g => atNext (g.pc + BitVec.ofNat 64 (4 * words)) g

/-- The instruction completes and control transfers to an address. -/
def jumpTo (target : DWord) (s : State) : State := modCur (countIssue s) (atNext target)

/-- The instruction does not issue: the group stalls under a reason, retries by itself or waits for an event, and counts
cycles, whose number is free (log 2). -/
def stallOn (reason : Nat) (retry : Bool) (s : State) : State :=
  countStall (modCur s fun g => { g with st := .stalled reason retry }) (gidOf s.cur) reason (Config.cycles s.turn)

/-- The outcome of the read after a write, of many writes: a list of values written to threads of a register. -/
def vsetAll (g : Group) (r : Nat) (xs : List (Nat × Word)) : Group := xs.foldl (fun g x => vset g r x.1 x.2) g

/-! ## Operations outstanding (R171, R172) -/

/-- A vector register is the destination of an operation that has not arrived. -/
def vBusy (g : Group) (r : Nat) : Bool := g.ops.any (fun o => o.vregs.contains r)

/-- A uniform register is the destination of an operation that has not arrived. -/
def gBusy (g : Group) (r : Nat) : Bool := g.ops.any (fun o => o.gregs.contains r)

/-- The current group has one more operation outstanding, which is counted on its counter; its number is the group's
`nextOp` before. -/
def issueOp (s : State) (kind : OpKind) (w : Option Nat) (vregs gregs : List Nat) (clk : Word) (fba addr : DWord)
    (bad : Bool) : State :=
  modCur s fun g =>
    let o : OpRec := { id := g.nextOp, kind := kind, w := w, vregs := vregs, gregs := gregs, clk := clk, fba := fba,
                       addr := addr, bad := bad }
    let g := { g with ops := g.ops ++ [o], nextOp := g.nextOp + 1 }
    match w with
    | some w => wInc g w
    | none => g

/-- An operation has arrived: it is no longer outstanding, and its counter counts one fewer. -/
def arriveOp (g : Group) (id : Nat) : Group :=
  match g.ops.find? (fun o => o.id == id) with
  | none => g
  | some o =>
    let g := { g with ops := g.ops.filter (fun p => p.id != id) }
    match o.w with
    | some w => wDec g w
    | none => g

/-- A lulled group becomes ready at its continuation and is the youngest of its partition (R227). -/
def wakeGroup (turn : Nat) (g : Group) : Group :=
  match inner g with
  | .lull _ cont => { setInner g .ready with pc := cont, age := turn, rix := 0 }
  | _ => g

/-- A WAIT or a WAITY joins every arrived engine command of its counter (R146). -/
def joinCounter (g : Group) (w : Nat) : Group :=
  match mfind g.joins w with
  | some f => { g with lclk := ltMax g.lclk f, joins := mdel g.joins w }
  | none => g

/-- A scratch request of a group, or a part of it, stands in a core's queue: its phase has not begun, or another part's has not ended
(R97). -/
def scratchQueued (s : State) (gid op : Nat) : Bool := s.cores.any fun p => p.2.scq.contains (gid, op)

/-- The command that is next to begin, a copy or an MMA, is looked at again (R126, R186). -/
def kickEngines (s : State) (c : Nat) : State :=
  let k := core s c
  let s := if k.cpyq.head?.any (fun q => !q.started) then pend s (.copyCommandStart c) else s
  if k.mmaq.any (fun q => !q.started) then pend s (.mmaArrayStart c) else s

/-- A group stalled at an interlock or a WAIT looks again; a group whose lull condition on a counter holds is woken
(R219); a group that a pre-emption waits for vectors when it can (R268). -/
def recheck (s : State) (gid : Nat) : State :=
  let s := modGroup s gid fun g =>
    match inner g with
    | .stalled _ true => setInner g .ready
    | .lull (.count w n) _ => if wget g w ≤ n then wakeGroup s.turn (joinCounter g w) else g
    | _ => g
  match group s gid with
  | some g =>
    let s := kickEngines s g.core
    if g.preempt then pend s (.preemptionVector gid) else s
  | none => s

/-! ## The error log (R317) -/

/-- A record in the firmware's error log: a ring of 4,096 records with rising sequence numbers (R317). -/
def logError (s : State) (kind unit place pa ctx : Nat) (detail : List Word) : State :=
  let w0 := BitVec.ofNat 32 (kind * 2 ^ 24 + unit * 2 ^ 16 + place % 2 ^ 16)
  let cyc := Config.cycles s.turn
  let r := [w0, BitVec.ofNat 32 s.fw.errSeq, BitVec.ofNat 32 pa, BitVec.ofNat 32 (pa / 2 ^ 32), BitVec.ofNat 32 cyc,
            BitVec.ofNat 32 (cyc / 2 ^ 32), BitVec.ofNat 32 (ctx % 64), 0] ++ (detail ++ List.replicate 8 0).take 8
  let log := s.fw.errlog ++ [r]
  { s with fw := { s.fw with errlog := log.drop (log.length - 4096), errSeq := (s.fw.errSeq + 1) % 2 ^ 32 } }

/-! ## Regions: the abort (R203) -/

/-- ASTAT after an abort (R191): the class, the cause, the code of an ARABT, and the slice whose message caused it. -/
def astatAborted (elastic : Bool) (cause code : Nat) (sv : Option Nat) : Word :=
  BitVec.ofNat 32 ((if elastic then 2 ^ 30 else 0) + cause * 2 ^ 16 + code * 2 ^ 8 +
    (match sv with | some i => 64 + i | none => 0))

/-- `region_abort(cause)` of R203: the write buffer is discarded, every slice of the slice set is sent an abort message,
ASTAT says why, and the group continues at the handler. `sv` names the slice whose message caused the abort. -/
def regionAbort (s : State) (gid cause code : Nat) (sv : Option Nat) : State :=
  match group s gid with
  | none => s
  | some g =>
    match g.rgn with
    | none => s
    | some r =>
      let g' := { g with rgn := none, astat := astatAborted r.elastic cause code sv, rix := 0, xc := 0, xcv := false,
                         pc := r.handler, bpSkip := false, setF := none, walks := [], mid := none }
      let g' := withdrawInterrupted g'
      let g' := match inner g' with
        | .stalled _ _ => setInner g' .ready
        | _ => g'
      let s := setGroup s g'
      let s := r.slices.foldl (fun s i => pend s (.regionAbortMessage i { aid := g.aid.toNat, source := sv.getD 0, cause := cause })) s
      if r.slices.isEmpty then { s with cp := { s.cp with slots := mdel s.cp.slots g.aid.toNat } }
      else { s with cp := { s.cp with slots := mset s.cp.slots g.aid.toNat r.slices.length } }

/-! ## Taking a trap (R21, R40, R277 to R282, R323) -/

/-- Access kinds of a record (R279). -/
def accNone : Nat := 0
def accFetch : Nat := 1
def accLoad : Nat := 2
def accStore : Nat := 3
def accAtomic : Nat := 4
def accCounter : Nat := 5
def accEngine : Nat := 6

/-- What a trap carries (R278, R279). -/
structure Trap where
  cause : Nat
  sub   : Nat := 0
  acc   : Nat := 0
  scr   : Bool := false
  rix   : Nat := 0
  fba   : DWord
  faddr : DWord
  amask : Word := 0
  args  : List Word := []
  call  : Bool := false
  deriving DecidableEq, Repr

/-- A trap record of 16 words (R279), of kind 0b10 for a system call with a number. -/
def trapWords (g : Group) (t : Trap) (rgn : Bool) : List Word :=
  [BitVec.ofNat 32 (t.cause * 2 ^ 24 + (if rgn then 2 ^ 23 else 0) + (if t.scr then 2 ^ 22 else 0) + t.acc * 2 ^ 8 +
      t.rix),
   BitVec.ofNat 32 t.sub, handleOf g, BitVec.ofNat 32 g.ctx, pcOffset g,
   t.fba.setWidth 32, BitVec.ofNat 32 (t.fba.toNat / 2 ^ 32 % 2 ^ 26),
   t.faddr.setWidth 32, BitVec.ofNat 32 (t.faddr.toNat / 2 ^ 32 % 2 ^ 26),
   g.lclk, t.amask, if t.call then 0x80000000 else 0x40000000] ++ (t.args ++ List.replicate 4 0).take 4

/-- A record enters the core's replay queue of 64 entries, or waits for an entry (R280), and its posting is due. -/
def queueRecord (s : State) (c : Nat) (r : FaultRec) : State :=
  let s := modCore s c fun k =>
    if k.replay.length < 64 then { k with replay := k.replay ++ [r] } else { k with unposted := k.unposted ++ [r] }
  pend s (.faultRecordPost c)

/-- Taking a trap on the current group. A trap of a supervisor group holds it and goes to the error log (R276), its region aborted
(R203). In an open region a trap other than a breakpoint posts a record with RGN = 1 and aborts the region with cause 5 (R203).
Otherwise the group parks at its PC with RIX, counts replay for as long as it stays there (a free number of cycles, log 2), and one
record is queued for the core's supervisor group (R21, R279, R280, R300). -/
def takeTrap (t : Trap) (s : State) : State :=
  let g := s.cur
  let inRegion := g.rgn.isSome && t.cause != 9
  if g.sup then
    let s := if inRegion then regionAbort s (gidOf g) 5 0 none else modCur s fun g => { g with rix := t.rix }
    let s := countStall (modCur s fun g => { g with st := .held }) (gidOf g) 20 (Config.cycles (freeIx s 1))
    logError s 7 13 g.core 0 0 ((trapWords g t false).take 8)
  else if inRegion then
    let s := queueRecord s g.core { words := trapWords g t true, gid := gidOf g, posted := false, frees := true }
    regionAbort s (gidOf g) 5 0 none
  else
    let s := countStall (modCur s fun g => { g with st := .parked, rix := t.rix }) (gidOf g) 11 (Config.cycles (freeIx s 1))
    queueRecord s g.core { words := trapWords g t false, gid := gidOf g, posted := false, frees := false }

/-- A trap of a uniform instruction: RIX unchanged, and the cause names no address (R282, R323). The active set that a
record names is then that of m0 (log 15). -/
def trapHere (cause sub : Nat) (s : State) : State :=
  takeTrap { cause := cause, sub := sub, rix := s.cur.rix, fba := s.cur.pc, faddr := s.cur.pc,
             amask := activeMask s.cur 0 } s

/-- A trap of an instruction before any of its threads, at a data address: RIX unchanged (R282). An access whose address may not be
translated yet traps on nothing: it waits under the stall reason that stands in place of its sub-cause. -/
def trapAt (cause sub acc : Nat) (scr : Bool) (va : Nat) (s : State) : State :=
  if cause = 0 then stallOn sub true s
  else takeTrap { cause := cause, sub := sub, acc := acc, scr := scr, rix := s.cur.rix, fba := s.cur.pc,
                  faddr := BitVec.ofNat 64 va, amask := activeMask s.cur 0 } s

/-- A trap of fetch or decode (R40): the first-byte address is the PC, the faulting address that of word `k`. -/
def trapWord (cause k : Nat) (s : State) : State :=
  takeTrap { cause := cause, acc := accFetch, rix := s.cur.rix, fba := s.cur.pc,
             faddr := s.cur.pc + BitVec.ofNat 64 (4 * k), amask := activeMask s.cur 0 } s

/-- ILL_ENC at word `k` (R48, R52). -/
def illEnc (k : Nat) (s : State) : State := trapWord 5 k s

/-- ILL_REG at word `k` (R49). -/
def illReg (k : Nat) (s : State) : State := trapWord 7 k s

/-- A resume through STATE (R266, R281): the group's replay-queue entry is freed, the next waiting record takes it, and
the group is ready and the youngest. -/
def freeEntry (s : State) (c gid : Nat) : State :=
  let s := modCore s c fun k =>
    let rs := k.replay.filter (fun r => r.gid != gid || r.frees)
    let us := k.unposted.filter (fun r => r.gid != gid || r.frees)
    { k with replay := rs ++ us.take (64 - rs.length), unposted := us.drop (64 - rs.length) }
  pend s (.faultRecordPost c)

/-- The group becomes ready where it stands (R266). -/
def resumeGroup (s : State) (gid : Nat) : State :=
  match group s gid with
  | none => s
  | some g => freeEntry (setGroup s { g with st := .ready, age := s.turn, bpSkip := true }) g.core gid

end

end Sys2Proof.Machine
end

