-- ==== Sys2Proof/Machine/Float.lean ====
section
/-! DEFINITION. Number formats and rounding (R53 to R62): a value is read exactly, an operation is computed exactly or to
a floor with a sticky part, and one function rounds into every format under every mode. -/

namespace Sys2Proof.Machine

/-- An element format (R55): exponent and fraction widths, bias, the code of the largest finite value, the canonical
NaN, and whether the format has infinities. -/
structure Fmt where
  eb   : Nat
  mb   : Nat
  bias : Nat
  maxf : Nat
  cnan : Nat
  inf  : Bool
  deriving DecidableEq, Repr

def fp32 : Fmt := { eb := 8, mb := 23, bias := 127, maxf := 0x7F7FFFFF, cnan := 0x7FC00000, inf := true }
def fp16 : Fmt := { eb := 5, mb := 10, bias := 15, maxf := 0x7BFF, cnan := 0x7E00, inf := true }
def bf16 : Fmt := { eb := 8, mb := 7, bias := 127, maxf := 0x7F7F, cnan := 0x7FC0, inf := true }
def e4m3 : Fmt := { eb := 4, mb := 3, bias := 7, maxf := 0x7E, cnan := 0x7F, inf := false }
def e5m2 : Fmt := { eb := 5, mb := 2, bias := 15, maxf := 0x7B, cnan := 0x7E, inf := true }

/-- The code with only the sign set. -/
def signBit (f : Fmt) : Nat := 2 ^ (f.eb + f.mb)

/-- A datum read from a format: a NaN, quiet or signalling (R56); an infinity; or (−1)^neg × m × 2^e. -/
inductive FVal where
  | nan (snan : Bool)
  | inf (neg : Bool)
  | fin (neg : Bool) (m : Nat) (e : Int)
  deriving DecidableEq, Repr

/-- The datum that a code of a format denotes (R55, R56). E4M3 and E5M2 have no signalling NaN. -/
def fval (f : Fmt) (x : Nat) : FVal :=
  let neg := x / signBit f % 2 == 1
  let ex := x / 2 ^ f.mb % 2 ^ f.eb
  let fr := x % 2 ^ f.mb
  if ex = 2 ^ f.eb - 1 ∧ (f.inf ∨ fr = 2 ^ f.mb - 1) then
    if f.inf ∧ fr = 0 then .inf neg else .nan (f.mb ≥ 7 && fr < 2 ^ (f.mb - 1))
  else if ex = 0 then .fin neg fr (1 - f.bias - f.mb)
  else .fin neg (2 ^ f.mb + fr) ((ex : Int) - f.bias - f.mb)

/-- An exact result: NaN, an infinity, or (−1)^neg × (m + δ) × 2^e with 0 ≤ δ < 1, δ ≠ 0 exactly when `sticky`. -/
inductive XVal where
  | nan
  | inf (neg : Bool)
  | fin (neg : Bool) (m : Nat) (e : Int) (sticky : Bool)
  deriving DecidableEq, Repr

/-- Exceptions, in the bit positions of FLAGS (R68). -/
def exIV : Nat := 8
def exDZ : Nat := 16
def exOF : Nat := 32
def exUF : Nat := 64
def exNX : Nat := 128

/-- A rounded result: the code, the exceptions raised, and the generator after it. -/
structure Rounded where
  bits : Nat
  ex   : Nat
  srs  : BitVec 64
  deriving DecidableEq, Repr

/-- One step of the generator SRS (R61). -/
def srsStep (s : BitVec 64) : BitVec 64 :=
  let a := s ^^^ (s <<< 13)
  let b := a ^^^ (a >>> 7)
  b ^^^ (b <<< 17)

/-- The draw r = s[63:40] (R61). -/
def srsDraw (s : BitVec 64) : Nat := s.toNat / 2 ^ 40

/-- The rounding modes (R60): 0 RNE, 1 RTZ, 2 RUP, 3 RDN, 4 RNA, 5 RSTO. `rem / 2^sh` (and a sticky part) is what
truncation to `q` discards; `r` is the draw. The answer says whether the magnitude rounds up. -/
def roundsUp (rm : Nat) (neg : Bool) (q rem sh : Nat) (sticky : Bool) (r : Nat) : Bool :=
  let half := 2 * rem
  let one := 2 ^ sh
  match rm with
  | 0 => one < half || (half == one && (sticky || q % 2 == 1))
  | 1 => false
  | 2 => !neg && (rem != 0 || sticky)
  | 3 => neg && (rem != 0 || sticky)
  | 4 => one ≤ half
  | _ => 2 ^ (sh + 24) ≤ rem * 2 ^ 24 + r * 2 ^ sh

/-- A magnitude m × 2^e (with a sticky part) truncated onto the spacing 2^u: quotient, remainder, width of the remainder.
A magnitude far below the spacing keeps only its being nonzero. -/
def truncate (m : Nat) (e u : Int) : Nat × Nat × Nat :=
  if u ≤ e then (m * 2 ^ (e - u).toNat, 0, 0)
  else
    let sh := (u - e).toNat
    if m.log2 + 64 < sh then (0, if m = 0 then 0 else 1, 64)
    else (m / 2 ^ sh, m % 2 ^ sh, sh)

/-- The result of an overflow without saturation (R57, R60). -/
def overflowCode (f : Fmt) (rm : Nat) (neg : Bool) : Nat :=
  let toMax := rm == 1 || (rm == 2 && neg) || (rm == 3 && !neg)
  if !f.inf || f.mb = 2 then f.cnan else (if neg then signBit f else 0) + (if toMax then f.maxf else f.maxf + 1)

/-- `round(x, F, rm, sat)` of R60 with the draws of R61. A zero keeps its sign; E4M3 takes IV for an infinity without
saturation (R57). -/
def roundTo (f : Fmt) (rm : Nat) (sat : Bool) (x : XVal) (srs : BitVec 64) : Rounded :=
  match x with
  | .nan => { bits := f.cnan, ex := 0, srs := srs }
  | .inf neg =>
    let sg := if neg then signBit f else 0
    if sat then { bits := sg + f.maxf, ex := 0, srs := srs }
    else if f.inf then { bits := sg + f.maxf + 1, ex := 0, srs := srs }
    else { bits := f.cnan, ex := exIV, srs := srs }
  | .fin neg m e sticky =>
    let sg := if neg then signBit f else 0
    if m = 0 ∧ !sticky then { bits := sg, ex := 0, srs := srs }
    else
      let low : Int := 1 - (f.bias : Int) - f.mb
      let u := max ((m.log2 : Int) + e - f.mb) low
      let t := truncate m e u
      if t.2.1 = 0 ∧ !sticky ∧ t.1 ≤ 2 ^ (f.mb + 1) ∧
          (u + f.mb + f.bias - 1) * 2 ^ f.mb + (t.1 : Int) ≤ f.maxf then
        { bits := sg + ((u + f.mb + f.bias - 1) * 2 ^ f.mb + (t.1 : Int)).toNat, ex := 0, srs := srs }
      else
        let srs' := if rm = 5 then srsStep srs else srs
        let up := roundsUp rm neg t.1 t.2.1 t.2.2 sticky (srsDraw srs')
        let q := t.1 + (if up then 1 else 0)
        let code := ((u + f.mb + f.bias - 1) * 2 ^ f.mb + (q : Int)).toNat
        if f.maxf < code then
          { bits := if sat then sg + f.maxf else overflowCode f rm neg, ex := exOF + exNX, srs := srs' }
        else
          { bits := sg + code, ex := exNX + (if q ≠ 0 ∧ code < 2 ^ f.mb then exUF else 0), srs := srs' }

/-! ## Exact operations: the result and the exceptions the operation itself raises (R65) -/

/-- IV for a signalling NaN operand (R56). -/
def snanEx : FVal → Nat
  | .nan true => exIV
  | _ => 0

/-- The exact value of a datum. -/
def exact : FVal → XVal
  | .nan _ => .nan
  | .inf n => .inf n
  | .fin n m e => .fin n m e false

/-- A datum is a NaN. -/
def isNaN : FVal → Bool
  | .nan _ => true
  | _ => false

/-- The datum with its sign inverted. -/
def negate : FVal → FVal
  | .inf n => .inf (!n)
  | .fin n m e => .fin (!n) m e
  | x => x

/-- A signed magnitude on the spacing 2^e. -/
def signedInt (neg : Bool) (m : Nat) : Int := if neg then -(m : Int) else m

/-- The sum of two finite exact values; an exact zero sum is +0, or −0 under RDN, unless both are zeros of one sign
(R60). -/
def addFin (rm : Nat) (n1 : Bool) (m1 : Nat) (e1 : Int) (n2 : Bool) (m2 : Nat) (e2 : Int) : XVal :=
  let e := min e1 e2
  let s := signedInt n1 (m1 * 2 ^ (e1 - e).toNat) + signedInt n2 (m2 * 2 ^ (e2 - e).toNat)
  if s = 0 then .fin (if m1 = 0 ∧ m2 = 0 ∧ n1 = n2 then n1 else rm == 3) 0 e false
  else .fin (s < 0) s.natAbs e false

/-- a + b (R77). -/
def fAdd (rm : Nat) (a b : FVal) : XVal × Nat :=
  let sn := snanEx a ||| snanEx b
  match a, b with
  | .nan _, _ => (.nan, sn)
  | _, .nan _ => (.nan, sn)
  | .inf x, .inf y => if x = y then (.inf x, 0) else (.nan, exIV)
  | .inf x, _ => (.inf x, 0)
  | _, .inf y => (.inf y, 0)
  | .fin n1 m1 e1, .fin n2 m2 e2 => (addFin rm n1 m1 e1 n2 m2 e2, 0)

/-- a × b as a datum, or none for 0 × ∞ or a NaN operand. -/
def fProd (a b : FVal) : Option FVal :=
  match a, b with
  | .nan _, _ => none
  | _, .nan _ => none
  | .inf x, .inf y => some (.inf (x != y))
  | .inf x, .fin n m _ => if m = 0 then none else some (.inf (x != n))
  | .fin n m _, .inf y => if m = 0 then none else some (.inf (y != n))
  | .fin n1 m1 e1, .fin n2 m2 e2 => some (.fin (n1 != n2) (m1 * m2) (e1 + e2))

/-- IV for 0 × ∞ (R65). -/
def zeroTimesInf (a b : FVal) : Bool := !isNaN a && !isNaN b && (fProd a b).isNone

/-- a × b (R77). -/
def fMul (a b : FVal) : XVal × Nat :=
  match fProd a b with
  | some p => (exact p, 0)
  | none => (.nan, snanEx a ||| snanEx b ||| (if zeroTimesInf a b then exIV else 0))

/-- a × b + c, the product exact (R77): IV for 0 × ∞ even when c is a quiet NaN, and for infinities of opposite sign. -/
def fFma (rm : Nat) (a b c : FVal) : XVal × Nat :=
  let sn := snanEx a ||| snanEx b ||| snanEx c
  match fProd a b with
  | none => (.nan, sn ||| (if zeroTimesInf a b then exIV else 0))
  | some p =>
    let r := fAdd rm p c
    (r.1, r.2 ||| sn)

/-- c + a1 × b1 + a2 × b2 with both products exact (HDOT2, R80): IV for 0 × ∞ in either product and for infinities of opposite
sign among the three terms, also where another term is a NaN. -/
def fDot2 (rm : Nat) (a1 b1 a2 b2 c : FVal) : XVal × Nat :=
  let sn := snanEx a1 ||| snanEx b1 ||| snanEx a2 ||| snanEx b2 ||| snanEx c
  let zi := if zeroTimesInf a1 b1 || zeroTimesInf a2 b2 then exIV else 0
  let infs := ((fProd a1 b1).toList ++ (fProd a2 b2).toList ++ [c]).filterMap fun x => match x with | .inf n => some n | _ => none
  let opposite := infs.contains true && infs.contains false
  match fProd a1 b1, fProd a2 b2 with
  | some p, some q =>
    if opposite then (.nan, sn ||| exIV)
    else if isNaN c then (.nan, sn)
    else
      match infs with
      | n :: _ => (.inf n, sn)
      | [] =>
        match p, q, c with
        | .fin n1 m1 e1, .fin n2 m2 e2, .fin n3 m3 e3 =>
          let e := min e1 (min e2 e3)
          let s := signedInt n1 (m1 * 2 ^ (e1 - e).toNat) + signedInt n2 (m2 * 2 ^ (e2 - e).toNat) +
            signedInt n3 (m3 * 2 ^ (e3 - e).toNat)
          (if s = 0 then .fin (if m1 = 0 ∧ m2 = 0 ∧ m3 = 0 ∧ n1 = n2 ∧ n2 = n3 then n1 else rm == 3) 0 e false
           else .fin (s < 0) s.natAbs e false, sn)
        | _, _, _ => (.nan, sn)
  | _, _ => (.nan, sn ||| zi ||| (if opposite then exIV else 0))

/-- a ÷ b (R77, R65). -/
def fDiv (a b : FVal) : XVal × Nat :=
  match a, b with
  | .nan _, _ => (.nan, snanEx a ||| snanEx b)
  | _, .nan _ => (.nan, snanEx a ||| snanEx b)
  | .inf _, .inf _ => (.nan, exIV)
  | .inf x, .fin n _ _ => (.inf (x != n), 0)
  | .fin n _ _, .inf y => (.fin (n != y) 0 0 false, 0)
  | .fin n1 m1 e1, .fin n2 m2 e2 =>
    if m2 = 0 then if m1 = 0 then (.nan, exIV) else (.inf (n1 != n2), exDZ)
    else
      let num := m1 * 2 ^ 128
      (.fin (n1 != n2) (num / m2) (e1 - e2 - 128) (num % m2 != 0), 0)

/-- The integer square root by bits: the largest r below 2^(k+1) with r² ≤ x, from a partial root. -/
def isqrtFrom (x : Nat) : Nat → Nat → Nat
  | 0, r => if (r + 1) * (r + 1) ≤ x then r + 1 else r
  | k + 1, r => if (r + 2 ^ (k + 1)) * (r + 2 ^ (k + 1)) ≤ x then isqrtFrom x k (r + 2 ^ (k + 1)) else isqrtFrom x k r

/-- The integer square root. -/
def isqrt (x : Nat) : Nat := isqrtFrom x (x.log2 / 2) 0

/-- √a (R77, R65). -/
def fSqrt (a : FVal) : XVal × Nat :=
  match a with
  | .nan _ => (.nan, snanEx a)
  | .inf n => if n then (.nan, exIV) else (.inf false, 0)
  | .fin n m e =>
    if m = 0 then (.fin n 0 0 false, 0)
    else if n then (.nan, exIV)
    else
      let odd := e % 2 != 0
      let x := (if odd then 2 * m else m) * 2 ^ 160
      let e' := (if odd then e - 1 else e) - 160
      let r := isqrt x
      (.fin false r (e' / 2) (r * r != x), 0)

/-- 1 ÷ √a (R77, R65): +0 gives +∞ and −0 gives −∞ with DZ. -/
def fRsq (a : FVal) : XVal × Nat :=
  match a with
  | .nan _ => (.nan, snanEx a)
  | .inf n => if n then (.nan, exIV) else (.fin false 0 0 false, 0)
  | .fin n m e =>
    if m = 0 then (.inf n, exDZ)
    else if n then (.nan, exIV)
    else
      let odd := e % 2 != 0
      let x := if odd then 2 * m else m
      let e' := if odd then e - 1 else e
      let r := isqrt (2 ^ 256 / x)
      (.fin false r (-128 - e' / 2) (r * r * x != 2 ^ 256), 0)

/-- 1 ÷ a (R77): the quotient of +1. -/
def fRcp (a : FVal) : XVal × Nat := fDiv (.fin false 1 0) a

/-- a × 2^n (R77, FSCALE). -/
def fScale (a : FVal) (n : Int) : XVal × Nat :=
  match a with
  | .fin s m e => (.fin s m (e + n) false, 0)
  | x => (exact x, snanEx x)

/-! ## Minimum and maximum (R54) -/

/-- The order of R54 on finite data and infinities: −0 orders below +0. -/
def fLess (a b : FVal) : Bool :=
  match a, b with
  | .inf x, .inf y => x && !y
  | .inf x, _ => x
  | _, .inf y => !y
  | .fin n1 m1 e1, .fin n2 m2 e2 =>
    let e := min e1 e2
    let s1 := signedInt n1 (m1 * 2 ^ (e1 - e).toNat)
    let s2 := signedInt n2 (m2 * 2 ^ (e2 - e).toNat)
    s1 < s2 || (s1 == s2 && n1 && !n2)
  | _, _ => false

/-- minimumNumber, or maximumNumber for `big`: the chosen operand's bits, and IV for a signalling NaN (R54, R56). -/
def fPick (f : Fmt) (big : Bool) (x y : Nat) : Nat × Nat :=
  let a := fval f x
  let b := fval f y
  let ex := snanEx a ||| snanEx b
  if isNaN a then (if isNaN b then f.cnan else y, ex)
  else if isNaN b then (x, ex)
  else (if (if big then fLess a b else fLess b a) then y else x, ex)

/-! ## To integers (R77 FRINT, R84) -/

/-- A finite magnitude rounded to an integer: the integer, whether it differs, the generator after it (R61 with
u = 1). -/
def roundInt (rm : Nat) (neg : Bool) (m : Nat) (e : Int) (srs : BitVec 64) : Nat × Bool × BitVec 64 :=
  let t := truncate m e 0
  if t.2.1 = 0 then (t.1, false, srs)
  else
    let srs' := if rm = 5 then srsStep srs else srs
    (t.1 + (if roundsUp rm neg t.1 t.2.1 t.2.2 false (srsDraw srs') then 1 else 0), true, srs')

/-- FRINT of an FP32 code (R77): an integral value, sign kept; NX when the value changes. -/
def fRint (rm : Nat) (x : Nat) (srs : BitVec 64) : Rounded :=
  match fval fp32 x with
  | .nan s => { bits := fp32.cnan, ex := if s then exIV else 0, srs := srs }
  | .inf _ => { bits := x, ex := 0, srs := srs }
  | .fin n m e =>
    if 0 ≤ e then { bits := x, ex := 0, srs := srs }
    else
      let r := roundInt rm n m e srs
      if r.2.1 then
        { (roundTo fp32 0 false (.fin n r.1 0 false) r.2.2) with ex := exNX }
      else { bits := x, ex := 0, srs := srs }

/-- An FP32 code to an integer (R84), signed or unsigned. -/
def fToInt (rm : Nat) (sgn : Bool) (x : Nat) (srs : BitVec 64) : Rounded :=
  let hi : Int := if sgn then 2 ^ 31 - 1 else 2 ^ 32 - 1
  let lo : Int := if sgn then -2 ^ 31 else 0
  let most : Nat := if sgn then 0x7FFFFFFF else 0xFFFFFFFF
  let least : Nat := if sgn then 0x80000000 else 0
  match fval fp32 x with
  | .nan _ => { bits := 0, ex := exIV, srs := srs }
  | .inf n => { bits := if n then least else most, ex := exIV, srs := srs }
  | .fin n m e =>
    let r := roundInt rm n m e srs
    let v := signedInt n r.1
    if hi < v then { bits := most, ex := exIV, srs := r.2.2 }
    else if v < lo then { bits := least, ex := exIV, srs := r.2.2 }
    else { bits := (v % 2 ^ 32).toNat, ex := if r.2.1 then exNX else 0, srs := r.2.2 }

/-- The class word of FCLASS (R78): exactly one bit set. -/
def fClass (x : Nat) : Nat :=
  match fval fp32 x with
  | .nan s => if s then 2 ^ 8 else 2 ^ 9
  | .inf n => if n then 2 ^ 0 else 2 ^ 7
  | .fin n m _ =>
    if m = 0 then (if n then 2 ^ 3 else 2 ^ 4)
    else if m < 2 ^ 23 then (if n then 2 ^ 2 else 2 ^ 5)
    else (if n then 2 ^ 1 else 2 ^ 6)

/-! ## Comparison (R85) -/

/-- a < b by value; false if either is a NaN. −0 equals +0. -/
def fLt (a b : FVal) : Bool :=
  match a, b with
  | .fin _ 0 _, .fin _ 0 _ => false
  | a, b => !isNaN a && !isNaN b && fLess a b

/-- a = b by value; false if either is a NaN. -/
def fEq (a b : FVal) : Bool := !isNaN a && !isNaN b && !fLt a b && !fLt b a

end Sys2Proof.Machine
end

