-- ==== Sys2Proof/Machine/Transc.lean ====
section
/-! DEFINITION. The special functions FEXP2, FLOG2, FSIGM and FTANH (R54, R77): each is computed in fixed point to some
190 significant bits with a sticky part, and then rounded once. Cases that are exact are exact. -/

namespace Sys2Proof.Machine

/-- Fixed point: a number x stands as x × 2^256. -/
def fxOne : Nat := 2 ^ 256

/-- ln 2 in fixed point. -/
def fxLn2 : Nat := 0xb17217f7d1cf79abc9e3b39803f2f6af40f343267298b62d8a0d175b8baafa2b

/-- The product of two fixed-point numbers. -/
def fxMul (a b : Nat) : Nat := a * b / fxOne

/-- Σ t, t x/(k+1), t x²/((k+1)(k+2)) … : n terms of the series of e^x from the k-th term t. -/
def expSeries (x : Nat) : Nat → Nat → Nat → Nat
  | 0, _, _ => 0
  | n + 1, k, t => t + expSeries x n (k + 1) (fxMul t x / (k + 1))

/-- e^x in fixed point for x in [0, 1). -/
def fxExp (x : Nat) : Nat := expSeries x 64 0 fxOne

/-- Σ t/k, t z²/(k+2), t z⁴/(k+4) … : n terms of the series of artanh from the term t/k, with z² given. -/
def artanhSeries (zz : Nat) : Nat → Nat → Nat → Nat
  | 0, _, _ => 0
  | n + 1, k, t => t / k + artanhSeries zz n (k + 2) (fxMul t zz)

/-- ln(n/d) in fixed point for n ≥ d, n/d at most 1.5: 2 artanh((n − d)/(n + d)). -/
def fxLnRatio (n d : Nat) : Nat :=
  let z := (n - d) * fxOne / (n + d)
  2 * artanhSeries (fxMul z z) 60 1 z

/-- An inexact magnitude m × 2^e, kept to 190 significant bits with the sticky part. -/
def inexact (neg : Bool) (m : Nat) (e : Int) : XVal :=
  let d := m.log2 - 190
  .fin neg (m / 2 ^ d) (e + d) true

/-- A magnitude just below 1. -/
def nearOne (neg : Bool) : XVal := .fin neg (2 ^ 190 - 1) (-190) true

/-- 2^a (R77): an integer a gives the exact power. -/
def fExp2 (a : FVal) : XVal × Nat :=
  match a with
  | .nan _ => (.nan, snanEx a)
  | .inf n => (if n then .fin false 0 0 false else .inf false, 0)
  | .fin n m e =>
    if 0 ≤ e then (.fin false 1 (signedInt n (m * 2 ^ e.toNat)) false, 0)
    else
      let d : Nat := 2 ^ (-e).toNat
      let v := signedInt n m
      let i := v / (d : Int)
      let f := (v % (d : Int)).toNat
      if f = 0 then (.fin false 1 i false, 0)
      else (inexact false (fxExp (fxMul (f * fxOne / d) fxLn2)) (i - 256), 0)

/-- log2 a (R77, R65): a power of two gives the exact integer. -/
def fLog2 (a : FVal) : XVal × Nat :=
  match a with
  | .nan _ => (.nan, snanEx a)
  | .inf n => if n then (.nan, exIV) else (.inf false, 0)
  | .fin n m e =>
    if m = 0 then (.inf true, exDZ)
    else if n then (.nan, exIV)
    else
      let k := m.log2
      if m = 2 ^ k then
        let i := (k : Int) + e
        (.fin (i < 0) i.natAbs 0 false, 0)
      else
        let up := 3 * 2 ^ k ≤ 2 * m
        let i := (k : Int) + e + (if up then 1 else 0)
        let l : Int := if up then -(fxLnRatio (2 ^ (k + 1)) m : Int) else fxLnRatio m (2 ^ k)
        let t := i * fxOne + l * fxOne / fxLn2
        (inexact (t < 0) t.natAbs (-256), 0)

/-- e^x for a magnitude m × 2^e below 256: the power q of two and the fixed-point factor in [1, 2]. -/
def expParts (m : Nat) (e : Int) : Nat × Nat :=
  let x := if 0 ≤ e then m * fxOne * 2 ^ e.toNat else m * fxOne / 2 ^ (-e).toNat
  (x / fxLn2, fxExp (x % fxLn2))

/-- A magnitude m × 2^e is at least 2^k. -/
def reaches (m : Nat) (e : Int) (k : Int) : Bool := k ≤ (m.log2 : Int) + e

/-- 1 ÷ (1 + e^−a) (R54, R77). From 128 on, the result lies too near 1 or 0 for its distance to matter. -/
def fSigm (a : FVal) : XVal × Nat :=
  match a with
  | .nan _ => (.nan, snanEx a)
  | .inf n => (.fin false (if n then 0 else 1) 0 false, 0)
  | .fin n m e =>
    if m = 0 then (.fin false 1 (-1) false, 0)
    else if reaches m e 7 then (if n then .fin false 1 (-180) true else nearOne false, 0)
    else
      let p := expParts m e
      let x := p.2 * 2 ^ p.1
      (inexact false ((if n then fxOne else x) * 2 ^ 500 / (x + fxOne)) (-500), 0)

/-- tanh a (R54, R77): (e^2a − 1)/(e^2a + 1), just below a for a tiny a, just below 1 from 64 on. -/
def fTanh (a : FVal) : XVal × Nat :=
  match a with
  | .nan _ => (.nan, snanEx a)
  | .inf n => (.fin n 1 0 false, 0)
  | .fin n m e =>
    if m = 0 then (.fin n 0 0 false, 0)
    else if reaches m e 6 then (nearOne n, 0)
    else if !reaches m e (-40) then (.fin n (m * 2 ^ 100 - 1) (e - 100) true, 0)
    else
      let p := expParts m (e + 1)
      let x := p.2 * 2 ^ p.1
      (inexact n ((x - fxOne) * 2 ^ 500 / (x + fxOne)) (-500), 0)

end Sys2Proof.Machine
end

