-- ==== Sys2Proof/Machine/Flags.lean ====
section
/-! DEFINITION. FMT and FLAGS (R67, R68), the effective rounding mode (R74), and what a thread or a uniform operation
delivers: a value, the exceptions raised and the generator after it (R62, R65, R66, R74). -/

namespace Sys2Proof.Machine

noncomputable section

/-- FMT.RM (R67). -/
def fmtRm (g : Group) : Nat := g.fmt.toNat % 8

/-- FMT.NSAT (R67). -/
def fmtNsat (g : Group) : Bool := g.fmt.getLsbD 8

/-- The enables of FMT, in the bit positions of FLAGS (R67). -/
def fmtEnables (g : Group) : Nat := g.fmt.toNat &&& 0xF8

/-- FMT.KXP (R67): p − 1, or 0 for no default. -/
def fmtKxp (g : Group) : Nat := g.fmt.toNat / 2 ^ 9 % 16

/-- FMT.FP8 (R67): 0 E4M3, 1 E5M2. -/
def fmtFp8 (g : Group) : Nat := g.fmt.toNat / 2 ^ 13 % 4

/-- The value of FMT that a write may hold (R69): RM 0 to 5 and FP8 0 or 1. -/
def fmtLegal (x : Word) : Bool := x.toNat % 8 ≤ 5 && x.toNat / 2 ^ 13 % 4 ≤ 1

/-- FMT as written (R67): bits 31:15 stay 0. -/
def fmtWritten (x : Word) : Word := x &&& 0x7FFF

/-- FLAGS as written (R68): only bits 7:3 exist. -/
def flagsWritten (x : Word) : Word := x &&& 0xF8

/-- The mode that a prefix's rnd names, FMT.RM for code 0 or without a prefix (R53, R74). -/
def rmode (g : Group) (p : Option Prefix) : Nat :=
  match p with
  | none => fmtRm g
  | some q =>
    match q.rnd with
    | .fmt => fmtRm g | .rne => 0 | .rtz => 1 | .rup => 2 | .rdn => 3 | .rna => 4 | .rsto => 5

/-- A narrowing conversion saturates (R57). -/
def saturates (g : Group) (p : Option Prefix) : Bool := (match p with | none => false | some q => q.sat) || fmtNsat g

/-- What one thread, or a uniform operation, delivers. -/
structure Eff where
  val    : Word
  raised : Nat := 0
  srs    : DWord
  deriving DecidableEq, Repr

/-- A value that is not rounded. -/
def plain (g : Group) (x : Word) : Eff := { val := x, srs := g.srs }

/-- `deliver` of R74: an exact result rounded into FP32, with the exceptions of the operation itself. -/
def deliver32 (rm : Nat) (g : Group) (x : XVal × Nat) : Eff :=
  let r := roundTo fp32 rm false x.1 g.srs
  { val := BitVec.ofNat 32 r.bits, raised := x.2 ||| r.ex, srs := r.srs }

/-- A rounded result as what is delivered. -/
def ofRounded (r : Rounded) : Eff := { val := BitVec.ofNat 32 r.bits, raised := r.ex, srs := r.srs }

/-- Two results packed low first, each rounded in turn, with one decision for both (R74). -/
def packPair (w : Nat) (f : Fmt) (rm : Nat) (sat : Bool) (srs : DWord) (lo hi : XVal × Nat) : Nat × Nat × DWord :=
  let a := roundTo f rm sat lo.1 srs
  let b := roundTo f rm sat hi.1 a.srs
  (a.bits + 2 ^ w * b.bits, lo.2 ||| a.ex ||| hi.2 ||| b.ex, b.srs)

/-- An exception raised is enabled (R66). -/
def arithTraps (g : Group) (raised : Nat) : Bool := raised &&& fmtEnables g != 0

/-- The flags and the generator of a delivery that does not trap (R62, R65). -/
def commit (g : Group) (e : Eff) : Group := { g with flags := g.flags ||| BitVec.ofNat 32 e.raised, srs := e.srs }

/-- An FP32 datum of a word. -/
def f32 (x : Word) : FVal := fval fp32 x.toNat

/-- Fused forms of R77: a × b + c, a × b − c, −(a × b) + c. -/
def fusedAdd (rm : Nat) (a b c : FVal) : XVal × Nat := fFma rm a b c
def fusedSub (rm : Nat) (a b c : FVal) : XVal × Nat := fFma rm a b (negate c)
def fusedNeg (rm : Nat) (a b c : FVal) : XVal × Nat := fFma rm (negate a) b c

/-- The condition of R85 on two data: for a float type a NaN makes it false but for NE and UN. -/
def condFloat (c : CmpCond) (a b : FVal) : Bool :=
  let un := isNaN a || isNaN b
  match c with
  | .eq => fEq a b | .ne => !fEq a b | .lt => fLt a b | .le => !un && !fLt b a | .gt => fLt b a
  | .ge => !un && !fLt a b | .un => un | .or => !un

/-- IV of a compare (R56, R85): a signalling NaN operand, but not under UN or OR. -/
def condRaises (c : CmpCond) (a b : FVal) : Nat :=
  match c with
  | .un | .or => 0
  | _ => snanEx a ||| snanEx b

/-- The condition of R85 on two integers: UN false, OR true. -/
def condInt (c : CmpCond) (a b : Int) : Bool :=
  match c with
  | .eq => a == b | .ne => a != b | .lt => a < b | .le => a ≤ b | .gt => b < a | .ge => b ≤ a | .un => false | .or => true

end

end Sys2Proof.Machine
end

