-- ==== Sys2Proof/Machine/Operands.lean ====
section
/-! DEFINITION. Operands: the registers an instruction names (R14, R43, R44, R49), the checks and interlocks before it
issues (R50, R171, R295), and the pass over the active threads (R12, R21, R36, R62, R66). -/

namespace Sys2Proof.Machine

noncomputable section

/-- The registers that an instruction names: vector sources and destinations, the prefix's fourth vector operand,
uniform sources and destinations, an accumulator tile; and the number of words before its base word. -/
structure Uses where
  vr   : List Nat := []
  vw   : List Nat := []
  vc   : Option Nat := none
  gr   : List Nat := []
  gw   : List Nat := []
  tile : Option Nat := none
  base : Nat := 0
  deriving DecidableEq, Repr

/-- A uniform register in the valid set of R14. -/
def uniformLegal (g : Group) (r : Nat) : Bool := r + 4 < g.ub || (380 ≤ r && r < 384)

/-- The registers that the base word names are within the budgets (R49). -/
def usesLegal (g : Group) (u : Uses) : Bool :=
  (u.vr ++ u.vw).all (· < g.vb) && (u.gr ++ u.gw).all (uniformLegal g) && u.tile.all (· < g.ab)

/-- A register that the instruction reads or writes is the destination of an operation that has not arrived (R171). -/
def interlocked (g : Group) (u : Uses) : Bool :=
  (u.vr ++ u.vw ++ u.vc.toList).any (vBusy g) || (u.gr ++ u.gw).any (gBusy g)

/-- The stall reason of an interlock (R92, R97, R300): scrbank while the instruction reads what a scratch request that has not begun
delivers, else ldwait. -/
def interlockReason (s : State) (u : Uses) : Nat :=
  let g := s.cur
  let waits := g.ops.any fun o =>
    scratchQueued s (gidOf g) o.id &&
      (o.vregs.any (fun r => (u.vr ++ u.vc.toList).contains r) || o.gregs.any (fun r => u.gr.contains r))
  if waits then 8 else 3

/-- An instruction that passes decode: R49, the interlocks, the poison of its uniform operands (R295), then its
effect. DESIGN CHOICE (log 69): where the prefix and the base word both name a register beyond the budget, ILL_REG names the prefix. -/
def withUses (u : Uses) (body : State → State) (s : State) : State :=
  let g := s.cur
  if u.vc.any (g.vb ≤ ·) then illReg 0 s
  else if !usesLegal g u then illReg u.base s
  else if interlocked g u then stallOn (interlockReason s u) true s
  else
    match u.gr.findSome? (mfind g.gPoison ·) with
    | some sub => trapHere 13 sub s
    | none => body s

/-- A GST that has not been performed holds back later memory accesses, CPY, MMA, LAUNCH, SYSC, FENCE and BAR (R110). -/
def afterGst (body : State → State) (s : State) : State :=
  if s.cur.ops.any (fun o => o.kind == .gst) then stallOn 9 true s else body s

/-- Words of an instruction with an optional prefix. -/
def words1 (p : Option Prefix) : Nat := if p.isSome then 2 else 1

/-- The words before the base word. -/
def baseWordIx (p : Option Prefix) : Nat := if p.isSome then 1 else 0

/-- The execution mask register (R44). -/
def maskOf (p : Option Prefix) : Nat := match p with | none => 0 | some q => q.ms.toNat

/-- Inactive threads are zeroed (R36, R44). -/
def zeroes (p : Option Prefix) : Bool := match p with | none => false | some q => q.z

/-- The same, with the active threads known: where no thread is active nothing is written (R12, R99, R172). -/
def zeroing (z : Bool) (act : Word) : Bool := z && act != 0

/-- The fourth vector operand (R44): vd without a prefix. -/
def vcOf (p : Option Prefix) (d : BitVec 6) : Nat := match p with | none => d.toNat | some q => q.vc.toNat

/-- The fourth vector operand as the prefix names it. -/
def vcNamed (p : Option Prefix) : Option Nat := p.map fun q => q.vc.toNat

/-- The signed displacement of the prefix (R44). -/
def dispOf (p : Option Prefix) : Int := match p with | none => 0 | some q => q.imm.toInt

/-- A GGG register number raised by a bit of gx (R43). -/
def raisedBy (p : Option Prefix) (bit : Nat) (r : BitVec 8) : Nat :=
  r.toNat + (match p with | none => 0 | some q => if q.gx.getLsbD bit then 256 else 0)

def gdOf (p : Option Prefix) (r : BitVec 8) : Nat := raisedBy p 2 r
def gaOf (p : Option Prefix) (r : BitVec 8) : Nat := raisedBy p 1 r
def gbOf (p : Option Prefix) (r : BitVec 8) : Nat := raisedBy p 0 r

/-- The pair of a gp field (R43). -/
def pairOf (gp : BitVec 7) : List Nat := [2 * gp.toNat, 2 * gp.toNat + 1]

/-- The 64-bit value of the pair of a gp field. -/
def pairVal (g : Group) (gp : BitVec 7) : Nat := gpair g (2 * gp.toNat)

/-- The eight registers of a gblk field (R43). -/
def blockOf (b : BitVec 6) : List Nat := (List.range 8).map (8 * b.toNat + ·)

/-- A trap of a pass: its thread, cause and sub-cause. -/
structure PassTrap where
  t     : Nat
  cause : Nat
  sub   : Nat
  deriving DecidableEq, Repr

/-- A source register of thread `t` is poisoned (R295). -/
def poisoned (g : Group) (srcs : List Nat) (t : Nat) : Bool := srcs.any fun r => (mfind g.vPoison (r * 32 + t)).isSome

/-- The poison trap of a thread, with the sub-cause of its first poisoned source (R278). -/
def poisonTrap (g : Group) (srcs : List Nat) (t : Nat) : PassTrap :=
  { t := t, cause := 13, sub := (srcs.findSome? fun r => mfind g.vPoison (r * 32 + t)).getD 0 }

/-- One thread of a pass: its decision to trap or to commit (R66, R74), with a helper's trap discarded (R9). -/
def threadStep (d : Nat) (srcs : List Nat) (op : Group → Nat → Eff) (g : Group) (t : Nat) : Group × Option PassTrap :=
  let e := op g t
  if poisoned g srcs t then
    if helper g t then (vset g d t 0, none) else (g, some (poisonTrap g srcs t))
  else if arithTraps g e.raised then
    if helper g t then (vset g d t 0, none) else (g, some { t := t, cause := 1, sub := e.raised })
  else (vset (commit g e) d t e.val, none)

/-- The pass of R36 over the threads of a list, in order, from RIX on; it stops at a trap. -/
def lanePass (act : Word) (z : Bool) (d : Nat) (srcs : List Nat) (op : Group → Nat → Eff) :
    List Nat → Group → Group × Option PassTrap
  | [], g => (g, none)
  | t :: ts, g =>
    if t < g.rix then lanePass act z d srcs op ts g
    else if act.getLsbD t then
      match threadStep d srcs op g t with
      | (g, none) => lanePass act z d srcs op ts g
      | (g, some x) => (g, some x)
    else if z then lanePass act z d srcs op ts (vset g d t 0)
    else lanePass act z d srcs op ts g

/-- A pass ends: the instruction completes, or traps on a thread (R21, R323). -/
def endPass (words : Nat) (act : Word) (s : State) (r : Group × Option PassTrap) : State :=
  let s := { s with cur := r.1 }
  match r.2 with
  | none => advance words s
  | some x => takeTrap { cause := x.cause, sub := x.sub, rix := x.t, fba := s.cur.pc, faddr := s.cur.pc, amask := act } s

/-- A vector instruction with destination `d`: sources `srcs`, effect `op` on each thread (R12, R36). -/
def vectorPass (words ms : Nat) (z : Bool) (d : Nat) (srcs : List Nat) (op : Group → Nat → Eff) (s : State) : State :=
  let act := activeMask s.cur ms
  endPass words act s (lanePass act (zeroing z act) d srcs op (List.range 32) s.cur)

/-- A vector instruction in its usual form: the prefix, the destination, vector sources, the fourth operand, uniform
sources, words beyond the base word. -/
def vectorOp (p : Option Prefix) (d : BitVec 6) (srcs : List Nat) (vc : Bool) (gr : List Nat) (extra : Nat)
    (op : Group → Nat → Eff) (s : State) : State :=
  let c := if vc then [vcOf p d] else []
  let u : Uses := { vr := srcs ++ (if vc && p.isNone then [d.toNat] else []), vw := [d.toNat],
                    vc := if vc then vcNamed p else none, gr := gr, base := baseWordIx p }
  withUses u (vectorPass (words1 p + extra) (maskOf p) (zeroes p) d.toNat (srcs ++ c) op) s

/-- A uniform instruction: the checks, then a change of the group, then the next instruction. -/
def uniformOp (u : Uses) (words : Nat) (f : Group → Group) (s : State) : State :=
  withUses u (fun s => advance words (modCur s f)) s

end

end Sys2Proof.Machine
end

