-- ==== Sys2Proof/Machine/VecFloat.lean ====
section
/-! DEFINITION. FP32 vector arithmetic (R73 to R79): VF and VFG. -/

namespace Sys2Proof.Machine

noncomputable section

/-- The second operand of a vector instruction: a vector register, a uniform register read at issue (R73), or a word. -/
inductive Src where
  | v (r : BitVec 6)
  | g (r : BitVec 9)
  | w (x : Word)

/-- The vector registers that an operand names. -/
def srcV : Src → List Nat
  | .v r => [r.toNat]
  | _ => []

/-- The uniform registers that an operand names. -/
def srcG : Src → List Nat
  | .g r => [r.toNat]
  | _ => []

/-- The value of an operand in a thread. -/
def srcVal (g : Group) (t : Nat) : Src → Word
  | .v r => vget g r.toNat t
  | .g r => gget g r.toNat
  | .w x => x

/-- A vector instruction of one source. -/
def vector1 (p : Option Prefix) (d a : BitVec 6) (f : Group → Word → Eff) (s : State) : State :=
  vectorOp p d [a.toNat] false [] 0 (fun g t => f g (vget g a.toNat t)) s

/-- A vector instruction of two sources; `extra` words follow the base word. -/
def vector2 (p : Option Prefix) (d a : BitVec 6) (b : Src) (extra : Nat) (f : Group → Word → Word → Eff) (s : State) :
    State :=
  vectorOp p d (a.toNat :: srcV b) false (srcG b) extra (fun g t => f g (vget g a.toNat t) (srcVal g t b)) s

/-- A vector instruction of two sources and the fourth operand (R44). -/
def vector3 (p : Option Prefix) (d a : BitVec 6) (b : Src) (f : Group → Word → Word → Word → Eff) (s : State) : State :=
  vectorOp p d (a.toNat :: srcV b) true (srcG b) 0
    (fun g t => f g (vget g a.toNat t) (srcVal g t b) (vget g (vcOf p d) t)) s

/-- A vector instruction of one source `b` and no other. -/
def vectorB (p : Option Prefix) (d : BitVec 6) (b : Src) (extra : Nat) (f : Group → Word → Eff) (s : State) : State :=
  vectorOp p d (srcV b) false (srcG b) extra (fun g t => f g (srcVal g t b)) s

/-- An FP32 function of one operand, rounded once (R77). -/
def float1 (p : Option Prefix) (f : Nat → FVal → XVal × Nat) (g : Group) (x : Word) : Eff :=
  deliver32 (rmode g p) g (f (rmode g p) (f32 x))

/-- An FP32 function of two operands, rounded once (R77). -/
def float2 (p : Option Prefix) (f : Nat → FVal → FVal → XVal × Nat) (g : Group) (x y : Word) : Eff :=
  deliver32 (rmode g p) g (f (rmode g p) (f32 x) (f32 y))

/-- An FP32 function of three operands, rounded once (R77). -/
def float3 (p : Option Prefix) (f : Nat → FVal → FVal → FVal → XVal × Nat) (g : Group) (x y z : Word) : Eff :=
  deliver32 (rmode g p) g (f (rmode g p) (f32 x) (f32 y) (f32 z))

/-- minimumNumber or maximumNumber of two FP32 words (R54). -/
def pick32 (big : Bool) (g : Group) (x y : Word) : Eff :=
  let r := fPick fp32 big x.toNat y.toNat
  { val := BitVec.ofNat 32 r.1, raised := r.2, srs := g.srs }

/-- a − b (R77). -/
def fSub (rm : Nat) (a b : FVal) : XVal × Nat := fAdd rm a (negate b)

/-- a × 2^n with n the word read as a signed integer (R77). -/
def scaleBy (p : Option Prefix) (g : Group) (x n : Word) : Eff := deliver32 (rmode g p) g (fScale (f32 x) n.toInt)

/-- The magnitude bits of a word (R77, FABS). -/
def clearSign (x : Word) : Word := x &&& 0x7FFFFFFF

/-- The word with bit 31 inverted (R77, FNEG). -/
def flipSign (x : Word) : Word := x ^^^ 0x80000000

/-- The magnitude of `x` with the sign of `y` (R77, FCPYS). -/
def copySign (x y : Word) : Word := (x &&& 0x7FFFFFFF) ||| (y &&& 0x80000000)

/-! ## VF (R77, R78) -/

/-- FADD (R77): a + b. -/
def execFadd (p : Option Prefix) (d a b : BitVec 6) (s : State) : Out :=
  .next (vector2 p d a (.v b) 0 (float2 p fAdd) s)

/-- FSUB (R77): a − b. -/
def execFsub (p : Option Prefix) (d a b : BitVec 6) (s : State) : Out :=
  .next (vector2 p d a (.v b) 0 (float2 p fSub) s)

/-- FMUL (R77): a × b. -/
def execFmul (p : Option Prefix) (d a b : BitVec 6) (s : State) : Out :=
  .next (vector2 p d a (.v b) 0 (float2 p (fun _ => fMul)) s)

/-- FDIV (R77): a ÷ b. -/
def execFdiv (p : Option Prefix) (d a b : BitVec 6) (s : State) : Out :=
  .next (vector2 p d a (.v b) 0 (float2 p (fun _ => fDiv)) s)

/-- FFMA (R77): a × b + c, one rounding. -/
def execFfma (p : Option Prefix) (d a b : BitVec 6) (s : State) : Out :=
  .next (vector3 p d a (.v b) (float3 p fusedAdd) s)

/-- FFMS (R77): a × b − c, one rounding. -/
def execFfms (p : Option Prefix) (d a b : BitVec 6) (s : State) : Out :=
  .next (vector3 p d a (.v b) (float3 p fusedSub) s)

/-- FNMA (R77): −(a × b) + c, one rounding. -/
def execFnma (p : Option Prefix) (d a b : BitVec 6) (s : State) : Out :=
  .next (vector3 p d a (.v b) (float3 p fusedNeg) s)

/-- FMIN (R54, R77): minimumNumber, the chosen operand's bits. -/
def execFmin (p : Option Prefix) (d a b : BitVec 6) (s : State) : Out :=
  .next (vector2 p d a (.v b) 0 (pick32 false) s)

/-- FMAX (R54, R77): maximumNumber, the chosen operand's bits. -/
def execFmax (p : Option Prefix) (d a b : BitVec 6) (s : State) : Out :=
  .next (vector2 p d a (.v b) 0 (pick32 true) s)

/-- FSQRT (R77): √a. -/
def execFsqrt (p : Option Prefix) (d a : BitVec 6) (s : State) : Out :=
  .next (vector1 p d a (float1 p fun _ => fSqrt) s)

/-- FRCP (R77): 1 ÷ a. -/
def execFrcp (p : Option Prefix) (d a : BitVec 6) (s : State) : Out :=
  .next (vector1 p d a (float1 p fun _ => fRcp) s)

/-- FRSQ (R77): 1 ÷ √a. -/
def execFrsq (p : Option Prefix) (d a : BitVec 6) (s : State) : Out :=
  .next (vector1 p d a (float1 p fun _ => fRsq) s)

/-- FEXP2 (R77): 2^a. -/
def execFexp2 (p : Option Prefix) (d a : BitVec 6) (s : State) : Out :=
  .next (vector1 p d a (float1 p fun _ => fExp2) s)

/-- FLOG2 (R77): log2 a. -/
def execFlog2 (p : Option Prefix) (d a : BitVec 6) (s : State) : Out :=
  .next (vector1 p d a (float1 p fun _ => fLog2) s)

/-- FSIGM (R77): 1 ÷ (1 + e^−a). -/
def execFsigm (p : Option Prefix) (d a : BitVec 6) (s : State) : Out :=
  .next (vector1 p d a (float1 p fun _ => fSigm) s)

/-- FTANH (R77): tanh a. -/
def execFtanh (p : Option Prefix) (d a : BitVec 6) (s : State) : Out :=
  .next (vector1 p d a (float1 p fun _ => fTanh) s)

/-- FABS (R56, R77): bit 31 cleared. -/
def execFabs (p : Option Prefix) (d a : BitVec 6) (s : State) : Out :=
  .next (vector1 p d a (fun g x => plain g (clearSign x)) s)

/-- FNEG (R56, R77): bit 31 inverted. -/
def execFneg (p : Option Prefix) (d a : BitVec 6) (s : State) : Out :=
  .next (vector1 p d a (fun g x => plain g (flipSign x)) s)

/-- FRINT (R77): an integral value, sign kept. -/
def execFrint (p : Option Prefix) (d a : BitVec 6) (s : State) : Out :=
  .next (vector1 p d a (fun g x => ofRounded (fRint (rmode g p) x.toNat g.srs)) s)

/-- FCPYS (R56, R77): the magnitude of a with the sign of b. -/
def execFcpys (p : Option Prefix) (d a b : BitVec 6) (s : State) : Out :=
  .next (vector2 p d a (.v b) 0 (fun g x y => plain g (copySign x y)) s)

/-- FCLASS (R78): the class word of a. -/
def execFclass (p : Option Prefix) (d a : BitVec 6) (s : State) : Out :=
  .next (vector1 p d a (fun g x => plain g (BitVec.ofNat 32 (fClass x.toNat))) s)

/-- FSCALE (R77): a × 2^b, b a signed integer. -/
def execFscale (p : Option Prefix) (d a b : BitVec 6) (s : State) : Out :=
  .next (vector2 p d a (.v b) 0 (scaleBy p) s)

/-! ## VFG (R79) -/

/-- FADD.G (R79): a + b with b the uniform operand. -/
def execFaddG (p : Option Prefix) (d a : BitVec 6) (b : BitVec 9) (s : State) : Out :=
  .next (vector2 p d a (.g b) 0 (float2 p fAdd) s)

/-- FSUB.G (R79): a − b with b the uniform operand. -/
def execFsubG (p : Option Prefix) (d a : BitVec 6) (b : BitVec 9) (s : State) : Out :=
  .next (vector2 p d a (.g b) 0 (float2 p fSub) s)

/-- FMUL.G (R79): a × b with b the uniform operand. -/
def execFmulG (p : Option Prefix) (d a : BitVec 6) (b : BitVec 9) (s : State) : Out :=
  .next (vector2 p d a (.g b) 0 (float2 p (fun _ => fMul)) s)

/-- FDIV.G (R79): a ÷ b with b the uniform operand. -/
def execFdivG (p : Option Prefix) (d a : BitVec 6) (b : BitVec 9) (s : State) : Out :=
  .next (vector2 p d a (.g b) 0 (float2 p (fun _ => fDiv)) s)

/-- FFMA.G (R79): a × b + c with b the uniform operand. -/
def execFfmaG (p : Option Prefix) (d a : BitVec 6) (b : BitVec 9) (s : State) : Out :=
  .next (vector3 p d a (.g b) (float3 p fusedAdd) s)

/-- FMIN.G (R79): minimumNumber with the uniform operand. -/
def execFminG (p : Option Prefix) (d a : BitVec 6) (b : BitVec 9) (s : State) : Out :=
  .next (vector2 p d a (.g b) 0 (pick32 false) s)

/-- FMAX.G (R79): maximumNumber with the uniform operand. -/
def execFmaxG (p : Option Prefix) (d a : BitVec 6) (b : BitVec 9) (s : State) : Out :=
  .next (vector2 p d a (.g b) 0 (pick32 true) s)

/-- FSCALE.G (R79): a × 2^n with n the uniform operand. -/
def execFscaleG (p : Option Prefix) (d a : BitVec 6) (b : BitVec 9) (s : State) : Out :=
  .next (vector2 p d a (.g b) 0 (scaleBy p) s)

end

end Sys2Proof.Machine
end

