-- ==== Sys2Proof/Machine/VecInt.lean ====
section
/-! DEFINITION. Integer vector arithmetic (R81, R82): VI and VIG. -/

namespace Sys2Proof.Machine

noncomputable section

/-- A two-operand integer function delivered without rounding (R81). -/
def int2 (f : Word → Word → Word) (g : Group) (x y : Word) : Eff := plain g (f x y)

/-- Bits 63:32 of the signed product (R81). -/
def mulHigh (x y : Word) : Word := BitVec.ofInt 32 (x.toInt * y.toInt / 2 ^ 32)

/-- Bits 63:32 of the unsigned product (R81). -/
def mulHighU (x y : Word) : Word := BitVec.ofNat 32 (x.toNat * y.toNat / 2 ^ 32)

/-- Signed minimum and maximum, unsigned minimum and maximum (R81). -/
def minS (x y : Word) : Word := if y.toInt < x.toInt then y else x
def maxS (x y : Word) : Word := if x.toInt < y.toInt then y else x
def minU (x y : Word) : Word := if y.toNat < x.toNat then y else x
def maxU (x y : Word) : Word := if x.toNat < y.toNat then y else x

/-- a & ~b (R81). -/
def andNot (x y : Word) : Word := x &&& ~~~y

/-- Shifts by the whole word read unsigned (R81): a count of 32 or more shifts everything out. -/
def shlW (x y : Word) : Word := if 32 ≤ y.toNat then 0 else x <<< y.toNat
def shrW (x y : Word) : Word := if 32 ≤ y.toNat then 0 else x >>> y.toNat
def sarW (x y : Word) : Word := x.sshiftRight (min y.toNat 31)

/-- Rotation left by b mod 32 (R81). -/
def rotlW (x y : Word) : Word := x.rotateLeft (y.toNat % 32)

/-- A signed sum clamped to 32 bits (R81). -/
def clampS (x : Int) : Word := BitVec.ofInt 32 (max (-2 ^ 31) (min (2 ^ 31 - 1) x))

/-- The number of leading zeros (R81): 32 for 0. -/
def leadingZeros (x : Word) : Word := if x = 0 then 32 else BitVec.ofNat 32 (31 - x.toNat.log2)

/-- The bits in reverse order (R81). -/
def bitReverse (x : Word) : Word := x.reverse

/-- |a| signed; the most negative number gives itself (R81). -/
def absS (x : Word) : Word := if x.toInt < 0 then -x else x

/-- Byte `i` of a word, sign extended. -/
def sByte (x : Word) (i : Nat) : Int := (BitVec.ofNat 8 (x.toNat / 2 ^ (8 * i))).toInt

/-- c + Σ sext(a byte i) × sext(b byte i), wrapping (R81). -/
def dot4 (x y z : Word) : Word :=
  BitVec.ofInt 32 (z.toInt + sByte x 0 * sByte y 0 + sByte x 1 * sByte y 1 + sByte x 2 * sByte y 2 + sByte x 3 * sByte y 3)

/-! ## VI (R81) -/

/-- IADD (R81): a + b. -/
def execIadd (p : Option Prefix) (d a b : BitVec 6) (s : State) : Out :=
  .next (vector2 p d a (.v b) 0 (int2 (· + ·)) s)

/-- ISUB (R81): a − b. -/
def execIsub (p : Option Prefix) (d a b : BitVec 6) (s : State) : Out :=
  .next (vector2 p d a (.v b) 0 (int2 (· - ·)) s)

/-- IMUL (R81): bits 31:0 of a × b. -/
def execImul (p : Option Prefix) (d a b : BitVec 6) (s : State) : Out :=
  .next (vector2 p d a (.v b) 0 (int2 (· * ·)) s)

/-- IMULH (R81): bits 63:32 of the signed product. -/
def execImulh (p : Option Prefix) (d a b : BitVec 6) (s : State) : Out :=
  .next (vector2 p d a (.v b) 0 (int2 mulHigh) s)

/-- NMULH (R81): bits 63:32 of the unsigned product. -/
def execNmulh (p : Option Prefix) (d a b : BitVec 6) (s : State) : Out :=
  .next (vector2 p d a (.v b) 0 (int2 mulHighU) s)

/-- IMIN (R81): signed minimum. -/
def execImin (p : Option Prefix) (d a b : BitVec 6) (s : State) : Out :=
  .next (vector2 p d a (.v b) 0 (int2 minS) s)

/-- IMAX (R81): signed maximum. -/
def execImax (p : Option Prefix) (d a b : BitVec 6) (s : State) : Out :=
  .next (vector2 p d a (.v b) 0 (int2 maxS) s)

/-- NMIN (R81): unsigned minimum. -/
def execNmin (p : Option Prefix) (d a b : BitVec 6) (s : State) : Out :=
  .next (vector2 p d a (.v b) 0 (int2 minU) s)

/-- NMAX (R81): unsigned maximum. -/
def execNmax (p : Option Prefix) (d a b : BitVec 6) (s : State) : Out :=
  .next (vector2 p d a (.v b) 0 (int2 maxU) s)

/-- AND (R81): a & b. -/
def execAnd (p : Option Prefix) (d a b : BitVec 6) (s : State) : Out :=
  .next (vector2 p d a (.v b) 0 (int2 (· &&& ·)) s)

/-- OR (R81): a | b. -/
def execOr (p : Option Prefix) (d a b : BitVec 6) (s : State) : Out :=
  .next (vector2 p d a (.v b) 0 (int2 (· ||| ·)) s)

/-- XOR (R81): a ^ b. -/
def execXor (p : Option Prefix) (d a b : BitVec 6) (s : State) : Out :=
  .next (vector2 p d a (.v b) 0 (int2 (· ^^^ ·)) s)

/-- ANDN (R81): a & ~b. -/
def execAndn (p : Option Prefix) (d a b : BitVec 6) (s : State) : Out :=
  .next (vector2 p d a (.v b) 0 (int2 andNot) s)

/-- SHL (R81): a << b, 0 from 32 on. -/
def execShl (p : Option Prefix) (d a b : BitVec 6) (s : State) : Out :=
  .next (vector2 p d a (.v b) 0 (int2 shlW) s)

/-- SHR (R81): logical a >> b, 0 from 32 on. -/
def execShr (p : Option Prefix) (d a b : BitVec 6) (s : State) : Out :=
  .next (vector2 p d a (.v b) 0 (int2 shrW) s)

/-- SAR (R81): arithmetic a >> b. -/
def execSar (p : Option Prefix) (d a b : BitVec 6) (s : State) : Out :=
  .next (vector2 p d a (.v b) 0 (int2 sarW) s)

/-- ROTL (R81): a rotated left by b mod 32. -/
def execRotl (p : Option Prefix) (d a b : BitVec 6) (s : State) : Out :=
  .next (vector2 p d a (.v b) 0 (int2 rotlW) s)

/-- IADDS (R81): a + b clamped. -/
def execIadds (p : Option Prefix) (d a b : BitVec 6) (s : State) : Out :=
  .next (vector2 p d a (.v b) 0 (int2 (fun x y => clampS (x.toInt + y.toInt))) s)

/-- ISUBS (R81): a − b clamped. -/
def execIsubs (p : Option Prefix) (d a b : BitVec 6) (s : State) : Out :=
  .next (vector2 p d a (.v b) 0 (int2 (fun x y => clampS (x.toInt - y.toInt))) s)

/-- IMAD (R81): bits 31:0 of a × b + c. -/
def execImad (p : Option Prefix) (d a b : BitVec 6) (s : State) : Out :=
  .next (vector3 p d a (.v b) (fun g x y z => plain g (x * y + z)) s)

/-- IDP4 (R81): c plus the dot product of the signed bytes. -/
def execIdp4 (p : Option Prefix) (d a b : BitVec 6) (s : State) : Out :=
  .next (vector3 p d a (.v b) (fun g x y z => plain g (dot4 x y z)) s)

/-- POPC (R81): the number of 1 bits. -/
def execPopc (p : Option Prefix) (d a : BitVec 6) (s : State) : Out :=
  .next (vector1 p d a (fun g x => plain g (BitVec.ofNat 32 (popcount x))) s)

/-- CLZ (R81): leading zeros. -/
def execClz (p : Option Prefix) (d a : BitVec 6) (s : State) : Out :=
  .next (vector1 p d a (fun g x => plain g (leadingZeros x)) s)

/-- BREV (R81): the bits reversed. -/
def execBrev (p : Option Prefix) (d a : BitVec 6) (s : State) : Out :=
  .next (vector1 p d a (fun g x => plain g (bitReverse x)) s)

/-- IABS (R81): |a| signed. -/
def execIabs (p : Option Prefix) (d a : BitVec 6) (s : State) : Out :=
  .next (vector1 p d a (fun g x => plain g (absS x)) s)

/-! ## VIG (R82) -/

/-- IADD.G (R82): a + b, b the uniform operand. -/
def execIaddG (p : Option Prefix) (d a : BitVec 6) (b : BitVec 9) (s : State) : Out :=
  .next (vector2 p d a (.g b) 0 (int2 (· + ·)) s)

/-- ISUB.G (R82): a − b, b the uniform operand. -/
def execIsubG (p : Option Prefix) (d a : BitVec 6) (b : BitVec 9) (s : State) : Out :=
  .next (vector2 p d a (.g b) 0 (int2 (· - ·)) s)

/-- IMUL.G (R82): bits 31:0 of a × b, b the uniform operand. -/
def execImulG (p : Option Prefix) (d a : BitVec 6) (b : BitVec 9) (s : State) : Out :=
  .next (vector2 p d a (.g b) 0 (int2 (· * ·)) s)

/-- IMIN.G (R82): signed minimum, b the uniform operand. -/
def execIminG (p : Option Prefix) (d a : BitVec 6) (b : BitVec 9) (s : State) : Out :=
  .next (vector2 p d a (.g b) 0 (int2 minS) s)

/-- IMAX.G (R82): signed maximum, b the uniform operand. -/
def execImaxG (p : Option Prefix) (d a : BitVec 6) (b : BitVec 9) (s : State) : Out :=
  .next (vector2 p d a (.g b) 0 (int2 maxS) s)

/-- NMIN.G (R82): unsigned minimum, b the uniform operand. -/
def execNminG (p : Option Prefix) (d a : BitVec 6) (b : BitVec 9) (s : State) : Out :=
  .next (vector2 p d a (.g b) 0 (int2 minU) s)

/-- NMAX.G (R82): unsigned maximum, b the uniform operand. -/
def execNmaxG (p : Option Prefix) (d a : BitVec 6) (b : BitVec 9) (s : State) : Out :=
  .next (vector2 p d a (.g b) 0 (int2 maxU) s)

/-- AND.G (R82): a & b, b the uniform operand. -/
def execAndG (p : Option Prefix) (d a : BitVec 6) (b : BitVec 9) (s : State) : Out :=
  .next (vector2 p d a (.g b) 0 (int2 (· &&& ·)) s)

/-- OR.G (R82): a | b, b the uniform operand. -/
def execOrG (p : Option Prefix) (d a : BitVec 6) (b : BitVec 9) (s : State) : Out :=
  .next (vector2 p d a (.g b) 0 (int2 (· ||| ·)) s)

/-- XOR.G (R82): a ^ b, b the uniform operand. -/
def execXorG (p : Option Prefix) (d a : BitVec 6) (b : BitVec 9) (s : State) : Out :=
  .next (vector2 p d a (.g b) 0 (int2 (· ^^^ ·)) s)

/-- SHL.G (R82): a << b, 0 from 32 on, b the uniform operand. -/
def execShlG (p : Option Prefix) (d a : BitVec 6) (b : BitVec 9) (s : State) : Out :=
  .next (vector2 p d a (.g b) 0 (int2 shlW) s)

/-- SHR.G (R82): logical a >> b, 0 from 32 on, b the uniform operand. -/
def execShrG (p : Option Prefix) (d a : BitVec 6) (b : BitVec 9) (s : State) : Out :=
  .next (vector2 p d a (.g b) 0 (int2 shrW) s)

/-- SAR.G (R82): arithmetic a >> b, b the uniform operand. -/
def execSarG (p : Option Prefix) (d a : BitVec 6) (b : BitVec 9) (s : State) : Out :=
  .next (vector2 p d a (.g b) 0 (int2 sarW) s)

/-- IMAD.G (R82): a × b + c, b the uniform operand. -/
def execImadG (p : Option Prefix) (d a : BitVec 6) (b : BitVec 9) (s : State) : Out :=
  .next (vector3 p d a (.g b) (fun g x y z => plain g (x * y + z)) s)

end

end Sys2Proof.Machine
end

