-- ==== Sys2Proof/Machine/Bytes.lean ====
section
/-! DEFINITION. Bytes of device, host and peer memory (R4, R165): one byte-order decision for every wider access. An
unlisted byte of device memory reads 0 (R310 scrubs every page; log 5); of host and peer memory a free value (log 6). -/

namespace Sys2Proof.Machine

noncomputable section

/-- A byte of device memory. -/
def readByte (m : Memory) (a : Nat) : Byte := mget 0 m a

/-- Device memory with a byte written. -/
def writeByte (m : Memory) (a : Nat) (b : Byte) : Memory := mput 0 m a b

/-- The canonical form of device memory: addresses strictly rising, no listed byte equal to what an unlisted one
reads as. -/
def Memory.wf (m : Memory) : Bool := mrising m && m.all (fun c => c.2 != 0)

/-- `n` bytes of device memory as a number, low bytes first (R4). -/
def readBytes (m : Memory) (a : Nat) : Nat → Nat
  | 0 => 0
  | n + 1 => (readByte m a).toNat + 256 * readBytes m (a + 1) n

/-- Device memory with the low `n` bytes of a number written, low bytes first (R4). -/
def writeBytes (m : Memory) (a : Nat) : Nat → Nat → Memory
  | 0, _ => m
  | n + 1, x => writeBytes (writeByte m a (BitVec.ofNat 8 x)) (a + 1) n (x / 256)

/-- The listed bytes of device memory in an address range: the contents of a line as a copy holds them. -/
def sliceOfMemory (m : Memory) (a n : Nat) : Memory := m.filter (fun c => a ≤ c.1 && c.1 < a + n)

/-- `n` bytes of host memory: free where the device has not written (log 6). -/
def readHost (m : SMap Byte) (a : Nat) : Nat → Nat
  | 0 => 0
  | n + 1 => (mget (Config.hostByte a) m a).toNat + 256 * readHost m (a + 1) n

/-- `n` bytes of peer memory: free where the device has not written (log 6). -/
def readPeer (m : SMap Byte) (a : Nat) : Nat → Nat
  | 0 => 0
  | n + 1 => (mget (Config.peerByte a) m a).toNat + 256 * readPeer m (a + 1) n

/-- Host or peer memory with the low `n` bytes of a number written. -/
def writeFar (m : SMap Byte) (a : Nat) : Nat → Nat → SMap Byte
  | 0, _ => m
  | n + 1, x => writeFar (mset m a (BitVec.ofNat 8 x)) (a + 1) n (x / 256)

/-- The number whose low `8 n` bits are those of `x`. -/
def lowBytes (n x : Nat) : Nat := x % 2 ^ (8 * n)

/-- A number of `n` bytes read as signed, as a 32-bit word (R173). -/
def sextBytes (n x : Nat) : Word :=
  if 2 ^ (8 * n - 1) ≤ lowBytes n x then BitVec.ofNat 32 (lowBytes n x + 2 ^ 32 - 2 ^ (8 * n)) else BitVec.ofNat 32 (lowBytes n x)

/-- The `n` 32-bit words of a number, low word first. -/
def wordsOf : Nat → Nat → List Word
  | 0, _ => []
  | n + 1, x => BitVec.ofNat 32 x :: wordsOf n (x / 2 ^ 32)

/-- The state with device memory changed. -/
def modMem (s : State) (f : Memory → Memory) : State := { s with mm := { s.mm with mem := f s.mm.mem } }

/-- The first poisoned word, of 8 bytes each, that an access covers: the SUB of R278 that it carries. -/
def badIn (bad : SMap Nat) (pa n : Nat) : Option Nat :=
  (bad.find? (fun p => p.1 * 8 < pa + n && pa < p.1 * 8 + 8)).map (·.2)

/-- Uncorrectable words of device memory that an access covers (R295). -/
def badAt (s : State) (pa n : Nat) : Option Nat := badIn s.mm.bad pa n

/-- A SECDED word of 64 bits is no longer poisoned when it is wholly written (R295). -/
def clearBad (s : State) (pa n : Nat) : State :=
  { s with mm := { s.mm with bad := s.mm.bad.filter (fun p => !(pa ≤ p.1 * 8 && p.1 * 8 + 8 ≤ pa + n)) } }

/-- The poisoned words of a line. -/
def badOfLine (bad : SMap Nat) (line : Nat) : SMap Nat := bad.filter fun p => p.1 / 16 == line

end

end Sys2Proof.Machine
end

