-- ==== Sys2Proof/Machine/Msc.lean ====
section
/-! DEFINITION. The memory-side cache and its footprint predictor (R161 to R164), the places of HBM4E (R165), and the
counter tree of verified memory (R248 to R250). None of these holds a byte that a program reads: the bytes stand in
`MemSys.mem`. -/

namespace Sys2Proof.Machine

noncomputable section

/-- HBM4E occupies [0, 2^39) (R165). -/
def hbmTop : Nat := 2 ^ 39

/-- The stack of an address of HBM4E (R165). -/
def stackOf (pa : Nat) : Nat := pa / 2 ^ 17 % 8

/-- The number of a 2 KiB row segment within its stack: PA[38:11] without the stack bits. -/
def inStack (seg : Nat) : Nat := seg / 512 * 64 + seg % 64

/-! ## The memory-side cache (R161 to R163) -/

/-- The cache's set of a segment, with its stack (R161). -/
def mscKey (seg : Nat) : Nat := stackOf (seg * 2048) * 1024 + inStack seg % 1024

/-- The lines of a set, the most recently used first. -/
def mscSet (s : State) (key : Nat) : List MscLine := mget [] s.mm.msc key

/-- A set changed. -/
def setMsc (s : State) (key : Nat) (xs : List MscLine) : State := { s with mm := { s.mm with msc := mput [] s.mm.msc key xs } }

/-- The sectors of a set of sector numbers. -/
def sectorBits (xs : List Nat) : BitVec 32 := xs.foldl (fun v i => v ||| BitVec.ofNat 32 (2 ^ i)) 0

/-- The two sectors that a 128-byte line at an address covers. -/
def lineSectors (pa : Nat) : List Nat := [pa % 2048 / 128 * 2, pa % 2048 / 128 * 2 + 1]

/-- The ways of a set that a grant of scratch has not converted (R164). -/
def mscWays (s : State) (key : Nat) : Nat :=
  let g := (mget 0 s.mm.grant (key / 1024)).toNat
  let set := key % 1024
  let first := g % 2 ^ 10
  let last := first + g / 2 ^ 10 % 2 ^ 10
  if g / 2 ^ 31 = 1 ∧ first ≤ set ∧ set ≤ last then 16 - g / 2 ^ 20 % 16 else 16

/-- The predictor's index of a segment, with its stack (R162). -/
def fpredKey (seg : Nat) : Nat := stackOf (seg * 2048) * 4096 + seg % 4096

/-- A line leaves the cache: the sectors accessed and the tag are written into the predictor (R162). -/
def mscEvict (s : State) (x : MscLine) : State :=
  { s with mm := { s.mm with fpred := mset s.mm.fpred (fpredKey x.tag) (x.tag, x.acc) } }

/-- A context's selector (R163). -/
def pselOf (s : State) (c : Nat) : Nat := mget 512 s.mm.psel c

/-- An allocating miss by a context in a set: the sample sets move its selector (R163). -/
def mscSample (s : State) (c set : Nat) : State :=
  if set % 32 = 0 then { s with mm := { s.mm with psel := mput 512 s.mm.psel c (min (pselOf s c + 1) 1023) } }
  else if set % 32 = 16 then { s with mm := { s.mm with psel := mput 512 s.mm.psel c (pselOf s c - 1) } }
  else s

/-- A new line goes in at least-recently-used (R163). -/
def insertsFar (s : State) (c set : Nat) : Bool :=
  if set % 32 = 0 then false else if set % 32 = 16 then true else 512 ≤ pselOf s c

/-- The sectors that an allocating miss fetches: the demand sectors, then those of the predictor's vector on a tag match,
in ascending order (R162). -/
def fetchedSectors (s : State) (seg : Nat) (demand : List Nat) : List Nat :=
  match mfind s.mm.fpred (fpredKey seg) with
  | some (tag, v) => if tag = seg then demand ++ (List.range 32).filter (fun i => v.getLsbD i && !demand.contains i) else demand
  | none => demand

/-- A line miss that allocates (R161 to R163): room is made by evicting the least recently used line, and the sectors are
fetched; `dirty` are those that come from a write-back. -/
def mscAllocate (s : State) (seg c : Nat) (sectors : List Nat) (dirty : BitVec 32) : State :=
  let key := mscKey seg
  let set := key % 1024
  let s := mscSample s c set
  let xs := mscSet s key
  let s := (xs.drop (mscWays s key - 1)).foldl mscEvict s
  let xs := xs.take (mscWays s key - 1)
  let x : MscLine := { tag := seg, valid := sectorBits sectors, dirty := dirty, acc := dirty ||| sectorBits (sectors.take 2), ctx := c }
  setMsc s key (if insertsFar s c set then xs ++ [x] else x :: xs)

/-- A line of a set touched: changed, and moved to most-recently-used unless `na` says that the access leaves the order as it is
(R161, R163). -/
def mscTouch (s : State) (seg : Nat) (na : Bool) (f : MscLine → MscLine) : State :=
  let key := mscKey seg
  let xs := mscSet s key
  match xs.find? (fun x => x.tag == seg) with
  | none => s
  | some x =>
    if na then setMsc s key (xs.map fun y => if y.tag == seg then f y else y)
    else setMsc s key (f x :: xs.filter (fun y => y.tag != seg))

/-- The cache's line of a segment. -/
def mscLine (s : State) (seg : Nat) : Option MscLine := (mscSet s (mscKey seg)).find? fun x => x.tag == seg

/-- Sectors of a segment are read from HBM4E, each by a step of its own (R321). -/
def fetchSectors (s : State) (seg : Nat) (xs : List Nat) : State :=
  xs.foldl (fun s i => pend s (.hbmRead (seg * 2048 + i * 64))) s

/-- A read that missed in the L2 reaches the cache (R161): it hits where both sectors of the line are present; missing ones are
read from HBM4E. DESIGN CHOICE (log 76): an allocating miss looks the predictor up before the line that it evicts is written there. -/
def mscRead (s : State) (pa c : Nat) (na : Bool) : State :=
  let seg := pa / 2048
  let demand := lineSectors pa
  let fetch := fun (s : State) => fetchSectors s seg
  if hbmTop ≤ pa then s
  else
    match mscLine s seg with
    | some x =>
      let bits := sectorBits demand
      let missing := demand.filter fun i => !x.valid.getLsbD i
      fetch (mscTouch s seg (na || !missing.isEmpty) fun x => { x with valid := x.valid ||| bits, acc := x.acc ||| bits }) missing
    | none =>
      if na then fetch s demand
      else
        let xs := fetchedSectors s seg demand
        fetch (mscAllocate s seg c xs 0) xs

/-- A dirty line of the L2 is written to the memory side (R161): into a present line, else into one allocated as a read
miss would, with the predicted sectors fetched (R162); around the cache for a no-allocate page. DESIGN CHOICE (log 77): a present line
that it writes into is moved to most-recently-used, whichever of its sectors were present. -/
def mscWrite (s : State) (pa c : Nat) (na : Bool) : State :=
  let seg := pa / 2048
  let bits := sectorBits (lineSectors pa)
  if hbmTop ≤ pa then s
  else if (mscLine s seg).isSome then
    mscTouch s seg na fun x => { x with valid := x.valid ||| bits, dirty := x.dirty ||| bits, acc := x.acc ||| bits }
  else if na then s
  else
    let xs := fetchedSectors s seg (lineSectors pa)
    fetchSectors (mscAllocate s seg c xs bits) seg (xs.drop 2)

/-- The sectors that `n` bytes at an address cover. -/
def spanSectors (pa n : Nat) : List Nat := (List.range 32).filter fun i => pa % 2048 / 64 ≤ i && i ≤ (pa % 2048 + n - 1) / 64

/-- Those of some sectors of a segment that the cache holds (R161). -/
def heldSectors (s : State) (seg : Nat) (xs : List Nat) : List Nat :=
  match mscLine s seg with
  | some x => xs.filter fun i => x.valid.getLsbD i
  | none => []

/-- A direct access to a line absent from the L2 uses the present sectors of its bytes, which it records as accessed (R160, R162); a
store updates them in place. It is a hit where all of them are present (R161, R163). -/
def mscUse (s : State) (pa n : Nat) (na write : Bool) : State :=
  let xs := spanSectors pa n
  let held := heldSectors s (pa / 2048) xs
  let bits := sectorBits held
  if held.isEmpty then s
  else mscTouch s (pa / 2048) (na || held != xs) fun x =>
    { x with dirty := if write then x.dirty ||| bits else x.dirty, acc := x.acc ||| bits }

/-- A direct load of a line absent from the L2 reads the present sectors of its bytes from the cache and the others from HBM4E, but for
those, of the device's sectors, that its instruction has asked for; it allocates nothing (R160, R170, R321). -/
def mscDirectRead (s : State) (pa n : Nat) (na : Bool) (asked : List Nat) : State :=
  let seg := pa / 2048
  let xs := spanSectors pa n
  if hbmTop ≤ pa then s
  else
    fetchSectors (mscUse s pa n na false) seg
      (xs.filter fun i => !(heldSectors s seg xs).contains i && !asked.contains (seg * 32 + i))

/-! ## HBM4E (R165 to R167) -/

/-- The pseudo-channel of an address, numbered by stack, channel and pseudo-channel; its bank in the order of R167; and
its row segment (R165). -/
def pcOf (pa : Nat) : Nat := (stackOf pa * 32 + pa / 2 ^ 11 % 32) * 2 + pa / 2 ^ 16 % 2
def hbmBank (pa : Nat) : Nat := pcOf pa * 16 + pa / 2 ^ 22 % 4 * 4 + pa / 2 ^ 20 % 4
def rowOf (pa : Nat) : Nat := pa / 2 ^ 24 % 2 ^ 15

/-- A bank, and the state with one changed. -/
def bank (s : State) (b : Nat) : Bank := mget {} s.mm.banks b
def setBank (s : State) (b : Nat) (x : Bank) : State := { s with mm := { s.mm with banks := mput {} s.mm.banks b x } }

/-- A pseudo-channel, and the state with one changed. -/
def pseudo (s : State) (p : Nat) : PseudoCh := mget {} s.mm.pcs p
def setPseudo (s : State) (p : Nat) (x : PseudoCh) : State := { s with mm := { s.mm with pcs := mput {} s.mm.pcs p x } }

/-! ## The counter tree (R248 to R250) -/

/-- A group of 16 lines is poisoned (R250). -/
def deadGroup (s : State) (grp : Nat) : Bool :=
  s.mm.dead.any fun d =>
    d.stack == stackOf (grp * 2048) && inStack grp / 16 ^ d.level == d.idx && !d.exempt.contains grp

/-- A group's counter block, and the counters of one changed. -/
def ctrBlk (s : State) (grp : Nat) : CtrBlk := mget {} s.mm.ctrs grp
def setCtr (s : State) (grp : Nat) (x : CtrBlk) : State := { s with mm := { s.mm with ctrs := mput {} s.mm.ctrs grp x } }

/-- The key of a node of a stack's tree: level 1 stands above the counter blocks, level 7 is the top. -/
def nodeKey (stack level idx : Nat) : Nat := (stack * 8 + level) * 2 ^ 28 + idx

/-- A node of a stack's tree, and the state with one changed. -/
def nodeOf (s : State) (stack level idx : Nat) : CtrBlk := mget {} s.mm.nodes (nodeKey stack level idx)
def setNode (s : State) (stack level idx : Nat) (x : CtrBlk) : State :=
  { s with mm := { s.mm with nodes := mput {} s.mm.nodes (nodeKey stack level idx) x } }

/-- The minor that a node's parent keeps for the child `idx` of a level. -/
def parentMinor (s : State) (stack level idx : Nat) : Nat := mget 0 (nodeOf s stack (level + 1) (idx / 16)).minors (idx % 16)

/-- The MAC of a node is made afresh (R248); the top one is held on the die and has none. -/
def macNode (s : State) (stack level idx : Nat) : State :=
  if 7 ≤ level then s
  else
    let n := nodeOf s stack level idx
    setNode s stack level idx { n with mac := Config.treeMac (nodeKey stack level idx) n.maj n.minors (parentMinor s stack level idx) }

/-- The MAC of a group's counter block is made afresh (R248). -/
def macGroup (s : State) (grp : Nat) : State :=
  let b := ctrBlk s grp
  let stack := stackOf (grp * 2048)
  setCtr s grp { b with mac := Config.treeMac (nodeKey stack 0 (inStack grp)) b.maj b.minors (parentMinor s stack 0 (inStack grp)) }

/-- The data MAC of a line is made afresh (R248). -/
def macLine (s : State) (line : Nat) : State :=
  let b := ctrBlk s (line / 16)
  let mac := Config.dataMac (mget 0 s.mm.keys line) line (readBytes s.mm.mem (line * 128) 128) b.maj (mget 0 b.minors (line % 16))
  { s with mm := { s.mm with macs := mput 0 s.mm.macs line mac } }

/-- The MACs of a node's children that have counters are made afresh (R249). -/
def macChildren (s : State) (stack level idx : Nat) : State :=
  if level = 1 then
    ((s.mm.ctrs.map (·.1)).filter fun grp => stackOf (grp * 2048) == stack && inStack grp / 16 == idx).foldl macGroup s
  else
    ((List.range 16).filter fun i => (mfind s.mm.nodes (nodeKey stack (level - 1) (16 * idx + i))).isSome).foldl
      (fun s i => macNode s stack (level - 1) (16 * idx + i)) s

/-- The nodes above a counter block take the write-back, from a level up: a node's minor for its child advances; where it
would pass 127 the node's major advances, its minors are 0 again and its children's MACs are made afresh; a major that cannot advance
poisons every group below (R249). -/
def advanceNodes : Nat → State → Nat → Nat → Nat → State
  | 0, s, _, _, _ => s
  | fuel + 1, s, stack, level, child =>
    let idx := child / 16
    let n := nodeOf s stack level idx
    let x := mget 0 n.minors (child % 16)
    if x = 127 ∧ n.maj = 2 ^ 56 - 1 then
      { s with mm := { s.mm with dead := s.mm.dead ++ [{ stack := stack, level := level, idx := idx }] } }
    else if x = 127 then
      let s := macChildren (setNode s stack level idx { n with maj := n.maj + 1, minors := [] }) stack level idx
      macNode (advanceNodes fuel s stack (level + 1) idx) stack level idx
    else
      let s := setNode s stack level idx { n with minors := mput 0 n.minors (child % 16) (x + 1) }
      macNode (advanceNodes fuel s stack (level + 1) idx) stack level idx

/-- A write-back of a line whose minor is below 127 (R249). -/
def advanceMinor (s : State) (line : Nat) : State :=
  let grp := line / 16
  let b := ctrBlk s grp
  let s := setCtr s grp { b with minors := mput 0 b.minors (line % 16) (mget 0 b.minors (line % 16) + 1) }
  macGroup (advanceNodes 7 (macLine s line) (stackOf (grp * 2048)) 1 (inStack grp)) grp

/-- The lines of a group and its counter block get their MACs (R249). -/
def macWhole (s : State) (grp : Nat) : State := macGroup ((List.range 16).foldl (fun s i => macLine s (16 * grp + i)) s) grp

/-- The group is re-encrypted under a new major, with every minor 0; a major that cannot advance poisons it (R249). -/
def reencrypt (s : State) (grp : Nat) : State :=
  let b := ctrBlk s grp
  if b.maj = 2 ^ 56 - 1 then
    { s with mm := { s.mm with dead := s.mm.dead ++ [{ stack := stackOf (grp * 2048), level := 0, idx := inStack grp }] } }
  else macWhole (setCtr s grp { b with maj := b.maj + 1, minors := [] }) grp

end

end Sys2Proof.Machine
end

