-- ==== Sys2Proof/Machine/Memory.lean ====
section
/-! DEFINITION. The memory system (R150 to R160, R168, R195 to R199, R223, R236 to R245, R250, R251, R255): lines at
their home slices and in the L1s, logical times, region rules, translation, and the loads and stores that groups and
engines share. The newest bytes of every line stand in `State.mm.mem`; an exclusive L1 copy holds no bytes of its own,
and a shared copy holds those it was fetched with. -/

namespace Sys2Proof.Machine

noncomputable section

/-! ## Places -/

/-- The MSC scratch window (R164, R237). -/
def mscBase : Nat := 0x000E_0000_0000_0000
def mscTop : Nat := 0x000E_0800_0000_0000
/-- The MMIO window of 16 MiB (R313). -/
def mmioBase : Nat := 0x000F_0000_0000_0000
def mmioTop : Nat := 0x000F_0000_0100_0000

/-- The home slice of a line: PA[12:7] ⊕ PA[18:13] ⊕ PA[24:19] (R150). -/
def homeSlice (line : Nat) : Nat := (line ^^^ (line / 64) ^^^ (line / 4096)) % 64

/-- A held time before the front reads as the front (R157). -/
def clamp (s : State) (t : Word) : Word := ltMax s.cp.front t

/-- The key of an L1 copy: a copy serves only the context that fetched it (R245). -/
def l1Key (line asid : Nat) : Nat := line * 64 + asid

/-- The owner's name of a core and a context. -/
def ownerKey (core asid : Nat) : Nat := core * 64 + asid

/-- An L1 copy. -/
def l1Copy (s : State) (c asid line : Nat) : Option L1Line := mfind (core s c).l1 (l1Key line asid)

/-- An L1 with a copy put in. -/
def setL1 (s : State) (c asid line : Nat) (x : L1Line) : State :=
  modCore s c fun k => { k with l1 := mset k.l1 (l1Key line asid) x }

/-- An L1 without a copy. -/
def dropL1 (s : State) (c asid line : Nat) : State :=
  modCore s c fun k => { k with l1 := mdel k.l1 (l1Key line asid) }

/-- The L2's entry of a line, if it is resident. -/
def l2Line (s : State) (line : Nat) : Option L2Line := mfind s.mm.lines line

/-- The state with a line's L2 entry put. -/
def setL2 (s : State) (line : Nat) (x : L2Line) : State := { s with mm := { s.mm with lines := mset s.mm.lines line x } }

/-- How an access reaches its line: whether its page is MSC no-allocate (R161), and the key mode × 64 + key slot of its page (R237),
none where the spec gives the access no page (a walk, a port; log 13). -/
structure Via where
  na  : Bool := false
  key : Option Nat := none
  deriving DecidableEq, Repr

/-- The times a resident line has at its slice, none before the front (R157). -/
def lineOf (s : State) (line : Nat) : L2Line :=
  let x := (l2Line s line).getD {}
  { x with wts := clamp s x.wts, rts := clamp s x.rts }

/-- The owner of a line is recalled: it writes back its times and keeps a shared copy (R155). -/
def recallLine (s : State) (line : Nat) : State :=
  let x := lineOf s line
  match x.owner with
  | none => s
  | some o =>
    match l1Copy s (o / 64) (o % 64) line with
    | none => setL2 s line { x with owner := none }
    | some c =>
      let s := setL2 s line { x with owner := none, wts := clamp s c.wts, rts := clamp s c.rts,
                                     dirty := x.dirty || c.dirty }
      setL1 s (o / 64) (o % 64) line
        { c with excl := false, dirty := false, data := sliceOfMemory s.mm.mem (line * 128) 128,
                 bad := badOfLine s.mm.bad line }

/-! ## Ownership, keys and integrity (R242, R247 to R251) -/

/-- The address lies in the META pages, once the firmware has laid them out (R242; log 59). -/
def metaPage (s : State) (pa : Nat) : Bool := s.mm.metaFrom.any fun a => a ≤ pa && pa < hbmTop

/-- The ownership entry of a page of HBM4E (R242): owned by the host at reset; META alone is set in a META page. -/
def ownOf (s : State) (pa : Nat) : BitVec 16 := if metaPage s pa then 0x0080 else mget 0x8000 s.mm.own (pa / 2 ^ 14)

/-- The context that owns an address; 0 where the host does or none (R242, R317). -/
def ownerOf (s : State) (pa : Nat) : Nat := if pa < hbmTop && !(ownOf s pa).getLsbD 15 then (ownOf s pa).toNat / 2 ^ 8 % 64 else 0

/-- The address lies in a page of a verified context (R242). -/
def verifiedPage (s : State) (pa : Nat) : Bool := pa < hbmTop && (ownOf s pa).getLsbD 14

/-- The key mode of a key (R247). -/
def keyMode (k : Nat) : Nat := k / 64 % 4

/-- A line stands in verified memory (R247): key mode 2 is that under which it was last written to the memory side; of a line that no key
has written the page's owner decides (log 13). -/
def verifiedLine (s : State) (line : Nat) : Bool :=
  match mfind s.mm.keys line with
  | some k => keyMode k == 2
  | none => verifiedPage s (line * 128)

/-- A line of HBM4E written to the memory side through a page: under that page's key from now on (R247). -/
def keyLine (s : State) (line : Nat) (key : Option Nat) : State :=
  match key with
  | some k => if line * 128 < hbmTop then { s with mm := { s.mm with keys := mset s.mm.keys line k } } else s
  | none => s

/-- The key under which a line stands at the memory side and the key of an access to it, where they differ (R247). -/
def keyDiffers (s : State) (line : Nat) (v : Via) : Option (Nat × Nat) :=
  match mfind s.mm.keys line, v.key with
  | some a, some b => if a = b then none else some (a, b)
  | _, _ => none

/-- The 128 bytes of an absent line as an access reads them: under another key, the garbage that the decryption gives (R247). -/
def readAs (s : State) (line : Nat) (v : Via) : Nat :=
  let x := readBytes s.mm.mem (line * 128) 128
  match keyDiffers s line v with
  | none => x
  | some k => Config.garbled k.1 k.2 line x

/-- A line is read for the die through a page: under another key than its own its bytes there are garbage, and those at the memory side
stay sealed beneath them until the line is written back (R247). -/
def decryptLine (s : State) (line : Nat) (v : Via) : State :=
  if (keyDiffers s line v).isNone then s
  else
    let old := sliceOfMemory s.mm.mem (line * 128) 128
    let x := readAs s line v
    let s := modMem s fun m => writeBytes m (line * 128) 128 x
    { s with mm := { s.mm with sealed := mset s.mm.sealed line old } }

/-- A line leaves the die unwritten: what the memory side holds of it is what it held (R247). -/
def resealLine (s : State) (line : Nat) : State :=
  match mfind s.mm.sealed line with
  | none => s
  | some old =>
    let s := modMem s fun m => old.foldl (fun m c => writeByte m c.1 c.2) (writeBytes m (line * 128) 128 0)
    { s with mm := { s.mm with sealed := mdel s.mm.sealed line } }

/-- A line written from the die to the memory side, under a key if it is reached through one: what it held there is gone, and in
verified memory its counters advance by a step that is due (R247, R249). -/
def toMemory (s : State) (line : Nat) (key : Option Nat := none) : State :=
  let s := keyLine s line key
  let s := { s with mm := { s.mm with sealed := mdel s.mm.sealed line, tampered := s.mm.tampered.filter (· != line) } }
  if verifiedLine s line then pend s (.memoryWriteback line) else s

/-- A counter block or a node of the tree above a line does not match its MAC (R251). -/
def treeBad (s : State) (line : Nat) : Bool :=
  let grp := line / 16
  s.mm.badTree.any fun b => b.1 == stackOf (grp * 2048) && inStack grp / 16 ^ b.2.1 == b.2.2

/-- Groups of lines that are poisoned fault every access (R250), and so does a read of verified memory that fails its check (R251): the
cause and the sub-cause. A line that stands in the L2 is not read from memory. -/
def memFault (s : State) (pa : Nat) (v : Via := {}) : Option (Nat × Nat) :=
  let line := pa / 128
  if deadGroup s (pa / 2048) then some (14, 1)
  else if (l2Line s line).isNone && (s.mm.tampered.contains line || (verifiedLine s line && treeBad s line) ||
      (keyDiffers s line v).any fun k => keyMode k.2 == 2) then some (13, 6)
  else none

/-- An integrity failure is written to the error log and flags the context that met it (R251, R317). -/
def noteIntegrity (s : State) (asid pa : Nat) : State :=
  modCtx (logError s 3 7 (stackOf pa) pa (ownerOf s pa) []) asid fun c => { c with integ := true }

/-- What an access that `memFault` refuses leaves behind (R251). -/
def noteFault (s : State) (asid pa : Nat) (f : Nat × Nat) : State := if f.2 == 6 then noteIntegrity s asid pa else s

/-! ## Lines at their slices (R150) -/

/-- The lines that a slice holds at most: 128 MiB over 64 slices (R1, R157). -/
def sliceLines : Nat := 16384

/-- A line leaves its slice (R150, R161, R249): the owner is recalled, EVTS rises to the line's rts, and a dirty line is written to
the memory side. -/
def evictLine (s : State) (line : Nat) : State :=
  let s := recallLine s line
  let x := lineOf s line
  let s := modSlice s (homeSlice line) fun k => { k with evts := ltMax (clamp s k.evts) x.rts }
  let under := badOfLine s.mm.under line
  let s := { s with mm := { s.mm with lines := mdel s.mm.lines line,
                                      under := s.mm.under.filter fun p => p.1 / 16 != line } }
  if x.dirty then toMemory (mscWrite s (line * 128) x.writer x.na) line x.key
  else resealLine { s with mm := { s.mm with bad := under.foldl (fun m p => mset m p.1 p.2) s.mm.bad } } line

/-- A slice makes room for a line (R325): where it holds as many as it can, a line of a free choice leaves it (log 10). -/
def roomInSlice (s : State) (line : Nat) : State :=
  if s.mm.lines.length < sliceLines then s
  else
    let mine := s.mm.lines.filter fun p => homeSlice p.1 == homeSlice line
    if mine.length < sliceLines then s
    else
      match mine[Config.pick (freeIx s 3 + 2 ^ 64 * line) % mine.length]? with
      | some p => evictLine s p.1
      | none => s

/-- A line absent from the L2 enters it with wts = rts = EVTS (R150), and the fill reaches the memory-side cache (R161): that step is
due. A line that is resident takes the key of the first page it is reached through (R247). DESIGN CHOICE (log 56): the last writer of
a line that nobody has written since it entered is the context of the access that brought it in. -/
def ensureLine (s : State) (ctxId line : Nat) (v : Via) : State :=
  match l2Line s line with
  | some x => if x.key.isNone && v.key.isSome then setL2 s line { x with key := v.key } else s
  | none =>
    let s := decryptLine (roomInSlice s line) line v
    let e := clamp s (slice s (homeSlice line)).evts
    pend (setL2 s line { wts := e, rts := e, writer := ctxId, na := v.na, key := v.key }) (.mscLineMiss (line * 128) ctxId v.na)

/-! ## Monitors (R223, R224) -/

/-- Every monitor on a counter that a write touched is looked at again; the reply of one whose condition holds is due,
in the order of registration (R223). -/
def evalMonitors (s : State) (pa n : Nat) : State :=
  let h := homeSlice (pa / 128)
  let holds := fun (m : Mon) => m.pa < pa + n && pa < m.pa + 8 && !m.due && m.target ≤ readBytes s.mm.mem m.pa 8
  let ms := (slice s h).mons.filter holds
  if ms.isEmpty then s
  else
    let s := modSlice s h fun k => { k with mons := k.mons.map fun m => if holds m then { m with due := true } else m }
    ms.foldl (fun s m => pend s (.monitorReply m.gid)) s

/-- A write to a queue's tail counter is noticed by the command processor, which looks at the queue (R209). -/
def noteTails (s : State) (pa n : Nat) : State :=
  (s.cp.queues.filter fun q => q.2.tailPa.any fun a => a < pa + n && pa < a + 8).foldl (fun s q => pend s (.queueRecordRead q.1)) s

/-- Bytes written to device memory: wholly written words are no longer poisoned (R295), monitors on them are looked at
again (R221), and so is a queue whose tail they are (R209). -/
def devWrite (s : State) (pa n x : Nat) : State :=
  noteTails (evalMonitors (clearBad (modMem s fun m => writeBytes m pa n x) pa n) pa n) pa n

/-! ## Region rules at a line (R196 to R199) -/

/-- The larger 32-bit time less one. -/
def ltPred (a : Word) : Word := a - 1

/-- A region entry put into a list in ascending AID. -/
def insertEntry (e : RgnEnt) : List RgnEnt → List RgnEnt
  | [] => [e]
  | x :: xs => if e.aid ≤ x.aid then e :: x :: xs else x :: insertEntry e xs

/-- The region entries on a line, in ascending AID. -/
def entriesOn (s : State) (line : Nat) : List RgnEnt :=
  ((slice s (homeSlice line)).rents.filter (fun e => e.line == line)).foldr insertEntry []

/-- A slice's copy of a region's bounds narrowed (R199): on every line where the region stands there. -/
def narrowCopy (s : State) (i aid : Nat) (lo hi : Option Word) : State :=
  modSlice s i fun k => { k with rents := k.rents.map fun e =>
    if e.aid == aid then { e with lo := (lo.map (ltMax e.lo)).getD e.lo, hi := (hi.map (ltMin e.hi)).getD e.hi } else e }

/-- A region's upper bound is lowered at a slice: a message of kind 0 is due if it changes (R197, R200). -/
def narrowHi (s : State) (e : RgnEnt) (b : Word) (cause : Nat) : State :=
  if ltMin e.hi b = e.hi then s
  else pend (narrowCopy s (homeSlice e.line) e.aid none (some b)) (.narrowingMessage 0 e.aid b (homeSlice e.line) cause)

/-- A region's lower bound is raised at a slice: a message of kind 1 is due if it changes (R197, R200). -/
def narrowLo (s : State) (e : RgnEnt) (b : Word) (cause : Nat) : State :=
  if ltMax e.lo b = e.lo then s
  else pend (narrowCopy s (homeSlice e.line) e.aid (some b) none) (.narrowingMessage 1 e.aid b (homeSlice e.line) cause)

/-- A region's entry on a line as it stands now. -/
def entryNow (s : State) (aid line : Nat) : Option RgnEnt :=
  (slice s (homeSlice line)).rents.find? (fun e => e.aid == aid && e.line == line)

/-- "X precedes Y" on a line: s := max(X.lo, Y.lo − 1); X.hi := min(X.hi, s); Y.lo := max(Y.lo, s + 1); the edge is
recorded (R197). -/
def precedes (s : State) (line x y cause : Nat) : State :=
  match entryNow s x line, entryNow s y line with
  | some ex, some ey =>
    let b := ltMax ex.lo (ltPred ey.lo)
    let s := narrowHi s ex b cause
    let s := narrowLo s ey (b + 1) cause
    modSlice s (homeSlice line) fun k => { k with edges := k.edges ++ [{ line := line, x := x, y := y }] }
  | _, _ => s

/-- A store placed at time `t` on a line: it stands after every region that reads the line and before every region that writes it (R197).
DESIGN CHOICE (log 79): an atomic, a CADD, an untracked, a direct and a port store count as the ordinary tracked store that the table
names for a line in a write set. -/
def storeRules (s : State) (line : Nat) (t : Word) : State :=
  (entriesOn s line).foldl (fun s e0 =>
    match entryNow s e0.aid line with
    | none => s
    | some e =>
      let s := if e.reader then narrowHi s e (ltPred t) 34 else s
      match entryNow s e0.aid line with
      | none => s
      | some e => if e.writer then narrowLo s e (t + 1) 35 else s) s

/-- The line stands in the write set of some region. -/
def regionWrites (s : State) (line : Nat) : Bool := (entriesOn s line).any (·.writer)

/-- An ordinary tracked load at time `t` of a line in a region's write set gets the value from before the region, which stands
after it (R197). -/
def loadRules (s : State) (line : Nat) (t : Word) : State :=
  ((entriesOn s line).filter (·.writer)).foldl (fun s e0 =>
    match entryNow s e0.aid line with
    | some e => narrowLo s e (t + 1) 35
    | none => s) s

/-- What an atomic or a counter operation makes from a poisoned word stays poisoned: its SECDED word is 64 bits (R277, R295). -/
def stayBad (bad : Option Nat) (pa n : Nat) (s : State) : State :=
  match bad with
  | some sub => if n = 8 then { s with mm := { s.mm with bad := mset s.mm.bad (pa / 8) sub } } else s
  | none => s

/-- A rebase waits for the requests in flight, and cores and ports make no new ones (R158). -/
def rebasing (s : State) : Bool := s.pending.any fun e => match e with
  | .rebase _ => true
  | _ => false

/-- An access is held where it is performed: its group of lines waits for its re-encryption (R249), or it would apply a rule to the
frozen entry of a region other than `aid` (R202). -/
def lineHeld (s : State) (aid : Option Nat) (line : Nat) (wr : Bool) : Bool :=
  s.pending.any (fun e => match e with
    | .groupReencryption g => g == line / 16
    | _ => false) ||
  (entriesOn s line).any fun e => e.frozen && aid != some e.aid && (wr || e.writer)

/-- An access waits, with stall reason fabric, before it is made (R158, R202, R249). -/
def mustWait (s : State) (aid : Option Nat) (line : Nat) (wr : Bool) : Bool := rebasing s || lineHeld s aid line wr

/-- No walk begins: a rebase waits, or a group of lines, in which a table may stand, waits for its re-encryption (R158, R249). -/
def walksHeld (s : State) : Bool := s.pending.any fun e => match e with
  | .rebase _ | .groupReencryption _ => true
  | _ => false

/-- The device's own accesses, for records, rings, images and queues, are held: no walk begins, or a slice has frozen the entries of a
region that has not committed yet (R158, R202, R249). -/
def deviceHeld (s : State) : Bool := walksHeld s || s.slices.any fun p => p.2.rents.any (·.frozen)

/-- A step of the device that makes accesses of its own: where they are held it stays due. -/
def unlessHeld (e : Instr) (body : State → State) (s : State) : State := if deviceHeld s then pend s e else body s

/-! ## The host's copies of a line (R255, R256) -/

/-- What the host's snoop filter says of a line: owned (true) or shared, or not held. -/
def hostHolds (s : State) (line : Nat) : Option Bool := (mfind (slice s (homeSlice line)).snoop line).map (·.owned)

/-- Bytes that the CXL port places in a line, at max(port clock, rts + 1) (R148). DESIGN CHOICE (log 57): the context of a fill and of
a write by a port or by the host is 0. -/
def placeHostLine (s : State) (line x : Nat) : State :=
  let s := ensureLine s 0 line {}
  let l := lineOf s line
  let t := ltMax s.io.cxlClk (l.rts + 1)
  let s := setL2 s line { l with wts := t, rts := t, writer := 0, dirty := true }
  let s := storeRules (devWrite s (line * 128) 128 x) line t
  { s with io := { s.io with cxlClk := t } }

/-- A read of a line that the host owns sends BISnpData, after which the host holds it shared; a grant, a store or a
registration sends BISnpInv, after which the host holds nothing (R255). The dirty data that an owner returns is a free
value; it is placed before the access that sent the snoop (R256). The answer comes within the same step (log 1). -/
def snoopHost (s : State) (line : Nat) (inv : Bool) : State :=
  match hostHolds s line with
  | none => s
  | some owned =>
    if !inv && !owned then s
    else
      let s := modSlice s (homeSlice line) fun k =>
        { k with snoop := if inv then mdel k.snoop line
                            else mset k.snoop line { mget { owned := false, filled := 0 } k.snoop line with owned := false } }
      let s := { s with io := { s.io with out := s.io.out ++ [{ kind := if inv then 1 else 0, port := 0,
                                                                pa := line * 128, data := [] }] } }
      if owned then
        match Config.hostLine s.turn with
        | some x => placeHostLine s line x
        | none => s
      else s

/-! ## Tracked, untracked and direct accesses (R153, R155, R160) -/

/-- An access's agent: its core, context, clock and LEASE. -/
structure Who where
  core : Nat
  asid : Nat
  clk  : Word
  user : Bool := true
  lease : Nat := 10
  deriving DecidableEq, Repr

/-- The lines that an L1 holds at most: 1.5 MiB less the core's scratch share (R1, R16). -/
def l1Limit (k : Core) : Nat := (6 - k.scr.toNat) * 2048

/-- The cause with which a group's open region aborts when its L1 replaces a line (R195): 3 or 2, by the set in which it stands. -/
def carriedBy (g : Group) (line : Nat) : Option Nat :=
  g.rgn.bind fun r => if r.writes.contains line then some 3 else if r.reads.contains line then some 2 else none

/-- The regions of a core's groups, `me` apart, whose bits an L1 line carries abort (R195). -/
def abortCarriers (s : State) (me : Option Nat) (core asid line : Nat) : State :=
  ((allGroups s).filter fun g => g.core == core && g.ctx == asid && me != some (gidOf g)).foldl (fun s g =>
    match carriedBy g line with
    | none => s
    | some c => regionAbort s (gidOf g) c 0 none) s

/-- An L1 line is replaced (R154, R155, R195): a shared copy is dropped silently, an exclusive line is written back. -/
def replaceL1 (s : State) (me : Option Nat) (core asid line : Nat) : State :=
  match l1Copy s core asid line with
  | none => s
  | some c => dropL1 (if c.excl then recallLine (abortCarriers s me core asid line) line else abortCarriers s me core asid line)
      core asid line

/-- The line that an L1 replaces to keep to its size, by a free choice among those that it did not just install (R325; log 10): its
context and its number. -/
def l1Victim (s : State) (core asid line : Nat) : Option (Nat × Nat) :=
  let k := Machine.core s core
  if k.l1.length ≤ l1Limit k then none
  else
    let xs := k.l1.filter fun p => p.1 != l1Key line asid
    (xs[Config.pick (freeIx s 4 + 2 ^ 64 * line) % xs.length]?).map fun p => (p.1 % 64, p.1 / 64)

/-- A copy enters an L1, which makes room for it (R325). -/
def installL1 (s : State) (core asid line : Nat) (x : L1Line) : State :=
  let s := setL1 s core asid line x
  match l1Victim s core asid line with
  | none => s
  | some (a, l) => replaceL1 s none core a l

/-- A shared copy of a line as its slice gives it. -/
def sharedCopy (s : State) (line : Nat) (wts rts : Word) : L1Line :=
  { wts := wts, rts := rts, data := sliceOfMemory s.mm.mem (line * 128) 128, bad := badOfLine s.mm.bad line }

/-- A tracked load's copy of a line (R153, R197, R320): the L1 copy that serves it and the time it takes. A line in a region's write
set is lent for the load's own time alone. While the request that brought a shared copy may still be in flight (a free value, log 2),
a load with a later clock sends its own. -/
def trackedLine (s : State) (w : Who) (line : Nat) (v : Via) : State × L1Line × Word :=
  let miss :=
    let s := snoopHost s line false
    let s := recallLine (ensureLine s w.asid line v) line
    let x := lineOf s line
    let t := ltMax w.clk x.wts
    let r := ltMax x.rts (if regionWrites s line then t else w.clk + BitVec.ofNat 32 w.lease)
    let s := setL2 s line { x with rts := r }
    let c := { sharedCopy s line x.wts r with asked := some w.clk }
    (loadRules (installL1 s w.core w.asid line c) line t, c, t)
  match l1Copy s w.core w.asid line with
  | some c =>
    let t := ltMax w.clk (clamp s c.wts)
    if c.excl then
      let c := { c with rts := ltMax (clamp s c.rts) t }
      (loadRules (setL1 s w.core w.asid line c) line t, c, t)
    else if before c.rts w.clk then miss
    else if c.asked.any (fun a => before a w.clk) && Config.freeBit (freeIx s 5 + 2 ^ 64 * line) then miss
    else (loadRules s line t, c, t)
  | none => miss

/-- The bytes that a copy of a line gives: an exclusive copy's are the newest (R153). -/
def copyBytes (s : State) (c : L1Line) (pa n : Nat) : Nat :=
  if c.excl then readBytes s.mm.mem pa n else readBytes c.data pa n

/-- Uncorrectable words of a copy that an access covers (R295). -/
def copyBad (s : State) (c : L1Line) (pa n : Nat) : Option Nat := if c.excl then badAt s pa n else badIn c.bad pa n

/-- A copy of a line is held exclusive, or valid at a clock (R153). -/
def heldAt (s : State) (w : Who) (line : Nat) : Bool :=
  (l1Copy s w.core w.asid line).any fun c => c.excl || !before c.rts w.clk

/-- What memory refuses of a tracked load: a copy that serves it needs no read of memory, though a poisoned group faults it (R250,
R251). -/
def loadFault (s : State) (w : Who) (pa : Nat) (v : Via) : Option (Nat × Nat) :=
  if heldAt s w (pa / 128) && !deadGroup s (pa / 2048) then none else memFault s pa v

/-- A line held exclusive by a core (R155). -/
def ownLine (s : State) (w : Who) (line : Nat) (v : Via) : State :=
  match l1Copy s w.core w.asid line with
  | some c => if c.excl then s else grant s
  | none => grant s
where
  /-- The home slice grants the line after recalling its owner. -/
  grant (s : State) : State :=
    let s := snoopHost s line true
    let s := recallLine (ensureLine s w.asid line v) line
    let x := lineOf s line
    let s := setL2 s line { x with owner := some (ownerKey w.core w.asid) }
    installL1 s w.core w.asid line { excl := true, wts := x.wts, rts := x.rts }

/-- A context has written a line (R150). -/
def noteWriter (s : State) (asid line : Nat) : State :=
  match l2Line s line with
  | some x => setL2 s line { x with writer := asid }
  | none => s

/-- The time that a tracked store or atomic takes on a line the core holds exclusive: max(clock, rts + 1) (R155). -/
def trackedTime (s : State) (w : Who) (line : Nat) : Word :=
  ltMax w.clk (clamp s ((l1Copy s w.core w.asid line).getD {}).rts + 1)

/-- A tracked store of bytes at its time; the line's wts and rts become that time (R155). -/
def trackedWrite (s : State) (w : Who) (pa n x : Nat) (t : Word) : State :=
  let line := pa / 128
  let s := setL1 (noteWriter s w.asid line) w.core w.asid line { excl := true, dirty := true, wts := t, rts := t }
  storeRules (devWrite s pa n x) line t

/-- A line ready at its slice for an untracked or port access: in the L2, no owner (R160). -/
def sliceReady (s : State) (ctxId line : Nat) (write : Bool) (v : Via) : State :=
  recallLine (ensureLine (snoopHost s line write) ctxId line v) line

/-- A store placed at a slice at the later of `clk` and rts + 1 (R139, R160): its time and the state after it. -/
def sliceStore (s : State) (ctxId : Nat) (clk : Word) (pa n x : Nat) (v : Via) : State × Word :=
  let line := pa / 128
  let s := sliceReady s ctxId line true v
  let l := lineOf s line
  let t := ltMax clk (l.rts + 1)
  let s := setL2 s line { l with wts := t, rts := t, writer := ctxId, dirty := true }
  (storeRules (devWrite s pa n x) line t, t)

/-- An untracked store takes rts + 1 (R160). -/
def untrackedStore (s : State) (ctxId : Nat) (pa n x : Nat) (v : Via) : State × Word :=
  let line := pa / 128
  let s := sliceReady s ctxId line true v
  let l := lineOf s line
  let t := l.rts + 1
  let s := setL2 s line { l with wts := t, rts := t, writer := ctxId, dirty := true }
  (storeRules (devWrite s pa n x) line t, t)

/-- A direct store (R160): the host's copy is recalled first; as untracked, and through to memory, where the line is then resident,
else at EVTS + 1 without allocating, the present sectors of the memory-side cache updated in place. HBM4E holds words of 32 bytes, so
that a store of part of one that is poisoned leaves it poisoned (R295). DESIGN CHOICE (log 78): a resident line that was written through
is dirty all the same. -/
def directStore (s : State) (ctxId : Nat) (pa n x : Nat) (v : Via) : State × Word :=
  let line := pa / 128
  let s := snoopHost s line true
  match l2Line s line with
  | some l =>
    let r := untrackedStore s ctxId pa n x v
    (toMemory r.1 line (v.key.orElse fun _ => l.key), r.2)
  | none =>
    let h := homeSlice line
    let t := clamp s (slice s h).evts + 1
    let s := modSlice s h fun k => { k with evts := t }
    let s := modMem s fun m => if (keyDiffers s line v).isSome then writeBytes m (line * 128) 128 (readAs s line v) else m
    let part := s.mm.bad.filter fun p => p.1 / 4 == pa / 32
    let s := devWrite s pa n x
    let s := if n < 32 then { s with mm := { s.mm with bad := part.foldl (fun m p => mset m p.1 p.2) s.mm.bad } } else s
    (storeRules (toMemory (mscUse s pa n v.na true) line v.key) line t, t)

/-- An untracked load at a slice: the newest bytes; no lease, no clock (R141, R160). -/
def untrackedLoad (s : State) (ctxId pa n : Nat) (v : Via) : State × Nat :=
  let s := sliceReady s ctxId (pa / 128) false v
  (s, readBytes s.mm.mem pa n)

/-- A direct load (R160): the host's dirty data is placed first; as untracked where the line is then resident, else a present sector
of the memory-side cache or HBM4E, without allocating; `asked` are the sectors that its instruction has asked for already. -/
def directLoad (s : State) (ctxId pa n : Nat) (v : Via) (asked : List Nat := []) : State × Nat :=
  let s := snoopHost s (pa / 128) false
  match l2Line s (pa / 128) with
  | some _ => untrackedLoad s ctxId pa n v
  | none => (mscDirectRead s pa n v.na asked, readAs s (pa / 128) v / 2 ^ (8 * (pa % 128)) % 2 ^ (8 * n))

/-! ## Translation (R236 to R245) -/

/-- A leaf entry's fields (R237) with the physical address of the access. -/
structure Leaf where
  pa  : Nat
  mt  : Nat
  loc : Nat
  via : Via := {}
  deriving DecidableEq, Repr

/-- Bits `lo` to `lo + n - 1` of an entry. -/
def ebits (e : DWord) (lo n : Nat) : Nat := (e.toNat / 2 ^ lo) % 2 ^ n

/-- The lowest bit of the index of a level (R236): the page size of a leaf there. -/
def levelShift (level : Nat) : Nat := 47 - 11 * level

/-- The index of a virtual address at a level (R236). -/
def levelIndex (va level : Nat) : Nat := (va / 2 ^ levelShift level) % 2048

/-- A device physical address lies in a region R237 allows. -/
def deviceOk (pa : Nat) : Bool :=
  pa < hbmTop || (mscBase ≤ pa && pa < mscTop) || (mmioBase ≤ pa && pa < mmioTop)

/-- A table entry is well formed: only V, TBL and PA are not 0 (R237), and its PA lies in a region that R237 allows (R238). -/
def tableOk (e : DWord) : Bool := ebits e 2 12 == 0 && ebits e 52 12 == 0 && deviceOk (ebits e 14 38 * 2 ^ 14)

/-- A leaf at a level is well formed (R237, R238). -/
def leafOk (e : DWord) (level : Nat) : Bool :=
  level != 0 && ebits e 6 2 != 3 && ebits e 61 2 != 3 && ebits e 59 2 != 3 && ebits e 52 1 == 0 && ebits e 10 4 == 0 &&
  (ebits e 59 2 != 0 || ebits e 53 6 == 0) && (ebits e 14 38 * 2 ^ 14) % 2 ^ levelShift level == 0 &&
  (ebits e 61 2 != 0 || deviceOk (ebits e 14 38 * 2 ^ 14))

/-- The virtual page base that an entry at a level covers. -/
def pageBase (va level : Nat) : Nat := va - va % 2 ^ levelShift level

/-- The bytes that a cached entry covers contain an address of its context. -/
def tlbHit (asid va : Nat) (t : TlbEnt) : Bool := t.asid == asid && pageBase va t.level == t.base

/-- The state with a cluster changed. -/
def modCluster (s : State) (i : Nat) (f : Cluster → Cluster) : State :=
  { s with clusters := mmod {} s.clusters i f }

/-- An entry put into a structure of `cap` entries, before those that stay; where it held as many, one of a free choice leaves it
(R325; log 10). -/
def putCapped (cap n : Nat) (t : TlbEnt) (ts : List TlbEnt) : List TlbEnt :=
  if ts.length < cap then t :: ts else t :: ts.eraseIdx (n % ts.length)

/-- A page-table entry read at its slice as an untracked load (R239), or the cause and sub-cause with which memory refuses the walker
(R250, R251), or delivers it poisoned (R295). -/
def readEntry (s : State) (asid a : Nat) : State × Except (Nat × Nat) DWord :=
  match memFault s a with
  | some f => (noteFault s asid a f, .error f)
  | none =>
    let r := untrackedLoad s asid a 8 {}
    match badAt r.1 a 8 with
    | some sub => (r.1, .error (13, sub))
    | none => (r.1, .ok (BitVec.ofNat 64 r.2))

/-- The walk from a level's table (R236, R238): the leaf, its level and its address, or the cause and sub-cause of its fault. A
table entry found in the cluster's walk cache of 128 entries is not read again (R240). -/
def walkFrom (fuel : Nat) (s : State) (cl asid va level table : Nat) : State × Except (Nat × Nat) (DWord × Nat × Nat) :=
  match fuel with
  | 0 => (s, .error (2, 0))
  | fuel + 1 =>
    let a := table + 8 * levelIndex va level
    let r : State × Except (Nat × Nat) DWord :=
      match (mget {} s.clusters cl).wcache.find? (fun t => t.level == level && tlbHit asid va t) with
      | some t => (s, .ok t.ent)
      | none => readEntry s asid a
    let s := r.1
    match r.2 with
    | .error f => (s, .error f)
    | .ok e =>
      if ebits e 0 1 = 0 then (s, .error (2, 0))
      else if ebits e 1 1 = 1 then
        if level = 3 ∨ !tableOk e then (s, .error (2, 0))
        else
          let t : TlbEnt := { asid := asid, base := pageBase va level, level := level, ent := e }
          let s := modCluster s cl fun k =>
            if k.wcache.contains t then k else { k with wcache := putCapped 128 (Config.pick (freeIx s (6 + level))) t k.wcache }
          walkFrom fuel s cl asid va (level + 1) (ebits e 14 38 * 2 ^ 14)
      else if leafOk e level then (s, .ok (e, level, a)) else (s, .error (2, 0))

/-- What an access needs of a leaf (R238). -/
structure Need where
  r : Bool := false
  w : Bool := false
  x : Bool := false
  deriving DecidableEq, Repr

/-- The grant of MSC scratch that covers a physical address gives it to a context (R164). -/
def mscGranted (s : State) (asid pa : Nat) : Bool :=
  let o := pa - mscBase
  let g := mget 0 s.mm.grant (o / 2 ^ 40)
  let f := fun lo n => (g.toNat / 2 ^ lo) % 2 ^ n
  f 31 1 == 1 && f 24 6 == asid && o % 2 ^ 40 < f 20 4 * (f 10 10 + 1) * 2048

/-- The ownership rules of device pages (R242, R244). -/
def ownerAllows (s : State) (asid pa : Nat) : Bool :=
  if mscBase ≤ pa ∧ pa < mscTop then mscGranted s asid pa
  else if pa < hbmTop then
    let e := ownOf s pa
    let owner := (e.toNat / 2 ^ 8) % 64
    !e.getLsbD 7 && (if (ctx s asid).ver then owner == asid else !e.getLsbD 14)
  else !(ctx s asid).ver

/-- The permission check of R238 on a leaf, at the access's physical address. -/
def permitted (s : State) (w : Who) (e : DWord) (pa : Nat) (n : Need) : Bool :=
  (!n.r || ebits e 2 1 == 1) && (!n.w || ebits e 3 1 == 1) && (!n.x || ebits e 4 1 == 1) &&
  (!w.user || ebits e 5 1 == 1) &&
  (ebits e 61 2 != 0 || !(mmioBase ≤ pa && pa < mmioTop) || ebits e 6 2 == 2) &&
  (ebits e 59 2 == 0 || (ebits e 61 2 == 0 && (ctx s w.asid).kshare.getLsbD (ebits e 53 6))) &&
  (ebits e 61 2 != 0 || ownerAllows s w.asid pa)

/-- The physical address of an access through a leaf at a level (R236). -/
def leafAddr (e : DWord) (level va : Nat) : Nat :=
  ebits e 14 38 * 2 ^ 14 + va % 2 ^ levelShift level

/-- A translation: the state after it, and the leaf, or the cause and sub-cause of R278 that it faults with. -/
abbrev Xlate := State × Except (Nat × Nat) Leaf

/-- The leaf's A bit, and for a write its D bit, set by the walker with an untracked compare-and-swap (R239). -/
def touchLeaf (s : State) (asid a : Nat) (e : DWord) (write : Bool) : State × DWord :=
  let e' := e ||| (if write then 0x300 else 0x100)
  if e' = e then (s, e) else ((untrackedStore s asid a 8 e'.toNat {}).1, e')

/-- The firmware is moving a page to a new owner (R243): MOVEPG, with the page in the mailbox's first words (R316), is due. -/
def pageMoving (s : State) (pa : Nat) : Bool :=
  s.pending.any (fun e => match e with
    | .movepg => true
    | _ => false) &&
  pa / 2 ^ 14 == ((mget 0 s.fw.data 16).toNat + 2 ^ 32 * (mget 0 s.fw.data 17).toNat) / 2 ^ 14

/-- A leaf of a peer names a peer of the pod map that is not this device (R315). -/
def podAllows (s : State) (e : DWord) : Bool :=
  let x := mget 0 s.fw.podmap (ebits e 46 6)
  ebits e 61 2 != 2 || (x.getLsbD 31 && !x.getLsbD 30)

/-- The entry of a core's L1 TLB, or of its cluster's L2 TLB, that serves an access (R240): for a write one with D (R239). -/
def tlbFind (s : State) (w : Who) (va : Nat) (n : Need) : Option TlbEnt :=
  ((core s w.core).tlb ++ (mget {} s.clusters (w.core / 8)).tlb2).find? fun t => tlbHit w.asid va t && (!n.w || ebits t.ent 9 1 == 1)

/-- The leaf of a virtual address: from the L1 TLB of 256 entries, the L2 TLB of 8,192 or a walk (R236, R240), checked against what the
access needs (R238). A leaf without D that a write uses is walked again (R239). A permission fault drops the leaf from both TLBs (R240). An
access to a page that is on its way to the context that asks for it waits (R243): the cause is then 0, and the stall reason stands in place
of the sub-cause. -/
def translate (s : State) (w : Who) (va : Nat) (n : Need) : Xlate :=
  let cl := w.core / 8
  let found := tlbFind s w va n
  let finish := fun (s : State) (e : DWord) (level : Nat) (addr : Option Nat) =>
    let pa := leafAddr e level va
    if !podAllows s e || (ebits e 61 2 == 0 && !deviceOk pa) then ((s, .error (2, 0)) : Xlate)
    else if !permitted s w e pa n then
      let keep := fun t => !tlbHit w.asid va t
      let s := modCore s w.core fun k => { k with tlb := k.tlb.filter keep }
      ((modCluster s cl fun k => { k with tlb2 := k.tlb2.filter keep },
        .error (if ebits e 61 2 == 0 && pageMoving s pa && !ownerAllows s w.asid pa then (0, 21) else (3, 0))))
    else if ebits e 61 2 = 2 ∧ s.fw.fenced.contains (ebits e 46 6) then (s, .error (16, 0))
    else
      let r := match addr with
        | some a => touchLeaf s w.asid a e n.w
        | none => (s, e)
      let s := r.1
      let e := r.2
      let t : TlbEnt := { asid := w.asid, base := pageBase va level, level := level, ent := e }
      let put := fun cap n ts =>
        if ts.contains t then ts else putCapped cap (Config.pick (freeIx s n + 2 ^ 64 * va)) t (ts.filter fun u => !tlbHit w.asid va u)
      let s := modCore s w.core fun k => { k with tlb := put 256 10 k.tlb }
      let s := modCluster s cl fun k => { k with tlb2 := put 8192 11 k.tlb2 }
      (s, .ok { pa := pa, mt := ebits e 6 2, loc := ebits e 61 2,
                via := { na := ebits e 63 1 == 1, key := some (ebits e 59 2 * 64 + ebits e 53 6) } })
  match found with
  | some t => finish s t.ent t.level none
  | none =>
    let r := walkFrom 4 s cl w.asid va 0 (ctx s w.asid).root
    match r.2 with
    | .error f => (r.1, .error f)
    | .ok (e, level, a) => finish r.1 e level (some a)

/-- The checks of R168 in their order: alignment, the 58-bit range, translation, permission. -/
def address (s : State) (w : Who) (va size : Nat) (n : Need) : Xlate :=
  if va % size ≠ 0 then (s, .error (4, 0))
  else if 2 ^ 58 ≤ va then (s, .error (2, 0))
  else translate s w va n

end

end Sys2Proof.Machine
end

