-- ==== Sys2Proof/Machine/Mmio.lean ====
section
/-! DEFINITION. What the registers of the MMIO window read as (R16, R284, R302, R303, R306, R313, R314), the capability
registers (R260), and the trace unit's ring (R303). Writes are the step REGISTER_WRITE. -/

namespace Sys2Proof.Machine

noncomputable section

/-- The capability registers on stepping A (R260), by ID; unassigned IDs read 0 (R52). -/
def capability (id : Nat) : Word :=
  match id with
  | 0x100 => 0x001800C0 | 0x101 => 0x00000758 | 0x102 => 0x4B094100 | 0x103 => 0x01000820
  | 0x104 => 0x075803AC | 0x105 => 0x00080200 | 0x106 => 0x00400080 | 0x107 => 0x00100100
  | 0x108 => 0x05000600 | 0x109 => 0x20000100 | 0x10A => 0x10000040 | 0x10B => 0x0000343A
  | 0x10C => 0x000012C8 | 0x10D => 0x00000080 | _ => 0

/-- A word of the mailbox page (R314). -/
def mailboxWord (s : State) (k : Nat) : Word :=
  match k with
  | 0 => BitVec.ofNat 32 (s.fw.status * 2 ^ 28 + s.fw.detail.toNat % 2 ^ 12 * 2 ^ 16)
  | 1 => BitVec.ofNat 32 ((if s.fw.go then 2 ^ 31 else 0) + s.fw.cmd.toNat % 2 ^ 16)
  | 2 => s.fw.res
  | _ => if 16 ≤ k then mget 0 s.fw.data k else 0

/-- A word of a core's block (R16, R284, R302, R306). -/
def coreWord (s : State) (c o : Nat) : Word :=
  let k := core s c
  if o = 0x100 then (if k.cpyErr then 0x20000000 else 0)
  else if o = 0x200 then k.scr.setWidth 32
  else if 0x300 ≤ o ∧ o < 0x340 then
    let b := mget 0 k.bps ((o - 0x300) / 8)
    if o % 8 = 0 then b.setWidth 32 else BitVec.ofNat 32 (b.toNat / 2 ^ 32)
  else if 0x400 ≤ o ∧ o < 0xC00 then
    let n := mget 0 k.pstall ((o - 0x400) / 0x100 * 32 + (o % 0x100) / 8)
    if o % 8 = 0 then BitVec.ofNat 32 n else BitVec.ofNat 32 (n / 2 ^ 32)
  else 0

/-- The word at an offset of the window (R313); a reserved offset reads 0. The trace registers stand in the order of
R303's table (PRESUMED, log 14). -/
def mmioWord (s : State) (o : Nat) : Word :=
  if o < 0x1000 then
    match o with
    | 0x00 => s.tr.base | 0x04 => s.tr.ctl | 0x08 => s.tr.head | 0x0C => s.tr.tail | 0x10 => s.tr.drop | _ => 0
  else if o < 0x2000 then mailboxWord s ((o - 0x1000) / 4)
  else if o < 0x2400 then capability (0x100 + (o - 0x2000) / 4)
  else if 0x10000 ≤ o ∧ o < 0x10000 + 0x1000 * 192 then coreWord s ((o - 0x10000) / 0x1000) (o % 0x1000)
  else 0

/-- The stall counters and the breakpoints are reached by context 0 only (R302, R306). -/
def mmioHidden (asid o : Nat) : Bool :=
  asid != 0 && 0x10000 ≤ o && o < 0x10000 + 0x1000 * 192 && 0x300 ≤ o % 0x1000

/-- A direct load from the window. -/
def mmioRead (s : State) (asid pa n : Nat) : Nat :=
  let o := pa - mmioBase
  if mmioHidden asid o then 0
  else lowBytes n (((mmioWord s (o - o % 4)).toNat + (mmioWord s (o - o % 4 + 4)).toNat * 2 ^ 32) / 2 ^ (8 * (o % 4)))

/-- A trace record, if its source (a bit of TRCTL) is on: written into the ring at HEAD, or counted as lost when the
ring is full (R303). -/
def traceRecord (s : State) (bit record : Nat) : State :=
  let size := s.tr.ctl.toNat % 2 ^ 16 * 2048
  if !s.tr.ctl.getLsbD bit || size == 0 then s
  else if size ≤ (s.tr.head - s.tr.tail).toNat then { s with tr := { s.tr with drop := s.tr.drop + 1 } }
  else
    let a := s.tr.base.toNat * 2 ^ 14 + 8 * (s.tr.head.toNat % size)
    let s := (directStore s 0 a 8 record {}).1
    { s with tr := { s.tr with head := s.tr.head + 1 } }

end

end Sys2Proof.Machine
end

