-- ==== Sys2Proof/Machine/Access.lean ====
section
/-! DEFINITION. The loads, stores and atomics of groups and engines by the place and type of their page (R138, R173,
R176 to R178), inside and outside a region (R193 to R196), with the undo log (R289 to R292). -/

namespace Sys2Proof.Machine

noncomputable section

/-- The outcome of a memory access: done, with the agent's clock after it, the value read, and whether it came with an
uncorrectable error (the sub-cause of R278); a trap (cause and sub-cause of R278); the abort of the group's region (cause of R201); or
not yet made, because the place where it is performed holds it back (R158, R202, R249). -/
inductive Access where
  | done (s : State) (clk : Word) (val : Nat) (bad : Option Nat)
  | trap (s : State) (cause sub : Nat)
  | abort (s : State) (cause : Nat)
  | wait (s : State)

/-! ## The undo log (R289 to R292) -/

/-- Bytes of the undo log's record ring (R289). -/
def ulogRing (c : Ctx) : Nat := (c.ulogSize.toNat % 2 ^ 16 - 1) * 2 ^ 14

/-- The physical address of the log's header page (R289). -/
def ulogPage (c : Ctx) : Nat := c.ulogBase * 2 ^ 14

/-- Logging is on (R289). -/
def ulogOn (c : Ctx) : Bool := c.ulogPol.getLsbD 31

/-- A field of the header page, read at its slice. -/
def ulogField (s : State) (c : Ctx) (o n : Nat) : Nat := readBytes s.mm.mem (ulogPage c + o) n

/-- A field of the header page written; the log's own writes move no clock. -/
def ulogSetField (s : State) (c : Ctx) (o n x : Nat) : State := devWrite s (ulogPage c + o) n x

/-- The records of a context whose space is reserved and that are not written yet, those of its CADDs on their way (R290). -/
def unwrittenOf (s : State) (n : Nat) : List Nat :=
  ((allGroups s).filter (·.ctx == n)).flatMap fun g => g.ops.filterMap fun o => o.ulog.map (·.1)

/-- The count past the last record of window `w` between the counts `pos` and `head`, `best` if there is none: a line record is 160
bytes, every other 32, those that are not written yet among them (R291). -/
def pastWindow (fuel : Nat) (s : State) (c : Ctx) (w head : Nat) (unwritten : List Nat) (pos best : Nat) : Nat :=
  match fuel with
  | 0 => best
  | fuel + 1 =>
    let word := fun i => readBytes s.mm.mem (ulogPage c + 2 ^ 14 + (pos + 4 * i) % ulogRing c) 4
    if head ≤ pos then best
    else if unwritten.contains pos then pastWindow fuel s c w head unwritten (pos + 32) best
    else
      let next := pos + if word 1 / 2 ^ 28 = 2 then 160 else 32
      pastWindow fuel s c w head unwritten next (if word 5 / 2 ^ 16 = w then next else best)

/-- TAIL advances past every record of window OLDW and OLDW increases by 1, until `need` bytes fit or OLDW reaches
WINDOW, `fuel` windows away (R292, DISCARD). -/
def ulogDiscard (fuel : Nat) (s : State) (n need : Nat) (unwritten : List Nat) : State × Bool :=
  let c := ctx s n
  let head := ulogField s c 0 8
  let tail := ulogField s c 8 8
  if head + need ≤ tail + ulogRing c then (s, true)
  else
    match fuel with
    | 0 => (s, false)
    | fuel + 1 =>
      let old := ulogField s c 16 2
      let s := ulogSetField s c 8 8 (pastWindow ((head - tail) / 32) s c old head unwritten tail tail)
      ulogDiscard fuel (ulogSetField s c 16 2 ((old + 1) % 2 ^ 16)) n need unwritten

/-- What memory refuses of a page of the log, of whose reads and writes R250 and R251 say no more (log 82). -/
def ulogFault (s : State) (c : Ctx) : Option (Nat × Nat) :=
  (memFault s (ulogPage c)).orElse fun _ => memFault s (ulogPage c + 2 ^ 14 + ulogField s c 0 8 % ulogRing c)

/-- Space for `k` records of `bytes` bytes in all reserved in the ring (R290): the place of the first and its sequence number; or the
cause and sub-cause with which the effect is refused, the policy in force having no space for it (R292). `unwritten` are the places
reserved before whose records are not written yet. -/
def ulogReserve (s : State) (n core bytes : Nat) (k : Nat := 1) (unwritten : List Nat := []) : State × Except (Nat × Nat) (Nat × Nat) :=
  let c := ctx s n
  match ulogFault s c with
  | some f => (noteFault s n (ulogPage c) f, .error f)
  | none =>
    let r := if ulogField s c 0 8 + bytes ≤ ulogField s c 8 8 + ulogRing c then (s, true)
      else if c.ulogPol.getLsbD 30 then
        ulogDiscard ((c.window.toNat + 2 ^ 16 - ulogField s c 16 2) % 2 ^ 16) s n bytes (unwritten ++ unwrittenOf s n)
      else (s, false)
    if !r.2 then (r.1, .error (17, 0))
    else
      let s := r.1
      let head := ulogField s c 0 8
      let seq := (Machine.core s core).ulogSeq
      (modCore (ulogSetField s c 0 8 (head + bytes)) core fun x => { x with ulogSeq := (x.ulogSeq + k) % 2 ^ 32 }, .ok (head, seq))

/-- Bytes put into the record ring, wrapping at its end (R291). -/
def ulogPut (s : State) (c : Ctx) (pos : Nat) : List Nat → State
  | [] => s
  | w :: ws =>
    ulogPut (devWrite s (ulogPage c + 2 ^ 14 + pos % ulogRing c) 4 w) c (pos + 4) ws

/-- What a record of the undo log says of its effect (R291). -/
structure UlogInfo where
  va    : Nat
  type  : Nat
  old   : Nat := 0
  line  : List Nat := []
  flags : Nat := 0
  size  : Nat := 0
  core  : Nat := 0
  slot  : Nat := 0
  step  : Nat := 0

/-- A record written into its reserved space, with its logical time, window and sequence number (R290, R291). A seal record seals the
current window (R290). -/
def ulogWrite (s : State) (n : Nat) (i : UlogInfo) (t : Word) (at_ : Nat × Nat) : State :=
  let c := ctx s n
  let ws := [i.va % 2 ^ 32, i.type * 2 ^ 28 + i.va / 2 ^ 32 % 2 ^ 26, i.old % 2 ^ 32, i.old / 2 ^ 32, t.toNat,
             c.window.toNat * 2 ^ 16 + i.core * 2 ^ 8 + i.flags, i.slot * 2 ^ 22 + i.size * 2 ^ 19 + i.step, at_.2] ++ i.line
  let s := ulogPut s c at_.1 ws
  if i.type = 3 then ulogSetField s c 20 4 (2 ^ 31 + c.window.toNat) else s

/-- The step number of a record: that of the group's latest step, while STEP is set (R291, R294). -/
def stepNo (s : State) (g : Group) : Nat := if (ctx s g.ctx).ulogPol.getLsbD 29 then g.stepNo else 0

/-! ## Places -/

/-- Where an access goes (R138): tracked, untracked or direct device memory, the MMIO window, the host, a peer. -/
inductive Place where
  | tracked | untracked | direct | mmio | host | peer
  deriving DecidableEq, Repr

/-- The place of a leaf (R138, R237). -/
def placeOf (l : Leaf) : Place :=
  match l.loc with
  | 1 => .host
  | 2 => .peer
  | _ =>
    if mmioBase ≤ l.pa then .mmio
    else match l.mt with
      | 0 => .tracked
      | 1 => .untracked
      | _ => .direct

/-- A peer is reached: some port of its entry in the pod map works (R297, R315). -/
def peerReached (s : State) (peer : Nat) : Bool :=
  (List.range 18).any fun p => (mget 0 s.fw.podmap peer).getLsbD p && !(mget {} s.io.links (p + 1)).down

/-- A group's agent: supervisor groups and groups with PRIV set are not users (R234, R268). -/
def whoOf (s : State) (g : Group) : Who :=
  { core := g.core, asid := g.ctx, clk := g.lclk, user := !privileged g, lease := (ctx s g.ctx).lease.toNat }

/-- The trap of an access that `memFault` refuses. -/
def memTrap (s : State) (asid pa : Nat) (f : Nat × Nat) : Access :=
  .trap (noteFault s asid pa f) f.1 f.2

/-! ## Loads -/

/-- A load of `n` bytes by an agent, outside a region, through a leaf (R153, R160, R313). A host whose port is down
answers with poison, and so does a peer to which no port works (R297, R315). `asked` are the sectors of memory that its instruction has
asked for (R170). -/
def plainLoad (s : State) (w : Who) (l : Leaf) (n : Nat) (asked : List Nat := []) : Access :=
  match placeOf l with
  | .host => .done s w.clk (readHost s.mm.hostMem l.pa n)
      (if (mget {} s.io.links 0).down then some 5 else none)
  | .peer => .done s w.clk (readPeer s.mm.peerMem l.pa n) (if peerReached s (l.pa / 2 ^ 46) then none else some 5)
  | .mmio => .done s w.clk (mmioRead s w.asid l.pa n) none
  | p =>
    match (if p = .tracked then loadFault s w l.pa l.via else memFault s l.pa l.via) with
    | some f => memTrap s w.asid l.pa f
    | none =>
      match p with
      | .tracked =>
        let r := trackedLine s w (l.pa / 128) l.via
        .done r.1 r.2.2 (copyBytes r.1 r.2.1 l.pa n) (copyBad r.1 r.2.1 l.pa n)
      | .untracked =>
        let r := untrackedLoad s w.asid l.pa n l.via
        .done r.1 w.clk r.2 (badAt r.1 l.pa n)
      | _ =>
        let r := directLoad s w.asid l.pa n l.via asked
        .done r.1 w.clk r.2 (badAt r.1 l.pa n)

/-! ## Regions: registration (R195, R196) -/

/-- A slice's region entries, one put in place of the entry of its region and line or added. -/
def putEntry (es : List RgnEnt) (e : RgnEnt) : List RgnEnt :=
  if es.any (fun x => x.aid == e.aid && x.line == e.line) then
    es.map fun x => if x.aid == e.aid && x.line == e.line then e else x
  else es ++ [e]

/-- The rules of R197 between a region that has just registered on a line and one other region there, both elastic: a reader
precedes a writer, and of two writers the lower lo precedes, on equal lo the lower AID. -/
def orderRules (s : State) (me other : RgnEnt) (wr : Bool) : State :=
  let line := me.line
  let s := if wr && other.reader then precedes s line other.aid me.aid 32 else s
  let s := if !wr && other.writer then precedes s line me.aid other.aid 32 else s
  if wr && other.writer then
    match entryNow s me.aid line, entryNow s other.aid line with
    | some m, some o =>
      if m.lo = o.lo ∧ m.aid < o.aid ∨ before m.lo o.lo then precedes s line me.aid other.aid 33
      else precedes s line other.aid me.aid 33
    | _, _ => s
  else s

/-- The rules between a region that has just registered and one other (R197, R198): nothing between two readers; where a party is
firm no bound changes, and the slice sends the later party an abort message with cause 15. -/
def pairRule (s : State) (me : RgnEnt) (wr : Bool) (other : RgnEnt) : State :=
  if !wr && !other.writer then s
  else if !me.elastic || !other.elastic then pend s (.narrowingMessage 2 me.aid 0 (homeSlice me.line) 15)
  else orderRules s me other wr

/-- The line that a registration installs in the L1 of the region's core (R196): exclusive for a line of the write set, else a shared
copy. The answer is the abort cause, if the L1 must replace a line that carries the region's own bits (R195). -/
def installRegion (s : State) (g : Group) (line : Nat) (excl : Bool) : State × Option Nat :=
  let x := lineOf s line
  let s := if excl then setL1 (setL2 s line { x with owner := some (ownerKey g.core g.ctx) }) g.core g.ctx line
      { excl := true, wts := x.wts, rts := x.rts }
    else setL1 s g.core g.ctx line (sharedCopy s line x.wts x.rts)
  match l1Victim s g.core g.ctx line with
  | none => (s, none)
  | some (a, l) =>
    let s := replaceL1 s (some (gidOf g)) g.core a l
    (s, if a = g.ctx then (group s (gidOf g)).bind fun g => carriedBy g l else none)

/-- A region with a line added to its read or write set, and the line as its slice registered it (R196): a region load returns those
bytes (R193). -/
def addToSets (s : State) (r : Region) (line : Nat) (wr : Bool) : Region :=
  let h := homeSlice line
  { r with
    reads := if wr then r.reads else r.reads ++ [line]
    writes := if wr then r.writes ++ [line] else r.writes
    slices := if r.slices.contains h then r.slices else r.slices ++ [h]
    seen := if wr && (mfind r.seen line).isSome then r.seen
      else mset r.seen line (sliceOfMemory s.mm.mem (line * 128) 128, badOfLine s.mm.bad line) }

/-- The entry with which a slice registers a region on a line: its copy of the bounds is none wider than another it holds of the
region (R199). -/
def regionEntry (s : State) (g : Group) (r : Region) (line : Nat) (wr : Bool) : RgnEnt :=
  let aid := g.aid.toNat
  let mine := (slice s (homeSlice line)).rents.filter (·.aid == aid)
  let old := entryNow s aid line
  { aid := aid, gid := gidOf g, line := line, reader := !wr || (old.map (·.reader)).getD false,
    writer := wr || (old.map (·.writer)).getD false, elastic := r.elastic,
    lo := mine.foldl (fun t e => ltMax t e.lo) g.alo, hi := mine.foldl (fun t e => ltMin t e.hi) g.ahi }

/-- The registration of a region on a line, with room in its sets and at the slice (R196): the line is brought in and its owner
recalled; a reader covers lo by the line's rts and takes lo at least wts; a writer takes lo at least rts + 1 and is granted the line
exclusive. Then the rules against every other entry apply in ascending AID (R197). DESIGN CHOICE (log 63): a reader's raise of lo is
sent as a message of kind 1 with cause 0, for which R196 names neither. -/
def registerAt (s : State) (g : Group) (r : Region) (line : Nat) (wr : Bool) (v : Via) : State × Option Nat :=
  let h := homeSlice line
  let s := recallLine (ensureLine (snoopHost s line wr) g.ctx line v) line
  let x := lineOf s line
  let e := regionEntry s g r line wr
  let s := modSlice s h fun k => { k with rents := putEntry k.rents e }
  let s := modGroup s (gidOf g) fun g => { g with rgn := g.rgn.map fun r => addToSets s r line wr }
  let s := if wr then narrowLo s e (x.rts + 1) 36
    else narrowLo (setL2 s line { x with rts := ltMax x.rts e.lo }) e x.wts 0
  let s := ((entriesOn s line).filter (fun o => o.aid != e.aid)).foldl (fun s o => pairRule s e wr o) s
  installRegion s g line e.writer

/-- A region of a group registers on a line as reader or writer, if the line is not in that set already. The answer is the abort
cause where a set, the slice or the L1 has no room (R195). -/
def registerLine (s : State) (gid line : Nat) (wr : Bool) (v : Via) : State × Option Nat :=
  match group s gid with
  | none => (s, none)
  | some g =>
    match g.rgn with
    | none => (s, none)
    | some r =>
      if (if wr then r.writes.contains line else r.reads.contains line) then (s, none)
      else if wr && r.writes.length == 128 then (s, some 3)
      else if !wr && r.reads.length == 512 then (s, some 2)
      else if (slice s (homeSlice line)).rents.length == 2048 && (entryNow s g.aid.toNat line).isNone then (s, some 4)
      else registerAt s g r line wr v

/-- A line as an open region sees it: what its slice registered, the newest bytes if it has not. -/
def seenLine (s : State) (r : Region) (line : Nat) : Memory × SMap Nat := (mfind r.seen line).getD (s.mm.mem, s.mm.bad)

/-- The bytes of an access as an open region sees them: its own buffered bytes over the line's (R193). -/
def regionBytes (m : Memory) (r : Region) (pa : Nat) : Nat → Nat
  | 0 => 0
  | n + 1 => (mget (readByte m pa) r.buf pa).toNat + 256 * regionBytes m r (pa + 1) n

/-- Bytes put into a region's write buffer (R193). -/
def bufferBytes (b : SMap Byte) (pa : Nat) : Nat → Nat → SMap Byte
  | 0, _ => b
  | n + 1, x => bufferBytes (mset b pa (BitVec.ofNat 8 x)) (pa + 1) n (x / 256)

/-- The bytes of an access all stand in the region's buffer. -/
def buffered (r : Region) (pa : Nat) : Nat → Bool
  | 0 => true
  | n + 1 => (mfind r.buf pa).isSome && buffered r (pa + 1) n

/-- An access of a group inside its region to a line (R193, R194, R196), once the line is registered. -/
def regionAccess (s : State) (g : Group) (l : Leaf) (wr : Bool) (f : State → Region → Access) : Access :=
  if placeOf l ≠ .tracked then .abort s 9
  else if mustWait s (some g.aid.toNat) (l.pa / 128) wr then .wait s
  else
    match memFault s l.pa l.via with
    | some k => memTrap s g.ctx l.pa k
    | none =>
      let r := registerLine s (gidOf g) (l.pa / 128) wr l.via
      match r.2 with
      | some c => .abort r.1 c
      | none =>
        match (group r.1 (gidOf g)).bind (·.rgn) with
        | some q => f r.1 q
        | none => .done r.1 g.lclk 0 none

/-- A load by a group inside its region; the clock does not move (R193). -/
def regionLoad (s : State) (g : Group) (l : Leaf) (n : Nat) : Access :=
  regionAccess s g l false fun s q =>
    let x := seenLine s q (l.pa / 128)
    .done s g.lclk (regionBytes x.1 q l.pa n) ((badIn q.bad l.pa n).orElse fun _ => if buffered q l.pa n then none else badIn x.2 l.pa n)

/-- The words of the buffer that are poisoned once bytes have been put into it (R295). -/
def bufferBad (q : Region) (pa n : Nat) (bad : Option Nat) : SMap Nat :=
  match bad with
  | some sub => mset q.bad (pa / 8) sub
  | none => if n = 8 then mdel q.bad (pa / 8) else q.bad

/-- A store by a group inside its region: into the buffer (R193). An atomic that met poison leaves poison there. -/
def regionStore (s : State) (g : Group) (l : Leaf) (va n x : Nat) (bad : Option Nat := none) : Access :=
  regionAccess s g l true fun s _ =>
    .done (modGroup s (gidOf g) fun g => { g with rgn := g.rgn.map fun q =>
      { q with buf := bufferBytes q.buf l.pa n x, vas := mset q.vas (l.pa / 8) (va - va % 8), bad := bufferBad q l.pa n bad } }) g.lclk 0 none

/-- A leaf that reaches device memory, not the window of registers. -/
def inDevice (l : Leaf) : Bool := placeOf l == .tracked || placeOf l == .untracked || placeOf l == .direct

/-- An access of a group outside a region waits, with stall reason fabric (R158, R202, R249). -/
def groupWaits (s : State) (l : Leaf) (wr : Bool) : Bool := inDevice l && mustWait s none (l.pa / 128) wr

/-- A load by a group of `n` bytes through a leaf. -/
def groupLoad (s : State) (g : Group) (l : Leaf) (n : Nat) (asked : List Nat := []) : Access :=
  if g.rgn.isSome then regionLoad s g l n else if groupWaits s l false then .wait s else plainLoad s (whoOf s g) l n asked

/-! ## Stores -/

/-- An effect with the undo log's record of it, if the context logs: refused under its policy, or reserved before the effect and
then written at the effect's time (R290, R292). -/
def logged (s : State) (asid : Nat) (i : UlogInfo) (effect : State → State × Word) : State × Except (Nat × Nat) Word :=
  if !ulogOn (ctx s asid) then ((effect s).1, .ok (effect s).2)
  else
    match ulogReserve s asid i.core (32 + 4 * i.line.length) with
    | (s, .error f) => (s, .error f)
    | (s, .ok p) =>
      let e := effect s
      (ulogWrite e.1 asid i e.2 p, .ok e.2)

/-- A group counts undo-log while the records of what it has just written are taken (R290), a free number of cycles (log 2); `s` is the
state before. -/
def countLogged (s t : State) (g : Group) : State :=
  if ulogOn (ctx s g.ctx) && (core s g.core).ulogSeq != (core t g.core).ulogSeq then
    countStall t (gidOf g) 22 (Config.cycles (freeIx s 2))
  else t

/-- A store to host or peer memory, or to the MMIO window, moves no clock; a store to the window is a register write,
which is due (R313). A host whose port is down takes nothing (R297; log 60), nor does a peer to which no port works (R315). -/
def farStore (s : State) (w : Who) (l : Leaf) (n x : Nat) : State × Word :=
  match placeOf l with
  | .host => if (mget {} s.io.links 0).down then (s, w.clk) else ({ s with mm := { s.mm with hostMem := writeFar s.mm.hostMem l.pa n x } }, w.clk)
  | .peer =>
    if peerReached s (l.pa / 2 ^ 46) then ({ s with mm := { s.mm with peerMem := writeFar s.mm.peerMem l.pa n x } }, w.clk) else (s, w.clk)
  | _ => (if mmioHidden w.asid (l.pa - mmioBase) then s else pend s (.registerWrite l.pa n x), w.clk)

/-- A store of `n` bytes by an agent, outside a region (R155, R160): its state and time. -/
def plainStore (s : State) (w : Who) (l : Leaf) (n x : Nat) : State × Word :=
  match placeOf l with
  | .tracked =>
    let line := l.pa / 128
    let s := ownLine s w line l.via
    let t := trackedTime s w line
    (trackedWrite s w l.pa n x t, t)
  | .untracked => untrackedStore s w.asid l.pa n x l.via
  | .direct => directStore s w.asid l.pa n x l.via
  | _ => farStore s w l n x

/-- The seal code of a place that a word record cannot undo (R290, R291): direct, host, peer, MMIO. -/
def sealCode (p : Place) : Option Nat :=
  match p with
  | .direct => some 0
  | .host => some 1
  | .peer => some 2
  | .mmio => some 3
  | _ => none

/-- log2 of a size of 1, 2, 4 or 8 bytes. -/
def log2Size (n : Nat) : Nat := if n = 8 then 3 else if n = 4 then 2 else if n = 2 then 1 else 0

/-- The undo log's account of a store of a group (R290, R291). -/
def storeInfo (s : State) (g : Group) (l : Leaf) (va n flags : Nat) : UlogInfo :=
  let base : UlogInfo := { va := va, type := 1, core := g.core, slot := g.slot, step := stepNo s g,
                           flags := flags + (if placeOf l = .untracked then 8 else 0) }
  match sealCode (placeOf l) with
  | some k => { base with type := 3, old := k, size := log2Size n }
  | none => { base with old := readBytes s.mm.mem l.pa n, size := log2Size n }

/-- The line of an access made ready where the access is performed: held exclusive in the L1, or without an owner at its
slice (R155, R160). What it returns for a later read or write is the newest data, the host's included. -/
def readyLine (s : State) (w : Who) (l : Leaf) : State :=
  match placeOf l with
  | .tracked => ownLine s w (l.pa / 128) l.via
  | .untracked => sliceReady s w.asid (l.pa / 128) true l.via
  | .direct =>
    let s := snoopHost s (l.pa / 128) true
    if (l2Line s (l.pa / 128)).isSome then sliceReady s w.asid (l.pa / 128) true l.via
    else if (keyDiffers s (l.pa / 128) l.via).isSome then
      keyLine (modMem s fun m => writeBytes m (l.pa / 128 * 128) 128 (readAs s (l.pa / 128) l.via)) (l.pa / 128) l.via.key
    else s
  | _ => s

/-! ## The fault-queue ring (R235, R259) -/

/-- The address of a core's fault-queue ring in context 0, and log2 of its records (R259). -/
def ringBase (s : State) (c : Nat) : Nat := (core s c).faultq.toNat / 64 * 2 ^ 12
def ringLog (s : State) (c : Nat) : Nat := (core s c).faultq.toNat % 16

/-- The agent by which a core reaches its fault queue (R279). -/
def ringAgent (c : Nat) : Who := { core := c, asid := 0, clk := 0, user := false }

/-- The address of record i of a core's ring (R259). -/
def ringRecord (s : State) (c i : Nat) : Nat := ringBase s c + 4096 + 64 * (i % 2 ^ ringLog s c)

/-- ASID (R235): the context of the record at the head of the core's ring, the value it last had while head and tail
are equal. -/
def refreshAsid (s : State) (c : Nat) : State :=
  let k := core s c
  if ringLog s c = 0 ∨ k.fqHead = k.fqTail then s
  else
    match (address s (ringAgent c) (ringRecord s c k.fqHead + 12) 4 { r := true }).2 with
    | .error _ => s
    | .ok l => modCore s c fun k => { k with asid := readBytes s.mm.mem l.pa 4 % 64 }

/-- The supervisor's write of its head counter is noted by its core (R235), and a record that waited for room may be
posted (R280). -/
def noteHead (s : State) (g : Group) (l : Leaf) (va : Nat) : State :=
  if g.sup && ringLog s g.core != 0 && va - va % 8 == ringBase s g.core + 8 then
    let s := refreshAsid (modCore s g.core fun k => { k with fqHead := readBytes s.mm.mem (l.pa - l.pa % 8) 8 }) g.core
    if (core s g.core).replay.any (fun r => !r.posted) then pend s (.faultRecordPost g.core) else s
  else s

/-- What comes before a store outside a region (R168, R250, R251, R290): it may have to wait, memory may refuse it, and space for its
record in the undo log is reserved; `unwritten` are the places reserved before. The answer is the state after it with that space, if the
context logs, or how the access ends. -/
def admitStore (s : State) (g : Group) (l : Leaf) (unwritten : List Nat) : Except Access (State × Option (Nat × Nat)) :=
  if groupWaits s l true then .error (.wait s)
  else
    match (if inDevice l then memFault s l.pa l.via else none) with
    | some f => .error (memTrap s g.ctx l.pa f)
    | none =>
      if !ulogOn (ctx s g.ctx) then .ok (s, none)
      else
        match ulogReserve s g.ctx g.core 32 1 unwritten with
        | (s, .error f) => .error (.trap s f.1 f.2)
        | (s, .ok p) => .ok (s, some p)

/-- A store that has been admitted is performed: the state after it, and the group's clock (R155, R160, R173, R290). -/
def performStore (s : State) (g : Group) (l : Leaf) (va n x : Nat) (log : Option (Nat × Nat)) : State × Word :=
  let s := readyLine s (whoOf s g) l
  let i := storeInfo s g l va n 0
  let r := plainStore s (whoOf s g) l n x
  let s := match log with
    | some p => ulogWrite r.1 g.ctx i r.2 p
    | none => r.1
  (noteHead s g l va, ltMax g.lclk r.2)

/-- A store of a group of `n` bytes through a leaf at virtual address `va` (R173). -/
def groupStore (s : State) (g : Group) (l : Leaf) (va n x : Nat) : Access :=
  if g.rgn.isSome then regionStore s g l va n x
  else
    match admitStore s g l [] with
    | .error a => a
    | .ok (s, log) =>
      let r := performStore s g l va n x log
      .done r.1 r.2 0 none

/-- An atomic of a group: the old value, and the new value written unless `f` answers none (R155, R160, R176 to R178).
In a region it reads and writes the buffer (R193). DESIGN CHOICE (log 65): an atomic on the MMIO window, of which R178 does not speak,
traps with a permission fault as one on host memory does. One that `uses` the old value leaves poison where it met poison (R277, R295). -/
def groupAtomic (s : State) (g : Group) (l : Leaf) (va n : Nat) (integer uses : Bool) (f : Nat → Option Nat) : Access :=
  if g.rgn.isSome then
    match regionLoad s g l n with
    | .done s _ old bad =>
      match group s (gidOf g) with
      | none => .done s g.lclk old bad
      | some g' =>
        match regionStore s g' l va n ((f old).getD old) (if uses then bad else none) with
        | .done s clk _ _ => .done s clk old bad
        | x => x
    | x => x
  else if groupWaits s l true then .wait s
  else
    match placeOf l with
    | .host | .mmio => .trap s 3 0
    | .peer =>
      if !integer then .trap s 3 0
      else
        let old := readPeer s.mm.peerMem l.pa n
        let bad := if peerReached s (l.pa / 2 ^ 46) then none else some 5
        match f old with
        | none => .done s g.lclk old bad
        | some x =>
          match logged s g.ctx (storeInfo s g l va n 1) (fun s => farStore s (whoOf s g) l n x) with
          | (s, .error f) => .trap s f.1 f.2
          | (s, .ok _) => .done s g.lclk old bad
    | p =>
      match memFault s l.pa l.via with
      | some k => memTrap s g.ctx l.pa k
      | none =>
        let w := whoOf s g
        let s := readyLine s w l
        let bad := badAt s l.pa n
        let old := readBytes s.mm.mem l.pa n
        let x := (f old).getD old
        let info := { storeInfo s g l va n 1 with type := 1, old := old, size := log2Size n }
        let effect := fun s =>
          match p with
          | .tracked =>
            let s := ownLine s w (l.pa / 128) l.via
            let t := trackedTime s w (l.pa / 128)
            (trackedWrite s w l.pa n x t, t)
          | .untracked => untrackedStore s w.asid l.pa n x l.via
          | _ => directStore s w.asid l.pa n x l.via
        match logged s g.ctx info effect with
        | (s, .error f) => .trap s f.1 f.2
        | (s, .ok t) => .done (noteHead (stayBad (if uses then bad else none) l.pa n s) g l va) (ltMax g.lclk t) old bad

/-! ## Walks (R170, R240, R241) -/

/-- The page of an address, the smallest of R236. -/
def pageNo (va : Nat) : Nat := va / 2 ^ 14

/-- The addresses below 2^58 that no TLB serves for an agent. -/
def untranslated (s : State) (w : Who) (need : Need) (vas : List Nat) : List Nat :=
  vas.filter fun va => va < 2 ^ 58 && (tlbFind s w va need).isNone

/-- The walks in flight in a cluster: the context and the page of each (R241). -/
def walksOf (s : State) (cl : Nat) : List (Nat × Nat) :=
  s.pending.filterMap fun e => match e with
    | .pageWalk core asid va _ => if core / 8 = cl then some (asid, pageNo va) else none
    | _ => none

/-- Walks begin for the current group's pages: a miss joins a walk of its page and context, and no more than 64 are in flight in a
cluster (R241). -/
def startWalks (write : Bool) (pages : List Nat) (s : State) : State :=
  pages.foldl (fun s p =>
    let ws := walksOf s (s.cur.core / 8)
    if ws.contains (s.cur.ctx, p) || 64 ≤ ws.length then s else pend s (.pageWalk s.cur.core s.cur.ctx (p * 2 ^ 14) write)) s

/-- The walks for the current group's addresses have ended before its instruction makes its accesses (R170): the group counts tlb until
then. A page whose walk has ended for the instruction is looked up, if it has left the TLBs again, within the access itself. -/
def withWalks (need : Need) (vas : List Nat) (body : State → State) (s : State) : State :=
  let open_ := untranslated s (whoOf s s.cur) need vas
  match (open_.map pageNo).filter fun p => !s.cur.walks.contains p with
  | [] => if walksHeld s && !open_.isEmpty then stallOn 21 true s else body s
  | ps => stallOn 10 false (startWalks need.w ps s)

/-- The same for one access of `n` bytes, which no walk precedes where its address is misaligned (R168). -/
def walkedAt (n : Nat) (need : Need) (va : Group → Nat) (body : State → State) (s : State) : State :=
  withWalks need (if va s.cur % n = 0 then [va s.cur] else []) body s

end

end Sys2Proof.Machine
end

