-- ==== Sys2Proof/Machine/Fetch.lean ====
section
/-! DEFINITION. Fetching instruction words (R37 to R41, R50, R234, R268): translation in the context that the code comes
from, the instruction cache, and the words of the instruction at the PC. -/

namespace Sys2Proof.Machine

noncomputable section

/-- The name of a line in the constant cache: its place and its line number. -/
def leafKey (l : Leaf) : Nat := l.loc * 2 ^ 60 + l.pa / 128

/-- The name of a line in the instruction cache: the context and the virtual line (R272). -/
def codeKey (asid va : Nat) : Nat := asid * 2 ^ 51 + va / 128

/-- The bytes of a leaf's line, as its place holds them, and those of its 8-byte words that are poisoned (R295); those of an absent line
as its page's key gives them (R247). -/
def lineBytes (s : State) (l : Leaf) : Memory × SMap Nat :=
  let a := l.pa - l.pa % 128
  match l.loc with
  | 0 =>
    (if (l2Line s (l.pa / 128)).isNone && (keyDiffers s (l.pa / 128) l.via).isSome then writeBytes [] a 128 (readAs s (l.pa / 128) l.via)
      else sliceOfMemory s.mm.mem a 128, badOfLine s.mm.bad (l.pa / 128))
  | 1 => ((List.range 128).map fun i => (a + i, mget (Config.hostByte (a + i)) s.mm.hostMem (a + i)), [])
  | _ => ((List.range 128).map fun i => (a + i, mget (Config.peerByte (a + i)) s.mm.peerMem (a + i)), [])

/-- The agent of a group's instruction fetches (R234, R268). -/
def fetcher (s : State) (g : Group) : Who := { whoOf s g with asid := codeCtx g }

/-- The trap of a line that cannot be read: exhausted or tampered memory (R250, R251), or a host or a peer to which no port works (R297,
R315). -/
def lineFault (s : State) (l : Leaf) : Option (Nat × Nat) :=
  match l.loc with
  | 0 => memFault s l.pa l.via
  | 1 => if (mget {} s.io.links 0).down then some (13, 5) else none
  | _ => if peerReached s (l.pa / 2 ^ 46) then none else some (13, 5)

/-- A line read for a cache of code or of constants: through its slice, where it is in device memory (R41, R319). -/
def lineRead (s : State) (asid : Nat) (l : Leaf) : State :=
  if l.loc = 0 ∧ l.pa < mmioBase then sliceReady s asid (l.pa / 128) false l.via else s

/-- A fill of a cache of code or of constants is held: no walk begins, or its line is held (R158, R202, R249). -/
def fillHeld (s : State) (l : Leaf) : Bool := walksHeld s || groupWaits s l false

/-- A cache of lines with one put in; another line, of a free choice, may have to leave it (R325; log 10). -/
def putLine (s : State) (key : Nat) (x : Memory × SMap Nat) (m : SMap (Memory × SMap Nat)) : SMap (Memory × SMap Nat) :=
  let xs := m.filter fun p => p.1 != key
  match xs[Config.pick (freeIx s 12 + 2 ^ 64 * key) % xs.length]? with
  | some p => mset (if Config.freeBit (freeIx s 13 + 2 ^ 64 * key) then mdel m p.1 else m) key x
  | none => mset m key x

/-- The outcome of fetching one word: the word, a wait for its line, or a trap. -/
inductive Fetched where
  | word (s : State) (w : Word)
  | miss (s : State)
  | fault (s : State) (cause sub : Nat)

/-- A line that a cache holds, or the one that memory holds now: a line that a store has changed since it was fetched is read old or new
as a whole, by a free value for each `key` (R41, R90; log 2). -/
def oldOrNew (s : State) (key : Nat) (old new : Memory × SMap Nat) : Memory × SMap Nat :=
  if old = new then old else if Config.freeBit (freeIx s 14 + 2 ^ 64 * key) then new else old

/-- A word of a line, or the sub-cause of its poison (R295). -/
def wordOf (x : Memory × SMap Nat) (pa : Nat) : Except Nat Word :=
  match badIn x.2 pa 4 with
  | some n => .error n
  | none => .ok (BitVec.ofNat 32 (readBytes x.1 pa 4))

/-- A word read from a line for a fetch: a poisoned one traps (R277, R295). -/
def fetched (s : State) (x : Memory × SMap Nat) (pa : Nat) : Fetched :=
  match wordOf x pa with
  | .error n => .fault s 13 n
  | .ok w => .word s w

/-- One word of code (R39, R41). Where no walk may begin the fetch waits as for its line. -/
def fetchWord (s : State) (g : Group) (va : Nat) : Fetched :=
  if walksHeld s && !(untranslated s (fetcher s g) { x := true } [va]).isEmpty then .miss s
  else
    match address s (fetcher s g) va 4 { x := true } with
    | (s, .error f) => .fault s f.1 f.2
    | (s, .ok l) =>
      match mfind (core s g.core).icache (codeKey (codeCtx g) va) with
      | some old => fetched s (oldOrNew s (va / 128) old (lineBytes s l)) l.pa
      | none =>
        match lineFault s l with
        | some f => .fault (noteFault s (codeCtx g) l.pa f) f.1 f.2
        | none => .miss s

/-- The instruction cache with the line of an address, fetched for a group (R39, R41), if memory still gives it: none if the line is
held. -/
def fillLine (s : State) (g : Group) (va : Nat) : Option State :=
  match address s (fetcher s g) va 4 { x := true } with
  | (s, .error _) => some s
  | (s, .ok l) =>
    if fillHeld s l then none
    else if (lineFault s l).isSome then some s
    else
      let s := lineRead s (codeCtx g) l
      some (modCore s g.core fun k => { k with icache := putLine s (codeKey (codeCtx g) va) (lineBytes s l) k.icache })

/-- What stands at the PC: an instruction and its number of words; a wait for word `k`; a fetch trap at word `k`; a
decode trap. -/
inductive AtPc where
  | instr (s : State) (i : Instr) (n : Nat)
  | miss (s : State) (k : Nat)
  | fault (s : State) (cause sub k : Nat)
  | illegal (s : State) (guard : Bool) (k : Nat)

/-- The steps of R50: words are fetched in order until they decode or fail. -/
def fetchFrom (fuel : Nat) (s : State) (g : Group) (ws : List Word) : AtPc :=
  match fuel with
  | 0 => .illegal s false 0
  | fuel + 1 =>
    match fetchWord s g ((g.pc.toNat + 4 * ws.length) % 2 ^ 64) with
    | .fault s c u => .fault s c u ws.length
    | .miss s => .miss s ws.length
    | .word s w =>
      match decodeWords (ws ++ [w]) with
      | .instr i n => .instr s i n
      | .guard k => .illegal s true k
      | .enc k => .illegal s false k
      | .more => fetchFrom fuel s g (ws ++ [w])

/-- The instruction at the current group's PC. -/
def fetchInstr (s : State) : AtPc := fetchFrom 3 s s.cur []

/-- The word of a target of JG and BRX (R113, R115): as a fetch reads it, but a line not held is read where it
lies. Where it may not be read yet the cause is 0 and the stall reason stands in place of the sub-cause. -/
def targetWord (s : State) (g : Group) (va : Nat) : Fetched :=
  match fetchWord s g va with
  | .miss s =>
    if walksHeld s then .fault s 0 21
    else
      match address s (fetcher s g) va 4 { x := true } with
      | (s, .error f) => .fault s f.1 f.2
      | (s, .ok l) => if fillHeld s l then .fault s 0 21 else fetched s (lineBytes s l) l.pa
  | x => x

end

end Sys2Proof.Machine
end

