-- ==== Sys2Proof/Machine/Progress.lean ====
section
/-! DEFINITION. What the launch record of a task says (R210), block and grid barriers (R144, R225, R226, R305), and the
retiring of groups and blocks (R116, R213). -/

namespace Sys2Proof.Machine

noncomputable section

/-! ## Launch records (R210) -/

/-- Word `k` of a launch record. -/
def recWord (r : List Word) (k : Nat) : Nat := (r.getD k 0).toNat

/-- Bits `lo` to `lo + n - 1` of word `k` of a launch record. -/
def recBits (r : List Word) (k lo n : Nat) : Nat := recWord r k / 2 ^ lo % 2 ^ n

/-- The 64-bit value at words `k` and `k + 1` of a launch record. -/
def recPair (r : List Word) (k : Nat) : Nat := recWord r k + 2 ^ 32 * recWord r (k + 1)

def nblkX (r : List Word) : Nat := recBits r 3 0 31 + 1
def nblkY (r : List Word) : Nat := recBits r 4 0 16 + 1
def nblkZ (r : List Word) : Nat := recBits r 4 16 16 + 1

/-- The number of blocks of a launch. -/
def nblk (r : List Word) : Nat := nblkX r * nblkY r * nblkZ r

/-- The threads of a block, its groups, and the budgets B, U and A (R210). -/
def recThreads (r : List Word) : Nat := recBits r 5 0 14 + 1
def recGroups (r : List Word) : Nat := (recThreads r + 31) / 32
def recB (r : List Word) : Nat := 16 * 2 ^ recBits r 5 14 2
def recU (r : List Word) : Nat := 96 * 2 ^ recBits r 5 16 2
def recA (r : List Word) : Nat := recBits r 5 18 4
def recScr (r : List Word) : Nat := recBits r 6 0 10 * 16384
def recGbar (r : List Word) : Bool := recBits r 0 16 1 == 1
def recOvsub (r : List Word) : Bool := recBits r 0 17 1 == 1

/-- The span m of each block of a launch (R17): the fewest empty cores that hold its groups under the lane and uniform
budgets of R15; two always do. -/
def spanOf (r : List Word) : Nat := if recGroups r ≤ min (256 * (64 / recB r)) (98304 / recU r) then 1 else 2

/-- A task. -/
def taskOf (s : State) (t : Nat) : Task := mget {} s.cp.tasks t

/-- The state with a task changed. -/
def modTask (s : State) (t : Nat) (f : Task → Task) : State :=
  { s with cp := { s.cp with tasks := mmod {} s.cp.tasks t f } }

/-- The launch record of the current group's task: words of 0 for a supervisor group. -/
def launchOf (s : State) (g : Group) : List Word := if g.sup then [] else (taskOf s (block s g.blk).task).record

/-! ## Groups of a block -/

/-- A group is a resident group of a block: a user group, not swapped and not retired. -/
def residentOf (b : Nat) (g : Group) : Bool := !g.sup && g.blk == b && g.st != .retired && g.st != .swapped

/-- The resident groups of a block. -/
def blockGroups (s : State) (b : Nat) : List Group := (allGroups s).filter (residentOf b)

/-- The number of groups of a block that have not retired (R225), those not yet begun and those swapped included. -/
def liveCount (s : State) (b : Nat) : Nat := (block s b).ng - (block s b).gone.length

/-- A change made to the resident groups of a block. -/
def modBlockGroups (s : State) (b : Nat) (f : Group → Group) : State :=
  modAll s fun g => if residentOf b g then f g else g

/-! ## Drift (R156) -/

/-- A group is resident: neither swapped nor retired (R156). -/
def isResident (g : Group) : Bool := g.st != .swapped && g.st != .retired

/-- A group's drift count has reached the TICK that governs it, which a write of TICK replaces when the count restarts (R156). -/
def tickDue (s : State) (g : Group) : Bool :=
  let tick := (ctx s g.ctx).tickNow
  isResident g && tick != 0 && tick.toNat ≤ g.drift

/-- A group whose drift count has reached TICK, once or more often, has its clock raised (R156). -/
def ticked (s : State) (g : Group) : Group :=
  let tick := (ctx s g.ctx).tickNow.toNat
  if tickDue s g then { g with lclk := clamp s g.lclk + BitVec.ofNat 32 (g.drift / tick), drift := g.drift % tick } else g

/-! ## Held groups (R307) -/

/-- A held group keeps the state it would be in (R307). -/
def holdGroup (g : Group) : Group := if g.st = .held then g else { g with under := g.st, st := .held, holdReq := false }

/-- A group is held, and counts supervisor for as long as it is, a free number of cycles (R300, R307; log 2). -/
def holdNow (s : State) (gid : Nat) : State := countStall (modGroup s gid holdGroup) gid 20 (Config.cycles (freeIx s 24))

/-! ## Block barriers (R225) -/

/-- A barrier of a block. -/
def barrierOf (s : State) (b id : Nat) : Barrier := mget {} (block s b).bars id

/-- The state with a barrier of a block put. -/
def setBarrier (s : State) (b id : Nat) (x : Barrier) : State :=
  modBlock s b fun k => { k with bars := mput {} k.bars id x }

/-- A group's clock raised by a barrier (R144); a group in its save or restore routine takes the raise at the end of its
restore (R324). -/
def raiseClock (t : Word) (g : Group) : Group := if g.priv then g else { g with lclk := ltMax g.lclk t }

/-- What the device keeps of a group from its pre-emption to the end of its restore. -/
def awayGroup (s : State) (b grpib : Nat) : Option Group := mfind (block s b).waiting grpib

/-- The state with what the device keeps of a saved group changed. -/
def modAway (s : State) (b grpib : Nat) (f : Group → Group) : State :=
  match awayGroup s b grpib with
  | some g => modBlock s b fun k => { k with waiting := mset k.waiting grpib (f g) }
  | none => s

/-- A group leaves its wait at a block barrier: stalled in BAR SYNC, where it has kept its place in the selection order (R19), or in the
lull of BAR WAIT. -/
def releaseFrom (id turn : Nat) (g : Group) : Group :=
  match inner g with
  | .atBarrier i => if i = id then setInner g .ready else g
  | .lull (.barrier i) _ => if i = id then wakeGroup turn g else g
  | _ => g

/-- A raise that a saved group takes at the end of its restore (R149, R226, R324). -/
def keepRaise (t : Word) (g : Group) : Group :=
  { g with barRaise := some (match g.barRaise with | some u => ltMax u t | none => t) }

/-- The saved groups of a block, of those in a list, take a raise. -/
def raiseAway (s : State) (b : Nat) (ids : List Nat) (t : Word) : State :=
  ids.foldl (fun s i => modAway s b i (keepRaise t)) s

/-- A generation completes (R144, R225): every arrived group's clock is raised, the waiting groups go on, and the count
resets. -/
def completeBarrier (s : State) (b id : Nat) : State :=
  let k := barrierOf s b id
  let s := raiseAway s b k.arrived k.clk
  let s := modBlockGroups s b fun g =>
    if k.arrived.contains g.grpib then releaseFrom id s.turn (raiseClock k.clk g) else g
  setBarrier s b id { gen := (k.gen + 1) % 512 }

/-- A record of the barrier checker (R305). -/
def checkerRecord (s : State) (g : Group) (id event low : Nat) : State :=
  traceRecord s 31 (10 * 2 ^ 60 + g.core * 2 ^ 52 + g.grpib * 2 ^ 43 + id * 2 ^ 39 + event * 2 ^ 36 + low)

/-- The current group arrives at a barrier of its block (R225): one arrival for the group, whatever its mask; the first
arrival of a generation names the count. -/
def arriveBarrier (s : State) (id gcount : Nat) : State :=
  let g := s.cur
  let b := g.blk
  let k := barrierOf s b id
  let m0 := mreg g 0
  let s := if m0 ≠ g.lmask then checkerRecord s g id 2 m0.toNat else s
  let s := if k.count ≠ 0 ∧ k.gcount ≠ gcount then checkerRecord s g id 3 m0.toNat else s
  let k : Barrier :=
    { gcount := if k.count = 0 then gcount else k.gcount, count := k.count + 1,
      arrived := if k.arrived.contains g.grpib then k.arrived else k.arrived ++ [g.grpib],
      clk := if k.count = 0 then g.lclk else ltMax k.clk g.lclk, gen := k.gen }
  let s := setBarrier s b id k
  if (if k.gcount = 0x1FF then liveCount s b else k.gcount) ≤ k.count then completeBarrier s b id else s

/-! ## Grid barriers (R226) -/

/-- A grid-barrier counter of a task. -/
def gridKey (task id : Nat) : Nat := task * 16 + id

/-- A block's side of a grid barrier: the groups that have arrived; `gcount` is 1 once the block's arrival has been
sent; `clk` keeps what the last completed generation carried. -/
def gridBar (s : State) (b id : Nat) : Barrier := mget {} (block s b).gbars id

/-- The state with a block's side of a grid barrier put. -/
def setGridBar (s : State) (b id : Nat) (x : Barrier) : State :=
  modBlock s b fun k => { k with gbars := mput {} k.gbars id x }

/-- A block's arrival goes to the command processor when every group of it that has not retired has arrived, carrying the
greatest clock of its groups. -/
def checkGridBlock (s : State) (b id : Nat) : State :=
  let k := gridBar s b id
  let gone := ((block s b).gone.filter fun i => !k.arrived.contains i).length
  if k.gcount = 0 ∧ !k.arrived.isEmpty ∧ (block s b).ng ≤ k.arrived.length + gone then
    let clk := (blockGroups s b).foldl (fun t g => ltMax t g.lclk) k.clk
    pend (setGridBar s b id { k with gcount := 1, clk := clk }) (.gridBlockArrival b id)
  else s

/-- The blocks of a task. -/
def taskBlocks (s : State) (t : Nat) : List Nat := (s.blocks.filter fun p => p.2.task == t).map (·.1)

/-- A generation of a grid barrier completes when every block that has not retired has arrived (R226): waiting groups are
released and clocks raised; the groups of a swapped block are raised when it is restored. -/
def checkGrid (s : State) (task id : Nat) : State :=
  let t := taskOf s task
  let k := mget {} s.cp.grid (gridKey task id)
  if k.arrived.isEmpty ∨ k.arrived.length + t.retired < nblk t.record then s
  else
    let s := { s with cp := { s.cp with grid := mset s.cp.grid (gridKey task id) { gen := (k.gen + 1) % 512 } } }
    (taskBlocks s task).foldl (fun s b =>
      let x := gridBar s b id
      let s := raiseAway s b x.arrived k.clk
      let s := modBlockGroups s b fun g =>
        let g := if x.arrived.contains g.grpib then raiseClock k.clk g else g
        match inner g with
        | .lull (.grid i) _ => if i = id then wakeGroup s.turn g else g
        | _ => g
      setGridBar s b id { gen := (k.gen + 1) % 512, clk := k.clk }) s

/-- The current group arrives at a grid barrier (R226). -/
def arriveGrid (s : State) (id : Nat) : State :=
  let g := s.cur
  let k := gridBar s g.blk id
  let s := setGridBar s g.blk id
    { k with arrived := if k.arrived.contains g.grpib then k.arrived else k.arrived ++ [g.grpib],
             clk := if k.arrived.isEmpty then g.lclk else ltMax k.clk g.lclk }
  checkGridBlock s g.blk id

/-! ## Retiring (R116, R213, R225) -/

/-- The lowest ticket not yet served and without a reserved entry (R224). -/
def lowestUnserved (k : Slice) : Option Nat :=
  ((k.nacked.filterMap (·.ticket)).filter fun t => !k.resv.contains t).min?

/-- A freed monitor entry is reserved for the lowest ticket not yet served (R224). -/
def reserveEntry (k : Slice) : Slice :=
  match lowestUnserved k with
  | some t => { k with resv := k.resv ++ [t] }
  | none => k

/-- The monitor entries that satisfy a condition are freed (R224). -/
def freeMons (p : Mon → Bool) (k : Slice) : Slice :=
  (k.mons.filter p).foldl (fun k _ => reserveEntry k) { k with mons := k.mons.filter fun m => !p m }

/-- The monitors and refused requests of a group are dropped (R224). -/
def dropMonitors (s : State) (gid : Nat) : State :=
  { s with slices := s.slices.map fun p =>
      (p.1, freeMons (fun m => m.gid == gid) { p.2 with nacked := p.2.nacked.filter fun m => m.gid != gid }) }

/-- The slot entry of a block on a core is freed when its last group there has retired or been swapped, and dispatch looks
at its entries again (R216). -/
def freeSlot (s : State) (c b : Nat) : State :=
  if (blockGroups s b).any (fun g => g.core == c) then s
  else
    let s := modCore s c fun k => { k with slots := k.slots.filter fun p => p.2.blk != b }
    let s := (s.cp.tasks.filter fun t => t.2.st == .queued).foldl (fun s t => pend s (.taskHandoff t.1)) s
    if (core s c).slots.any fun p => !p.2.bound then pend (pend s (.bindNewBlock c)) (.bindRestore c) else s

/-- The barriers of a block look again when a group has retired (R225): one that waits for every group, and that the
group has not arrived at, completes if its count is the number of groups left. -/
def retireAtBarriers (s : State) (b grpib : Nat) : State :=
  let s := (block s b).bars.foldl (fun s p =>
    let k := barrierOf s b p.1
    if k.gcount = 0x1FF ∧ k.count ≠ 0 ∧ !k.arrived.contains grpib ∧ k.count = liveCount s b then
      completeBarrier s b p.1
    else s) s
  (block s b).gbars.foldl (fun s p => checkGridBlock s b p.1) s

/-- The block retires when its last group has (R213): its task may complete, and grid barriers count it no longer. -/
def retireBlock (s : State) (b : Nat) : State :=
  if 0 < liveCount s b then s
  else
    let t := (block s b).task
    let s := modBlock s b fun k => { k with st := .retired }
    let s := modTask s t fun k => { k with retired := k.retired + 1 }
    let s := (List.range 16).foldl (fun s id => checkGrid s t id) s
    if nblk (taskOf s t).record ≤ (taskOf s t).retired then pend s (.taskComplete t) else s

/-- The current group retires by an EXIT at a code offset (R116): an open region aborts with cause 14 and its handler is not
entered. -/
def retireGroup (at_ : Word) (s : State) : State :=
  let g := s.cur
  let gid := gidOf g
  let s := (block s g.blk).bars.foldl (fun s p =>
    if p.2.count ≠ 0 ∧ !p.2.arrived.contains g.grpib then checkerRecord s g p.1 1 at_.toNat else s) s
  let s := regionAbort s gid 14 0 none
  let s := modCur s fun h => { withdrawInterrupted h with st := .retired, pc := g.pc }
  let s := modBlock s g.blk fun k => { k with gone := if k.gone.contains g.grpib then k.gone else k.gone ++ [g.grpib] }
  let s := dropMonitors s gid
  let s := modTask s (block s g.blk).task fun t =>
    { t with fin := g.joins.foldl (fun f p => ltMax f p.2) (ltMax t.fin g.lclk) }
  retireBlock (retireAtBarriers (freeSlot s g.core g.blk) g.blk g.grpib) g.blk

end

end Sys2Proof.Machine
end

