-- ==== Sys2Proof/Machine/Control.lean ====
section
/-! DEFINITION. Control instructions (R95, R111 to R116): branches, LOOP, CALL, JG, BRX, LAND, NOP and EXIT. -/

namespace Sys2Proof.Machine

noncomputable section

/-- An address `off` words from the PC (R111). -/
def wordsFromPc (g : Group) (off : Int) : DWord := g.pc + BitVec.ofInt 64 (4 * off)

/-- A branch issues: control transfers, and the group is not selected until the branch resolves (R95). -/
def branchTo (target : DWord) (s : State) : State :=
  pend (stallOn 4 false (jumpTo target s)) (.branchResolve (gidOf s.cur))

/-- A branch on a condition of the group (R111). -/
def branchIf (o : BitVec 18) (c : Group → Bool) (s : State) : State :=
  branchTo (wordsFromPc s.cur (if c s.cur then o.toInt else 1)) s

/-- BR (R111): always. -/
def execBr (o : BitVec 18) (s : State) : Out := .next (branchIf o (fun _ => true) s)

/-- BR.F (R111): the flag is 1. -/
def execBrF (f : BitVec 2) (o : BitVec 18) (s : State) : Out := .next (branchIf o (fun g => fget g f.toNat) s)

/-- BR.NF (R111): the flag is 0. -/
def execBrNf (f : BitVec 2) (o : BitVec 18) (s : State) : Out := .next (branchIf o (fun g => !fget g f.toNat) s)

/-- BR.MNZ (R111): the mask is not 0; all 32 bits are tested. -/
def execBrMnz (m : BitVec 3) (o : BitVec 18) (s : State) : Out := .next (branchIf o (fun g => mreg g m.toNat != 0) s)

/-- BR.MZ (R111): the mask is 0. -/
def execBrMz (m : BitVec 3) (o : BitVec 18) (s : State) : Out := .next (branchIf o (fun g => mreg g m.toNat == 0) s)

/-- BR.MALL (R111): the mask and m0 agree on the present threads. -/
def execBrMall (m : BitVec 3) (o : BitVec 18) (s : State) : Out :=
  .next (branchIf o (fun g => activeMask g m.toNat == activeMask g 0) s)

/-- BR.MNALL (R111): the mask and m0 differ on the present threads. -/
def execBrMnall (m : BitVec 3) (o : BitVec 18) (s : State) : Out :=
  .next (branchIf o (fun g => activeMask g m.toNat != activeMask g 0) s)

/-- LOOP (R112): gd less 1, and a branch while it is not 0. -/
def execLoop (d : BitVec 9) (o : BitVec 16) (s : State) : Out :=
  .next (withUses { gr := [d.toNat], gw := [d.toNat] } (fun s =>
    let x := gget s.cur d.toNat - 1
    branchTo (wordsFromPc s.cur (if x = 0 then 1 else o.toInt)) (modCur s fun g => gset g d.toNat x)) s)

/-- The code offset of the instruction after a one-word instruction: a link (R112, R113). -/
def linkOf (g : Group) : Word := pcOffset g + 4

/-- A link written to a pair. -/
def setLink (g : Group) (r : Nat) (x : Word) : Group := gset (gset g r x) (r + 1) 0

/-- CALL (R112): the link into g380:g381, then a branch. -/
def execCall (o : BitVec 25) (s : State) : Out :=
  .next (withUses { gw := [380, 381] } (fun s =>
    branchTo (wordsFromPc s.cur o.toInt) (modCur s fun g => setLink g 380 (linkOf g))) s)

/-- The word LAND (R113). -/
def landWord : Word := 0x76000000

/-- The check of a target of JG and BRX (R39, R113, R115): the trap it takes, if any. -/
def checkTarget (s : State) (target : DWord) : State × Option (Nat × Nat) :=
  if target.toNat % 4 ≠ 0 then (s, some (4, 0))
  else
    match targetWord s s.cur target.toNat with
    | .fault s c u => (s, some (c, u))
    | .miss s => (s, some (8, 0))
    | .word s w => (s, if w = landWord then none else some (8, 0))

/-- JG (R113): the target is read before the link is written. -/
def execJg (a l : BitVec 9) (s : State) : Out :=
  let link := if l = 0x1FF then [] else [l.toNat, l.toNat + 1]
  .next (withUses { gr := [a.toNat], gw := link } (fun s =>
    let target := codeBase s.cur + (gget s.cur a.toNat).setWidth 64
    match checkTarget s target with
    | (s, some e) => trapAt e.1 e.2 accFetch false target.toNat s
    | (s, none) => branchTo target (modCur s fun g => if l = 0x1FF then g else setLink g l.toNat (linkOf g))) s)

/-- The value of a thread's register as BRX compares it: 0 for a helper whose register is poisoned (R9; log 15). -/
def brxVal (g : Group) (a t : Nat) : Word := if poisoned g [a] t then 0 else vget g a t

/-- BRX (R115, R282): the threads that go where the lowest thread that is not a helper goes. Every trap of it, of a poisoned
register too, stands at that thread. -/
def execBrx (a : BitVec 6) (l : BitVec 9) (s : State) : Out :=
  .next (withUses { vr := [a.toNat], gw := [l.toNat] } (fun s =>
    let g := s.cur
    let act := activeMask g 0
    match (threads act).filter (fun t => !helper g t) with
    | [] => branchTo (wordsFromPc g 1) (modCur s fun g => gset g l.toNat 0)
    | t0 :: ts =>
      match (t0 :: ts).find? (poisoned g [a.toNat]) with
      | some t => endPass 1 act s (g, some { poisonTrap g [a.toNat] t with t := t0 })
      | none =>
        let x := vget g a.toNat t0
        let target := codeBase g + x.setWidth 64
        match checkTarget s target with
        | (s, some e) =>
          if e.1 = 0 then stallOn e.2 true s
          else takeTrap { cause := e.1, sub := e.2, acc := accFetch, rix := t0, fba := s.cur.pc, faddr := target,
                          amask := act } s
        | (s, none) =>
          let same := (threads act).foldl (fun m t => if brxVal g a.toNat t = x then m ||| BitVec.ofNat 32 (2 ^ t) else m) 0
          branchTo target (modCur s fun g => gset (mwrite g 0 same) l.toNat (act &&& ~~~same))) s)

/-- LAND (R114): one issue cycle. -/
def execLand (s : State) : Out := .next (advance 1 s)

/-- NOP (R114): one issue cycle. -/
def execNop (s : State) : Out := .next (advance 1 s)

/-- EXIT (R116, R221, R232, R275): the present threads of a mask retire; the last one retires the group, once its
counter additions are answered and its futures have arrived. -/
def execExit (p : Option Prefix) (s : State) : Out :=
  .next (
    let g := s.cur
    let left := g.pmask &&& ~~~(mreg g (maskOf p))
    let waits := fun k => left == 0 && g.ops.any (fun o => o.kind == k)
    if privileged g then illEnc (baseWordIx p) s
    else if waits .cadd then stallOn 5 true s
    else if waits .future then stallOn 3 true s
    else
      let s := advance (words1 p) (modCur s fun g => { g with pmask := left, hmask := g.hmask &&& left })
      if left = 0 ∧ g.pmask ≠ 0 then retireGroup (pcOffset g) s else s)

end

end Sys2Proof.Machine
end

