-- ==== Sys2Proof/Machine/VecMem.lean ====
section
/-! DEFINITION. Memory instructions (R110, R168 to R175, R179): GLD, GLD64 and GST; LDV, LDVS, STV, LDS, STS and PRF,
with the pass that they share with the atomics. Data is read and written when the instruction issues; its arrival is a
step of its own (log 8). -/

namespace Sys2Proof.Machine

noncomputable section

/-! ## Operations outstanding -/

/-- An operation is that of the instruction at the group's PC, which a trap interrupted (R174). DEDUCED (log 83): the instruction is
resumed where RIX is not below the thread before which it stopped; below it, it issues anew. -/
def interruptedAt (g : Group) (o : OpRec) : Bool := o.tag == 1 && o.fba == g.pc && o.rix ≤ g.rix

/-- The operation of the instruction at the group's PC, if a trap interrupted it (R174): the latest, if it issued more than once. -/
def interruptedOp (g : Group) : Option OpRec := (g.ops.filter (interruptedAt g)).getLast?

/-- An operation of the current group changed. -/
def modOp (id : Nat) (f : OpRec → OpRec) (s : State) : State :=
  modCur s fun g => { g with ops := g.ops.map fun o => if o.id == id then f o else o }

/-- The current group's memory instruction counts as one operation on its counter at issue, whatever its number of
threads; a resumed one is counted already, unless it has been withdrawn (R172, R174). The answer names the operation. -/
def openOp (kind : OpKind) (w : Option Nat) (s : State) : State × Nat :=
  match interruptedOp s.cur with
  | some o =>
    match o.w, w with
    | none, some n => (modCur (modOp o.id (fun o => { o with w := w }) s) fun g => wInc g n, o.id)
    | _, _ => (s, o.id)
  | none =>
    let id := s.cur.nextOp
    (modOp id (fun o => { o with tag := 1, rix := s.cur.rix }) (issueOp s kind w [] [] 0 s.cur.pc 0 false), id)

/-- The instruction has issued whole: its destinations are interlocked until the operation arrives (R171). -/
def closeOp (id : Nat) (vregs gregs : List Nat) (s : State) : State :=
  modOp id (fun o => { o with tag := 0, vregs := vregs, gregs := gregs, served := [] }) s

/-- The counter of a memory instruction holds 255 operations, so that it does not issue (R172). -/
def counterFull (g : Group) (w : Option Nat) : Bool :=
  match w with
  | none => false
  | some w => (interruptedOp g).all (·.w.isNone) && 255 ≤ wget g w

/-- The group issues nothing until the L1 phase of a global memory instruction has ended (R170): it counts L1-miss, its walks having
ended before. `s` is the state before the accesses, `t` that after the instruction. -/
def l1Phase (s t : State) : State := stallOn 9 true (countLogged s t s.cur)

/-! ## Uniform accesses (R110) -/

/-- The address of a uniform access (R110). -/
def uniformAddr (g : Group) (gp : BitVec 7) (i : BitVec 9) (n : Nat) : Nat :=
  (((pairVal g gp : Int) + i.toInt * n) % 2 ^ 64).toNat

/-- The trap, or the abort, that ends an access of a uniform instruction. -/
def uniformStop (acc va : Nat) : Access → State
  | .done s _ _ _ => s
  | .trap s c u => trapAt c u acc false va s
  | .abort s c => regionAbort s (gidOf s.cur) c 0 none
  | .wait s => stallOn 21 true s

/-- A poisoned value of a thread's register as the load that delivered it left it (R171, R295). -/
def vpoison (g : Group) (r t : Nat) : Option Nat → Group
  | none => g
  | some sub => { g with vPoison := mset g.vPoison (r * 32 + t) sub }

/-- A poisoned value of a uniform register. -/
def gpoison (g : Group) (r : Nat) : Option Nat → Group
  | none => g
  | some sub => { g with gPoison := mset g.gPoison r sub }

/-- The peer that a leaf reaches, if it reaches one (R237). -/
def peerOf (l : Leaf) (m : Word) : List (Nat × Word) := if l.loc = 2 then [(l.pa / 2 ^ 46, m)] else []

/-- What an operation that has reached a leaf's place is known by: to a fence, the peers, the host and stores to untracked memory (R143,
R298); to a load's data, the lines of HBM4E that may have to be read (R171, R321). -/
def reached (l : Leaf) (m : Word) (store : Bool) (o : OpRec) : OpRec :=
  { o with peers := peerOf l m ++ o.peers, host := o.host || l.loc == 1, untr := o.untr || (store && placeOf l == .untracked),
           lines := if store || l.loc != 0 || hbmTop ≤ l.pa || o.lines.contains (l.pa / 128) then o.lines
             else o.lines ++ [l.pa / 128] }

/-- An operation of the current group has reached a leaf's place for all its threads. -/
def opReached (l : Leaf) (store : Bool) (id : Nat) (s : State) : State := modOp id (reached l 0xFFFFFFFF store) s

/-- A uniform load of `n` bytes into the registers `ds` (R110). -/
def uniformLoad (ds : List Nat) (gp : BitVec 7) (i : BitVec 9) (n : Nat) (s : State) : State :=
  withUses { gr := pairOf gp, gw := ds } (afterGst (walkedAt n { r := true } (fun g => uniformAddr g gp i n) fun s0 =>
    let va := uniformAddr s0.cur gp i n
    match address s0 (whoOf s0 s0.cur) va n { r := true } with
    | (s, .error f) => trapAt f.1 f.2 accLoad false va s
    | (s, .ok l) =>
      match groupLoad s s.cur l n with
      | .done s clk x bad =>
        let s := modCur s fun g =>
          let g := { g with lclk := clk }
          (List.range ds.length).foldl (fun g k =>
            gpoison (gset g (ds.getD k 0) (BitVec.ofNat 32 (x / 2 ^ (32 * k)))) (ds.getD k 0) bad) g
        let id := s.cur.nextOp
        let s := issueOp s .gld none [] ds 0 0 0 false
        let s := opReached l false id (closeOp id [] ds s)
        l1Phase s0 (pend (advance 1 s) (.loadDataReturn (gidOf s.cur) id 0))
      | r => uniformStop accLoad va r)) s

/-- GLD (R110): a word. -/
def execGld (d : BitVec 9) (gp : BitVec 7) (i : BitVec 9) (s : State) : Out := .next (uniformLoad [d.toNat] gp i 4 s)

/-- GLD64 (R110): a doubleword into a pair. -/
def execGld64 (d : BitVec 9) (gp : BitVec 7) (i : BitVec 9) (s : State) : Out :=
  .next (uniformLoad [d.toNat, d.toNat + 1] gp i 8 s)

/-- GST (R110): a word stored; later memory accesses wait until it is performed. -/
def execGst (d : BitVec 9) (gp : BitVec 7) (i : BitVec 9) (s : State) : Out :=
  .next (withUses { gr := d.toNat :: pairOf gp } (afterGst (walkedAt 4 { w := true } (fun g => uniformAddr g gp i 4) fun s0 =>
    let va := uniformAddr s0.cur gp i 4
    match address s0 (whoOf s0 s0.cur) va 4 { w := true } with
    | (s, .error f) => trapAt f.1 f.2 accStore false va s
    | (s, .ok l) =>
      match groupStore s s.cur l va 4 (gget s.cur d.toNat).toNat with
      | .done s clk _ _ =>
        let s := modCur s fun g => { g with lclk := clk }
        let id := s.cur.nextOp
        let s := opReached l true id (issueOp s .gst none [] [] 0 0 0 false)
        l1Phase s0 (pend (advance 1 s) (.storePerformed (gidOf s.cur) id))
      | r => uniformStop accStore va r)) s)

/-! ## The pass of a vector memory instruction (R170, R174) -/

/-- A store of a thread that is admitted and not performed yet: its leaf, its address, its bytes, its data, and the space of its record
in the undo log. -/
structure StoreItem where
  leaf : Leaf
  va   : Nat
  size : Nat
  data : Nat
  log  : Option (Nat × Nat)

/-- What the threads of one instruction share: the copies of lines that earlier threads were served from (R320), the sectors of memory
that they have asked for (R170), the stores to be performed, and the generator of an atomic (R177). -/
structure Served where
  lines  : SMap L1Line := []
  asked  : List Nat := []
  stores : List StoreItem := []
  gen    : DWord := 0

/-- One thread of a memory pass: done, a trap at an address, the abort of the region, or an access that waits where it is
performed. -/
inductive MemStep where
  | ok (s : State)
  | trap (s : State) (cause sub : Nat) (va : Nat)
  | abort (s : State) (cause : Nat)
  | wait (s : State)

/-- How a memory pass ends. -/
inductive MemEnd where
  | whole
  | trap (t cause sub : Nat) (va : Option Nat)
  | abort (cause : Nat)
  | wait (t : Nat)

/-- The step of a thread whose access does not complete; `va` is its address. -/
def stepOf (va : Nat) : Access → MemStep
  | .done s _ _ _ => .ok s
  | .trap s c u => .trap s c u va
  | .abort s c => .abort s c
  | .wait s => .wait s

/-- The destinations of a thread set to 0. -/
def zeroAt (ds : List Nat) (t : Nat) (s : State) : State := modCur s fun g => ds.foldl (fun g r => vset g r t 0) g

/-- The pass over the threads of a list, from RIX on; a helper's trap is discarded with +0 in its destinations (R9,
R36, R174). An address that may not be translated yet, cause 0, lets the instruction wait. -/
def memPass (act : Word) (z : Bool) (ds srcs : List Nat) (f : Served → State → Nat → Served × MemStep) :
    List Nat → Served → State → State × Served × MemEnd
  | [], m, s => (s, m, .whole)
  | t :: ts, m, s =>
    let g := s.cur
    if t < g.rix then memPass act z ds srcs f ts m s
    else if act.getLsbD t then
      if poisoned g srcs t then
        if helper g t then memPass act z ds srcs f ts m (zeroAt ds t s)
        else
          let p := poisonTrap g srcs t
          (s, m, .trap t p.cause p.sub none)
      else
        match f m s t with
        | (m, .ok s) => memPass act z ds srcs f ts m s
        | (m, .trap s c u va) =>
          if c = 0 then (s, m, .wait t)
          else if helper g t then memPass act z ds srcs f ts m (zeroAt ds t s) else (s, m, .trap t c u (some va))
        | (m, .abort s c) => (s, m, .abort c)
        | (m, .wait s) => (s, m, .wait t)
    else if z then memPass act z ds srcs f ts m (zeroAt ds t s)
    else memPass act z ds srcs f ts m s

/-- The cores of a block's span that home the pages of some scratch offsets (R17). -/
def homesOf (s : State) (g : Group) (os : List Nat) : List Nat :=
  let span := (block s g.blk).span
  if span.length ≤ 1 then [g.core] else (os.map fun o => span.getD (o / 16384 % span.length) g.core).eraseDups

/-- A scratch request of the current group reaches the arrays of some cores, behind those that came before it (R97). -/
def queueScratch (homes : List Nat) (id : Nat) (s : State) : State :=
  homes.foldl (fun s c => pend (modCore s c fun k => { k with scq := k.scq ++ [(gidOf s.cur, id)] }) (.scratchPhase c)) s

/-- The shape of a vector memory instruction: the kind of its operation, its counter, its destinations, the registers
its threads read, the access kind, whether it is a scratch access, and then the offset of each thread. -/
structure MemShape where
  kind : OpKind
  w    : Option Nat
  ds   : List Nat
  srcs : List Nat
  acc  : Nat
  scr  : Bool
  off  : Group → Nat → Nat := fun _ _ => 0

/-- What a completed memory instruction leaves due: its arrival, as a scratch request split by home core (R97), as a load's data,
or as a store. -/
def arrivalDue (h : MemShape) (homes : List Nat) (id : Nat) (s : State) : State :=
  let gid := gidOf s.cur
  if h.scr then queueScratch homes id s
  else if h.ds.isEmpty then pend s (.storePerformed gid id)
  else pend s (.loadDataReturn gid id 0)

/-- The generator that the threads of an atomic go on with (R177): that of the interrupted operation, or SRS as it stands. -/
def resumedGen (g : Group) : DWord :=
  match interruptedOp g with
  | some o => o.gen
  | none => g.srs

/-- The copies of lines that the threads of an instruction that goes on share (R320). -/
def resumedLines (g : Group) : SMap L1Line :=
  match interruptedOp g with
  | some o => o.served
  | none => []

/-- What is kept with the operation of an instruction that stops before thread `t`, for when it goes on: its generator (R177) and, while
it waits, the copies that its threads share (R320); after a trap the L1 phase is made afresh (R174). -/
def keepOp (id t : Nat) (gen : DWord) (served : SMap L1Line) (s : State) : State :=
  modOp id (fun o => { o with gen := gen, served := served, rix := t }) s

/-- The stores of one instruction in the order in which they are performed: its lines in the order of the lowest thread that touches
each, the threads of a line in ascending order (R155, R170, R320). -/
def inLineOrder (xs : List StoreItem) : List StoreItem :=
  ((xs.map fun x => leafKey x.leaf).eraseDups).flatMap fun k => xs.filter fun x => leafKey x.leaf == k

/-- The stores that the current group's threads have had admitted are performed. -/
def performStores (xs : List StoreItem) (s : State) : State :=
  (inLineOrder xs).foldl (fun s x =>
    let r := performStore s s.cur x.leaf x.va x.size x.data x.log
    modCur r.1 fun g => { g with lclk := r.2 }) s

/-- A vector memory instruction issues (R172, R174): counted once, its threads in order, then its stores performed and its arrival due. One
with no active thread touches nothing and arrives at once. -/
def memIssueWith (gen : DWord) (p : Option Prefix) (h : MemShape) (f : Served → State → Nat → Served × MemStep)
    (s : State) : State :=
  let g := s.cur
  let act := activeMask g (maskOf p)
  if counterFull g h.w then stallOn 5 true s
  else if act = 0 ∧ (interruptedOp g).isNone then
    advance (words1 p) s
  else
    let o := openOp h.kind h.w s
    let r := memPass act (zeroing (zeroes p) act) h.ds h.srcs f (List.range 32) { lines := resumedLines g, gen := gen } o.1
    let m := r.2.1
    let s := performStores m.stores r.1
    match r.2.2 with
    | .whole =>
      let t := arrivalDue h (homesOf s g ((threads act).map (h.off g))) o.2 (advance (words1 p) (closeOp o.2 h.ds [] s))
      if h.scr then t else l1Phase o.1 t
    | .trap t c u va =>
      takeTrap { cause := c, sub := u, acc := if va.isSome then h.acc else accNone, scr := h.scr && va.isSome, rix := t,
                 fba := s.cur.pc, faddr := (va.map (BitVec.ofNat 64)).getD s.cur.pc, amask := act } (keepOp o.2 t m.gen [] s)
    | .abort c => regionAbort s (gidOf s.cur) c 0 none
    | .wait t => stallOn 21 true (modCur (keepOp o.2 t m.gen m.lines s) fun g => { g with rix := t })

/-- The same for an instruction that draws no rounding bits. -/
def memIssue (p : Option Prefix) (h : MemShape) (f : Served → State → Nat → Served × MemStep) (s : State) : State :=
  memIssueWith 0 p h f s

/-! ## Global loads and stores (R168, R173) -/

/-- The address of a global access of a thread (R168). -/
def globalAddr (g : Group) (p : Option Prefix) (gp : BitVec 7) (a : BitVec 6) (n t : Nat) : Nat :=
  (((pairVal g gp : Int) + (vget g a.toNat t).toNat + dispOf p * n) % 2 ^ 64).toNat

/-- The bytes of an access size (R173). -/
def sizeBytes : MemSize → Nat
  | .b8 => 1
  | .b16 => 2
  | .b32 => 4
  | .b64 => 8

/-- The data registers of an access: a pair for b64. -/
def dataRegs (v : BitVec 6) (n : Nat) : List Nat := if n = 8 then [v.toNat, v.toNat + 1] else [v.toNat]

/-- The data of a thread as one number (R173). -/
def dataVal (g : Group) (v : BitVec 6) (n t : Nat) : Nat :=
  lowBytes n ((vget g v.toNat t).toNat + (if n = 8 then 2 ^ 32 * (vget g (v.toNat + 1) t).toNat else 0))

/-- Loaded data into a thread's registers, zero or sign extended (R173), with the poison it came with. -/
def putData (g : Group) (v : BitVec 6) (n t : Nat) (sgn : Bool) (x : Nat) (bad : Option Nat) : Group :=
  if n = 8 then
    vpoison (vset (vpoison (vset g v.toNat t (BitVec.ofNat 32 x)) v.toNat t bad) (v.toNat + 1) t
      (BitVec.ofNat 32 (x / 2 ^ 32))) (v.toNat + 1) t bad
  else vpoison (vset g v.toNat t (if sgn then sextBytes n x else BitVec.ofNat 32 (lowBytes n x))) v.toNat t bad

/-- The sectors of memory, of all of the device's, that an access covers. -/
def sectorsOf (pa n : Nat) : List Nat := (spanSectors pa n).map (pa / 2048 * 32 + ·)

/-- A load of a thread: a tracked line outside a region is read once for the instruction (R320), and a sector that a direct load reads
from HBM4E is asked for once (R170). -/
def servedLoad (m : Served) (s : State) (l : Leaf) (n : Nat) : Served × Access :=
  let g := s.cur
  if g.rgn.isSome ∨ placeOf l ≠ .tracked ∨ groupWaits s l false then
    ({ m with asked := if placeOf l = .direct then sectorsOf l.pa n ++ m.asked else m.asked }, groupLoad s g l n m.asked)
  else
    match mfind m.lines (l.pa / 128) with
    | some c => (m, .done s g.lclk (copyBytes s c l.pa n) (copyBad s c l.pa n))
    | none =>
      match loadFault s (whoOf s g) l.pa l.via with
      | some f => (m, memTrap s g.ctx l.pa f)
      | none =>
        let r := trackedLine s (whoOf s g) (l.pa / 128) l.via
        ({ m with lines := mset m.lines (l.pa / 128) r.2.1 }, .done r.1 r.2.2 (copyBytes r.1 r.2.1 l.pa n)
          (copyBad r.1 r.2.1 l.pa n))

/-- The operation in progress has reached a leaf's place for a thread. -/
def noteReach (l : Leaf) (t : Nat) (store : Bool) (s : State) : State :=
  match interruptedOp s.cur with
  | some o => modOp o.id (reached l (BitVec.ofNat 32 (2 ^ t)) store) s
  | none => s

/-- The addresses that the threads of a global memory instruction translate: those below the first thread that traps before; `mute` says
that a helper's access is suppressed (R9, R168, R174). -/
def threadAddrs (g : Group) (act : Word) (srcs : List Nat) (mute : Bool) (n : Nat) (va : Nat → Nat) : List Nat :=
  let bad := fun t => poisoned g srcs t || va t % n != 0 || 2 ^ 58 ≤ va t
  let ts := (threads act).filter fun t => g.rix ≤ t && !(helper g t && (mute || bad t))
  (ts.takeWhile fun t => !bad t).map va

/-- A global memory instruction whose counter has room makes its accesses when the walks of its threads have ended (R170, R172). -/
def walkedThreads (p : Option Prefix) (h : MemShape) (mute : Bool) (need : Need) (n : Nat) (va : Group → Nat → Nat)
    (body : State → State) (s : State) : State :=
  let g := s.cur
  if counterFull g h.w then stallOn 5 true s
  else withWalks need (threadAddrs g (activeMask g (maskOf p)) h.srcs mute n (va g)) body s

/-- One thread of LDV or LDVS (R173). -/
def loadThread (p : Option Prefix) (v a : BitVec 6) (gp : BitVec 7) (n : Nat) (sgn : Bool) (m : Served) (s : State)
    (t : Nat) : Served × MemStep :=
  let va := globalAddr s.cur p gp a n t
  match address s (whoOf s s.cur) va n { r := true } with
  | (s, .error f) => (m, .trap s f.1 f.2 va)
  | (s, .ok l) =>
    match servedLoad m s l n with
    | (m, .done s clk x bad) =>
      (m, .ok (modCur (noteReach l t false s) fun g => putData { g with lclk := clk } v n t sgn x bad))
    | (m, r) => (m, stepOf va r)

/-- A global load. -/
def globalLoad (p : Option Prefix) (v a : BitVec 6) (gp : BitVec 7) (w : BitVec 4) (n : Nat) (sgn : Bool) (s : State) :
    State :=
  let h : MemShape := { kind := .load, w := some w.toNat, ds := dataRegs v n, srcs := [a.toNat], acc := accLoad, scr := false }
  withUses { vr := [a.toNat], vw := dataRegs v n, gr := pairOf gp, base := baseWordIx p }
    (afterGst (walkedThreads p h false { r := true } n (fun g t => globalAddr g p gp a n t)
      (memIssue p h (loadThread p v a gp n sgn)))) s

/-- LDV (R173): memory into a register, zero extended. -/
def execLdv (p : Option Prefix) (v a : BitVec 6) (gp : BitVec 7) (w : BitVec 4) (z : MemSize) (s : State) : Out :=
  .next (globalLoad p v a gp w (sizeBytes z) false s)

/-- LDVS (R173): memory into a register, sign extended. -/
def execLdvs (p : Option Prefix) (v a : BitVec 6) (gp : BitVec 7) (w : BitVec 4) (z : MemSize) (s : State) : Out :=
  .next (globalLoad p v a gp w (sizeBytes z) true s)

/-- One thread of STV (R173): a helper's store is suppressed (R9). Outside a region it is admitted, to be performed with the others of
its line. -/
def storeThread (p : Option Prefix) (v a : BitVec 6) (gp : BitVec 7) (n : Nat) (m : Served) (s : State) (t : Nat) :
    Served × MemStep :=
  if helper s.cur t then (m, .ok s)
  else
    let va := globalAddr s.cur p gp a n t
    match address s (whoOf s s.cur) va n { w := true } with
    | (s, .error f) => (m, .trap s f.1 f.2 va)
    | (s, .ok l) =>
      let x := dataVal s.cur v n t
      if s.cur.rgn.isSome then
        match regionStore s s.cur l va n x with
        | .done s _ _ _ => (m, .ok (noteReach l t true s))
        | r => (m, stepOf va r)
      else
        match admitStore s s.cur l (m.stores.filterMap fun i => i.log.map (·.1)) with
        | .error r => (m, stepOf va r)
        | .ok (s, log) =>
          ({ m with stores := m.stores ++ [{ leaf := l, va := va, size := n, data := x, log := log }] }, .ok (noteReach l t true s))

/-- STV (R173): the low bytes of a register into memory. -/
def execStv (p : Option Prefix) (v a : BitVec 6) (gp : BitVec 7) (w : BitVec 4) (z : MemSize) (s : State) : Out :=
  let n := sizeBytes z
  let h : MemShape := { kind := .store, w := some w.toNat, ds := [], srcs := a.toNat :: dataRegs v n, acc := accStore, scr := false }
  .next (withUses { vr := a.toNat :: dataRegs v n, gr := pairOf gp, base := baseWordIx p }
    (afterGst (walkedThreads p h true { w := true } n (fun g t => globalAddr g p gp a n t)
      (memIssue p h (storeThread p v a gp n)))) s)

/-! ## Scratch (R145, R169, R175) -/

/-- A byte of a block's scratch. -/
def scrByte (k : Block) (o : Nat) : Byte := mget 0 k.scr o

/-- `n` bytes of a block's scratch, low bytes first. -/
def scrRead (k : Block) (o : Nat) : Nat → Nat
  | 0 => 0
  | n + 1 => (scrByte k o).toNat + 256 * scrRead k (o + 1) n

/-- A block's scratch with the low `n` bytes of a number written. -/
def scrPut (m : SMap Byte) (o : Nat) : Nat → Nat → SMap Byte
  | 0, _ => m
  | n + 1, x => scrPut (mput 0 m o (BitVec.ofNat 8 x)) (o + 1) n (x / 256)

/-- A write to a block's scratch: SECDED words of 8 bytes wholly written are no longer bad (R295). -/
def scrWrite (k : Block) (o n x : Nat) : Block :=
  { k with scr := scrPut k.scr o n x, scrBad := k.scrBad.filter fun i => !(o ≤ 8 * i && 8 * i + 8 ≤ o + n) }

/-- The bytes of a range as they stand, for each that a map does not hold yet. -/
def keepOld (k : Block) (m : SMap Byte) (o : Nat) : Nat → SMap Byte
  | 0 => m
  | n + 1 => keepOld k (if (mfind m o).isSome then m else mset m o (scrByte k o)) (o + 1) n

/-- The matrix commands of a block keep what a store replaces that nothing orders before them (R125). -/
def keepForMma (s : State) (b o n : Nat) : State :=
  let k := block s b
  k.span.foldl (fun s c =>
    if (core s c).mmaq.any (·.blk == b) then
      modCore s c fun q => { q with mmaq := q.mmaq.map fun m =>
        if m.blk == b then { m with olds := keepOld k m.olds o n } else m }
    else s) s

/-- The current group's store to its block's scratch. -/
def scrStore (s : State) (o n x : Nat) : State :=
  let b := s.cur.blk
  modBlock (keepForMma s b o n) b fun k => scrWrite k o n x

/-- Scratch bytes that come with an uncorrectable error (R278, R295). -/
def scrBadAt (k : Block) (o n : Nat) : Option Nat :=
  if k.scrBad.any (fun i => 8 * i < o + n && o < 8 * i + 8) then some 2 else none

/-- The offset of a scratch access of a thread (R169). -/
def scrOffset (g : Group) (p : Option Prefix) (a : BitVec 6) (n t : Nat) : Nat :=
  (vget g a.toNat t).toNat + (match p with | none => 0 | some q => q.imm.toNat) * n

/-- The scratch size that a group sees: none for a supervisor group. -/
def scrSizeOf (s : State) (g : Group) : Nat := if g.sup then 0 else (block s g.blk).scrSize

/-- The cause of a scratch access that is refused (R169). -/
def scrFault (s : State) (g : Group) (o n : Nat) : Option Nat :=
  if o % n ≠ 0 then some 4 else if scrSizeOf s g < o + n then some 2 else none

/-- The first unpinned page that a thread of the instruction needs (R169). -/
def scrMissing (s : State) (g : Group) (act : Word) (off : Nat → Nat) (n : Nat) : Option Nat :=
  ((threads act).filter fun t => g.rix ≤ t).findSome? fun t =>
    if (scrFault s g (off t) n).isNone && (block s g.blk).unpinned.contains (off t / 16384) then some (off t / 16384)
    else none

/-- A scratch instruction waits for the refill of an unpinned page before it issues (R169, R288). -/
def withPages (p : Option Prefix) (a : BitVec 6) (n : Nat) (body : State → State) (s : State) : State :=
  let g := s.cur
  match scrMissing s g (activeMask g (maskOf p)) (fun t => scrOffset g p a n t) n with
  | some page => pend (stallOn 9 false s) (.scratchPageRefill g.blk page)
  | none => body s

/-- One thread of LDS (R175). -/
def ldsThread (p : Option Prefix) (v a : BitVec 6) (n : Nat) (m : Served) (s : State) (t : Nat) : Served × MemStep :=
  let o := scrOffset s.cur p a n t
  match scrFault s s.cur o n with
  | some c => (m, .trap s c 0 o)
  | none =>
    let k := block s s.cur.blk
    (m, .ok (modCur s fun g => putData g v n t false (scrRead k o n) (scrBadAt k o n)))

/-- LDS (R175): scratch into a register, zero extended. -/
def execLds (p : Option Prefix) (v a : BitVec 6) (w : BitVec 4) (z : MemSize) (s : State) : Out :=
  let n := sizeBytes z
  .next (withUses { vr := [a.toNat], vw := dataRegs v n, base := baseWordIx p }
    (afterGst (withPages p a n (memIssue p { kind := .scrLoad, w := some w.toNat, ds := dataRegs v n, srcs := [a.toNat],
                                             acc := accLoad, scr := true, off := fun g t => scrOffset g p a n t } (ldsThread p v a n)))) s)

/-- One thread of STS (R175): a helper's store is suppressed (R9). -/
def stsThread (p : Option Prefix) (v a : BitVec 6) (n : Nat) (m : Served) (s : State) (t : Nat) : Served × MemStep :=
  if helper s.cur t then (m, .ok s)
  else
    let o := scrOffset s.cur p a n t
    match scrFault s s.cur o n with
    | some c => (m, .trap s c 0 o)
    | none => (m, .ok (scrStore s o n (dataVal s.cur v n t)))

/-- STS (R175): a register into scratch. -/
def execSts (p : Option Prefix) (v a : BitVec 6) (w : BitVec 4) (z : MemSize) (s : State) : Out :=
  let n := sizeBytes z
  .next (withUses { vr := a.toNat :: dataRegs v n, base := baseWordIx p }
    (afterGst (withPages p a n (memIssue p { kind := .scrStore, w := some w.toNat, ds := [], srcs := a.toNat :: dataRegs v n,
                                             acc := accStore, scr := true, off := fun g t => scrOffset g p a n t } (stsThread p v a n)))) s)

/-! ## Prefetch (R159, R179) -/

/-- One thread of PRF: a tracked line that is not held is installed with a lease and the clock does not move; anything else is
dropped, a poisoned address too (R159, R179). -/
def prefetchThread (p : Option Prefix) (a : BitVec 6) (gp : BitVec 7) (n : Nat) (s : State) (t : Nat) : State :=
  if poisoned s.cur [a.toNat] t || (pairOf gp).any fun r => (mfind s.cur.gPoison r).isSome then s
  else
    let va := globalAddr s.cur p gp a n t
    match address s (whoOf s s.cur) va n { r := true } with
    | (s', .error _) => s'
    | (s', .ok l) =>
      if placeOf l ≠ .tracked ∨ (memFault s' l.pa l.via).isSome ∨ heldAt s' (whoOf s' s'.cur) (l.pa / 128) then s'
      else (trackedLine s' (whoOf s' s'.cur) (l.pa / 128) l.via).1

/-- The region that the current group had open, as it stood before, has aborted. -/
def lostRegion (g : Group) (s : State) : Bool := g.rgn.isSome && s.cur.rgn.isNone

/-- A prefetch of a thread may not be made yet: a walk that it needs may not begin, or its line is held (R158, R202, R249). -/
def prefetchHeld (p : Option Prefix) (a : BitVec 6) (gp : BitVec 7) (n : Nat) (s : State) (t : Nat) : Bool :=
  let va := globalAddr s.cur p gp a n t
  va % n == 0 && ((walksHeld s && !(untranslated s (whoOf s s.cur) { r := true } [va]).isEmpty) ||
    match (address s (whoOf s s.cur) va n { r := true }).2 with
    | .ok l => placeOf l == .tracked && !heldAt s (whoOf s s.cur) (l.pa / 128) && groupWaits s l false
    | .error _ => false)

/-- PRF (R179): it never traps after decode and never changes LCLK. It issues when what it asks for may be asked for (R158, R202, R249).
DEDUCED (log 72): it is no access of the device order (R138, R146), so that it does not wait for a GST before it (R110). -/
def execPrf (p : Option Prefix) (a : BitVec 6) (gp : BitVec 7) (w : BitVec 4) (z : MemSize) (s : State) : Out :=
  .next (withUses { vr := [a.toNat], gw := pairOf gp, base := baseWordIx p } (fun s =>
    let g := s.cur
    let act := activeMask g (maskOf p)
    if 255 ≤ wget g w.toNat then stallOn 5 true s
    else if (threads act).any fun t => g.rix ≤ t && prefetchHeld p a gp (sizeBytes z) s t then stallOn 21 true s
    else
      let s := ((threads act).filter fun t => g.rix ≤ t).foldl (fun s t =>
        if lostRegion g s then s else prefetchThread p a gp (sizeBytes z) s t) s
      if lostRegion g s then s
      else if act = 0 then advance (words1 p) s
      else
        let id := s.cur.nextOp
        let s := issueOp s .prf (some w.toNat) [] [] 0 0 0 false
        pend (advance (words1 p) s) (.loadDataReturn (gidOf s.cur) id 0)) s)

end

end Sys2Proof.Machine
end

