-- ==== Sys2Proof/Machine/Atom.lean ====
section
/-! DEFINITION. Atomics on memory and on the scratchpad (R145, R176 to R178): ATOM and ATOMS. -/

namespace Sys2Proof.Machine

noncomputable section

/-- The new value of an atomic (R176) from the rounding mode, its generator, the old value and the operands `x` and, for
CAS, `y`: none where it stores nothing; and the generator after it. -/
abbrev AtomFn := Nat → DWord → Nat → Nat → Nat → Option Nat × DWord

/-- A number of `n` bytes read as signed. -/
def signedOf (n x : Nat) : Int := (BitVec.ofNat (8 * n) x).toInt

/-- An integer atomic. -/
def atomInt (f : Nat → Nat → Nat) : AtomFn := fun _ gen old x _ => (some (f old x), gen)

/-- The sum of `n` bytes, wrapping. -/
def atomSum (n old x : Nat) : Nat := lowBytes n (old + x)

/-- The minimum and the maximum, signed and unsigned (R176). -/
def atomMinS (n old x : Nat) : Nat := if signedOf n x < signedOf n old then x else old
def atomMaxS (n old x : Nat) : Nat := if signedOf n old < signedOf n x then x else old
def atomMinU (old x : Nat) : Nat := min old x
def atomMaxU (old x : Nat) : Nat := max old x

/-- CAS (R176): `y` where the old value is `x` bit for bit, else nothing. -/
def atomCompare : AtomFn := fun _ gen old x y => (if old = x then some y else none, gen)

/-- MIN.F and MAX.F (R176, R54). -/
def atomPick (big : Bool) : AtomFn := fun _ gen old x _ => (some (fPick fp32 big old x).1, gen)

/-- ADD.F (R176): one rounding in the effective mode. -/
def atomAddFloat : AtomFn := fun rm gen old x _ =>
  let r := roundTo fp32 rm false (fAdd rm (fval fp32 old) (fval fp32 x)).1 gen
  (some r.bits, r.srs)

/-- ADD.BF16X2 (R176): each half rounded once, the low half first. -/
def atomAddPair : AtomFn := fun rm gen old x _ =>
  let h := fun a b => fAdd rm (fval bf16 (a % 2 ^ 16)) (fval bf16 (b % 2 ^ 16))
  let r := packPair 16 bf16 rm false gen (h old x) (h (old / 2 ^ 16) (x / 2 ^ 16))
  (some r.1, r.2.2)

/-- An atomic instruction: its new value, whether it is one of the integer forms (R178), whether it draws rounding bits
(R177), whether its result uses the old value, whether it has a second operand (CAS), its width in bytes and whether it returns the old
value. -/
structure AtomShape where
  f       : AtomFn
  integer : Bool := true
  uses    : Bool := true
  draws   : Bool := false
  two     : Bool := false
  n       : Nat := 4
  ret     : Bool := false

/-- The width of a form with a sz64 bit. -/
def wide (z : Bool) : Nat := if z then 8 else 4

/-- The number of a second operand's first register: the one after the first operand (R176). -/
def secondReg (h : AtomShape) (v : BitVec 6) : Nat := v.toNat + h.n / 4

/-- The registers that an atomic reads as operands. -/
def atomOperands (h : AtomShape) (v : BitVec 6) : List Nat :=
  (List.range (h.n / 4 * (if h.two then 2 else 1))).map (v.toNat + ·)

/-- The registers that an atomic writes. -/
def atomDests (h : AtomShape) (v : BitVec 6) : List Nat := if h.ret then dataRegs v h.n else []

/-- The operand of `n` bytes of a thread at register `r`. -/
def operandAt (g : Group) (r n t : Nat) : Nat :=
  lowBytes n ((vget g r t).toNat + (if n = 8 then 2 ^ 32 * (vget g (r + 1) t).toNat else 0))

/-- The new value for a thread, and the generator after it. -/
def atomValue (h : AtomShape) (p : Option Prefix) (v : BitVec 6) (g : Group) (gen : DWord) (t old : Nat) :
    Option Nat × DWord :=
  h.f (rmode g p) gen old (operandAt g v.toNat h.n t) (operandAt g (secondReg h v) h.n t)

/-- An atomic of a thread has been performed: the old value returned, if the instruction returns it (R177). -/
def atomReturn (h : AtomShape) (v : BitVec 6) (t old : Nat) (bad : Option Nat) (g : Group) : Group :=
  if h.ret then putData g v h.n t false old bad else g

/-- One thread of ATOM (R177). A helper's is suppressed, with no effect on memory (R9), so its page is not even marked
accessed. -/
def atomThread (h : AtomShape) (p : Option Prefix) (v a : BitVec 6) (gp : BitVec 7) (m : Served) (s : State) (t : Nat) :
    Served × MemStep :=
  if helper s.cur t then (m, .ok (zeroAt (atomDests h v) t s))
  else
    let va := globalAddr s.cur p gp a h.n t
    match address s (whoOf s s.cur) va h.n { r := true, w := true } with
    | (s, .error f) => (m, .trap s f.1 f.2 va)
    | (s, .ok l) =>
      let g := s.cur
      let f := atomValue h p v g m.gen t
      match groupAtomic s g l va h.n h.integer h.uses (fun old => (f old).1) with
      | .done s clk old bad =>
        ({ m with gen := (f old).2 }, .ok (modCur (noteReach l t false s) fun g => atomReturn h v t old bad { g with lclk := clk }))
      | r => (m, stepOf va r)

/-- What an atomic makes from a poisoned word of scratch stays poisoned (R277, R295). -/
def scrStayBad (bad : Bool) (o : Nat) (s : State) : State :=
  if bad then modBlock s s.cur.blk fun k => { k with scrBad := if k.scrBad.contains (o / 8) then k.scrBad else k.scrBad ++ [o / 8] } else s

/-- One thread of ATOMS (R145, R177). -/
def atomsThread (h : AtomShape) (p : Option Prefix) (v a : BitVec 6) (m : Served) (s : State) (t : Nat) :
    Served × MemStep :=
  let o := scrOffset s.cur p a h.n t
  match scrFault s s.cur o h.n with
  | some c => (m, .trap s c 0 o)
  | none =>
    if helper s.cur t then (m, .ok (zeroAt (atomDests h v) t s))
    else
      let g := s.cur
      let k := block s g.blk
      let old := scrRead k o h.n
      let r := atomValue h p v g m.gen t old
      let bad := scrBadAt k o h.n
      let s := match r.1 with
        | some x => scrStayBad (h.uses && bad.isSome) o (scrStore s o h.n x)
        | none => s
      ({ m with gen := r.2 }, .ok (modCur s (atomReturn h v t old bad)))

/-- Under RSTO an atomic that rounds advances SRS by one step at issue and seeds its own generator with the result
(R177); one that is resumed has done so, and one with no active thread does nothing (R12). -/
def seedAtom (h : AtomShape) (p : Option Prefix) (s : State) : State :=
  if h.draws && rmode s.cur p == 5 && (interruptedOp s.cur).isNone && activeMask s.cur (maskOf p) != 0 then
    modCur s fun g => { g with srs := srsStep g.srs }
  else s

/-- What the pass of an atomic is to its group: it names no arrival counter. -/
def atomPass (h : AtomShape) (v a : BitVec 6) (scr : Bool) : MemShape :=
  { kind := .atom, w := none, ds := atomDests h v, srcs := a.toNat :: atomOperands h v, acc := accAtomic, scr := scr }

/-- An ATOM issues. It names no arrival counter. -/
def atomGlobal (h : AtomShape) (p : Option Prefix) (v a : BitVec 6) (gp : BitVec 7) (s : State) : State :=
  withUses { vr := a.toNat :: atomOperands h v, vw := atomDests h v, gr := pairOf gp, base := baseWordIx p }
    (afterGst (walkedThreads p (atomPass h v a false) true { r := true, w := true } h.n (fun g t => globalAddr g p gp a h.n t) fun s =>
      let s := seedAtom h p s
      memIssueWith (resumedGen s.cur) p (atomPass h v a false) (atomThread h p v a gp) s)) s

/-- An ATOMS issues. -/
def atomScratch (h : AtomShape) (p : Option Prefix) (v a : BitVec 6) (s : State) : State :=
  withUses { vr := a.toNat :: atomOperands h v, vw := atomDests h v, base := baseWordIx p }
    (afterGst (withPages p a h.n fun s =>
      let s := seedAtom h p s
      memIssueWith (resumedGen s.cur) p { atomPass h v a true with off := fun g t => scrOffset g p a h.n t } (atomsThread h p v a) s)) s

/-! ## ATOM -/

/-- ATOM.ADD.I (R176): the sum, wrapping. -/
def execAtomAddI (p : Option Prefix) (v a : BitVec 6) (gp : BitVec 7) (z r : Bool) (s : State) : Out :=
  .next (atomGlobal { f := atomInt (atomSum (wide z)), n := wide z, ret := r } p v a gp s)

/-- ATOM.ADD.F (R176): the FP32 sum. -/
def execAtomAddF (p : Option Prefix) (v a : BitVec 6) (gp : BitVec 7) (r : Bool) (s : State) : Out :=
  .next (atomGlobal { f := atomAddFloat, integer := false, draws := true, ret := r } p v a gp s)

/-- ATOM.MIN.I (R176): the signed minimum. -/
def execAtomMinI (p : Option Prefix) (v a : BitVec 6) (gp : BitVec 7) (z r : Bool) (s : State) : Out :=
  .next (atomGlobal { f := atomInt (atomMinS (wide z)), n := wide z, ret := r } p v a gp s)

/-- ATOM.MAX.I (R176): the signed maximum. -/
def execAtomMaxI (p : Option Prefix) (v a : BitVec 6) (gp : BitVec 7) (z r : Bool) (s : State) : Out :=
  .next (atomGlobal { f := atomInt (atomMaxS (wide z)), n := wide z, ret := r } p v a gp s)

/-- ATOM.MIN.N (R176): the unsigned minimum. -/
def execAtomMinN (p : Option Prefix) (v a : BitVec 6) (gp : BitVec 7) (z r : Bool) (s : State) : Out :=
  .next (atomGlobal { f := atomInt atomMinU, n := wide z, ret := r } p v a gp s)

/-- ATOM.MAX.N (R176): the unsigned maximum. -/
def execAtomMaxN (p : Option Prefix) (v a : BitVec 6) (gp : BitVec 7) (z r : Bool) (s : State) : Out :=
  .next (atomGlobal { f := atomInt atomMaxU, n := wide z, ret := r } p v a gp s)

/-- ATOM.AND (R176): bitwise and. -/
def execAtomAnd (p : Option Prefix) (v a : BitVec 6) (gp : BitVec 7) (z r : Bool) (s : State) : Out :=
  .next (atomGlobal { f := atomInt (· &&& ·), n := wide z, ret := r } p v a gp s)

/-- ATOM.OR (R176): bitwise or. -/
def execAtomOr (p : Option Prefix) (v a : BitVec 6) (gp : BitVec 7) (z r : Bool) (s : State) : Out :=
  .next (atomGlobal { f := atomInt (· ||| ·), n := wide z, ret := r } p v a gp s)

/-- ATOM.XOR (R176): bitwise exclusive or. -/
def execAtomXor (p : Option Prefix) (v a : BitVec 6) (gp : BitVec 7) (z r : Bool) (s : State) : Out :=
  .next (atomGlobal { f := atomInt (· ^^^ ·), n := wide z, ret := r } p v a gp s)

/-- ATOM.XCHG (R176): the operand. -/
def execAtomXchg (p : Option Prefix) (v a : BitVec 6) (gp : BitVec 7) (z r : Bool) (s : State) : Out :=
  .next (atomGlobal { f := atomInt (fun _ x => x), uses := false, n := wide z, ret := r } p v a gp s)

/-- ATOM.CAS (R176): compare and swap. -/
def execAtomCas (p : Option Prefix) (v a : BitVec 6) (gp : BitVec 7) (z r : Bool) (s : State) : Out :=
  .next (atomGlobal { f := atomCompare, two := true, n := wide z, ret := r } p v a gp s)

/-- ATOM.MIN.F (R176): minimumNumber. -/
def execAtomMinF (p : Option Prefix) (v a : BitVec 6) (gp : BitVec 7) (r : Bool) (s : State) : Out :=
  .next (atomGlobal { f := atomPick false, integer := false, ret := r } p v a gp s)

/-- ATOM.MAX.F (R176): maximumNumber. -/
def execAtomMaxF (p : Option Prefix) (v a : BitVec 6) (gp : BitVec 7) (r : Bool) (s : State) : Out :=
  .next (atomGlobal { f := atomPick true, integer := false, ret := r } p v a gp s)

/-- ATOM.ADD.BF16X2 (R176): two BF16 sums. -/
def execAtomAddBf16x2 (p : Option Prefix) (v a : BitVec 6) (gp : BitVec 7) (s : State) : Out :=
  .next (atomGlobal { f := atomAddPair, integer := false, draws := true } p v a gp s)

/-! ## ATOMS -/

/-- ATOMS.ADD.I (R176): the sum, wrapping. -/
def execAtomsAddI (p : Option Prefix) (v a : BitVec 6) (z r : Bool) (s : State) : Out :=
  .next (atomScratch { f := atomInt (atomSum (wide z)), n := wide z, ret := r } p v a s)

/-- ATOMS.ADD.F (R176): the FP32 sum. -/
def execAtomsAddF (p : Option Prefix) (v a : BitVec 6) (r : Bool) (s : State) : Out :=
  .next (atomScratch { f := atomAddFloat, integer := false, draws := true, ret := r } p v a s)

/-- ATOMS.MIN.I (R176): the signed minimum. -/
def execAtomsMinI (p : Option Prefix) (v a : BitVec 6) (z r : Bool) (s : State) : Out :=
  .next (atomScratch { f := atomInt (atomMinS (wide z)), n := wide z, ret := r } p v a s)

/-- ATOMS.MAX.I (R176): the signed maximum. -/
def execAtomsMaxI (p : Option Prefix) (v a : BitVec 6) (z r : Bool) (s : State) : Out :=
  .next (atomScratch { f := atomInt (atomMaxS (wide z)), n := wide z, ret := r } p v a s)

/-- ATOMS.MIN.N (R176): the unsigned minimum. -/
def execAtomsMinN (p : Option Prefix) (v a : BitVec 6) (z r : Bool) (s : State) : Out :=
  .next (atomScratch { f := atomInt atomMinU, n := wide z, ret := r } p v a s)

/-- ATOMS.MAX.N (R176): the unsigned maximum. -/
def execAtomsMaxN (p : Option Prefix) (v a : BitVec 6) (z r : Bool) (s : State) : Out :=
  .next (atomScratch { f := atomInt atomMaxU, n := wide z, ret := r } p v a s)

/-- ATOMS.AND (R176): bitwise and. -/
def execAtomsAnd (p : Option Prefix) (v a : BitVec 6) (z r : Bool) (s : State) : Out :=
  .next (atomScratch { f := atomInt (· &&& ·), n := wide z, ret := r } p v a s)

/-- ATOMS.OR (R176): bitwise or. -/
def execAtomsOr (p : Option Prefix) (v a : BitVec 6) (z r : Bool) (s : State) : Out :=
  .next (atomScratch { f := atomInt (· ||| ·), n := wide z, ret := r } p v a s)

/-- ATOMS.XOR (R176): bitwise exclusive or. -/
def execAtomsXor (p : Option Prefix) (v a : BitVec 6) (z r : Bool) (s : State) : Out :=
  .next (atomScratch { f := atomInt (· ^^^ ·), n := wide z, ret := r } p v a s)

/-- ATOMS.XCHG (R176): the operand. -/
def execAtomsXchg (p : Option Prefix) (v a : BitVec 6) (z r : Bool) (s : State) : Out :=
  .next (atomScratch { f := atomInt (fun _ x => x), uses := false, n := wide z, ret := r } p v a s)

/-- ATOMS.CAS (R176): compare and swap. -/
def execAtomsCas (p : Option Prefix) (v a : BitVec 6) (z r : Bool) (s : State) : Out :=
  .next (atomScratch { f := atomCompare, two := true, n := wide z, ret := r } p v a s)

/-- ATOMS.MIN.F (R176): minimumNumber. -/
def execAtomsMinF (p : Option Prefix) (v a : BitVec 6) (r : Bool) (s : State) : Out :=
  .next (atomScratch { f := atomPick false, integer := false, ret := r } p v a s)

/-- ATOMS.MAX.F (R176): maximumNumber. -/
def execAtomsMaxF (p : Option Prefix) (v a : BitVec 6) (r : Bool) (s : State) : Out :=
  .next (atomScratch { f := atomPick true, integer := false, ret := r } p v a s)

/-- ATOMS.ADD.BF16X2 (R176): two BF16 sums. -/
def execAtomsAddBf16x2 (p : Option Prefix) (v a : BitVec 6) (s : State) : Out :=
  .next (atomScratch { f := atomAddPair, integer := false, draws := true } p v a s)

end

end Sys2Proof.Machine
end

