-- ==== Sys2Proof/Machine/Compare.lean ====
section
/-! DEFINITION. Compares into a mask (R85, R86): VCM. -/

namespace Sys2Proof.Machine

noncomputable section

/-- Bit `t` of mask register `r` written. -/
def mset1 (g : Group) (r t : Nat) (b : Bool) : Group :=
  let m := mreg g r
  mwrite g r (if b then m ||| BitVec.ofNat 32 (2 ^ t) else m &&& ~~~BitVec.ofNat 32 (2 ^ t))

/-- The new bit of a compare (R85). -/
def combine (o : CmpComb) (old q : Bool) : Bool :=
  match o with
  | .set => q
  | .and => old && q
  | .or => old || q
  | .andn => old && !q

/-- The condition of a compare on two words read as a type (R85), and the exceptions it raises. -/
def compareWords (c : CmpCond) (ty : CmpType) (x y : Word) : Bool × Nat :=
  match ty with
  | .f32 => (condFloat c (f32 x) (f32 y), condRaises c (f32 x) (f32 y))
  | .i32 => (condInt c x.toInt y.toInt, 0)
  | .n32 => (condInt c x.toNat y.toNat, 0)
  | .f16l =>
    let a := fval fp16 (x.toNat % 2 ^ 16)
    let b := fval fp16 (y.toNat % 2 ^ 16)
    (condFloat c a b, condRaises c a b)
  | .bf16l =>
    let a := fval bf16 (x.toNat % 2 ^ 16)
    let b := fval bf16 (y.toNat % 2 ^ 16)
    (condFloat c a b, condRaises c a b)

/-- One thread of a compare: a helper's trap is discarded, with q taken as 0 (R9, R85). -/
def compareThread (m : Nat) (o : CmpComb) (srcs : List Nat) (q : Group → Nat → Bool × Nat) (g : Group) (t : Nat) :
    Group × Option PassTrap :=
  let put := fun (g : Group) b => mset1 g m t (combine o ((mreg g m).getLsbD t) b)
  let r := q g t
  if poisoned g srcs t then
    if helper g t then (put g false, none) else (g, some (poisonTrap g srcs t))
  else if arithTraps g r.2 then
    if helper g t then (put g false, none) else (g, some { t := t, cause := 1, sub := r.2 })
  else (put { g with flags := g.flags ||| BitVec.ofNat 32 r.2 } r.1, none)

/-- The pass of a compare over the threads of a list, from RIX on (R85). -/
def comparePass (act : Word) (m : Nat) (o : CmpComb) (srcs : List Nat) (q : Group → Nat → Bool × Nat) :
    List Nat → Group → Group × Option PassTrap
  | [], g => (g, none)
  | t :: ts, g =>
    if t < g.rix ∨ !act.getLsbD t then comparePass act m o srcs q ts g
    else
      match compareThread m o srcs q g t with
      | (g, none) => comparePass act m o srcs q ts g
      | (g, some x) => (g, some x)

/-- CMP (R85, R86): the active set is that of m0 at issue. -/
def execCmp (m : BitVec 3) (c : CmpCond) (a b : BitVec 6) (ty : CmpType) (o : CmpComb) (s : State) : Out :=
  .next (withUses { vr := [a.toNat, b.toNat] } (fun s =>
    let act := activeMask s.cur 0
    endPass 1 act s (comparePass act m.toNat o [a.toNat, b.toNat]
      (fun g t => compareWords c ty (vget g a.toNat t) (vget g b.toNat t)) (List.range 32) s.cur)) s)

end

end Sys2Proof.Machine
end

