-- ==== Sys2Proof/Machine/Convert.lean ====
section
/-! DEFINITION. Conversions (R83, R84): VCV. -/

namespace Sys2Proof.Machine

noncomputable section

/-- An integer into FP32 (R83). -/
def fromInt (p : Option Prefix) (g : Group) (n : Int) : Eff :=
  deliver32 (rmode g p) g (.fin (n < 0) n.natAbs 0 false, 0)

/-- A conversion to an integer (R84). -/
def toInteger (p : Option Prefix) (sgn : Bool) (g : Group) (x : Word) : Eff :=
  ofRounded (fToInt (rmode g p) sgn x.toNat g.srs)

/-- A narrowing conversion of two FP32 words into a pair of `w`-bit codes, a in the lower place (R57, R83). -/
def narrowPair (p : Option Prefix) (w : Nat) (f : Fmt) (g : Group) (x y : Word) : Nat × Nat × DWord :=
  let n := fun v : Word => (exact (f32 v), snanEx (f32 v))
  packPair w f (rmode g p) (saturates g p) g.srs (n x) (n y)

/-- CVT.F16X2 and CVT.BF16X2 of a thread (R83). -/
def narrowHalves (p : Option Prefix) (f : Fmt) (g : Group) (x y : Word) : Eff :=
  let r := narrowPair p 16 f g x y
  { val := BitVec.ofNat 32 r.1, raised := r.2.1, srs := r.2.2 }

/-- CVT.E4M3X2 and CVT.E5M2X2 of a thread (R83): the 16-bit pair into one half, the other half kept. -/
def narrowBytes (p : Option Prefix) (f : Fmt) (hi : Bool) (g : Group) (x y old : Word) : Eff :=
  let r := narrowPair p 8 f g x y
  let val := if hi then BitVec.ofNat 16 r.1 ++ old.extractLsb' 0 16 else old.extractLsb' 16 16 ++ BitVec.ofNat 16 r.1
  { val := val, raised := r.2.1, srs := r.2.2 }

/-- A narrowing into one half of vd, which is also a source (R83). -/
def narrowInto (p : Option Prefix) (d a b : BitVec 6) (f : Fmt) (hi : Bool) (s : State) : State :=
  vectorOp p d [a.toNat, b.toNat, d.toNat] false [] 0
    (fun g t => narrowBytes p f hi g (vget g a.toNat t) (vget g b.toNat t) (vget g d.toNat t)) s

/-- A widening conversion of the code at bit `lo` of a word (R83): exact, NaN canonical. -/
def widen (p : Option Prefix) (f : Fmt) (lo : Nat) (g : Group) (x : Word) : Eff :=
  let v := fval f (x.toNat / 2 ^ lo % 2 ^ (1 + f.eb + f.mb))
  deliver32 (rmode g p) g (exact v, snanEx v)

/-- CVT.F32.I32 (R83): a signed integer into FP32. -/
def execCvtF32I32 (p : Option Prefix) (d a : BitVec 6) (s : State) : Out :=
  .next (vector1 p d a (fun g x => fromInt p g x.toInt) s)

/-- CVT.F32.N32 (R83): an unsigned integer into FP32. -/
def execCvtF32N32 (p : Option Prefix) (d a : BitVec 6) (s : State) : Out :=
  .next (vector1 p d a (fun g x => fromInt p g x.toNat) s)

/-- CVT.I32.F32 (R83): FP32 to a signed integer (R84). -/
def execCvtI32F32 (p : Option Prefix) (d a : BitVec 6) (s : State) : Out :=
  .next (vector1 p d a (toInteger p true) s)

/-- CVT.N32.F32 (R83): FP32 to an unsigned integer (R84). -/
def execCvtN32F32 (p : Option Prefix) (d a : BitVec 6) (s : State) : Out :=
  .next (vector1 p d a (toInteger p false) s)

/-- CVT.F32.F16L (R83): the low half into FP32. -/
def execCvtF32F16l (p : Option Prefix) (d a : BitVec 6) (s : State) : Out :=
  .next (vector1 p d a (widen p fp16 0) s)

/-- CVT.F32.F16H (R83): the high half into FP32. -/
def execCvtF32F16h (p : Option Prefix) (d a : BitVec 6) (s : State) : Out :=
  .next (vector1 p d a (widen p fp16 16) s)

/-- CVT.F32.BF16L (R83): the low half into FP32. -/
def execCvtF32Bf16l (p : Option Prefix) (d a : BitVec 6) (s : State) : Out :=
  .next (vector1 p d a (widen p bf16 0) s)

/-- CVT.F32.BF16H (R83): the high half into FP32. -/
def execCvtF32Bf16h (p : Option Prefix) (d a : BitVec 6) (s : State) : Out :=
  .next (vector1 p d a (widen p bf16 16) s)

/-- CVT.F32.E4M3.B0 (R83): byte 0 into FP32. -/
def execCvtF32E4m3B0 (p : Option Prefix) (d a : BitVec 6) (s : State) : Out :=
  .next (vector1 p d a (widen p e4m3 0) s)

/-- CVT.F32.E4M3.B1 (R83): byte 1 into FP32. -/
def execCvtF32E4m3B1 (p : Option Prefix) (d a : BitVec 6) (s : State) : Out :=
  .next (vector1 p d a (widen p e4m3 8) s)

/-- CVT.F32.E4M3.B2 (R83): byte 2 into FP32. -/
def execCvtF32E4m3B2 (p : Option Prefix) (d a : BitVec 6) (s : State) : Out :=
  .next (vector1 p d a (widen p e4m3 16) s)

/-- CVT.F32.E4M3.B3 (R83): byte 3 into FP32. -/
def execCvtF32E4m3B3 (p : Option Prefix) (d a : BitVec 6) (s : State) : Out :=
  .next (vector1 p d a (widen p e4m3 24) s)

/-- CVT.F32.E5M2.B0 (R83): byte 0 into FP32. -/
def execCvtF32E5m2B0 (p : Option Prefix) (d a : BitVec 6) (s : State) : Out :=
  .next (vector1 p d a (widen p e5m2 0) s)

/-- CVT.F32.E5M2.B1 (R83): byte 1 into FP32. -/
def execCvtF32E5m2B1 (p : Option Prefix) (d a : BitVec 6) (s : State) : Out :=
  .next (vector1 p d a (widen p e5m2 8) s)

/-- CVT.F32.E5M2.B2 (R83): byte 2 into FP32. -/
def execCvtF32E5m2B2 (p : Option Prefix) (d a : BitVec 6) (s : State) : Out :=
  .next (vector1 p d a (widen p e5m2 16) s)

/-- CVT.F32.E5M2.B3 (R83): byte 3 into FP32. -/
def execCvtF32E5m2B3 (p : Option Prefix) (d a : BitVec 6) (s : State) : Out :=
  .next (vector1 p d a (widen p e5m2 24) s)

/-- CVT.F16X2 (R83): a and b packed. -/
def execCvtF16x2 (p : Option Prefix) (d a b : BitVec 6) (s : State) : Out :=
  .next (vector2 p d a (.v b) 0 (narrowHalves p fp16) s)

/-- CVT.BF16X2 (R83): a and b packed. -/
def execCvtBf16x2 (p : Option Prefix) (d a b : BitVec 6) (s : State) : Out :=
  .next (vector2 p d a (.v b) 0 (narrowHalves p bf16) s)

/-- CVT.E4M3X2.L (R83): the pair into the low half of vd. -/
def execCvtE4m3x2L (p : Option Prefix) (d a b : BitVec 6) (s : State) : Out :=
  .next (narrowInto p d a b e4m3 false s)

/-- CVT.E4M3X2.H (R83): the pair into the high half of vd. -/
def execCvtE4m3x2H (p : Option Prefix) (d a b : BitVec 6) (s : State) : Out :=
  .next (narrowInto p d a b e4m3 true s)

/-- CVT.E5M2X2.L (R83): the pair into the low half of vd. -/
def execCvtE5m2x2L (p : Option Prefix) (d a b : BitVec 6) (s : State) : Out :=
  .next (narrowInto p d a b e5m2 false s)

/-- CVT.E5M2X2.H (R83): the pair into the high half of vd. -/
def execCvtE5m2x2H (p : Option Prefix) (d a b : BitVec 6) (s : State) : Out :=
  .next (narrowInto p d a b e5m2 true s)

end

end Sys2Proof.Machine
end

