-- ==== Sys2Proof/Machine/Sync.lean ====
section
/-! DEFINITION. Ordering and waiting (R143 to R147, R219 to R228, R230): FENCE, WAIT, CTR, BAR, YIELD and LTADV. -/

namespace Sys2Proof.Machine

noncomputable section

/-- An instruction that R194 forbids in a region aborts the region with cause 10 before it has any effect. -/
def outsideRegion (body : State → State) (s : State) : State :=
  if s.cur.rgn.isSome then regionAbort s (gidOf s.cur) 10 0 none else body s

/-- The current group enters the lull: its wake condition and its continuation (R227). -/
def enterLull (wake : Wake) (cont : DWord) (s : State) : State :=
  countStall (modCur (countIssue s) fun g => { atNext cont g with st := .lull wake cont }) (gidOf s.cur) 6
    (Config.cycles s.turn)

/-! ## FENCE (R143, R180, R298) -/

/-- A release at a scope waits for an operation (R143, R180): a store to untracked memory, and an access to the host's memory, to a
peer's, or to either; never for an engine command. -/
def releaseWaits (z : Scope) (o : OpRec) : Bool :=
  o.kind != .copy && (o.untr || (z != .pod && o.host) || (z != .sys && !o.peers.isEmpty))

/-- An acquire waits for an operation (R143, R180): a load, or an atomic that returns a value, whose destination is not ready. -/
def acquireWaits (o : OpRec) : Bool :=
  o.kind == .load || o.kind == .gld || o.kind == .scrLoad || (o.kind == .atom && !o.vregs.isEmpty)

/-- The clock that an acquire at a scope joins: of the CXL port, of the UALink ports, or of both (R143). A port clock
starts at the front (R148). -/
def scopeClock (s : State) (z : Scope) : Word :=
  let cxl := clamp s s.io.cxlClk
  let ual := s.io.ualClk.foldl (fun t p => ltMax t p.2) s.cp.front
  match z with
  | .sys => cxl
  | .pod => ual
  | _ => ltMax cxl ual

/-- A fence with an order to make: outside a region, it waits for the operations that `waits` names, then takes its effect. One at
pod or span that waits on a fenced peer traps with cause 16 (R298). -/
def fenceWith (z : Scope) (waits : OpRec → Bool) (f : State → State) (s : State) : State :=
  afterGst (outsideRegion fun s =>
    let due := s.cur.ops.filter fun o => o.tag != 1 && waits o
    if z != .sys && due.any (fun o => o.peers.any fun p => s.fw.fenced.contains p.1) then trapHere 16 0 s
    else if !due.isEmpty then stallOn 21 true s
    else advance 1 (f s)) s

/-- A fence: at device scope and below it takes 1 cycle and has no effect (R143). -/
def fence (z : Scope) (waits : OpRec → Bool) (f : State → State) (s : State) : State :=
  match z with
  | .sys | .pod | .span => fenceWith z waits f s
  | .thr | .quad | .grp | .blk | .core | .clu | .dev => afterGst (advance 1) s

/-- The acquire of a fence: LCLK := max(LCLK, port clock). -/
def acquirePorts (z : Scope) (s : State) : State := modCur s fun g => { g with lclk := ltMax g.lclk (scopeClock s z) }

/-- FENCE.FULL (R143): release, then acquire. -/
def execFenceFull (z : Scope) (s : State) : Out := .next (fence z (fun o => releaseWaits z o || acquireWaits o) (acquirePorts z) s)

/-- FENCE.ACQ (R143). -/
def execFenceAcq (z : Scope) (s : State) : Out := .next (fence z acquireWaits (acquirePorts z) s)

/-- FENCE.REL (R143). -/
def execFenceRel (z : Scope) (s : State) : Out := .next (fence z (releaseWaits z) id s)

/-! ## CTR (R147, R220 to R223) -/

/-- A counter operation: outside a region, on a counter that is 8-byte aligned, mapped and permitted (R220). -/
def counterAt (acc : Nat) (gp : BitVec 7) (n : Need) (body : Nat → Leaf → State → State) (s : State) : State :=
  afterGst (outsideRegion (walkedAt 8 n (fun g => pairVal g gp) fun s =>
    let va := pairVal s.cur gp
    match address s (whoOf s s.cur) va 8 n with
    | (s, .error f) => trapAt f.1 f.2 acc false va s
    | (s, .ok l) => body va l s)) s

/-- A counter in device memory that verified memory does not refuse: its line is made ready at its slice (R220, R250,
R251). Any other place traps with a permission fault. -/
def counterHere (acc va : Nat) (l : Leaf) (write : Bool) (body : State → State) (s : State) : State :=
  match placeOf l with
  | .host | .peer | .mmio => trapAt 3 0 acc false va s
  | _ =>
    if mustWait s none (l.pa / 128) write then stallOn 21 true s
    else
      match memFault s l.pa l.via with
      | some f => uniformStop acc va (memTrap s s.cur.ctx l.pa f)
      | none => body (sliceReady s s.cur.ctx (l.pa / 128) write l.via)

/-- The undo log's space for a CADD, reserved at issue, with the step number of then (R290, R291); or the cause and the sub-cause with
which the log refuses it (R292). -/
def reserveCadd (s : State) : State × Except (Nat × Nat) (Option (Nat × Nat × Nat)) :=
  if !ulogOn (ctx s s.cur.ctx) then (s, .ok none)
  else
    match ulogReserve s s.cur.ctx s.cur.core 32 with
    | (t, .error f) => (t, .error f)
    | (t, .ok p) => (countLogged s t s.cur, .ok (some (p.1, p.2, stepNo s s.cur)))

/-- CADD issues (R221): the undo log's space is reserved first (R290, R292); the addition at the slice is due. A peer's
counter takes a UALink atomic add (R220). -/
def execCadd (gp : BitVec 7) (a : BitVec 9) (w : BitVec 4) (s : State) : Out :=
  .next (withUses { gr := a.toNat :: pairOf gp } (counterAt accCounter gp { r := true, w := true } fun va l s =>
    let g := s.cur
    let amount := (gget g a.toNat).toNat
    let issue := fun (s : State) (log : Option (Nat × Nat × Nat)) =>
      let s := issueOp s .cadd (some w.toNat) [] [] g.lclk g.pc (BitVec.ofNat 64 va) false
      let note := fun (o : OpRec) => if o.id == g.nextOp then { o with ulog := log, peers := peerOf l 0xFFFFFFFF } else o
      advance 1 (modCur s fun g => { g with ops := g.ops.map note })
    if 255 ≤ wget g w.toNat then stallOn 5 true s
    else if placeOf l = .peer then
      let x := lowBytes 8 (readPeer s.mm.peerMem l.pa 8 + amount)
      match logged s g.ctx { va := va, type := 3, old := 2, flags := 1, size := 3, core := g.core, slot := g.slot, step := stepNo s g }
          (fun s => farStore s (whoOf s g) l 8 x) with
      | (t, .error f) => trapAt f.1 f.2 accCounter false va t
      | (t, .ok _) => pend (issue (countLogged s t g) none) (.caddAnswer (gidOf g) g.nextOp)
    else
      counterHere accCounter va l true (fun s =>
        match reserveCadd s with
        | (s, .error f) => trapAt f.1 f.2 accCounter false va s
        | (s, .ok log) => pend (issue s log) (.caddAtSlice (gidOf g) l.pa amount g.nextOp)) s) s)

/-- CREAD (R222): the counter's value into a pair, and an acquire. -/
def execCread (gp : BitVec 7) (a : BitVec 9) (w : BitVec 4) (s : State) : Out :=
  .next (withUses { gr := pairOf gp, gw := [a.toNat, a.toNat + 1] } (counterAt accCounter gp { r := true } fun va l s =>
    let g := s.cur
    if 255 ≤ wget g w.toNat then stallOn 5 true s
    else
      counterHere accCounter va l false (fun s =>
        let bad := badAt s l.pa 8
        let x := readBytes s.mm.mem l.pa 8
        let s := modCur s fun g =>
          let g := { gsetPair g a.toNat x with lclk := ltMax g.lclk (lineOf s (l.pa / 128)).wts }
          gpoison (gpoison g a.toNat bad) (a.toNat + 1) bad
        let s := issueOp s .cread (some w.toNat) [] [a.toNat, a.toNat + 1] 0 0 0 false
        pend (advance 1 s) (.loadDataReturn (gidOf g) g.nextOp 0)) s) s)

/-- A counter wait is sent to its slice and the group stalls (R223). -/
def counterWait (gp : BitVec 7) (a : BitVec 9) (words : Nat) (lit : Option Word) (s : State) : State :=
  withUses { gr := pairOf gp ++ [a.toNat, a.toNat + 1] } (counterAt accCounter gp { r := true } fun va l s =>
    counterHere accCounter va l false (fun s =>
      match badAt s l.pa 8 with
      | some sub => trapAt 13 sub accCounter false va s
      | none =>
        let g := s.cur
        let req : CtrReq := { va := va, pa := l.pa, target := gpair g a.toNat, next := g.pc + BitVec.ofNat 64 (4 * words),
                              yields := lit.map fun x => g.pc + x.signExtend 64 }
        let s := modCur s fun g => { g with req := some req, ticket := none }
        pend (stallOn 5 false s) (.cwaitRequest (gidOf g))) s) s

/-- CWAIT (R223): the group stalls until the counter reaches the target. -/
def execCwait (gp : BitVec 7) (a : BitVec 9) (s : State) : Out := .next (counterWait gp a 1 none s)

/-- CWAITY (R223): as CWAIT, but the group waits in the lull. -/
def execCwaity (gp : BitVec 7) (a : BitVec 9) (lit : Word) (s : State) : Out := .next (counterWait gp a 2 (some lit) s)

/-! ## WAIT (R219) -/

/-- The oldest incomplete operation on a counter is an MMA that is waking sub-arrays (R136). -/
def wakingOn (s : State) (w : Nat) : Bool :=
  let g := s.cur
  match g.ops.find? (fun o => o.w == some w), (core s g.core).mmaq.find? (fun c => !c.started) with
  | some o, some c =>
    let need := fun i => i / 4 * 32 < (c.desc.getD 4 0).toNat % 256 && i % 4 * 32 < (c.desc.getD 4 0).toNat / 256 % 256
    o.kind == .mma && c.gid == gidOf g && c.opId == o.id && (core s g.core).gated.any need
  | _, _ => false

/-- The threshold holds: the commands of the counter that have arrived are joined (R146). -/
def waitDone (w : BitVec 4) (words : Nat) (s : State) : State := advance words (modCur s fun g => joinCounter g w.toNat)

/-- An operation whose instruction a trap interrupted and that is never resumed is withdrawn from its counter (R174). That no later step
resumes it is not known when a WAIT on the counter meets it: for each operation a free value says so (log 83). It is not forgotten: an
instruction that is resumed after all goes on as the same operation. -/
def neverResumed (w n : Nat) (s : State) : State :=
  let gone := fun (o : OpRec) => o.tag == 1 && o.w == some w && Config.freeBit (freeIx s 22 + 2 ^ 64 * o.id)
  if n < wget s.cur w then modCur s fun g =>
    { g with ops := g.ops.map (fun o => if gone o then { o with w := none } else o),
             w := mput 0 g.w w (wget g w - (g.ops.filter gone).length) }
  else s

/-- WAIT (R219): until at most n operations are outstanding on w. -/
def execWait (w : BitVec 4) (n : BitVec 8) (s : State) : Out :=
  let s := neverResumed w.toNat n.toNat s
  .next (if wget s.cur w.toNat ≤ n.toNat then waitDone w 1 s
         else stallOn (if wakingOn s w.toNat then 13 else 5) true s)

/-- WAITY (R219): as WAIT, but the group waits in the lull. -/
def execWaity (w : BitVec 4) (n : BitVec 8) (lit : Word) (s : State) : Out :=
  .next (outsideRegion (fun s =>
    let s := neverResumed w.toNat n.toNat s
    if wget s.cur w.toNat ≤ n.toNat then waitDone w 2 s
    else enterLull (.count w.toNat n.toNat) (s.cur.pc + lit.signExtend 64) s) s)

/-! ## BAR (R144, R225, R226) -/

/-- A barrier instruction of a block: a supervisor group, which belongs to no block, goes on (log 16). -/
def barrierOp (body : State → State) (s : State) : State :=
  afterGst (outsideRegion fun s => if s.cur.sup then advance 1 s else body s) s

/-- A store or an atomic of the current group to scratch has not reached the array (R97). -/
def scratchDue (s : State) : Bool :=
  s.cur.ops.any fun o => o.kind != .scrLoad && scratchQueued s (gidOf s.cur) o.id

/-- An arrival at a barrier waits for the group's own stores to scratch (R97, R144). -/
def afterScratch (body : State → State) (s : State) : State := if scratchDue s then stallOn 8 true s else body s

/-- The group has arrived in a generation that has not completed (R225). -/
def awaits (s : State) (k : Barrier) : Bool := k.arrived.contains s.cur.grpib

/-- BAR.SYNC (R225): arrive, then stall until the generation completes. -/
def execBarSync (i : BitVec 4) (n : BitVec 9) (s : State) : Out :=
  .next (barrierOp (afterScratch fun s =>
    let s := advance 1 (arriveBarrier s i.toNat n.toNat)
    if awaits s (barrierOf s s.cur.blk i.toNat) then
      countStall (modCur s fun g => { g with st := .atBarrier i.toNat }) (gidOf s.cur) 7 (Config.cycles s.turn)
    else s) s)

/-- BAR.ARRIVE (R225): counted, and the group goes on. -/
def execBarArrive (i : BitVec 4) (n : BitVec 9) (s : State) : Out :=
  .next (barrierOp (afterScratch fun s => advance 1 (arriveBarrier s i.toNat n.toNat)) s)

/-- BAR.WAIT (R225): the lull until the generation of the group's last arrival completes. -/
def execBarWait (i : BitVec 4) (_ : BitVec 9) (s : State) : Out :=
  .next (barrierOp (fun s =>
    if awaits s (barrierOf s s.cur.blk i.toNat) then enterLull (.barrier i.toNat) (s.cur.pc + 4) s else advance 1 s) s)

/-- A grid form: ILL_ENC in a launch without GBAR (R226). -/
def gridOp (body : State → State) (s : State) : State :=
  afterGst (outsideRegion fun s => if recGbar (launchOf s s.cur) then body s else illEnc 0 s) s

/-- BAR.GSYNC (R226): arrive, then wait in the lull. -/
def execBarGsync (i : BitVec 4) (s : State) : Out :=
  .next (gridOp (afterScratch fun s => enterLull (.grid i.toNat) (s.cur.pc + 4) (arriveGrid s i.toNat)) s)

/-- BAR.GARRIVE (R226): counted, and the group goes on. -/
def execBarGarrive (i : BitVec 4) (s : State) : Out := .next (gridOp (afterScratch fun s => advance 1 (arriveGrid s i.toNat)) s)

/-- BAR.GWAIT (R226): the lull until the generation of the group's last arrival completes. -/
def execBarGwait (i : BitVec 4) (s : State) : Out :=
  .next (gridOp (fun s =>
    if awaits s (gridBar s s.cur.blk i.toNat) then enterLull (.grid i.toNat) (s.cur.pc + 4) s else advance 1 s) s)

/-! ## YIELD and LTADV (R228, R230) -/

/-- YIELD (R228): the lull for 64 cycles. -/
def execYield (s : State) : Out :=
  .next (outsideRegion (fun s => pend (enterLull .yielded (s.cur.pc + 4) s) (.yieldExpiry (gidOf s.cur))) s)

/-- LCLK raised by n, at most to FRONT + 2^30 − 1, never lowered (R230). -/
def advanceClock (s : State) (n : Nat) : State :=
  let cap := s.cp.front + 0x3FFFFFFF
  modCur s fun g => if before g.lclk cap then { g with lclk := g.lclk + BitVec.ofNat 32 (min n (cap - g.lclk).toNat) } else g

/-- LTADV of a register (R230). -/
def execLtadvReg (g : BitVec 9) (s : State) : Out :=
  .next (withUses { gr := [g.toNat] } (fun s => advance 1 (advanceClock s (gget s.cur g.toNat).toNat)) s)

/-- LTADV of an immediate (R230): no effect if it is not positive. -/
def execLtadvImm (i : BitVec 16) (s : State) : Out := .next (advance 1 (advanceClock s i.toInt.toNat) )

end

end Sys2Proof.Machine
end

