-- ==== Sys2Proof/Machine/Engine.lean ====
section
/-! DEFINITION. What the two engines of a core share (R18, R126, R127, R146, R186, R288): descriptors, scratch ranges and
conflicts, the pages that a command needs, and its arrival. -/

namespace Sys2Proof.Machine

noncomputable section

/-! ## Descriptors -/

/-- Word `k` of a descriptor. -/
def dword (d : List Word) (k : Nat) : Nat := (d.getD k 0).toNat

/-- Bits `lo` to `lo + n - 1` of word `k` of a descriptor. -/
def dbits (d : List Word) (k lo n : Nat) : Nat := dword d k / 2 ^ lo % 2 ^ n

/-- The 58-bit address at words `k` and `k + 1` of a descriptor. -/
def daddr (d : List Word) (k : Nat) : Nat := dword d k + 2 ^ 32 * dbits d (k + 1) 0 26

/-! ## Scratch ranges (R17, R120, R127) -/

/-- A range of scratch that a command touches. -/
structure Range where
  lo  : Nat
  len : Nat
  wr  : Bool
  deriving DecidableEq, Repr

/-- Two ranges touch a common 128-byte granule of scratch offset, and at least one is written (R127). -/
def touches (a b : Range) : Bool :=
  0 < a.len && 0 < b.len && (a.wr || b.wr) && a.lo / 128 ≤ (b.lo + b.len - 1) / 128 && b.lo / 128 ≤ (a.lo + a.len - 1) / 128

/-- Two lists of ranges conflict (R127). -/
def conflicts (as bs : List Range) : Bool := as.any fun a => bs.any (touches a)

/-- Scratch page `p` of a group's block is homed on the group's core (R17). -/
def homedHere (s : State) (g : Group) (p : Nat) : Bool :=
  let span := (block s g.blk).span
  span.isEmpty || span.getD (p % span.length) g.core == g.core

/-- The first offset of a range at or beyond the block's scratch size (R123, R185). -/
def rangeBeyond (size : Nat) (r : Range) : Option Nat := if size < r.lo + r.len then some (max r.lo size) else none

/-- The first offset of a range in a page homed on another core (R123, R185). -/
def rangeAway (s : State) (g : Group) (r : Range) : Option Nat :=
  if r.len = 0 then none
  else
    let first := r.lo / 16384
    let pages := (List.range ((r.lo + r.len - 1) / 16384 + 1 - first)).map (first + ·)
    (pages.find? fun p => !homedHere s g p).map fun p => max r.lo (p * 16384)

/-- The lowest unpinned page that a list of ranges touches (R288). -/
def missingPage (s : State) (b : Nat) (rs : List Range) : Option Nat :=
  ((block s b).unpinned.filter fun p => rs.any fun r =>
    0 < r.len && r.lo / 16384 ≤ p && p ≤ (r.lo + r.len - 1) / 16384).min?

/-! ## The descriptor of an MMA (R119, R120, R122) -/

def mmaM (d : List Word) : Nat := dbits d 4 0 8
def mmaN (d : List Word) : Nat := dbits d 4 8 8
def mmaKb (d : List Word) : Nat := dbits d 4 16 16
def mmaPa (d : List Word) : Nat := dbits d 5 0 4 + 1
def mmaPb (d : List Word) : Nat := dbits d 5 4 4 + 1
def mmaZa (d : List Word) : Bool := dbits d 5 8 1 == 1

/-- The four ranges of R120: A planes, A scales, B planes, B scales. -/
def mmaRanges (d : List Word) : List Range :=
  [{ lo := dword d 0, len := mmaKb d * (1 + mmaPa d) * mmaM d * 2, wr := false },
   { lo := dword d 1, len := mmaKb d * mmaM d * 4, wr := false },
   { lo := dword d 2, len := mmaKb d * (1 + mmaPb d) * mmaN d * 2, wr := false },
   { lo := dword d 3, len := mmaKb d * mmaN d * 4, wr := false }]

/-! ## Starting and arriving (R146) -/

/-- An access of the group that issued before its operation `id` has not been performed (R146). In this model every
access is performed when it issues, but for a CADD (log 8). -/
def accessBefore (s : State) (gid id : Nat) : Bool :=
  match group s gid with
  | some g => g.ops.any fun o => o.kind == .cadd && o.id < id
  | none => false

/-- A command arrives on its counter with its finish time, which a WAIT joins (R146); `join` is false for one that is
withdrawn (R133, R188). That of a retired group counts towards its task's finish time (R213). -/
def arriveCommand (s : State) (gid id w : Nat) (join : Option Word) : State :=
  let s := modGroup s gid fun g =>
    let g := arriveOp g id
    match join with
    | some f => { g with joins := mset g.joins w (match mfind g.joins w with | some x => ltMax x f | none => f) }
    | none => g
  let s := match group s gid, join with
    | some g, some f =>
      if g.st = .retired then modTask s (block s g.blk).task fun t => { t with fin := ltMax t.fin f } else s
    | _, _ => s
  recheck s gid

/-- A trap becomes due at the group's next instruction boundary (R133, R187, R221). -/
def dueTrap (s : State) (gid : Nat) (t : DueTrap) : State := modGroup s gid fun g => { g with due := g.due ++ [t] }

/-- An engine fault at issue: precise, with the command's own address unless it names an offset or address (R123,
R185). -/
def engineFault (sub : Nat) (scr : Bool) (at_ : Option Nat) (s : State) : State :=
  trapAt 12 sub accEngine scr (at_.getD s.cur.pc.toNat) s

end

end Sys2Proof.Machine
end

