-- ==== Sys2Proof/Machine/Kx.lean ====
section
/-! DEFINITION. The KX block family (R58, R59, R64): packing 16 values into a block, the plane words and the scale record
of a block, and the exact sum of products of two blocks (R119, R124). -/

namespace Sys2Proof.Machine

/-- A KX block (R58): its scale exponent, pair bits, signs and magnitudes. -/
structure KxBlock where
  e  : Nat
  pb : List Bool
  s  : List Bool
  q  : List Nat
  deriving DecidableEq, Repr

/-- A packed block with the exceptions raised and the generator after it. -/
structure KxPacked where
  blk : KxBlock
  ex  : Nat
  gen : BitVec 64
  deriving DecidableEq, Repr

/-- The block of code `e` whose elements are all +0 (R64). -/
def kxFlat (e : Nat) : KxBlock :=
  { e := e, pb := List.replicate 8 false, s := List.replicate 16 false, q := List.replicate 16 0 }

/-- The exponent of a nonzero finite datum, floor(log2 |x|) (R64). -/
def kxExp : FVal → Option Int
  | .fin _ m e => if m = 0 then none else some ((m.log2 : Int) + e)
  | _ => none

/-- A datum is an infinity or a NaN. -/
def kxSpecial : FVal → Bool
  | .fin _ _ _ => false
  | _ => true

/-- A datum whose packing raises IV (R64). -/
def kxInvalid : FVal → Bool
  | .inf _ => true
  | .nan sn => sn
  | .fin _ _ _ => false

/-- One pass of quantise over the elements from `k` on (R64), each with the draw of the first pass, if it made one. What is rounded is |x|,
so a directed mode rounds the magnitude. The answer: the signs, the magnitudes, whether any is inexact, the draws and the generator. -/
def kxQuantise (rm : Nat) (unit : Nat → Int) : Nat → List FVal → List (Option Nat) → BitVec 64 →
    List (Bool × Nat) × Bool × List (Option Nat) × BitVec 64
  | _, [], _, gen => ([], false, [], gen)
  | k, x :: xs, ds, gen =>
    let d := ds.headD none
    match x with
    | .fin neg m e =>
      let t := truncate m e (unit k)
      if t.2.1 = 0 then
        let r := kxQuantise rm unit (k + 1) xs ds.tail gen
        ((neg && t.1 != 0, t.1) :: r.1, r.2.1, d :: r.2.2.1, r.2.2.2)
      else
        let gen' := if rm = 5 ∧ d.isNone then srsStep gen else gen
        let draw := d.getD (srsDraw gen')
        let q := t.1 + (if roundsUp rm false t.1 t.2.1 t.2.2 false draw then 1 else 0)
        let r := kxQuantise rm unit (k + 1) xs ds.tail gen'
        ((neg && q != 0, q) :: r.1, true, (if rm = 5 then some draw else none) :: r.2.2.1, r.2.2.2)
    | _ =>
      let r := kxQuantise rm unit (k + 1) xs ds.tail gen
      ((false, 0) :: r.1, r.2.1, d :: r.2.2.1, r.2.2.2)

/-- The larger of two exponents, a zero lying below every one. -/
def kxMax (a b : Option Int) : Option Int :=
  match a, b with
  | some x, some y => some (max x y)
  | some x, none => some x
  | none, y => y

/-- round_kx of R64: 16 values into one block of precision p. -/
def roundKx (xs : List FVal) (p rm : Nat) (gen : BitVec 64) : KxPacked :=
  if xs.any kxSpecial then { blk := kxFlat 511, ex := if xs.any kxInvalid then exIV else 0, gen := gen }
  else
    match (xs.map kxExp).foldl kxMax none with
    | none => { blk := kxFlat 0, ex := 0, gen := gen }
    | some emax =>
      let below := fun k => match kxExp (xs.getD k (.fin false 0 0)) with
        | some e => decide (e < emax)
        | none => true
      let pb := (List.range 8).map fun i => below (2 * i) && below (2 * i + 1)
      let unit := fun (up : Int) k => emax + up - ((p : Int) - 1) - (if pb.getD (k / 2) false then 1 else 0)
      let a := kxQuantise rm (unit 0) 0 xs [] gen
      if a.1.any (fun z => z.2 == 2 ^ p) then
        let b := kxQuantise rm (unit 1) 0 xs a.2.2.1 a.2.2.2
        { blk := { e := (emax + 256).toNat, pb := pb, s := b.1.map (·.1), q := b.1.map (·.2) },
          ex := if a.2.1 || b.2.1 then exNX else 0, gen := b.2.2.2 }
      else
        { blk := { e := (emax + 255).toNat, pb := pb, s := a.1.map (·.1), q := a.1.map (·.2) },
          ex := if a.2.1 then exNX else 0, gen := a.2.2.2 }

/-- The number whose bit i is the i-th of a list. -/
def bitsToNat : List Bool → Nat
  | [] => 0
  | b :: bs => (if b then 1 else 0) + 2 * bitsToNat bs

/-- The scale record of a block (R58). -/
def kxRecord (b : KxBlock) : Nat := b.e + 2 ^ 9 * bitsToNat b.pb

/-- Plane word j of a block (R119): its signs, or bit j − 1 of its magnitudes. -/
def kxPlane (b : KxBlock) (j : Nat) : Nat := bitsToNat (if j = 0 then b.s else b.q.map (·.testBit (j - 1)))

/-- The block of precision p that plane words and a scale record hold (R58, R119). -/
def kxOfPlanes (planes : List Nat) (record : Nat) : KxBlock :=
  { e := record % 512,
    pb := (List.range 8).map fun i => record.testBit (9 + i),
    s := (List.range 16).map fun i => (planes.headD 0).testBit i,
    q := (List.range 16).map fun i => bitsToNat (planes.tail.map (·.testBit i)) }

/-- A block of the packed format KXp of R59 with its scale record. -/
def kxOfPacked (p bits record : Nat) : KxBlock :=
  { e := record % 512,
    pb := (List.range 8).map fun i => record.testBit (9 + i),
    s := (List.range 16).map fun k => bits.testBit (k * (p + 1) + p),
    q := (List.range 16).map fun k => bits / 2 ^ (k * (p + 1)) % 2 ^ p }

/-- Element k of a block in units of 2^(E − 255 − (p − 1) − 1), signed (R58). -/
def kxTerm (b : KxBlock) (k : Nat) : Int :=
  signedInt (b.s.getD k false) (b.q.getD k 0 * (if b.pb.getD (k / 2) false then 1 else 2))

/-- The exact sum of products of two blocks, in units of 2^(EA + EB − 510 − (pA − 1) − (pB − 1) − 2) (R124). -/
def kxDot (a b : KxBlock) : Int := ((List.range 16).map fun k => kxTerm a k * kxTerm b k).foldl (· + ·) 0

/-- An accumulator element after one K-block (R124): the exact sum scaled and added, rounded once under RNE. -/
def kxAccumulate (pa pb : Nat) (a b : KxBlock) (acc : Nat) : Nat :=
  if a.e = 511 ∨ b.e = 511 then fp32.cnan
  else
    let s := kxDot a b
    let x : FVal := .fin (s < 0) s.natAbs ((a.e : Int) + b.e - 510 - ((pa : Int) - 1) - ((pb : Int) - 1) - 2)
    (roundTo fp32 0 false (fAdd 0 (fval fp32 acc) x).1 0).bits

end Sys2Proof.Machine
end

