-- ==== Sys2Proof/Machine/Copy.lean ====
section
/-! DEFINITION. The copy engine (R181 to R190): CPY, its units, its completion, and a copy cut short. -/

namespace Sys2Proof.Machine

noncomputable section

/-! ## The descriptor (R182, R183) -/

def cpyGa (d : List Word) : Nat := daddr d 0
def cpyPm1 (d : List Word) : Nat := dbits d 2 21 4
def cpySoff (d : List Word) : Nat := dbits d 2 0 21
def cpyRows (d : List Word) : Nat := dbits d 3 16 16 + 1
def cpyRowb (d : List Word) : Nat := dbits d 3 0 16
def cpyPitch (d : List Word) : Nat := dword d 4
def cpyAux (d : List Word) : Nat := dword d 5
def cpyAux21 (d : List Word) : Nat := dbits d 5 0 21
def cpyFsel (d : List Word) : Nat := dbits d 5 21 3
def cpyRop (d : List Word) : Nat := dbits d 5 21 4
def cpyCounter (d : List Word) : Nat := daddr d 6

/-- The 64-bit address in the extension registers (R183, R184). -/
def cpyX (ext : List Word) : Nat := dword ext 0 + 2 ^ 32 * dword ext 1

/-- CNT, RESUME and SCR (R181). -/
def flagCnt (f : Nat) : Bool := f.testBit 0
def flagResume (f : Nat) : Bool := f.testBit 1
def flagScr (f : Nat) : Bool := f.testBit 2

/-- The source format of a PACKLOAD from a float source, and its bytes (R184); FMTSEL 5 has been replaced. -/
def packFmt (fsel : Nat) : Fmt :=
  match fsel with
  | 0 => fp32
  | 1 => bf16
  | 2 => fp16
  | 3 => e4m3
  | _ => e5m2
def packSize (fsel : Nat) : Nat := if fsel = 0 then 4 else if fsel ≤ 2 then 2 else 1

/-- A command can round (R63): PACKLOAD from a float source, REDSTORE with ROP 0 or 4. -/
def canRound (op : Nat) (d : List Word) : Bool :=
  (op == 4 && cpyFsel d ≤ 5) || (op == 7 && (cpyRop d == 0 || cpyRop d == 4))

/-- The most units that a row of SCATTER can need (R183). -/
def scatterV (d : List Word) : Nat := (cpyRowb d + 127) / 128 + 1

/-- The destination of row i: whether it is scratch, and its first offset or address; `ix` is the row's index word. -/
def rowDest (op flags : Nat) (d : List Word) (ix i : Nat) : Bool × Nat :=
  match op with
  | 0 => (true, cpySoff d + i * cpyAux21 d)
  | 2 => (true, cpySoff d + i * cpyRowb d)
  | 3 => (false, cpyGa d + ix * cpyPitch d)
  | 6 => if flagScr flags then (true, cpySoff d + i * cpyPitch d) else (false, cpyGa d + i * cpyPitch d)
  | _ => (false, cpyGa d + i * cpyPitch d)

/-- Where a row's bytes come from. -/
inductive CpySrc where
  | glob (va : Nat)
  | scr (o : Nat)
  | fill
  deriving DecidableEq, Repr

/-- The source of row i (R183). -/
def rowSrc (op : Nat) (d ext : List Word) (ix i : Nat) : CpySrc :=
  match op with
  | 0 => .glob (cpyGa d + i * cpyPitch d)
  | 2 => .glob (cpyGa d + ix * cpyPitch d)
  | 5 => .glob (cpyX ext + i * cpyAux d)
  | 6 => .fill
  | 3 => .scr (cpySoff d + i * cpyRowb d)
  | _ => .scr (cpySoff d + i * cpyAux21 d)

/-- The units of a row of `n` bytes from `a` on: it is split at the 128-byte boundaries of its destination (R183). -/
def pieces (a n : Nat) : Nat := (a % 128 + n + 127) / 128

/-- Piece j of a row of `n` bytes from `a` on: its first byte in the row and its length. -/
def piece (a n j : Nat) : Nat × Nat :=
  let lo := max a ((a / 128 + j) * 128)
  let hi := min (a + n) ((a / 128 + j + 1) * 128)
  (lo - a, hi - lo)

/-- The number of units of a command (R183): for SCATTER it does not depend on the indices. -/
def unitCount (op flags : Nat) (d : List Word) : Nat :=
  match op with
  | 3 => cpyRows d * scatterV d
  | 4 => cpyRows d * cpyRowb d
  | _ => ((List.range (cpyRows d)).map fun i => pieces (rowDest op flags d 0 i).2 (cpyRowb d)).foldl (· + ·) 0

/-- The row and the piece of a unit, for rows whose pieces are counted in turn. -/
def locateUnit (op flags : Nat) (d : List Word) : Nat → Nat → Nat → Nat × Nat
  | 0, i, u => (i, u)
  | fuel + 1, i, u =>
    let n := pieces (rowDest op flags d 0 i).2 (cpyRowb d)
    if u < n then (i, u) else locateUnit op flags d fuel (i + 1) (u - n)

/-- The scratch ranges of a command (R120, R183, R184). -/
def cpyRanges (op flags : Nat) (d : List Word) : List Range :=
  let n := cpyRowb d
  let list : Range := { lo := cpyAux21 d, len := 4 * cpyRows d, wr := false }
  let rows := fun (pitch : Nat) (wr : Bool) =>
    (List.range (cpyRows d)).map fun i => ({ lo := cpySoff d + i * pitch, len := n, wr := wr } : Range)
  match op with
  | 0 => rows (cpyAux21 d) true
  | 1 => rows (cpyAux21 d) false
  | 2 => rows n true ++ [list]
  | 3 => rows n false ++ [list]
  | 4 => [{ lo := cpySoff d, len := n * (2 + cpyPm1 d) * cpyRows d * 2, wr := true },
          { lo := cpyAux21 d, len := n * cpyRows d * 4, wr := true }]
  | 5 => []
  | 6 => if flagScr flags then rows (cpyPitch d) true else []
  | _ => rows (cpyAux21 d) false

/-! ## The checks at issue (R185, R190) -/

/-- The first bit of AUX that must be 0 (R183): none for REMOTE and FILL. -/
def auxTop (op : Nat) : Option Nat :=
  match op with
  | 4 => some 24
  | 7 => some 25
  | 5 | 6 => none
  | _ => some 21

/-- Sub-cause 8 (R185, R190): `d` as captured, `rm` and `next` of the restart registers. DESIGN CHOICE (log 64): a PACKLOAD of more
rows than R182 allows gives sub-cause 8, which R185 does not say. -/
def cpyBadDescriptor (op : Nat) (resume : Bool) (d : List Word) (p rm : Nat) : Bool :=
  dbits d 1 26 6 != 0 || dbits d 2 25 7 != 0 || dbits d 7 26 6 != 0 || (op != 4 && cpyPm1 d != 0) ||
  (auxTop op).any (fun n => cpyAux d / 2 ^ n != 0) || cpyRowb d == 0 || (op != 4 && cpyRowb d % 4 != 0) ||
  (op == 4 && (128 < cpyRows d || cpyFsel d == 7)) || (op == 7 && 6 < cpyRop d) || (resume && 5 < rm) ||
  (op == 4 && resume && (cpyPm1 d == 0 || cpyFsel d == 5)) ||
  (op == 4 && cpyFsel d == 6 && p != 1 && p != 2 && p != 4 && p != 7)

/-- The addresses and offsets that R182 and R184 align: each with its alignment and whether it is a scratch offset. A
pitch that is not aligned puts row 1 at the first offending address (log 18). -/
def cpyAligned (op flags : Nat) (d ext : List Word) : List (Nat × Nat × Nat × Bool) :=
  let pitchUnit := if op = 4 ∧ cpyFsel d ≤ 5 then packSize (cpyFsel d) else 4
  let fillScr := op == 6 && flagScr flags
  [(cpyGa d, 4, cpyGa d, false),
   (cpyPitch d, pitchUnit, (if fillScr then cpySoff d else cpyGa d) + cpyPitch d, fillScr),
   (cpySoff d, if op = 4 then 32 else 4, cpySoff d, true)] ++
  (match op with
   | 0 | 1 | 7 => [(cpyAux21 d, 4, cpySoff d + cpyAux21 d, true)]
   | 2 | 3 => [(cpyAux21 d, 4, cpyAux21 d, true)]
   | 4 => [(cpyAux21 d, 64, cpyAux21 d, true)]
   | 5 => [(cpyAux d, 4, cpyX ext + cpyAux d, false)]
   | _ => []) ++
  (if flagCnt flags then [(cpyCounter d, 8, cpyCounter d, false)] else [])

/-- The checks of R185 that a command can fail at issue: the sub-cause, whether it names a scratch offset, and the
offset or address. `kxp` is the captured FMT.KXP and `c` the command with its replaced descriptor (R189). -/
def cpyCheck (s : State) (resume : Bool) (d : List Word) (p : Nat) (c : CopyCmd) : Option (Nat × Bool × Option Nat) :=
  if cpyBadDescriptor c.op resume d p c.rm then some (8, false, none)
  else if c.op = 4 ∧ p = 1 then some (12, false, none)
  else if resume ∧ unitCount c.op c.flags c.desc < c.next then some (8, false, none)
  else
    match (cpyAligned c.op c.flags c.desc c.ext).find? (fun x => x.1 % x.2.1 != 0) with
    | some x => some (9, x.2.2.2, some x.2.2.1)
    | none =>
      let rs := cpyRanges c.op c.flags c.desc
      match rs.findSome? (rangeBeyond (scrSizeOf s s.cur)) with
      | some o => some (10, true, some o)
      | none => (rs.findSome? (rangeAway s s.cur)).map fun o => (11, true, some o)

/-! ## Issue (R181, R63) -/

/-- The extension registers that a command reads after its eight descriptor registers (R181, R190): how many name an
address, and how many restart it. -/
def extCount (op flags : Nat) (d : List Word) : Nat × Nat :=
  ((if op = 5 ∨ (op = 4 ∧ cpyFsel d = 6) then 2 else 0), if flagResume flags then 3 else 0)

/-- PM1 = 0 becomes the captured FMT.KXP, and FMTSEL 5 becomes 3 or 4 as FMT.FP8 selects (R189). -/
def captureDesc (op : Nat) (d : List Word) (kxp fp8 : Nat) : List Word :=
  if op ≠ 4 then d
  else
    let d := if cpyPm1 d = 0 then d.set 2 (d.getD 2 0 ||| BitVec.ofNat 32 (kxp * 2 ^ 21)) else d
    if cpyFsel d = 5 then d.set 5 ((d.getD 5 0 &&& 0xFF1FFFFF) ||| BitVec.ofNat 32 ((3 + fp8) * 2 ^ 21)) else d

/-- CPY of an operation (R181, R185): issues one command for the group. DESIGN CHOICE (log 62): the generator of a command captured
under RSTO that cannot round, which R63 does not seed, is a free value. -/
def copyOp (op : Nat) (b : BitVec 6) (w : BitVec 4) (flags : Nat) (s : State) : State :=
  withUses { gr := blockOf b } (afterGst (outsideRegion fun s =>
    let g := s.cur
    let d := (blockOf b).map (gget g)
    let n := extCount op flags d
    let q := 8 * b.toNat + 8
    let regs := (List.range (n.1 + n.2)).map (q + ·)
    if !regs.all (uniformLegal g) then illReg 0 s
    else if regs.any (gBusy g) then stallOn 3 true s
    else
      match regs.findSome? (mfind g.gPoison ·) with
      | some sub => trapHere 13 sub s
      | none =>
        let k := core s g.core
        if 255 ≤ wget g w.toNat then stallOn 5 true s
        else if 32 ≤ k.cpyq.length + k.parkedCpy.length then stallOn 12 true s
        else
          let resume := flagResume flags
          let r0 := (gget g (q + n.1)).toNat
          let kxp := if resume then 0 else fmtKxp g
          let desc := captureDesc op d kxp (fmtFp8 g)
          let rm := if resume then r0 / 2 ^ 29 else fmtRm g
          let draws := !resume && rm == 5 && canRound op d
          let seed := if draws then srsStep g.srs else g.srs
          let gen : DWord :=
            if resume then BitVec.ofNat 64 (gpair g (q + n.1 + 1))
            else if rm ≠ 5 then 0 else if draws then seed else BitVec.ofNat 64 (Config.pick (freeIx s 20))
          let c : CopyCmd :=
            { gid := gidOf g, opId := g.nextOp, ctx := g.ctx, blk := g.blk, grpib := g.grpib, user := !privileged g, op := op,
              w := w.toNat, flags := flags, desc := desc, ext := (List.range n.1).map fun i => gget g (q + i), rm := rm,
              gen := gen, next := if resume then r0 % 2 ^ 29 else 0, eclk := g.lclk, pc := g.pc, stamp := s.turn }
          match cpyCheck s resume d (cpyPm1 desc + 1) c with
          | some (sub, scr, o) => engineFault sub scr o s
          | none =>
            let s := modCur s fun g => { g with srs := seed }
            let s := issueOp s .copy (some w.toNat) [] [] g.lclk 0 0 false
            let s := modCore s g.core fun k => { k with cpyq := k.cpyq ++ [c] }
            pend (advance 1 s) (.copyCommandStart g.core))) s

/-- The flags of a CPY that has no SCR flag (R181). -/
def cpyFlags (r c : Bool) : Nat := (if c then 1 else 0) + (if r then 2 else 0)

/-- CPY LOAD (R183): global rows into scratch. -/
def execCpyLoad (g : BitVec 6) (w : BitVec 4) (r c : Bool) (s : State) : Out := .next (copyOp 0 g w (cpyFlags r c) s)

/-- CPY STORE (R183): scratch rows to memory. -/
def execCpyStore (g : BitVec 6) (w : BitVec 4) (r c : Bool) (s : State) : Out := .next (copyOp 1 g w (cpyFlags r c) s)

/-- CPY GATHER (R183): indexed global rows into scratch. -/
def execCpyGather (g : BitVec 6) (w : BitVec 4) (r c : Bool) (s : State) : Out := .next (copyOp 2 g w (cpyFlags r c) s)

/-- CPY SCATTER (R183): scratch rows to indexed global rows. -/
def execCpyScatter (g : BitVec 6) (w : BitVec 4) (r c : Bool) (s : State) : Out := .next (copyOp 3 g w (cpyFlags r c) s)

/-- CPY PACKLOAD (R184): one operand into the plane-tile layout. -/
def execCpyPackload (g : BitVec 6) (w : BitVec 4) (r c : Bool) (s : State) : Out := .next (copyOp 4 g w (cpyFlags r c) s)

/-- CPY REMOTE (R183): rows between two global addresses. -/
def execCpyRemote (g : BitVec 6) (w : BitVec 4) (r c : Bool) (s : State) : Out := .next (copyOp 5 g w (cpyFlags r c) s)

/-- CPY FILL (R183): a pattern into memory or, with SCR, into scratch. -/
def execCpyFill (g : BitVec 6) (w : BitVec 4) (sc r c : Bool) (s : State) : Out :=
  .next (copyOp 6 g w (cpyFlags r c + (if sc then 4 else 0)) s)

/-- CPY REDSTORE (R183): scratch rows combined into memory element by element. -/
def execCpyRedstore (g : BitVec 6) (w : BitVec 4) (r c : Bool) (s : State) : Out := .next (copyOp 7 g w (cpyFlags r c) s)

/-! ## Performing a unit (R183, R184, R186) -/

/-- What a unit does: done, with the command after it; a fault (a sub-cause of R185, whether it is at a scratch offset, and where); or
nothing yet, because an access of it is held where it is performed (R158, R202, R249). -/
inductive UnitStep where
  | ok (s : State) (c : CopyCmd)
  | fault (s : State) (sub : Nat) (scr : Bool) (at_ : Nat)
  | wait

/-- Why a read of a unit is not done: a fault at an address, or a wait. -/
inductive UnitStop where
  | fault (s : State) (sub va : Nat)
  | wait

/-- A unit that a read of it stops. -/
def UnitStop.step : UnitStop → UnitStep
  | .fault s sub va => .fault s sub false va
  | .wait => .wait

/-- The sub-cause of a refused translation (R185, R250, R251). -/
def xlateSub (cause : Nat) : Nat :=
  if cause = 3 then 14 else if cause = 16 then 17 else if cause = 13 ∨ cause = 14 then 15 else 13

/-- The agent of a command (R146). -/
def cpyWho (s : State) (core : Nat) (c : CopyCmd) : Who :=
  { core := core, asid := c.ctx, clk := c.eclk, user := c.user, lease := (ctx s c.ctx).lease.toNat }

/-- The leaf of an address of a command; its pieces need no alignment of their own. Where no walk may begin the cause is 0. -/
def engineAddr (s : State) (w : Who) (va : Nat) (n : Need) : Xlate :=
  if 2 ^ 58 ≤ va then (s, .error (2, 0))
  else if walksHeld s && !(untranslated s w n [va]).isEmpty then (s, .error (0, 21))
  else translate s w va n

/-- An access of a command whose translation is refused, or may not be made yet. -/
def xlateStop (s : State) (f : Nat × Nat) (va : Nat) : UnitStop := if f.1 = 0 then .wait else .fault s (xlateSub f.1) va

/-- A command has reached a peer (R316), which its operation notes until it arrives. -/
def notePeer (s : State) (c : CopyCmd) (l : Leaf) : State :=
  if l.loc = 2 then modGroup s c.gid fun g =>
    { g with ops := g.ops.map fun o => if o.id == c.opId then { o with peers := peerOf l 0 ++ o.peers } else o }
  else s

/-- A read of a command: as a load, but of the line that the unit is about to write the newest bytes, at the time of the write. -/
def engineLoad (own : Option Nat) (s : State) (w : Who) (l : Leaf) (n : Nat) : Access :=
  if inDevice l && own == some (l.pa / 128) then .done s w.clk (readBytes s.mm.mem l.pa n) (badAt s l.pa n) else plainLoad s w l n

/-- `n` bytes read by a command, line by line: the state, its clock after the reads, and the value. `own` is the line that the unit is
about to write. -/
def engineRead (core : Nat) (c : CopyCmd) (own : Option Nat) : Nat → State → Word → Nat → Nat → Except UnitStop (State × Word × Nat)
  | 0, s, clk, _, _ => .ok (s, clk, 0)
  | fuel + 1, s, clk, va, n =>
    if n = 0 then .ok (s, clk, 0)
    else
      let m := min n (128 - va % 128)
      let w := { cpyWho s core c with clk := clk }
      match engineAddr s w va { r := true } with
      | (s, .error e) => .error (xlateStop s e va)
      | (s, .ok l) =>
        if groupWaits s l false then .error .wait
        else
          match engineLoad own (notePeer s c l) w l m with
          | .done s clk x none =>
            match engineRead core c own fuel s clk (va + m) (n - m) with
            | .ok r => .ok (r.1, r.2.1, x + r.2.2 * 2 ^ (8 * m))
            | .error e => .error e
          | .trap s _ _ => .error (.fault s 15 va)
          | _ => .error (.fault s 15 va)

/-- The pieces of a unit's global source, an address and a number of bytes each, read one after the other. -/
def readPieces (core : Nat) (c : CopyCmd) (own : Option Nat) : State → Word → List (Nat × Nat) →
    Except UnitStop (State × Word × List Nat)
  | s, clk, [] => .ok (s, clk, [])
  | s, clk, p :: ps =>
    match engineRead core c own 3 s clk p.1 p.2 with
    | .error e => .error e
    | .ok r =>
      match readPieces core c own r.1 r.2.1 ps with
      | .error e => .error e
      | .ok q => .ok (q.1, q.2.1, r.2.2 :: q.2.2)

/-- The pieces read at one logical time (R183): they are read again, at the clock that the last reading reached, until that does not
move it. -/
def readAtOnce (core : Nat) (c : CopyCmd) (own : Option Nat) (ps : List (Nat × Nat)) : Nat → State → Word →
    Except UnitStop (State × Word × List Nat)
  | 0, s, clk => readPieces core c own s clk ps
  | fuel + 1, s, clk =>
    match readPieces core c own s clk ps with
    | .error e => .error e
    | .ok r => if r.2.1 = clk then .ok r else readAtOnce core c own ps fuel r.1 r.2.1

/-- A unit's global source of pieces, at one logical time at or after the command's clock. -/
def unitRead (core : Nat) (s : State) (c : CopyCmd) (ps : List (Nat × Nat)) (own : Option Nat := none) :
    Except UnitStop (State × Word × List Nat) := readAtOnce core c own ps 6 s c.eclk

/-- The SIZE of a unit's seal record (R291), whose 3 bits hold log2 of 1 to 8 bytes, or 7. DESIGN CHOICE (log 84): a unit of more than 8
bytes has the 7 of a line. -/
def unitSize (n : Nat) : Nat := if n ≤ 8 then log2Size n else 7

/-- The undo log's account of a unit's write (R290, R291). -/
def unitInfo (s : State) (core : Nat) (c : CopyCmd) (l : Leaf) (va n : Nat) : UlogInfo :=
  let step := match group s c.gid with | some g => stepNo s g | none => 0
  let base : UlogInfo := { va := va - va % 128, type := 2, core := core, slot := c.gid % 2048 % 1024, step := step,
                           flags := 4 + (if placeOf l = .untracked then 8 else 0) }
  match sealCode (placeOf l) with
  | some k => { base with va := va, type := 3, old := k, size := unitSize n }
  | none => { base with line := (wordsOf 32 (readBytes s.mm.mem (l.pa - l.pa % 128) 128)).map (·.toNat), size := 7 }

/-- A write of a unit in place: in the MMIO window word by word (R313), elsewhere whole. -/
def engineStore (s : State) (w : Who) (l : Leaf) (n x : Nat) : State × Word :=
  if placeOf l = .mmio then
    ((List.range (n / 4)).foldl (fun s i => (farStore s w { l with pa := l.pa + 4 * i } 4 (x / 2 ^ (32 * i) % 2 ^ 32)).1) s,
     w.clk)
  else plainStore s w l n x

/-- The sub-cause of R185 of a record that the undo log refuses (R292), or that memory does (log 82). -/
def logSub (f : Nat × Nat) : Nat := if f.1 = 17 then 18 else 15

/-- A write of a unit to memory: `f` gives, from the bytes that stood there, the bytes and what goes with them. A
REDSTORE reads what it combines with, and its destination lies in this device's memory (R183). -/
def unitWrite (core : Nat) (s : State) (c : CopyCmd) (va n : Nat) (f : Nat → Nat × DWord) : UnitStep :=
  let red := c.op == 7
  match engineAddr s (cpyWho s core c) va { r := red, w := true } with
  | (s, .error e) => (xlateStop s e va).step
  | (s, .ok l) =>
    if red ∧ !inDevice l then .fault s 16 false va
    else if groupWaits s l true then .wait
    else
      let s := notePeer s c l
      match (if inDevice l then memFault s l.pa l.via else none) with
      | some f => .fault (noteFault s c.ctx l.pa f) 15 false va
      | none =>
        let w := cpyWho s core c
        let s := readyLine s w l
        if red ∧ (badAt s l.pa n).isSome then .fault s 15 false va
        else
          let x := f (if inDevice l then readBytes s.mm.mem l.pa n else 0)
          match logged s c.ctx (unitInfo s core c l va n) (fun s => engineStore s w l n x.1) with
          | (s, .error f) => .fault s (logSub f) false va
          | (s, .ok t) => .ok s { c with eclk := ltMax c.eclk t, gen := x.2 }

/-- The time that a write of a command will take on a line that is ready for it (R139, R155, R160). -/
def timeAhead (s : State) (w : Who) (l : Leaf) : Word :=
  let line := l.pa / 128
  match placeOf l with
  | .tracked => trackedTime s w line
  | .direct =>
    if (l2Line s line).isSome then ltMax w.clk ((lineOf s line).rts + 1) else ltMax w.clk (clamp s (slice s (homeSlice line)).evts + 1)
  | _ => ltMax w.clk ((lineOf s line).rts + 1)

/-- The state with a unit's destination in device memory ready to be written, the line, and the time at which it will be (R139): none
elsewhere, and where the write will not be made. -/
def writeTime (core : Nat) (s : State) (c : CopyCmd) (va : Nat) : Option (State × Nat × Word) :=
  let w := cpyWho s core c
  match engineAddr s w va { w := true } with
  | (s, .ok l) =>
    if !inDevice l ∨ groupWaits s l true ∨ (memFault s l.pa l.via).isSome then none
    else
      let s := readyLine s w l
      some (s, l.pa / 128, timeAhead s w l)
  | _ => none

/-- An element combined by REDSTORE, as the atomic of the same name (R176, R177, R183). -/
def redElement (rop rm : Nat) (gen : DWord) (old x : Nat) : Nat × DWord :=
  let f : AtomFn :=
    match rop with
    | 0 => atomAddFloat
    | 1 => atomInt (atomSum 4)
    | 2 => atomPick false
    | 3 => atomPick true
    | 4 => atomAddPair
    | 5 => atomInt (atomMinS 4)
    | _ => atomInt (atomMaxS 4)
  let r := f rm gen old x 0
  (r.1.getD old, r.2)

/-- The elements of a unit of REDSTORE, in ascending order. -/
def redUnit (rop rm : Nat) : Nat → DWord → Nat → Nat → Nat × DWord
  | 0, gen, _, _ => (0, gen)
  | n + 1, gen, old, x =>
    let e := redElement rop rm gen (old % 2 ^ 32) (x % 2 ^ 32)
    let r := redUnit rop rm n e.2 (old / 2 ^ 32) (x / 2 ^ 32)
    (e.1 + 2 ^ 32 * r.1, r.2)

/-- `n` bytes of a pattern from byte `j` of a row on: byte j is byte j mod 4 of the pattern (R183). -/
def fillBytes (pat j : Nat) : Nat → Nat
  | 0 => 0
  | n + 1 => pat / 256 ^ (j % 4) % 256 + 256 * fillBytes pat (j + 1) n

/-- The index word of row i, read when the row begins (R183): the command that holds it, or a poisoned offset. -/
def rowIndex (s : State) (c : CopyCmd) (i : Nat) : Except Nat (CopyCmd × Nat) :=
  let k := block s c.blk
  let o := cpyAux21 c.desc + 4 * i
  if c.op ≠ 2 ∧ c.op ≠ 3 then .ok (c, 0)
  else
    match c.idx with
    | some (r, x) => if r = i then .ok (c, x) else fresh k o
    | none => fresh k o
where
  /-- The word as it stands. -/
  fresh (k : Block) (o : Nat) : Except Nat (CopyCmd × Nat) :=
    if (scrBadAt k o 4).isSome then .error o
    else .ok ({ c with idx := some (i, scrRead k o 4) }, scrRead k o 4)

/-- A block's scratch written by its copy engine. Its matrix commands on these bytes are ordered after the write (R127),
so that none of them reads what a store had replaced there. -/
def engineScrWrite (core : Nat) (s : State) (b o n x : Nat) : State :=
  let s :=
    if (Machine.core s core).mmaq.any (fun m => m.blk == b && !m.olds.isEmpty) then
      modCore s core fun k => { k with mmaq := k.mmaq.map fun m =>
        if m.blk == b then { m with olds := m.olds.filter fun p => !(o ≤ p.1 && p.1 < o + n) } else m }
    else s
  modBlock s b fun k => scrWrite k o n x

/-- The bytes of a unit go to their destination (R183). -/
def unitPut (core : Nat) (s : State) (c : CopyCmd) (scr : Bool) (o n x : Nat) : UnitStep :=
  if scr then .ok (engineScrWrite core s c.blk o n x) c
  else
    unitWrite core s c o n fun old => if c.op = 7 then redUnit (cpyRop c.desc) c.rm (n / 4) c.gen old x else (x, c.gen)

/-- Piece `j` of row `i` (R183). Of REMOTE with a destination in device memory the source is read at the time that the write takes there, so
that the unit is at one logical time; an untracked or a direct destination, whose time is its line's rts + 1 (R160), can only be
written earlier than a source that its line's time has outrun. -/
def rowUnit (core : Nat) (s : State) (c : CopyCmd) (ix i j : Nat) : UnitStep :=
  let d := c.desc
  let dst := rowDest c.op c.flags d ix i
  let p := piece dst.2 (cpyRowb d) j
  match rowSrc c.op d c.ext ix i with
  | .fill => unitPut core s c dst.1 (dst.2 + p.1) p.2 (fillBytes (cpyAux d) p.1 p.2)
  | .scr o =>
    let k := block s c.blk
    if (scrBadAt k (o + p.1) p.2).isSome then .fault s 15 true (o + p.1)
    else unitPut core s c dst.1 (dst.2 + p.1) p.2 (scrRead k (o + p.1) p.2)
  | .glob va =>
    let put := fun (r : State × Word × List Nat) =>
      unitPut core r.1 { c with eclk := r.2.1 } dst.1 (dst.2 + p.1) p.2 (r.2.2.headD 0)
    match (if dst.1 then none else writeTime core s c (dst.2 + p.1)) with
    | none =>
      match unitRead core s c [(va + p.1, p.2)] with
      | .error e => e.step
      | .ok r => put r
    | some (t, line, clk) =>
      match unitRead core t { c with eclk := clk } [(va + p.1, p.2)] (some line) with
      | .error e => e.step
      | .ok r => put r

/-- The elements of a number of `n` elements of `z` bytes. -/
def splitElems (z : Nat) : Nat → Nat → List Nat
  | 0, _ => []
  | n + 1, x => x % 2 ^ (8 * z) :: splitElems z n (x / 2 ^ (8 * z))

/-- A block of a row written in the plane-tile layout (R119, R184). -/
def putBlock (core : Nat) (s : State) (c : CopyCmd) (r b : Nat) (x : KxBlock) : State :=
  let d := c.desc
  let m := cpyRows d
  let p := cpyPm1 d + 1
  let s := (List.range (p + 1)).foldl
    (fun s j => engineScrWrite core s c.blk (cpySoff d + ((b * (1 + p) + j) * m + r) * 2) 2 (kxPlane x j)) s
  engineScrWrite core s c.blk (cpyAux21 d + (b * m + r) * 4) 4 (kxRecord x)

/-- A unit of PACKLOAD (R184): block `b` of row `r`. -/
def packUnit (core : Nat) (s : State) (c : CopyCmd) (r b : Nat) : UnitStep :=
  let d := c.desc
  let p := cpyPm1 d + 1
  let row := cpyGa d + r * cpyPitch d
  if cpyFsel d = 6 then
    let n := 2 * (p + 1)
    match unitRead core s c [(row + n * b, n), (cpyX c.ext + (r * cpyRowb d + b) * 4, 4)] with
    | .error e => e.step
    | .ok x => .ok (putBlock core x.1 c r b (kxOfPacked p (x.2.2.getD 0 0) (x.2.2.getD 1 0))) { c with eclk := x.2.1 }
  else
    let z := packSize (cpyFsel d)
    match unitRead core s c [(row + 16 * b * z, 16 * z)] with
    | .error e => e.step
    | .ok x =>
      let k := roundKx ((splitElems z 16 (x.2.2.headD 0)).map (fval (packFmt (cpyFsel d)))) p c.rm c.gen
      .ok (putBlock core x.1 c r b k.blk) { c with eclk := x.2.1, gen := k.gen }

/-- The first unit of SCATTER whose number is at least NEXT: its row, its piece and the command with the row's index; and
the next one's number after it. -/
def scatterUnit (s : State) (c : CopyCmd) : Except Nat (CopyCmd × Nat × Nat × Nat) :=
  let v := scatterV c.desc
  let at_ := fun (i j : Nat) =>
    match rowIndex s c i with
    | .error o => (.error o : Except Nat (CopyCmd × Nat × Nat × Nat × Bool))
    | .ok (c, ix) =>
      let n := pieces (rowDest c.op c.flags c.desc ix i).2 (cpyRowb c.desc)
      .ok (c, ix, i, j, j < n)
  match at_ (c.next / v) (c.next % v) with
  | .error o => .error o
  | .ok (d, ix, i, j, true) => .ok (d, ix, i, j)
  | .ok (d, _, i, _, false) =>
    match rowIndex s d (i + 1) with
    | .error o => .error o
    | .ok (d, ix) => .ok (d, ix, i + 1, 0)

/-- The number of the next unit of SCATTER after piece `j` of row `i`. -/
def scatterNext (c : CopyCmd) (ix i j : Nat) : Nat :=
  if j + 1 < pieces (rowDest c.op c.flags c.desc ix i).2 (cpyRowb c.desc) then i * scatterV c.desc + j + 1
  else (i + 1) * scatterV c.desc

/-- A command's units are all performed; a SCATTER whose NEXT is a skipped number of its last row has none left. -/
def unitsDone (s : State) (c : CopyCmd) : Bool :=
  unitCount c.op c.flags c.desc ≤ c.next ||
    (c.op == 3 && c.next / scatterV c.desc + 1 == cpyRows c.desc &&
      match rowIndex s c (c.next / scatterV c.desc) with
      | .ok (c, ix) =>
        pieces (rowDest c.op c.flags c.desc ix (c.next / scatterV c.desc)).2 (cpyRowb c.desc) ≤ c.next % scatterV c.desc
      | .error _ => false)

/-- Unit NEXT of a command (R183, R184). -/
def performUnit (core : Nat) (s : State) (c : CopyCmd) : UnitStep :=
  let step := fun (n : Nat) (r : UnitStep) =>
    match r with
    | .ok s c => .ok s { c with next := n }
    | x => x
  if c.op = 4 then step (c.next + 1) (packUnit core s c (c.next / cpyRowb c.desc) (c.next % cpyRowb c.desc))
  else if c.op = 3 then
    match scatterUnit s c with
    | .error o => .fault s 15 true o
    | .ok (c, ix, i, j) => step (scatterNext c ix i j) (rowUnit core s c ix i j)
  else
    let (i, j) := locateUnit c.op c.flags c.desc (cpyRows c.desc) 0 c.next
    match rowIndex s c i with
    | .error o => .fault s 15 true o
    | .ok (c, ix) => step (c.next + 1) (rowUnit core s c ix i j)

/-! ## The queue, parking and withdrawing (R127, R187 to R189, R284) -/

/-- A restart record (R189). -/
def restartRecord (c : CopyCmd) (park : Bool) : List Word :=
  let e := fun k => c.ext.getD k 0
  c.desc.take 8 ++
    [e 0, e 1, BitVec.ofNat 32 (c.rm * 2 ^ 29 + c.next % 2 ^ 29),
     BitVec.ofNat 32 (2 ^ 31 + (if park then 2 ^ 30 else 0) + c.op * 2 ^ 26 + c.w * 2 ^ 22 +
       (c.flags - (if flagResume c.flags then 2 else 0)) * 2 ^ 14 + (if park then c.sub * 2 ^ 9 else 0) + c.grpib)] ++
    (if park then [c.faddr.setWidth 32, BitVec.ofNat 32 (c.faddr.toNat / 2 ^ 32 % 2 ^ 26)] else [0, 0]) ++
    (if c.rm = 5 then [c.gen.setWidth 32, BitVec.ofNat 32 (c.gen.toNat / 2 ^ 32)] else [0, 0])

/-- The command at the head of a core's copy queue changed. -/
def modHeadCpy (s : State) (core : Nat) (f : CopyCmd → CopyCmd) : State :=
  modCore s core fun k => { k with cpyq := match k.cpyq with | [] => [] | c :: cs => f c :: cs }

/-- The head command parks (R187): its restart record goes to the supervisor's fault queue and the engine goes on. -/
def parkCopy (s : State) (core : Nat) (c : CopyCmd) (sub : Nat) (scr : Bool) (at_ : Nat) : State :=
  let c := { c with started := false, sub := sub, scr := scr, faddr := BitVec.ofNat 64 at_, idx := none, ring := none }
  let s := modCore s core fun k => { k with cpyq := k.cpyq.tail, parkedCpy := k.parkedCpy ++ [c] }
  let r : FaultRec := { words := restartRecord c true, gid := c.gid, posted := false, frees := true, cmd := some c.stamp }
  kickEngines (queueRecord s core r) core

/-- An earlier command of the block that conflicts with a command is incomplete (R127). -/
def copyBlocked (s : State) (core : Nat) (c : CopyCmd) : Bool :=
  let k := Machine.core s core
  let rs := cpyRanges c.op c.flags c.desc
  (k.cpyq ++ k.parkedCpy).any (fun e =>
    e.blk == c.blk && e.stamp < c.stamp && conflicts rs (cpyRanges e.op e.flags e.desc)) ||
  k.mmaq.any (fun m => m.blk == c.blk && m.stamp < c.stamp && conflicts rs (mmaRanges m.desc))

/-- A resolved command takes its place in the queue, in the order of issue, behind one that has begun. -/
def enqueueCpy (c : CopyCmd) : List CopyCmd → List CopyCmd
  | [] => [c]
  | x :: xs => if x.started || x.stamp < c.stamp then x :: enqueueCpy c xs else c :: x :: xs

/-- The parked command whose record was posted at a ring index (R284). -/
def parkedAt (s : State) (core idx : Nat) : Option CopyCmd :=
  (Machine.core s core).parkedCpy.find? fun c => c.ring.any fun i => i % 2 ^ 16 == idx % 2 ^ 16

/-- A parked command leaves the parked set; ERR says whether the last write named one (R284). -/
def takeParked (s : State) (core : Nat) (c : CopyCmd) : State :=
  modCore s core fun k => { k with parkedCpy := k.parkedCpy.filter (·.stamp != c.stamp), cpyErr := false }

/-- A write of CPYCTL that names no parked copy (R284). -/
def cpyctlError (s : State) (core : Nat) : State := modCore s core fun k => { k with cpyErr := true }

end

end Sys2Proof.Machine
end

