-- ==== Sys2Proof/Machine/Immediate.lean ====
section
/-! DEFINITION. Immediate, literal and constant-bank operands (R87 to R90): VI20, VFL and VVK. -/

namespace Sys2Proof.Machine

noncomputable section

/-- The value of an f20 field (R87). -/
def f20 (i : BitVec 20) : Word := BitVec.ofNat 32 (i.toNat * 2 ^ 12)

/-- The value of an s20 field (R87). -/
def s20 (i : BitVec 20) : Word := i.signExtend 32

/-! ## VI20 (R87) -/

/-- FADDI (R87): vd + f. -/
def execFaddi (d : BitVec 6) (i : BitVec 20) (s : State) : Out :=
  .next (vector2 none d d (.w (f20 i)) 0 (float2 none fAdd) s)

/-- FMULI (R87): vd × f. -/
def execFmuli (d : BitVec 6) (i : BitVec 20) (s : State) : Out :=
  .next (vector2 none d d (.w (f20 i)) 0 (float2 none fun _ => fMul) s)

/-- FMOVI (R87): f, as bits. -/
def execFmovi (d : BitVec 6) (i : BitVec 20) (s : State) : Out :=
  .next (vectorB none d (.w (f20 i)) 0 plain s)

/-- IADDI (R87): vd + i, wrapping. -/
def execIaddi (d : BitVec 6) (i : BitVec 20) (s : State) : Out :=
  .next (vector2 none d d (.w (s20 i)) 0 (int2 (· + ·)) s)

/-- IMOVI (R87): i. -/
def execImovi (d : BitVec 6) (i : BitVec 20) (s : State) : Out :=
  .next (vectorB none d (.w (s20 i)) 0 plain s)

/-! ## VFL (R88) -/

/-- FADD.L (R88): a + L. -/
def execFaddL (p : Option Prefix) (d a : BitVec 6) (lit : Word) (s : State) : Out :=
  .next (vector2 p d a (.w lit) 1 (float2 p fAdd) s)

/-- FMUL.L (R88): a × L. -/
def execFmulL (p : Option Prefix) (d a : BitVec 6) (lit : Word) (s : State) : Out :=
  .next (vector2 p d a (.w lit) 1 (float2 p fun _ => fMul) s)

/-- FFMA.L (R88): a × b + L, one rounding. -/
def execFfmaL (p : Option Prefix) (d a b : BitVec 6) (lit : Word) (s : State) : Out :=
  .next (vector2 p d a (.v b) 1 (fun g x y => float3 p fusedAdd g x y lit) s)

/-- FMOV.L (R88): L, as bits. -/
def execFmovL (p : Option Prefix) (d : BitVec 6) (lit : Word) (s : State) : Out :=
  .next (vectorB p d (.w lit) 1 plain s)

/-- IADD.L (R88): a + L, wrapping. -/
def execIaddL (p : Option Prefix) (d a : BitVec 6) (lit : Word) (s : State) : Out :=
  .next (vector2 p d a (.w lit) 1 (int2 (· + ·)) s)

/-- IMOV.L (R88): L. -/
def execImovL (p : Option Prefix) (d : BitVec 6) (lit : Word) (s : State) : Out :=
  .next (vectorB p d (.w lit) 1 plain s)

/-- AND.L (R88): a & L. -/
def execAndL (p : Option Prefix) (d a : BitVec 6) (lit : Word) (s : State) : Out :=
  .next (vector2 p d a (.w lit) 1 (int2 (· &&& ·)) s)

/-- FMIN.L (R88): minimumNumber(a, L). -/
def execFminL (p : Option Prefix) (d a : BitVec 6) (lit : Word) (s : State) : Out :=
  .next (vector2 p d a (.w lit) 1 (pick32 false) s)

/-- FMAX.L (R88): maximumNumber(a, L). -/
def execFmaxL (p : Option Prefix) (d a : BitVec 6) (lit : Word) (s : State) : Out :=
  .next (vector2 p d a (.w lit) 1 (pick32 true) s)

/-! ## VVK (R89, R90) -/

/-- The base and the size of a constant bank, if the launch binds it (R90): none for a supervisor group. -/
def bankOf (s : State) (k : Nat) : Option (Nat × Nat) :=
  if s.cur.sup then none
  else match mfind s.blocks s.cur.blk with
  | none => none
  | some b => (mfind s.cp.tasks b.task).bind fun t => mfind t.banks k

/-- The name of a line in a core's constant cache: the launch of the group that reads it, its place and its line number (R90, R319). -/
def bankKey (s : State) (g : Group) (l : Leaf) : Nat := leafKey l + 2 ^ 62 * (block s g.blk).task

/-- The word of a constant bank reaches the instruction: 0 beyond the bank's size or for a bank not bound; a fault, or poison in the line
that the cache holds (R295), traps before any thread; a miss waits for its line (R90, R319). Of a line that a store has changed since it
was fetched, either content comes (R90). -/
def withBank (k : BitVec 4) (f : BitVec 9) (body : Word → State → State) (s : State) : State :=
  match bankOf s k.toNat with
  | none => body 0 s
  | some (base, size) =>
    if size ≤ 4 * f.toNat then body 0 s
    else
      let va := base + 4 * f.toNat
      walkedAt 4 { r := true } (fun _ => va) (fun s =>
        match address s (whoOf s s.cur) va 4 { r := true } with
        | (s, .error f) => trapAt f.1 f.2 accLoad false va s
        | (s, .ok l) =>
          match mfind (core s s.cur.core).ccache (bankKey s s.cur l) with
          | none =>
            match lineFault s l with
            | some f => trapAt f.1 f.2 accLoad false va (noteFault s s.cur.ctx l.pa f)
            | none => pend (stallOn 9 false s) (.constantLineFill (gidOf s.cur) va)
          | some old =>
            match wordOf (oldOrNew s (bankKey s s.cur l) old (lineBytes s l)) l.pa with
            | .error n => trapAt 13 n accLoad false va s
            | .ok x => body x s) s

/-- A constant-bank form: the word is read at issue, once an earlier GST has been performed (R110), then the pass runs. -/
def bankOp (d : BitVec 6) (vr : List Nat) (k : BitVec 4) (f : BitVec 9) (op : Word → Group → Nat → Eff) (s : State) :
    State :=
  withUses { vr := vr, vw := [d.toNat] }
    (afterGst (withBank k f fun x => vectorPass 1 0 false d.toNat vr (op x))) s

/-- FFMA.K (R89): vd × va + K, one rounding. -/
def execFfmaK (d a : BitVec 6) (k : BitVec 4) (f : BitVec 9) (s : State) : Out :=
  .next (bankOp d [d.toNat, a.toNat] k f (fun x g t => float3 none fusedAdd g (vget g d.toNat t) (vget g a.toNat t) x) s)

/-- FADD.K (R89): va + K. -/
def execFaddK (d a : BitVec 6) (k : BitVec 4) (f : BitVec 9) (s : State) : Out :=
  .next (bankOp d [a.toNat] k f (fun x g t => float2 none fAdd g (vget g a.toNat t) x) s)

/-- FMUL.K (R89): va × K. -/
def execFmulK (d a : BitVec 6) (k : BitVec 4) (f : BitVec 9) (s : State) : Out :=
  .next (bankOp d [a.toNat] k f (fun x g t => float2 none (fun _ => fMul) g (vget g a.toNat t) x) s)

/-- IADD.K (R89): va + K, wrapping. -/
def execIaddK (d a : BitVec 6) (k : BitVec 4) (f : BitVec 9) (s : State) : Out :=
  .next (bankOp d [a.toNat] k f (fun x g t => plain g (vget g a.toNat t + x)) s)

/-- MOV.K (R89): K. -/
def execMovK (d : BitVec 6) (k : BitVec 4) (f : BitVec 9) (s : State) : Out :=
  .next (bankOp d [] k f (fun x g _ => plain g x) s)

end

end Sys2Proof.Machine
end

