-- ==== Sys2Proof/Machine/Matrix.lean ====
section
/-! DEFINITION. The matrix engine (R118 to R136): MMA and its commands, the accumulator instructions, PKPL. -/

namespace Sys2Proof.Machine

noncomputable section

/-! ## The checks of an MMA (R119, R120, R123) -/

/-- What K-block `kb` reads of the four ranges. -/
def mmaBlockRanges (d : List Word) (kb : Nat) : List Range :=
  [{ lo := dword d 0 + kb * (1 + mmaPa d) * mmaM d * 2, len := (1 + mmaPa d) * mmaM d * 2, wr := false },
   { lo := dword d 1 + kb * mmaM d * 4, len := mmaM d * 4, wr := false },
   { lo := dword d 2 + kb * (1 + mmaPb d) * mmaN d * 2, len := (1 + mmaPb d) * mmaN d * 2, wr := false },
   { lo := dword d 3 + kb * mmaN d * 4, len := mmaN d * 4, wr := false }]

/-- A legal extent: 16 to 128 in steps of 16 (R122). -/
def extentOk (x : Nat) : Bool := 16 ≤ x && x ≤ 128 && x % 16 == 0

/-- The checks of R123 in order: the sub-cause, whether it names a scratch offset, and the offset. DESIGN CHOICE (log 73): of several that
fail the first of R123's table is reported, and of several ranges the first of R120's. -/
def mmaCheck (s : State) (d : List Word) (resume : Bool) : Option (Nat × Bool × Option Nat) :=
  let g := s.cur
  let rs := mmaRanges d
  if !extentOk (mmaM d) || !extentOk (mmaN d) || mmaKb d == 0 || mmaPa d == 1 || mmaPb d == 1 || dbits d 5 9 23 != 0 ||
      (if resume then mmaKb d ≤ dword d 6 else dword d 6 != 0) || dword d 7 != 0 then some (1, false, none)
  else
    match (rs.zip [32, 64, 32, 64]).find? (fun r => r.1.lo % r.2 != 0) with
    | some r => some (2, true, some r.1.lo)
    | none =>
      match rs.findSome? (rangeBeyond (scrSizeOf s g)) with
      | some o => some (3, true, some o)
      | none => (rs.findSome? (rangeAway s g)).map fun o => (4, true, some o)

/-! ## Tiles and headers (R128, R134) -/

/-- A tile of a block on a core, and the names of its elements and header words. -/
def tileKey (c z : Nat) : Nat := c * 8 + z
def elemKey (c z e : Nat) : Nat := tileKey c z * 16384 + e
def hdrKey (c z i : Nat) : Nat := tileKey c z * 16 + i

/-- An element of a tile. -/
def tileAt (k : Block) (c z e : Nat) : Word := mget 0 k.tiles (elemKey c z e)

/-- An element of a tile written: it is no longer bad (R295). -/
def tilePut (k : Block) (c z e : Nat) (x : Word) : Block :=
  { k with tiles := mput 0 k.tiles (elemKey c z e) x, tileBad := k.tileBad.filter (· != elemKey c z e) }

/-- A word of a tile's restart header. -/
def hdrAt (k : Block) (c z i : Nat) : Word := mget 0 k.hdrs (hdrKey c z i)

/-- Eight words of a slot of a restart header written. -/
def hdrPut (k : Block) (c z slot : Nat) (ws : List Word) : Block :=
  { k with hdrs := (List.range 8).foldl (fun m i => mput 0 m (hdrKey c z (8 * slot + i)) (ws.getD i 0)) k.hdrs }

/-- The eight words of a slot. -/
def hdrSlot (k : Block) (c z slot : Nat) : List Word := (List.range 8).map fun i => hdrAt k c z (8 * slot + i)

/-- The slot holds a stopped command. -/
def hdrValid (k : Block) (c z slot : Nat) : Bool := (hdrAt k c z (8 * slot + 6)).getLsbD 31

/-- The words that record a stopped command (R134). -/
def hdrWords (m : MmaCmd) (sub next : Nat) : List Word :=
  m.desc.take 6 ++ [BitVec.ofNat 32 (2 ^ 31 + m.w * 2 ^ 24 + sub * 2 ^ 16 + next), BitVec.ofNat 32 m.grpib]

/-- When the command recorded in a slot first issued; of those that a restore brought back, slot 0's is the older (R134). -/
def hdrAgeAt (k : Block) (c z slot : Nat) : Nat := mget slot k.hdrAge (tileKey c z * 2 + slot)

/-- A slot of a restart header written, with the age of its command. -/
def hdrRecord (k : Block) (c z slot age : Nat) (ws : List Word) : Block :=
  { hdrPut k c z slot ws with hdrAge := mset k.hdrAge (tileKey c z * 2 + slot) age }

/-- A stopped command is recorded in its tile's header: slot 0 holds the older one (R134). -/
def recordMma (k : Block) (c : Nat) (m : MmaCmd) (sub next : Nat) : Block :=
  let ws := hdrWords m sub next
  if !hdrValid k c m.tile 0 then hdrRecord k c m.tile 0 m.age ws
  else if m.age < hdrAgeAt k c m.tile 0 then
    hdrRecord (hdrRecord k c m.tile 1 (hdrAgeAt k c m.tile 0) (hdrSlot k c m.tile 0)) c m.tile 0 m.age ws
  else hdrRecord k c m.tile 1 m.age ws

/-- Slot 0 of a header holds the command that a group restarts from a K-block. -/
def restarts (k : Block) (c z grpib next : Nat) : Bool :=
  let w := hdrSlot k c z 0
  hdrValid k c z 0 && (w.getD 7 0).toNat == grpib && (w.getD 6 0).toNat % 2 ^ 16 == next

/-- A command that a group restarts stands in the header no longer (R134, R135): the other slot moves up. -/
def unrecordMma (k : Block) (c z grpib next : Nat) : Block :=
  if restarts k c z grpib next then hdrPut (hdrRecord k c z 0 (hdrAgeAt k c z 1) (hdrSlot k c z 1)) c z 1 [] else k

/-! ## Running K-blocks (R119, R124, R125) -/

/-- `n` bytes of scratch as a command reads them: a word that a store not ordered before the command has replaced is
read old or new (R125). -/
def mmaRead (s : State) (k : Block) (m : MmaCmd) (o n : Nat) : Nat :=
  let old := fun i => mget (scrByte k (o + i)) m.olds (o + i)
  if Config.oldWord s.turn o then
    ((List.range n).map fun i => (old i).toNat * 256 ^ i).foldl (· + ·) 0
  else scrRead k o n

/-- The block of an operand of `rows` rows and precision `p` at K-block `kb` and row `r` (R119). -/
def mmaBlock (s : State) (k : Block) (m : MmaCmd) (planes scales rows p kb r : Nat) : KxBlock :=
  kxOfPlanes ((List.range (p + 1)).map fun j => mmaRead s k m (planes + ((kb * (1 + p) + j) * rows + r) * 2) 2)
    (mmaRead s k m (scales + (kb * rows + r) * 4) 4)

/-- One K-block of a command on its tile (R124). -/
def runKBlock (s : State) (c : Nat) (m : MmaCmd) (k : Block) (kb : Nat) : Block :=
  let d := m.desc
  let as := (List.range (mmaM d)).map (mmaBlock s k m (dword d 0) (dword d 1) (mmaM d) (mmaPa d) kb)
  let bs := (List.range (mmaN d)).map (mmaBlock s k m (dword d 2) (dword d 3) (mmaN d) (mmaPb d) kb)
  as.zipIdx.foldl (fun k a =>
    bs.zipIdx.foldl (fun k b =>
      let e := a.2 * 128 + b.2
      let acc := if kb = 0 ∧ mmaZa d then 0 else (tileAt k c m.tile e).toNat
      tilePut k c m.tile e (BitVec.ofNat 32 (kxAccumulate (mmaPa d) (mmaPb d) a.1 b.1 acc))) k) k

/-- The first bad scratch word that K-block `kb` reads, or the first bad element: the sub-cause and the offset or index
(R123, R133). DESIGN CHOICE (log 74): scratch comes first, by range and then by offset. -/
def mmaPoison (k : Block) (c : Nat) (m : MmaCmd) (kb : Nat) : Option (Nat × Nat) :=
  let d := m.desc
  let bad := fun (r : Range) =>
    ((k.scrBad.filter fun i => 8 * i < r.lo + r.len && r.lo < 8 * i + 8).map fun i => max r.lo (8 * i)).min?
  match (mmaBlockRanges d kb).findSome? bad with
  | some o => some (6, o)
  | none =>
    if kb = 0 ∧ mmaZa d then none
    else
      let mine := k.tileBad.filter fun e =>
        e / 16384 == tileKey c m.tile && e % 16384 / 128 < mmaM d && e % 128 < mmaN d
      (mine.map (· % 16384)).min?.map fun e => (7, e)

/-- K-blocks from `kb` on, until `n` are done or one would read what `stop` names: the block, the next K-block, and the
reason it stopped. -/
def runKBlocks (s : State) (c : Nat) (m : MmaCmd) (stop : Block → Nat → Option (Nat × Nat)) :
    Nat → Nat → Block → Block × Nat × Option (Nat × Nat)
  | 0, kb, k => (k, kb, none)
  | n + 1, kb, k =>
    match stop k kb with
    | some x => (k, kb, some x)
    | none => runKBlocks s c m stop n (kb + 1) (runKBlock s c m k kb)

/-! ## The queue (R126, R133) -/

/-- The sub-arrays that a command needs (R118). -/
def subArrays (d : List Word) : List Nat :=
  (List.range 16).filter fun i => i / 4 * 32 < mmaM d && i % 4 * 32 < mmaN d

/-- The matrix commands of a core without one. If it was in its array phase, the sub-arrays that it used are idle from now on, under
MXIDLE as it stands (R137). -/
def dropMma (s : State) (c stamp : Nat) : State :=
  modCore s c fun q =>
    let used := (q.mmaq.filter fun m => m.stamp == stamp && m.started).flatMap fun m => subArrays m.desc
    { q with mmaq := q.mmaq.filter (·.stamp != stamp), idleLim := used.foldl (fun l i => mset l i q.mxidle) q.idleLim }

/-- A command is recorded in its header and withdrawn from its counter (R133). -/
def withdrawMma (s : State) (c : Nat) (m : MmaCmd) (sub next : Nat) : State :=
  arriveCommand (dropMma (modBlock s m.blk fun k => recordMma k c m sub next) c m.stamp) m.gid m.opId m.w none

/-- A command that met poison is stopped and its group traps at its next boundary (R133). -/
def faultMma (s : State) (c : Nat) (m : MmaCmd) (x : Nat × Nat) (next : Nat) : State :=
  dueTrap (withdrawMma s c m x.1 next) m.gid { cause := 12, sub := x.1, scr := true, faddr := BitVec.ofNat 64 x.2 }

/-- The head command in its array phase runs `n` more K-blocks; then it completes, is stopped, or has met poison. -/
def advanceMma (s : State) (c : Nat) (m : MmaCmd) (n : Nat) (stop : Block → Nat → Option (Nat × Nat))
    (done : Nat → State → State) : State :=
  let r := runKBlocks s c m stop n m.next (block s m.blk)
  let s := modBlock s m.blk fun _ => r.1
  match r.2.2 with
  | some x => faultMma s c m x r.2.1
  | none => done r.2.1 s

/-- An MMA of the block and core on a tile is incomplete (R130). -/
def tileBusy (s : State) (c b z : Nat) : Bool := (core s c).mmaq.any fun m => m.blk == b && m.tile == z

/-! ## MMA (R121 to R126) -/

/-- MMA (R121, R123): issues one command for the group. DESIGN CHOICE (log 75): a command in its array phase holds its entry of the queue of
32 until it leaves it. -/
def execMma (t : BitVec 3) (b : BitVec 6) (w : BitVec 4) (r : Bool) (s : State) : Out :=
  .next (withUses { gr := blockOf b, tile := some t.toNat } (afterGst (outsideRegion fun s =>
    let g := s.cur
    let q := (core s g.core).mmaq
    let d := (blockOf b).map (gget g)
    if 255 ≤ wget g w.toNat then stallOn 5 true s
    else if 32 ≤ q.length ∨ 2 ≤ (q.filter fun m => m.blk == g.blk && m.tile == t.toNat).length then stallOn 12 true s
    else
      match mmaCheck s d r with
      | some (sub, scr, o) => engineFault sub scr o s
      | none =>
        let next := if r then dword d 6 else 0
        let m : MmaCmd := { gid := gidOf g, opId := g.nextOp, blk := g.blk, grpib := g.grpib, w := w.toNat, tile := t.toNat,
                            desc := d, next := next, eclk := g.lclk, stamp := s.turn,
                            age := if r && restarts (block s g.blk) g.core t.toNat g.grpib next then
                                     hdrAgeAt (block s g.blk) g.core t.toNat 0 else s.turn }
        let s := if r then modBlock s g.blk fun k => unrecordMma k g.core t.toNat g.grpib next else s
        let s := issueOp s .mma (some w.toNat) [] [] g.lclk 0 0 false
        let s := modCore s g.core fun k => { k with mmaq := k.mmaq ++ [m] }
        pend (advance 1 s) (.mmaArrayStart g.core))) s)

/-! ## ACC (R128 to R130) -/

/-- The map of an accumulator address word (R128): none if it is broken. -/
def accWord (x : Word) (load : Bool) : Option (Bool × Nat) :=
  let h := x.getLsbD 15
  if x.toNat / 2 ^ 16 ≠ 0 ∨ x.toNat / 2 ^ 7 % 2 ^ 6 ≠ 0 then none
  else if h ∧ (!load ∨ x.toNat % 2 ^ 15 ≠ 0) then none
  else some (h, x.toNat % 128 * 128 + x.toNat / 2 ^ 13 % 4 * 32)

/-- The stall of an accumulator instruction on a busy tile (R130, R136): matrix-wake while the oldest MMA on it wakes its
sub-arrays, else dep. -/
def tileStall (s : State) (z : Nat) : Nat :=
  let k := core s s.cur.core
  let mine := fun (m : MmaCmd) => m.blk == s.cur.blk && m.tile == z
  let waking := match k.mmaq.find? (!·.started), k.mmaq.find? mine with
    | some m, some o => m.stamp == o.stamp && (subArrays m.desc).any k.gated.contains
    | _, _ => false
  if waking then 13 else 2

/-- An accumulator pass on a tile of a block and core is in progress (R130). -/
def tileInPass (s : State) (c b z : Nat) : Bool :=
  (allGroups s).any fun g => g.core == c && g.blk == b && g.mid.any fun m => m.1 == z

/-- How many of the `n` threads that remain of an accumulator pass take their slots before another group of the block on the core may take
one (R130): a free number, of which the last ends the pass; all of them where no other partition holds such a group. -/
def accSlots (s : State) (n : Nat) : Nat :=
  let g := s.cur
  if (allGroups s).any fun h => h.core == g.core && h.blk == g.blk && h.part != g.part && h.st != .retired && h.st != .swapped then
    1 + Config.pick (freeIx s 39) % n
  else n

/-- The pass of an accumulator instruction (R129): `f` on each active thread; a thread whose register or element is
poisoned traps, unless `reads` says the element is not read. -/
def accPass (srcs : List Nat) (ds : List Nat) (elem : Nat → Option Nat) (z : Nat) (f : State → Nat → State) :
    List Nat → State → State × Option PassTrap
  | [], s => (s, none)
  | t :: ts, s =>
    let g := s.cur
    let bad := (elem t).any fun e => (block s g.blk).tileBad.contains (elemKey g.core z e)
    if poisoned g srcs t || bad then
      if helper g t then accPass srcs ds elem z f ts (zeroAt ds t s)
      else (s, some (if poisoned g srcs t then poisonTrap g srcs t else { t := t, cause := 13, sub := Config.tileSub }))
    else accPass srcs ds elem z f ts (f s t)

/-- The slots of an accumulator pass from the thread it has come to (R130): the pass ends, traps, or goes on at the group's next turn. -/
def accSlice (z : Nat) (srcs ds : List Nat) (b : (Nat → Option Nat) × (State → Nat → State)) (s : State) : State :=
  let g := s.cur
  let act := activeMask g 0
  let from_ := (g.mid.map (·.2)).getD g.rix
  let ts := (threads act).filter (from_ ≤ ·)
  let k := accSlots s ts.length
  let r := accPass srcs ds b.1 z b.2 (ts.take k) s
  match r.2 with
  | some p =>
    kickEngines (takeTrap { cause := p.cause, sub := p.sub, rix := p.t, fba := g.pc, faddr := g.pc, amask := act }
      (modCur r.1 fun g => { g with mid := none })) g.core
  | none =>
    match ts.drop k with
    | [] => kickEngines (advance 1 r.1) g.core
    | t :: _ => modCur r.1 fun g => { g with mid := some (z, t) }

/-- An accumulator instruction (R129): the checks of R49, R128 and R130, then its pass. `body` gives, for the header flag
and the first element, the element that a thread reads, if it reads one, and its effect. A pass that has begun holds back later commands
on its tile, not they it. -/
def accOp (z : BitVec 3) (a : BitVec 9) (load : Bool) (srcs ds : List Nat)
    (body : Bool → Nat → (Nat → Option Nat) × (State → Nat → State)) (s : State) : State :=
  withUses { vr := srcs, vw := ds, gr := [a.toNat], tile := some z.toNat } (fun s =>
    let g := s.cur
    let x := gget g a.toNat
    if g.mid.isNone && !x.getLsbD 15 && tileBusy s g.core g.blk z.toNat then stallOn (tileStall s z.toNat) true s
    else
      match accWord x load with
      | none => engineFault 5 false none s
      | some (h, e) => accSlice z.toNat srcs ds (body h e) s) s

/-- An element of the current group's tile changed by thread `t`, whose store a helper suppresses (R9, R129). -/
def tileStore (z e : Nat) (x : State → Word) (s : State) (t : Nat) : State :=
  if helper s.cur t then s
  else
    let v := x s
    modBlock s s.cur.blk fun k => tilePut k s.cur.core z (e + t) v

/-- ACLD (R129): elements of a tile, or its restart header, into a vector register. -/
def execAcld (d : BitVec 6) (z : BitVec 3) (a : BitVec 9) (s : State) : Out :=
  .next (accOp z a true [] [d.toNat] (fun h e =>
    (fun t => if h then none else some (e + t),
     fun s t => modCur s fun g =>
      let k := block s g.blk
      vset g d.toNat t (if h then (if t < 16 then hdrAt k g.core z.toNat t else 0) else tileAt k g.core z.toNat (e + t)))) s)

/-- ACST (R129): a vector register into elements of a tile. -/
def execAcst (d : BitVec 6) (z : BitVec 3) (a : BitVec 9) (s : State) : Out :=
  .next (accOp z a false [d.toNat] [] (fun _ e =>
    (fun _ => none, fun s t => tileStore z.toNat e (fun s => vget s.cur d.toNat t) s t)) s)

/-- ACADD (R129): a vector register added to elements of a tile, rounded once to nearest even. -/
def execAcadd (d : BitVec 6) (z : BitVec 3) (a : BitVec 9) (s : State) : Out :=
  .next (accOp z a false [d.toNat] [] (fun _ e =>
    (fun t => some (e + t),
     fun s t => tileStore z.toNat e (fun s =>
      let old := (tileAt (block s s.cur.blk) s.cur.core z.toNat (e + t)).toNat
      let sum := (fAdd 0 (fval fp32 old) (fval fp32 (vget s.cur d.toNat t).toNat)).1
      BitVec.ofNat 32 (roundTo fp32 0 false sum 0).bits) s t)) s)

/-- ACZ (R129): elements of a tile := +0. -/
def execAcz (z : BitVec 3) (a : BitVec 9) (s : State) : Out :=
  .next (accOp z a false [] [] (fun _ e => (fun _ => none, fun s t => tileStore z.toNat e (fun _ => 0) s t)) s)

/-! ## PKPL (R131, R132) -/

/-- The value of thread `t` that PKPL packs: +0 for an inactive thread, and for a helper whose register is poisoned. -/
def pkplValue (g : Group) (f : Fmt) (v t : Nat) : FVal :=
  if (activeMask g 0).getLsbD t && !poisoned g [v] t then fval f ((vget g v t).toNat % 2 ^ (1 + f.eb + f.mb))
  else .fin false 0 0

/-- The writes of PKPL in order: offset, bytes, value (R131). The sums do not wrap: one at 2^32 or above lies beyond any
scratch size. -/
def pkplWrites (g : Group) (a p : Nat) (blocks : List KxBlock) : List (Nat × Nat × Nat) :=
  let r := fun k => (gget g (a + k)).toNat
  blocks.zipIdx.flatMap fun b =>
    (List.range (p + 1)).map (fun j => (r 0 + b.2 * r 3 + j * r 1, 2, kxPlane b.1 j)) ++
      [(r 2 + b.2 * 2 * r 1, 4, kxRecord b.1)]

/-- PKPL of a source format (R131): 32 values into two blocks of one row segment. DEDUCED (log 52): with no active thread it
packs 32 values of +0, as R131's pass says, and writes their planes and records. -/
def packPlanes (f : Fmt) (v : BitVec 6) (a : BitVec 9) (pm : BitVec 4) (s : State) : State :=
  let p := pm.toNat + 1
  withUses { vr := [v.toNat], gr := (List.range 4).map (a.toNat + ·) } (afterGst fun s =>
    let g := s.cur
    let at_ := pkplWrites g a.toNat p [kxFlat 0, kxFlat 0]
    let fault := at_.findSome? fun x => (scrFault s g x.1 x.2.1).map fun c => (c, x.1)
    let page := at_.findSome? fun x =>
      if (scrFault s g x.1 x.2.1).isNone && (block s g.blk).unpinned.contains (x.1 / 16384) then some (x.1 / 16384) else none
    match page with
    | some n => pend (stallOn 9 false s) (.scratchPageRefill g.blk n)
    | none =>
      match (threads (activeMask g 0)).find? fun t => poisoned g [v.toNat] t && !helper g t with
      | some t => trapHere 13 (poisonTrap g [v.toNat] t).sub s
      | none =>
        let rm := g.fmt.toNat % 8
        let b0 := roundKx ((List.range 16).map (pkplValue g f v.toNat)) p rm g.srs
        let b1 := roundKx ((List.range 16).map fun t => pkplValue g f v.toNat (16 + t)) p rm b0.gen
        let ex := b0.ex ||| b1.ex
        if arithTraps g ex then trapHere 1 ex s
        else
          match fault with
          | some (c, o) => trapAt c 0 accStore true o s
          | none =>
            let s := modCur s fun g => { g with flags := g.flags ||| BitVec.ofNat 32 ex, srs := b1.gen }
            let s := (pkplWrites g a.toNat p [b0.blk, b1.blk]).foldl (fun s x => scrStore s x.1 x.2.1 x.2.2) s
            let id := s.cur.nextOp
            let s := issueOp s .scrStore none [] [] 0 0 0 false
            queueScratch (homesOf s g (at_.map (·.1))) id (advance 1 s)) s

/-- PKPL.FROM.F32 (R131). -/
def execPkplF32 (v : BitVec 6) (a : BitVec 9) (pm : BitVec 4) (s : State) : Out := .next (packPlanes fp32 v a pm s)

/-- PKPL.FROM.BF16L (R131). -/
def execPkplBf16l (v : BitVec 6) (a : BitVec 9) (pm : BitVec 4) (s : State) : Out := .next (packPlanes bf16 v a pm s)

end

end Sys2Proof.Machine
end

