-- ==== Sys2Proof/Machine/System.lean ====
section
/-! DEFINITION. System instructions (R51, R52, R257 to R264, R272 to R274): SRR, SRW, TRAP, BKPT, SYSC, TLBI, LTSET,
WMARK; and XRD and XWR with the access to another group that they share with the debug port (R265 to R267). -/

namespace Sys2Proof.Machine

noncomputable section

/-! ## System registers (R51, R52, R257 to R262) -/

/-- The access that a privilege level has to an ID (R51, R52): 0 none, 1 read, 2 read and write. -/
def idAccess (sup : Bool) (id : Nat) : Nat :=
  if 0x20 ≤ id ∧ id ≤ 0x23 then 2
  else if id = 0x31 ∨ id = 0x32 then (if sup then 2 else 1)
  else if (0x10 ≤ id ∧ id ≤ 0x19) ∨ id = 0x24 ∨ id = 0x30 ∨ (0x40 ≤ id ∧ id ≤ 0x43) ∨ id = 0x50 ∨
      (0x60 ≤ id ∧ id ≤ 0x62) ∨ (0x80 ≤ id ∧ id ≤ 0x9F) ∨ (0x100 ≤ id ∧ id ≤ 0x1FF) then 1
  else if !sup then 0
  else if id = 0x204 ∨ id = 0x213 ∨ id = 0x220 then 1
  else if (0x200 ≤ id ∧ id ≤ 0x207) ∨ (0x210 ≤ id ∧ id ≤ 0x212) ∨ id = 0x221 ∨ id = 0x222 then 2
  else 0

/-- The system registers of the current group's launch and block (R258); in a supervisor group, which has neither, a free
value (log 17). -/
def launchReg (s : State) (id : Nat) : Word :=
  let g := s.cur
  let k := block s g.blk
  let r := launchOf s g
  if g.sup then Config.noBlock id
  else
    match id with
    | 0x10 => BitVec.ofNat 32 k.bx
    | 0x11 => BitVec.ofNat 32 k.by_
    | 0x12 => BitVec.ofNat 32 k.bz
    | 0x13 => BitVec.ofNat 32 (nblkX r)
    | 0x14 => BitVec.ofNat 32 (nblkY r)
    | 0x15 => BitVec.ofNat 32 (nblkZ r)
    | 0x16 => BitVec.ofNat 32 g.grpib
    | _ => BitVec.ofNat 32 k.ng

/-- A system register of group scope (R257, R258). A running group reads 0 for its own RIX. -/
def groupSysReg (s : State) (id : Nat) : Word :=
  let g := s.cur
  match id with
  | 0x18 => BitVec.ofNat 32 g.core
  | 0x19 => BitVec.ofNat 32 (g.core / 8)
  | 0x20 => g.fmt
  | 0x21 => g.flags
  | 0x22 => g.srs.setWidth 32
  | 0x23 => BitVec.ofNat 32 (g.srs.toNat / 2 ^ 32)
  | 0x24 => (codeBase g).setWidth 32
  | 0x30 => clamp s g.lclk
  | 0x40 => clamp s g.alo
  | 0x41 => clamp s g.ahi
  | 0x42 => g.astat
  | 0x43 => g.aid
  | 0x62 => g.instret
  | _ => if 0x80 ≤ id then mget 0 g.stall (id - 0x80) else 0

/-- A system register of context, core or device scope (R257, R259, R260, R289); PTROOT is that of the context that the core's ASID
names (R235). CYCLO and CYCHI are cycles of the core: a free value (log 2). -/
def sharedSysReg (s : State) (id : Nat) : Word :=
  let g := s.cur
  let k := core s g.core
  let c := ctx s (scopeCtx s g)
  let root := (ctx s k.asid).root
  match id with
  | 0x31 => c.lease.setWidth 32
  | 0x32 => c.tick.setWidth 32
  | 0x60 => BitVec.ofNat 32 (Config.cycles s.turn)
  | 0x61 => g.cycHi
  | 0x200 => k.tvec
  | 0x201 => k.pvec
  | 0x202 => k.savebase
  | 0x203 => k.faultq
  | 0x204 => BitVec.ofNat 32 k.asid
  | 0x205 => BitVec.ofNat 32 (root % 2 ^ 32)
  | 0x206 => BitVec.ofNat 32 (root / 2 ^ 32)
  | 0x207 => k.mxidle
  | 0x210 => BitVec.ofNat 32 c.ulogBase
  | 0x211 => c.ulogSize
  | 0x212 => c.ulogPol
  | 0x213 => c.window.setWidth 32
  | 0x220 => s.cp.front
  | 0x221 => c.lullmax
  | 0x222 => k.sampleN
  | _ => capability id

/-- A system register as SRR reads it. -/
def sysRead (s : State) (id : Nat) : Word :=
  if 0x10 ≤ id ∧ id ≤ 0x17 then launchReg s id
  else if (0x18 ≤ id ∧ id ≤ 0x30) ∨ (0x40 ≤ id ∧ id < 0x60) ∨ (0x62 ≤ id ∧ id ≤ 0x9F) then groupSysReg s id
  else sharedSysReg s id

/-- An access of the group has not taken its logical time (R262): a load whose destination is not ready, a store, an atomic or a
counter operation that is not performed. -/
def timeDue (g : Group) : Bool :=
  g.ops.any fun o => o.tag != 1 && [.load, .store, .atom, .gld, .gst, .cadd, .cread].contains o.kind

/-- SRR (R261, R262): a system register into a uniform register; CODEBASE into a pair; CYCLO latches CYCHI. -/
def execSrr (g : BitVec 9) (i : BitVec 12) (s : State) : Out :=
  let id := i.toNat
  let pair := id == 0x24
  .next (
    if idAccess (privileged s.cur) id = 0 ∨ (pair ∧ g.toNat % 2 = 1) then illEnc 0 s
    else withUses { gw := if pair then [g.toNat, g.toNat + 1] else [g.toNat] } (fun s =>
      if id = 0x30 ∧ timeDue s.cur then stallOn 3 true s
      else
        let x := sysRead s id
        let cb := codeBase s.cur
        advance 1 (modCur s fun h =>
          let h := gset h g.toNat x
          let h := if pair then gset h (g.toNat + 1) (BitVec.ofNat 32 (cb.toNat / 2 ^ 32 % 2 ^ 26)) else h
          if id = 0x60 then { h with cycHi := BitVec.ofNat 32 (Config.cycles s.turn / 2 ^ 32) } else h)) s)

/-- Every page of a context's log is device memory that the context owns (R289, R242). -/
def logOwned (s : State) (n : Nat) : Bool :=
  let c := ctx s n
  (List.range (c.ulogSize.toNat % 2 ^ 16)).all fun i =>
    let pa := (c.ulogBase + i) * 2 ^ 14
    let e := ownOf s pa
    pa < hbmTop && !e.getLsbD 7 && e.toNat / 2 ^ 8 % 64 == n

/-- The entry of a window in the log's window table: FIRST is the HEAD at which it opened (R289). -/
def openWindow (s : State) (n : Nat) : State :=
  let c := ctx s n
  if ulogOn c then ulogSetField s c (4096 + 16 * (c.window.toNat % 512)) 8 (ulogField s c 0 8) else s

/-- ULOGPOL written (R289): a write of EN = 1 is ignored while the log is too small or not owned; STEP is read only. -/
def writePolicy (s : State) (n : Nat) (x : Word) : State :=
  let c := ctx s n
  if x.getLsbD 31 && (c.ulogSize.toNat < 2 || !logOwned s n) then s
  else
    let s' := modCtx s n fun c => { c with ulogPol := (x &&& 0xC0000000) ||| (c.ulogPol &&& 0x20000000) }
    if ulogOn c then s' else openWindow s' n

/-- FAULTQ written (R259): ignored if LOG2N would be 1 to 3 or 13 to 15; waiting records may now be posted. -/
def writeFaultq (s : State) (c : Nat) (x : Word) : State :=
  let n := x.toNat % 16
  if n ≠ 0 ∧ (n < 4 ∨ 12 < n) then s
  else pend (modCore s c fun k => { k with faultq := x &&& 0xFFFFFFCF }) (.faultRecordPost c)

/-- A system register written by SRW (R257 to R261). -/
def sysWrite (s : State) (id : Nat) (x : Word) : State :=
  let g := s.cur
  let n := scopeCtx s g
  let onCore := modCore s g.core
  let onRoot := fun f => modCtx s (core s g.core).asid fun c => { c with root := f c.root }
  let logFixed := ulogOn (ctx s n)
  match id with
  | 0x20 => modCur s fun g => { g with fmt := fmtWritten x }
  | 0x21 => modCur s fun g => { g with flags := flagsWritten x }
  | 0x22 => modCur s fun g => { g with srs := BitVec.ofNat 64 (g.srs.toNat / 2 ^ 32 * 2 ^ 32 + x.toNat) }
  | 0x23 => modCur s fun g => { g with srs := BitVec.ofNat 64 (x.toNat * 2 ^ 32 + g.srs.toNat % 2 ^ 32) }
  | 0x31 => modCtx s n fun c => { c with lease := x.setWidth 16 }
  | 0x32 => pend (modCtx s n fun c => { c with tick := x.setWidth 16 }) (.tickRestart n)
  | 0x200 => onCore fun k => { k with tvec := x &&& 0xFFFFFFFC }
  | 0x201 => onCore fun k => { k with pvec := x &&& 0xFFFFFFFC }
  | 0x202 => onCore fun k => { k with savebase := x }
  | 0x203 => writeFaultq s g.core x
  | 0x205 => onRoot fun r => r / 2 ^ 32 * 2 ^ 32 + x.toNat / 2 ^ 14 * 2 ^ 14
  | 0x206 => onRoot fun r => x.toNat % 2 ^ 20 * 2 ^ 32 + r % 2 ^ 32
  | 0x207 => onCore fun k => { k with mxidle := x }
  | 0x210 => if logFixed then s else modCtx s n fun c => { c with ulogBase := x.toNat }
  | 0x211 => if logFixed then s else modCtx s n fun c => { c with ulogSize := x &&& 0xFFFF }
  | 0x212 => writePolicy s n x
  | 0x221 => modCtx s n fun c => { c with lullmax := x }
  | 0x222 => onCore fun k => { k with sampleN := x &&& 0x00FFFFFF }
  | _ => s

/-- SRW (R261): a uniform register into a system register; an illegal FMT is ILL_ENC (R69). -/
def execSrw (g : BitVec 9) (i : BitVec 12) (s : State) : Out :=
  .next (
    if idAccess (privileged s.cur) i.toNat ≠ 2 then illEnc 0 s
    else withUses { gr := [g.toNat] } (fun s =>
      let x := gget s.cur g.toNat
      if i.toNat = 0x20 ∧ !fmtLegal x then illEnc 0 s else advance 1 (sysWrite s i.toNat x)) s)

/-! ## TRAP and BKPT (R263) -/

/-- TRAP (R263): its sub-cause is the immediate. -/
def execTrap (i : BitVec 25) (s : State) : Out := .next (trapHere 10 i.toNat s)

/-- A breakpoint (R263, R306): held if the context allows the debug port and it is attached, else a trap. -/
def breakHere (s : State) : State :=
  if (ctx s s.cur.ctx).dbg && s.io.dbgOn then
    let s := modCur s fun g => { g with st := .held, under := .ready }
    let s := countStall s (gidOf s.cur) 20 (Config.cycles (freeIx s 1))
    { s with io := { s.io with out := s.io.out ++ [{ kind := 2, port := 0, pa := gidOf s.cur, data := [] }] } }
  else trapHere 9 0 s

/-- BKPT (R263). -/
def execBkpt (s : State) : Out := .next (breakHere s)

/-! ## System calls (R232, R264) -/

/-- The eight registers that SYSC captures. -/
def captured (g : Group) (b : BitVec 6) : List Word := (blockOf b).map (gget g)

/-- SYSC SIGRET (R264): parks with cause system call, number 0; its record carries the first four registers. -/
def execSyscSigret (g : BitVec 6) (s : State) : Out :=
  .next (withUses { gr := blockOf g } (afterGst (outsideRegion fun s =>
    takeTrap { cause := 11, rix := s.cur.rix, fba := s.cur.pc, faddr := s.cur.pc, amask := activeMask s.cur 0,
               args := (captured s.cur g).take 4 } s)) s)

/-- A tag that no outstanding future holds, those whose answers the command processor keeps included, from a free starting point
(R264; log 2). -/
def freeTag (s : State) : Nat :=
  let used := s.cp.futures.map (·.tag) ++ s.cp.answers.map (·.1)
  let at_ := fun k => (Config.pick s.turn + k) % 2 ^ 16
  ((List.range (used.length + 1)).map at_).find? (fun t => !used.contains t) |>.getD (at_ 0)

/-- A call record (R279). -/
def callWords (g : Group) (num tag : Nat) (args : List Word) : List Word :=
  [BitVec.ofNat 32 (11 * 2 ^ 24), BitVec.ofNat 32 num, handleOf g, BitVec.ofNat 32 (tag * 2 ^ 16 + g.ctx), pcOffset g] ++
    args.take 4 ++ [g.lclk, activeMask g 0, 0x80000000] ++ args.drop 4

/-- The seal record of an effect that the undo log cannot undo: 4 a system call, 5 a LAUNCH (R290, R291); or the cause and the sub-cause
with which the log refuses it (R292). -/
def sealed (s : State) (code : Nat) : State × Option (Nat × Nat) :=
  let g := s.cur
  match logged s g.ctx { va := 0, type := 3, old := code, core := g.core, slot := g.slot, step := stepNo s g } (fun s => (s, g.lclk)) with
  | (t, .error f) => (t, some f)
  | (t, .ok _) => (countLogged s t g, none)

/-- SYSC with a number (R232, R264): a future; a group holds at most 8. -/
def execSyscFuture (w : BitVec 4) (n : BitVec 12) (g : BitVec 6) (s : State) : Out :=
  let r := 8 * g.toNat
  .next (withUses { gr := blockOf g, gw := [r, r + 1] } (afterGst (outsideRegion fun s =>
    let c := s.cur
    if 8 ≤ (c.ops.filter fun o => o.kind == .future).length then stallOn 15 true s
    else if 255 ≤ wget c w.toNat then stallOn 5 true s
    else
      match sealed s 4 with
      | (s, some f) => trapHere f.1 f.2 s
      | (s, none) =>
        let tag := freeTag s
        let f : Future := { tag := tag, gid := gidOf c, blk := c.blk, grpib := c.grpib, w := w.toNat, reg := r }
        let s := { s with cp := { s.cp with futures := s.cp.futures ++ [f] } }
        let s := issueOp s .future (some w.toNat) [] [r, r + 1] 0 0 0 false
        let rec_ : FaultRec := { words := callWords c n.toNat tag (captured c g), gid := gidOf c, posted := false,
                                 frees := true }
        advance 1 (queueRecord s c.core rec_))) s)

/-- A future's pair is written and its operation arrives (R232). -/
def deliverFuture (s : State) (gid reg : Nat) (a b : Word) : State :=
  recheck (modGroup s gid fun g =>
    let g := gset (gset g reg a) (reg + 1) b
    match g.ops.find? (fun o => o.kind == .future && o.gregs.head? == some reg) with
    | some o => arriveOp g o.id
    | none => g) gid

/-- The answer to a future (R232, R264): once; held by the command processor while its group is saved. -/
def answerFuture (s : State) (tag : Nat) (a b : Word) : State :=
  match s.cp.futures.find? (fun f => f.tag == tag) with
  | none => s
  | some f =>
    let s := { s with cp := { s.cp with futures := s.cp.futures.filter (fun f => f.tag != tag) } }
    if isSupName f.gid = false ∧ (awayGroup s f.blk f.grpib).isSome then
      { s with cp := { s.cp with answers := s.cp.answers ++ [(tag, a, b)] } }
    else deliverFuture s f.gid f.reg a b

/-! ## Another group's registers (R265 to R267) -/

/-- The state of a group as R266 codes it. -/
def stateCode : GState → Nat
  | .ready => 0
  | .stalled _ _ => 1
  | .atBarrier _ => 1
  | .lull _ _ => 2
  | .parked => 3
  | .held => 4
  | .swapped => 5
  | .retired => 6

/-- A group register that regclass 5 reads (R266). -/
def groupReg (s : State) (t : Group) (ix : Nat) : Option Word :=
  match ix with
  | 0 => some (pcOffset t)
  | 1 => some (BitVec.ofNat 32 t.rix)
  | 2 => some t.fmt
  | 3 => some t.flags
  | 4 => some (t.srs.setWidth 32)
  | 5 => some (BitVec.ofNat 32 (t.srs.toNat / 2 ^ 32))
  | 6 => some (clamp s t.lclk)
  | 7 => some (clamp s t.alo)
  | 8 => some (clamp s t.ahi)
  | 9 => some t.astat
  | 10 => some t.aid
  | 11 => some t.xc
  | 12 => some (if t.xcv then 1 else 0)
  | 13 => some (BitVec.ofNat 32 (stateCode t.st + if t.priv then 8 else 0))
  | 14 => some t.lmask
  | _ => none

/-- A group register that regclass 5 writes, but for STATE and FUT (R266): none if it is refused. -/
def setGroupReg (t : Group) (ix : Nat) (x : Word) : Option Group :=
  match ix with
  | 0 => if x.toNat % 4 = 0 then some { t with pc := codeBase t + x.setWidth 64, mid := none } else none
  | 1 => if x.toNat ≤ 32 then some { t with rix := x.toNat, mid := none } else none
  | 2 => if fmtLegal x then some { t with fmt := fmtWritten x } else none
  | 3 => some { t with flags := flagsWritten x }
  | 4 => some { t with srs := BitVec.ofNat 64 (t.srs.toNat / 2 ^ 32 * 2 ^ 32 + x.toNat) }
  | 5 => some { t with srs := BitVec.ofNat 64 (x.toNat * 2 ^ 32 + t.srs.toNat % 2 ^ 32) }
  | 6 => some { t with lclk := ltMax t.lclk x }
  | 11 => some { t with xc := x }
  | 12 => some { t with xcv := x.getLsbD 0 }
  | _ => none

/-- The register that a selector of class v names, and its thread (R265). -/
def vSel (sel : Word) : Nat × Nat := (sel.toNat % 512, sel.toNat / 2 ^ 16 % 32)

/-- The value that an access of a class reads in a group, with its poison, or none if it is refused (R265). -/
def readClass (s : State) (t : Group) (c : RegClass) (sel : Word) : Option (Word × Option Nat) :=
  let n := sel.toNat % 512
  match c with
  | .v =>
    let (r, th) := vSel sel
    if r < t.vb then some (vget t r th, mfind t.vPoison (r * 32 + th)) else none
  | .g => if uniformLegal t n then some (gget t n, mfind t.gPoison n) else none
  | .m => some (mreg t (n % 8), none)
  | .f => some (if fget t (n % 4) then 1 else 0, none)
  | .w => some (BitVec.ofNat 32 (wget t (n % 16)), none)
  | .group => (groupReg s t n).map fun x => (x, none)

/-- A group with a register of a class written, or none if the write is refused (R265, R266). -/
def writeClass (t : Group) (c : RegClass) (sel x : Word) : Option Group :=
  let n := sel.toNat % 512
  match c with
  | .v =>
    let (r, th) := vSel sel
    if r < t.vb then some (vset t r th x) else none
  | .g => if uniformLegal t n then some (gset t n x) else none
  | .m => some (mwrite t (n % 8) x)
  | .f => some (fset t (n % 4) (x.getLsbD 0))
  | .w => none
  | .group => setGroupReg t n x

/-- An operation that loads a register: a load of memory, of scratch or of a counter, or an atomic that returns a value. -/
def loads (o : OpRec) : Bool := [.load, .scrLoad, .gld, .cread, .atom].contains o.kind

/-- A load of the group to the named register is outstanding (R267). -/
def classBusy (t : Group) (c : RegClass) (sel : Word) : Bool :=
  t.ops.any fun o => loads o && match c with
    | .v => o.vregs.contains (vSel sel).1
    | .g => o.gregs.contains (sel.toNat % 512)
    | _ => false

/-- The target of a handle (R267): a group of this core, bound under this sequence, parked or held. -/
def targetOf (s : State) (h : Word) : Option Group :=
  match group s (h.toNat / 2 ^ 10 % 256 * 2048 + h.toNat % 2 ^ 10) with
  | none => none
  | some t =>
    if t.core = s.cur.core ∧ t.seq = h.toNat / 2 ^ 18 ∧ (t.st = .parked ∨ t.st = .held) then some t else none

/-- f3 reports whether an access took effect (R267). -/
def report (ok : Bool) (s : State) : State := advance 1 (modCur s fun g => fset g 3 ok)

/-- XRD (R265 to R267). -/
def execXrd (g t : BitVec 9) (c : RegClass) (s : State) : Out :=
  .next (
    if !privileged s.cur then illEnc 0 s
    else withUses { gr := [t.toNat, t.toNat + 1], gw := [g.toNat] } (fun s =>
      let sel := gget s.cur (t.toNat + 1)
      match targetOf s (gget s.cur t.toNat) with
      | none => report false s
      | some x =>
        match readClass s x c sel with
        | none => report false s
        | some (v, bad) =>
          if classBusy x c sel then stallOn 3 true s
          else report true (modCur s fun h => gpoison (gset h g.toNat v) g.toNat bad)) s)

/-- XWR of FUT (R266, R267): answers the future of a tag, device-wide, with a pair of registers. -/
def writeFut (g : BitVec 9) (sel : Word) (s : State) : State :=
  let tag := sel.toNat / 2 ^ 16
  if s.cp.futures.any (fun f => f.tag == tag) && uniformLegal s.cur (g.toNat + 1) then
    withUses { gr := [g.toNat + 1] } (fun s =>
      report true (answerFuture s tag (gget s.cur g.toNat) (gget s.cur (g.toNat + 1)))) s
  else report false s

/-- XWR (R265 to R267). -/
def execXwr (g t : BitVec 9) (c : RegClass) (s : State) : Out :=
  .next (
    if !privileged s.cur then illEnc 0 s
    else withUses { gr := [g.toNat, t.toNat, t.toNat + 1] } (fun s =>
      let sel := gget s.cur (t.toNat + 1)
      let v := gget s.cur g.toNat
      if c = .group ∧ sel.toNat % 512 = 15 then writeFut g sel s
      else
        match targetOf s (gget s.cur t.toNat) with
        | none => report false s
        | some x =>
          if c = .group ∧ sel.toNat % 512 = 13 then
            if x.st = .parked ∧ v = 0 then report true (resumeGroup s (gidOf x)) else report false s
          else
            match writeClass x c sel v with
            | none => report false s
            | some y => if classBusy x c sel then stallOn 3 true s else report true (setGroup s y)) s)

/-! ## TLBI (R272) -/

/-- The entries, walk-cache entries and instruction-cache lines that a condition drops on every core and cluster. -/
def dropEntries (leaf walk : TlbEnt → Bool) (line : Nat → Bool) (s : State) : State :=
  { s with
    cores := s.cores.map fun p => (p.1, { p.2 with tlb := p.2.tlb.filter (fun t => !leaf t),
                                                   icache := p.2.icache.filter (fun q => !line q.1) }),
    clusters := s.clusters.map fun p => (p.1, { p.2 with tlb2 := p.2.tlb2.filter (fun t => !leaf t),
                                                          wcache := p.2.wcache.filter (fun t => !walk t) }) }

/-- The entries and lines of a context (R272). -/
def dropAsid (asid : Nat) (s : State) : State :=
  dropEntries (fun t => t.asid == asid) (fun t => t.asid == asid) (fun k => k / 2 ^ 51 == asid) s

/-- The leaves of a context that cover an address (R272), of any size, with the lines of their pages. -/
def dropPage (asid va : Nat) (s : State) : State :=
  let gone := ((s.cores.flatMap fun p => p.2.tlb) ++ (s.clusters.flatMap fun p => p.2.tlb2)).filter (tlbHit asid va)
  let near := fun k level => k / 2 ^ 51 == asid && pageBase (k % 2 ^ 51 * 128) level == pageBase va level
  dropEntries (tlbHit asid va) (fun t => t.asid == asid) (fun k => near k 3 || gone.any fun t => near k t.level) s

/-- A request on its way to a slice has used an entry that a condition drops (R272): one through which its address was translated, or
would be if it still stood. -/
def usesDropped (leaf : TlbEnt → Bool) (s : State) (e : Instr) : Bool :=
  let uses := fun (g : Group) (va : Nat) =>
    leaf { asid := g.ctx, base := pageBase va 3, level := 3, ent := 0 } ||
    ((s.cores.flatMap fun p => p.2.tlb) ++ s.clusters.flatMap fun p => p.2.tlb2).any fun t => leaf t && tlbHit g.ctx va t
  match e with
  | .caddAtSlice gid _ _ op => (group s gid).any fun g => g.ops.any fun o => o.id == op && uses g o.addr.toNat
  | .cwaitRequest gid | .nackRetry gid => (group s gid).any fun g => g.req.any fun r => uses g r.va
  | _ => false

/-- A TLBI completes when every access that used an entry it drops has been performed; until then it counts fabric (R272). -/
def dropWhenDone (leaf : TlbEnt → Bool) (drop : State → State) (s : State) : State :=
  if s.pending.any (usesDropped leaf s) then stallOn 21 true s else advance 1 (drop s)

/-- A privileged instruction: ILL_ENC at user privilege (R48, R234). -/
def privilegedOp (body : State → State) (s : State) : State := if privileged s.cur then body s else illEnc 0 s

/-- TLBI.ALL (R272). -/
def execTlbiAll (s : State) : Out :=
  .next (privilegedOp (dropWhenDone (fun _ => true) (dropEntries (fun _ => true) (fun _ => true) fun _ => true)) s)

/-- TLBI.ASID (R272). -/
def execTlbiAsid (gp : BitVec 7) (s : State) : Out :=
  .next (privilegedOp (withUses { gr := pairOf gp } fun s =>
    let asid := pairVal s.cur gp % 64
    dropWhenDone (fun t => t.asid == asid) (dropAsid asid) s) s)

/-- TLBI.PAGE (R272). -/
def execTlbiPage (gp : BitVec 7) (s : State) : Out :=
  .next (privilegedOp (withUses { gr := pairOf gp } fun s =>
    let x := pairVal s.cur gp
    let va := x % 2 ^ 58 / 2 ^ 14 * 2 ^ 14
    dropWhenDone (tlbHit (x % 64) va) (dropPage (x % 64) va) s) s)

/-! ## The front (R157, R158, R273) -/

/-- A group's clock and bounds follow a raise of the front (R157), and so does each slice's copy of the bounds of its open region, which
aborts if its interval is then empty. -/
def raiseGroup (s : State) (gid : Nat) (f : Word) : State :=
  match group s gid with
  | none => s
  | some g =>
    if g.st = .swapped ∨ g.st = .retired then s
    else
      let g' := { g with lclk := ltMax g.lclk f, joins := g.joins.map fun p => (p.1, ltMax p.2 f), alo := ltMax g.alo f }
      match g.rgn with
      | none => setGroup s { g' with ahi := ltMax g.ahi f }
      | some r =>
        let s := r.slices.foldl (fun s i => narrowCopy s i g.aid.toNat (some f) none) (setGroup s g')
        if before g.ahi f then regionAbort s gid 12 0 none else s

/-- A raise of the front reaches a core (R157): groups and engine commands. -/
def raiseCore (s : State) (c : Nat) : State :=
  let f := s.cp.front
  let s := ((allGroups s).filter fun g => g.core == c).foldl (fun s g => raiseGroup s (gidOf g) f) s
  modCore s c fun k =>
    { k with cpyq := k.cpyq.map fun q => { q with eclk := ltMax q.eclk f },
             parkedCpy := k.parkedCpy.map fun q => { q with eclk := ltMax q.eclk f },
             mmaq := k.mmaq.map fun q => { q with eclk := ltMax q.eclk f } }

/-- The clock of a UALink port: at the front until the port has placed a store (R148). -/
def ualClock (s : State) (p : Nat) : Word := clamp s (mget s.cp.front s.io.ualClk p)

/-- A raise of the front reaches a destination (R157): cores 0 to 191, slices from 192, the CXL port 256, the UALink
ports from 257. -/
def broadcastFront (s : State) (dest : Nat) : State :=
  let f := s.cp.front
  if dest < 192 then raiseCore s dest
  else if dest < 256 then modSlice s (dest - 192) fun k => { k with evts := ltMax k.evts f }
  else if dest = 256 then { s with io := { s.io with cxlClk := ltMax s.io.cxlClk f } }
  else { s with io := { s.io with ualClk := mset s.io.ualClk (dest - 257) (ltMax (ualClock s (dest - 257)) f) } }

/-- The slices that hold a time of their own: their EVTS, or that of a line. -/
def timedSlices (s : State) : List Nat :=
  (List.range 64).filter fun i => (mfind s.slices i).isSome || s.mm.lines.any fun p => homeSlice p.1 == i

/-- The cores that hold a time of their own. -/
def timedCores (s : State) : List Nat :=
  (List.range 192).filter fun c => (mfind s.cores c).isSome || (allGroups s).any fun g => g.core == c

/-- The cores, slices and ports that hold a time of their own; any other one's times read as the front (R157). -/
def frontDests (s : State) : List Nat :=
  timedCores s ++ (timedSlices s).map (· + 192) ++ [256] ++ s.io.ualClk.map (fun p => p.1 + 257)

/-- The times of the command processor and of barriers, none of which then lies before the front. -/
def raiseHeld (s : State) : State :=
  let f := s.cp.front
  let bar := fun (p : Nat × Barrier) => (p.1, { p.2 with clk := ltMax p.2.clk f })
  let kept := fun (p : Nat × Group) => (p.1, { p.2 with joins := p.2.joins.map (fun q => (q.1, ltMax q.2 f)),
                                                        barRaise := p.2.barRaise.map (ltMax f) })
  { s with
    blocks := s.blocks.map fun p => (p.1, { p.2 with bars := p.2.bars.map bar, gbars := p.2.gbars.map bar,
                                                     waiting := p.2.waiting.map kept })
    cp := { s.cp with
      clk := ltMax s.cp.clk f, grid := s.cp.grid.map bar
      handles := s.cp.handles.map fun p => (p.1, { p.2 with fin := ltMax p.2.fin f, rfin := ltMax p.2.rfin f })
      tasks := s.cp.tasks.map fun p => (p.1, { p.2 with clk := ltMax p.2.clk f, fin := ltMax p.2.fin f })
      launches := s.cp.launches.map fun l => { l with clk := ltMax l.clk f } } }

/-- The slices and the L1s whose pass since the last raise is not complete (R157). -/
def unsweptSlices (s : State) : List Nat :=
  (List.range 64).filter fun i => !(slice s i).swept && s.mm.lines.any fun p => homeSlice p.1 == i
def unsweptL1s (s : State) : List Nat := (s.cores.filter fun p => p.1 < Config.cores && !s.cp.l1Swept.contains p.1 && !p.2.l1.isEmpty).map (·.1)

/-- The front may be raised: not before every slice and every L1 has completed a pass since the last raise (R157). -/
def mayRaise (s : State) : Bool := !s.cp.raised || ((unsweptSlices s).isEmpty && (unsweptL1s s).isEmpty)

/-- The front is raised (R157): it reaches every holder of a time, each by a step of its own, and the passes begin
again. -/
def raiseFront (s : State) (f : Word) : State :=
  let s := raiseHeld { s with
    slices := s.slices.map fun p => (p.1, { p.2 with sweep := 0, swept := false })
    cp := { s.cp with front := ltMax s.cp.front f, raised := true, l1Swept := [] } }
  (frontDests s).foldl (fun s d => pend s (.frontBroadcast d)) s

/-- The clocks that a group holds set to a time (R158). -/
def resetGroup (f : Word) (g : Group) : Group :=
  { g with lclk := f, alo := f, ahi := f, joins := g.joins.map fun p => (p.1, f) }

/-- Engine commands and L1 copies under a rebase (R158): the clocks are set; the L1 holds nothing. -/
def resetCore (f : Word) (k : Core) : Core :=
  { k with l1 := [], cpyq := k.cpyq.map fun q => { q with eclk := f }, parkedCpy := k.parkedCpy.map fun q => { q with eclk := f },
           mmaq := k.mmaq.map fun q => { q with eclk := f } }

/-- A rebase (R158): open regions abort with cause 13, every L1 is flushed, every held time is F, and the count rises. -/
def rebaseTo (s : State) (f : Word) : State :=
  let s := ((allGroups s).filter (·.rgn.isSome)).foldl (fun s g => regionAbort s (gidOf g) 13 0 none) s
  let dirty := s.cores.flatMap fun p => (p.2.l1.filter fun q => q.2.dirty).map fun q => q.1 / 64
  let s := modAll s (resetGroup f)
  let bar := fun (q : Nat × Barrier) => (q.1, { q.2 with clk := f })
  let kept := fun (q : Nat × Group) => (q.1, { q.2 with joins := q.2.joins.map (fun j => (j.1, f)), barRaise := q.2.barRaise.map fun _ => f })
  { s with
    cores := s.cores.map fun p => (p.1, resetCore f p.2),
    slices := s.slices.map fun p => (p.1, { p.2 with evts := f }),
    blocks := s.blocks.map fun p => (p.1, { p.2 with bars := p.2.bars.map bar, gbars := p.2.gbars.map bar,
                                                     waiting := p.2.waiting.map kept }),
    mm := { s.mm with lines := s.mm.lines.map fun p =>
      (p.1, { p.2 with wts := f, rts := f, owner := none, dirty := p.2.dirty || dirty.contains p.1 }) },
    io := { s.io with cxlClk := f, ualClk := s.io.ualClk.map fun p => (p.1, f) },
    cp := { s.cp with front := f, clk := f, rebases := s.cp.rebases + 1, reports := [],
                      grid := s.cp.grid.map fun p => (p.1, { p.2 with clk := f }),
                      handles := s.cp.handles.map fun p => (p.1, { p.2 with fin := f, rfin := f }),
                      tasks := s.cp.tasks.map fun p => (p.1, { p.2 with clk := f, fin := f }),
                      launches := s.cp.launches.map fun l => { l with clk := f } } }

/-- F is the front or after it by at most 2^30 (R158). -/
def isRaise (s : State) (f : Word) : Bool := (f - s.cp.front).toNat ≤ 2 ^ 30

/-- A request is in flight, which a rebase waits for (R158): a CADD or a counter wait on its way to its slice. -/
def requestInFlight (s : State) : Bool :=
  s.pending.any fun e =>
    match e with
    | .caddAtSlice .. | .cwaitRequest _ => true
    | _ => false

/-- LTSET or a rebase may request pre-emption (R285), of blocks that the spec does not name: a free value says of each resident block
whether it does (log 43). -/
def askBlocks (s : State) : State :=
  (s.blocks.filter fun b => b.2.st == .resident && Config.freeBit (freeIx s 21 + 2 ^ 64 * b.1)).foldl
    (fun s b => pend s (.preemptionRequest b.1)) s

/-- The passes that a raise waits for are due. -/
def sweepAll (s : State) : State :=
  let add := fun (s : State) (e : Instr) => if s.pending.contains e then s else pend s e
  (unsweptL1s s).foldl (fun s c => add s (.l1Sweep c)) ((unsweptSlices s).foldl (fun s i => add s (.sliceSweep i)) s)

/-- LTSET (R273): a raise, which waits as R157 says, or a rebase, which waits for the requests in flight (R158); the issuing group's
clock is then at least F. One waits while a rebase waits: they are served one at a time. A group whose own region the rebase aborts goes
on at its handler (R203). -/
def execLtset (a : BitVec 9) (s : State) : Out :=
  .next (privilegedOp (withUses { gr := [a.toNat] } fun s =>
    let f := gget s.cur a.toNat
    let joined := fun (s : State) => modCur s fun g => { g with lclk := ltMax g.lclk f }
    let done := fun (s : State) => advance 1 (joined s)
    if rebasing s then stallOn 21 true s
    else if f = s.cp.front then done s
    else if isRaise s f then (if mayRaise s then done (askBlocks (raiseFront s f)) else stallOn 21 true (sweepAll s))
    else if requestInFlight s then pend (stallOn 21 false (modCur s fun g => { g with setF := some f })) (.rebase f)
    else if s.cur.rgn.isSome then countIssue (joined (askBlocks (rebaseTo s f)))
    else done (askBlocks (rebaseTo s f))) s)

/-- The LTSET of a group that waited for a rebase to F completes (R273). -/
def completeSet (f : Word) (s : State) (gid : Nat) : State :=
  match group s gid with
  | none => s
  | some g =>
    match inner g with
    | .stalled 21 false =>
      countStall (setGroup s (setInner { atNext (g.pc + 4) g with setF := none, lclk := ltMax g.lclk f, instret := g.instret + 1 } .ready)) gid 0 1
    | _ => s

/-- A rebase, after the requests in flight, completes every LTSET that waited for it (R158, R273). -/
def rebaseNow (s : State) (f : Word) : State :=
  let waits := (allGroups s).filter fun g => g.setF == some f
  waits.foldl (fun s g => completeSet f s (gidOf g)) (askBlocks (rebaseTo s f))

/-! ## WMARK (R274) -/

/-- A store or an atomic of the group is not performed (R274). -/
def storesDue (g : Group) : Bool := g.ops.any fun o => o.tag != 1 && [.store, .atom, .gst].contains o.kind

/-- WMARK (R274): opens an undo-log window; with logging on, the group parks so that the supervisor saves the
checkpoint. -/
def execWmark (i : BitVec 16) (s : State) : Out :=
  .next (outsideRegion (fun s =>
    let n := scopeCtx s s.cur
    let d := (i - (ctx s n).window).toNat
    if d = 0 ∨ 2 ^ 15 ≤ d then advance 1 s
    else if storesDue s.cur then stallOn 21 true s
    else
      let s := openWindow (modCtx s n fun c => { c with window := i }) n
      let am := activeMask s.cur 0
      let s := advance 1 s
      if ulogOn (ctx s n) then
        takeTrap { cause := 11, sub := 0x1000, fba := s.cur.pc, faddr := s.cur.pc, amask := am,
                   args := [i.setWidth 32], call := true } s
      else s) s)

end

end Sys2Proof.Machine
end

