-- ==== Sys2Proof/Machine/Save.lean ====
section
/-! DEFINITION. Pre-emption, save and restore (R268 to R271, R285 to R288, R324, R326): block images, the vector to PVEC,
ERET, and the wake conditions of saved groups. -/

namespace Sys2Proof.Machine

noncomputable section

/-! ## Block images (R226, R269, R270) -/

/-- The bytes of a group record, and of a block image (R270). -/
def recordSize (r : List Word) : Nat := 512 + 4 * recU r + 128 * recB r
def imageSize (r : List Word) (m : Nat) : Nat :=
  2048 * (1 + m) + recGroups r * recordSize r + 65600 * recA r * m

/-- The launch record of a block's task. -/
def recordOf (s : State) (b : Nat) : List Word := (taskOf s (block s b).task).record

/-- The address of a block's image in the swap area (R270). -/
def imageAddr (s : State) (b : Nat) : Nat :=
  let k := block s b
  recPair (recordOf s b) 12 + k.saveIdx * imageSize (recordOf s b) (spanOf (recordOf s b))

/-- The address of the record of a group of a block (R270). -/
def groupRecord (s : State) (b grpib : Nat) : Nat :=
  imageAddr s b + 2048 * (1 + spanOf (recordOf s b)) + grpib * recordSize (recordOf s b)

/-- The agent of the device's own accesses to an image: in the block's context, at supervisor privilege. -/
def imageAgent (core ctx : Nat) (clk : Word) : Who := { core := core, asid := ctx, clk := clk, user := false }

/-- `n` bytes of an image written by the device, poisoned as their registers are (R295): the state, the clock after it, and whether an
address is refused, where nothing is written (log 19). -/
def imageStore (s : State) (w : Who) (p : Piece) : State × Word × Option (Nat × Nat) :=
  match engineAddr s w p.va { w := true } with
  | (s, .error f) => (s, w.clk, some f)
  | (s, .ok l) =>
    match (if inDevice l then memFault s l.pa l.via else none) with
    | some f => (noteFault s w.asid l.pa f, w.clk, some f)
    | none =>
      let r := plainStore s w l p.n p.val
      let s := match p.bad with
        | some sub => if inDevice l then { r.1 with mm := { r.1.mm with bad := mset r.1.mm.bad (l.pa / 8) sub } } else r.1
        | none => r.1
      (s, ltMax w.clk r.2, none)

/-- Pieces of an image written by the device, in order: the pieces that are refused come with the state. -/
def imagePieces : Who → List Piece → State → State × Word × List Piece
  | w, [], s => (s, w.clk, [])
  | w, p :: ps, s =>
    let r := imageStore s w p
    let q := imagePieces { w with clk := r.2.1 } ps r.1
    (q.1, q.2.1, if r.2.2.isSome then p :: q.2.2 else q.2.2)

/-- Words of an image from an address on, with their poison, in pieces of 8 bytes. -/
def piecesOf : Nat → List (Word × Option Nat) → List Piece
  | _, [] => []
  | va, [x] => [{ va := va, n := 4, val := x.1.toNat, bad := x.2 }]
  | va, x :: y :: xs => { va := va, n := 8, val := x.1.toNat + 2 ^ 32 * y.1.toNat, bad := x.2.orElse fun _ => y.2 } :: piecesOf (va + 8) xs

/-- Words of an image written by the device from an address on. -/
def imageWords (w : Who) (va : Nat) (ws : List Word) (s : State) : State × List Piece :=
  let r := imagePieces w (piecesOf va (ws.map fun x => (x, none))) s
  (r.1, r.2.2)

/-- What was refused of an image waits for the save's ERET of a group of the block (R271). -/
def leaveUnsaved (s : State) (gid : Nat) (ps : List Piece) : State :=
  if ps.isEmpty then s else modGroup s gid fun g => { g with unsaved := g.unsaved ++ ps }

/-- A word of an image read by the device; none where the access is refused (log 19). -/
def imageLoad (s : State) (w : Who) (va : Nat) : State × Option Word :=
  match engineAddr s w va { r := true } with
  | (s, .error _) => (s, none)
  | (s, .ok l) =>
    match plainLoad s w l 4 with
    | .done s _ x none => (s, some (BitVec.ofNat 32 x))
    | .done s _ _ (some _) | .trap s _ _ | .abort s _ | .wait s => (s, none)

/-- `n` words of an image from an address on: none if one is refused. -/
def imageRead (w : Who) : Nat → Nat → State → State × Option (List Word)
  | 0, _, s => (s, some [])
  | n + 1, va, s =>
    match imageLoad s w va with
    | (s, none) => (s, none)
    | (s, some x) =>
      match imageRead w n (va + 4) s with
      | (s, some xs) => (s, some (x :: xs))
      | (s, none) => (s, none)

/-- The slot of a uniform register in a group record (R270). -/
def uniformSlot (ub r : Nat) : Nat := if 380 ≤ r ∧ ub < 384 then r - 380 + ub - 4 else r

/-! ## Frames (R269, R326) -/

/-- The state that a group is saved with: a ready group has no wake condition. -/
def wakeWords (s : State) (g : Group) (st : GState) : List Word :=
  let off := fun (pc : DWord) => (pc - codeBase g).setWidth 32
  match st with
  | .lull (.count w n) cont => [1, off cont, BitVec.ofNat 32 w, BitVec.ofNat 32 n, 0, 0, 0, 0]
  | .lull (.monitor _ t) cont =>
    let va := (g.req.map (·.va)).getD 0
    [2, off cont, BitVec.ofNat 32 va, BitVec.ofNat 32 (va / 2 ^ 32), BitVec.ofNat 32 t, BitVec.ofNat 32 (t / 2 ^ 32), 0, 0]
  | .lull (.barrier id) cont =>
    [3, off cont, BitVec.ofNat 32 id, BitVec.ofNat 32 (barrierOf s g.blk id).gen, 0, 0, 0, 0]
  | .lull (.grid id) cont =>
    [3, off cont, BitVec.ofNat 32 (16 + id), BitVec.ofNat 32 (gridBar s g.blk id).gen, 0, 0, 0, 0]
  | .lull .yielded cont => [4, off cont, BitVec.ofNat 32 (1 + Config.pick s.turn % 64), 0, 0, 0, 0, 0]
  | .atBarrier id => [3, off g.pc, BitVec.ofNat 32 id, BitVec.ofNat 32 (barrierOf s g.blk id).gen, 0, 0, 0, 0]
  | _ => [0, 0, 0, 0, 0, 0, 0, 0]

/-- The futures that a group has outstanding, as FUTS holds them: at most 8 (R269). -/
def futWords (s : State) (g : Group) : List Word :=
  let fs := s.cp.futures.filter fun f => f.gid == gidOf g && f.blk == g.blk && f.grpib == g.grpib
  let ws := fs.map fun f => BitVec.ofNat 32 (f.tag * 2 ^ 16 + f.w * 2 ^ 12 + f.reg / 8 * 2 ^ 6 + 1)
  (ws ++ List.replicate 8 0).take 8

/-- Four bytes packed in a word. -/
def packBytes (f : Nat → Nat) (i : Nat) : Word :=
  BitVec.ofNat 32 (f (4 * i) + f (4 * i + 1) * 2 ^ 8 + f (4 * i + 2) * 2 ^ 16 + f (4 * i + 3) * 2 ^ 24)

/-- The frame of a group (R269): 128 words. -/
def frameWords (s : State) (g : Group) : List Word :=
  let st := inner g
  let count := fun w => (g.ops.filter fun o => (o.kind == .future || o.kind == .launch) && o.w == some w).length
  [1, pcOffset g, BitVec.ofNat 32 g.rix, BitVec.ofNat 32 (stateCode g.st), g.lmask, g.pmask, g.fmt, g.flags,
   g.srs.setWidth 32, BitVec.ofNat 32 (g.srs.toNat / 2 ^ 32), clamp s g.lclk, BitVec.ofNat 32 s.cp.rebases, g.xc,
   if g.xcv then 1 else 0, clamp s g.alo, clamp s g.ahi, g.astat, g.aid] ++
  (List.range 8).map (mreg g) ++ [g.f.setWidth 32, g.instret] ++ wakeWords s g st ++
  (List.range 4).map (packBytes count) ++ futWords s g ++ List.replicate 80 0

/-! ## The vector (R268) -/

/-- The words that the device saves of a group (R268 step 1): its frame, g0 to g3 and v0, the registers with their poison (R295). -/
def savedPieces (s : State) (g : Group) (at_ : Nat) : List Piece :=
  piecesOf at_ ((frameWords s g).map fun x => (x, none)) ++
  piecesOf (at_ + 512) ((List.range 4).map fun r => (gget g r, mfind g.gPoison r)) ++
  piecesOf (at_ + 512 + 4 * g.ub) ((List.range 32).map fun t => (vget g 0 t, mfind g.vPoison t))

/-- The save of a group by the device (R268 step 1), and the pieces that are refused. -/
def saveFrame (s : State) (g : Group) (at_ : Nat) : State × List Piece :=
  let r := imagePieces (imageAgent g.core g.ctx g.lclk) (savedPieces s g at_) s
  (r.1, r.2.2)

/-- The registers with which a group enters PVEC (R268 step 2): `mode` is 0 for a save and 1 for a restore. -/
def entryRegs (at_ mode : Nat) (pm : Word) (g : Group) : Group :=
  let g := gset (gset (gsetPair g 0 at_) 2 (BitVec.ofNat 32 mode)) 3 0
  let g := (List.range 32).foldl (fun g t => vset g 0 t (BitVec.ofNat 32 (4 * t))) g
  { mwrite g 0 pm with fmt := 0 }

/-- What the device keeps of a group beside its image: its wake condition and request, the launches it has outstanding, the operation
of an instruction that a trap interrupted (R174), the commands that a WAIT has still to join (R146), the traps due to it (R268, R285), and
which of the registers that the device saves are poisoned: its image says so of a whole word of memory only (R287, R295). -/
def keptOf (g : Group) : Group :=
  { g with v := [], g := [], m := [], priv := true, susp := inner g, under := .ready, st := .swapped, rgn := none,
           ops := g.ops.filter fun o => o.kind == .launch || o.tag == 1, w := [], vPoison := g.vPoison.filter fun p => p.1 < 32, gPoison := g.gPoison.filter fun p => p.1 < 4,
           barRaise := none, steps := [], stepNo := 0, setF := none, unsaved := [], walks := [], mid := none, sampled := false }

/-- A group may vector: it stands between two instructions, every access has arrived or been performed, but for that of an instruction
that a trap interrupted, and its stopped matrix commands are recorded. -/
def mayVector (s : State) (g : Group) : Bool :=
  g.mid.isNone && g.ops.all (fun o => o.kind == .future || o.kind == .launch || o.tag == 1) &&
    !(core s g.core).mmaq.any (fun m => m.gid == gidOf g && m.blk == g.blk)

/-- A group vectors to PVEC (R268): its frame is written, and it enters the save routine with PRIV set. Its replay-queue
entry is freed (R285). -/
def vectorGroup (s : State) (gid : Nat) : State :=
  match group s gid with
  | none => s
  | some g =>
    let at_ := groupRecord s g.blk g.grpib
    let r := saveFrame s g at_
    let s := dropMonitors r.1 gid
    let s := freeEntry s g.core gid
    let s := modBlock s g.blk fun k => { k with waiting := mset k.waiting g.grpib (keptOf g) }
    let h := entryRegs at_ 0 g.pmask g
    setGroup s { h with priv := true, restore := false, preempt := false, holdReq := false, stepReq := false, st := .ready,
                        under := .ready, pc := ((core s g.core).pvec).setWidth 64, rix := 0, xc := 0, xcv := false, ops := [],
                        w := [], joins := [], req := none, ticket := none, due := [], bpSkip := false, setF := none, walks := [], mid := none,
                        unsaved := g.unsaved ++ r.2,
                        vPoison := g.vPoison.filter (fun p => 32 ≤ p.1), gPoison := g.gPoison.filter (fun p => 4 ≤ p.1) }

/-! ## The wake conditions of saved groups (R229) -/

/-- The futures and launches of a saved group that are outstanding on a counter. -/
def awayCount (s : State) (g : Group) (w : Nat) : Nat :=
  (s.cp.futures.filter fun f => f.blk == g.blk && f.grpib == g.grpib && f.w == w).length +
    (g.ops.filter fun o => o.w == some w).length

/-- The wake condition of a saved group holds; one that was not in the lull waits for nothing. -/
def awayDue (s : State) (g : Group) : Bool :=
  match g.susp with
  | .lull (.count w n) _ => awayCount s g w ≤ n
  | .lull (.monitor pa t) _ => t ≤ readBytes s.mm.mem pa 8
  | .lull (.barrier id) _ => !(barrierOf s g.blk id).arrived.contains g.grpib
  | .lull (.grid id) _ => !(gridBar s g.blk id).arrived.contains g.grpib
  | .atBarrier id => !(barrierOf s g.blk id).arrived.contains g.grpib
  | _ => true

/-- A block is pending: not yet bound, or swapped with a wake condition that holds (R226, R229). -/
def blockPending (s : State) (b : Nat) : Bool :=
  let k := block s b
  k.st == .waiting || (k.st == .swapped && k.waiting.any fun p => awayDue s p.2)

/-! ## ERET (R271) -/

/-- The scratch pages of a block homed on a core of its span (R17). -/
def pagesOn (k : Block) (c : Nat) : List Nat :=
  (List.range ((k.scrSize + 16383) / 16384)).filter fun p => k.span.isEmpty || k.span.getD (p % k.span.length) c == c

/-- The groups of a block on a core are all swapped or retired: its pages there are unpinned, its tiles and its slot
entry are freed, and the block is swapped when none is resident (R271). -/
def leaveCore (s : State) (c b : Nat) : State :=
  if (blockGroups s b).any (fun g => g.core == c) then s
  else
    let away := (blockGroups s b).isEmpty
    let s := modBlock s b fun k =>
      { k with unpinned := k.unpinned ++ (pagesOn k c).filter (fun p => !k.unpinned.contains p),
               tiles := k.tiles.filter (fun p => p.1 / 16384 / 8 != c), hdrs := k.hdrs.filter (fun p => p.1 / 16 / 8 != c),
               hdrAge := k.hdrAge.filter (fun p => p.1 / 2 / 8 != c), tileBad := k.tileBad.filter (fun e => e / 16384 / 8 != c),
               st := if away then .swapped else k.st }
    freeSlot s c b

/-- The pieces of its image that were refused are written again: the first that is refused still, with the cause and sub-cause of the
fault, and those after it are left. -/
def writeUnsaved (w : Who) : List Piece → State → State × Option ((Nat × Nat) × List Piece)
  | [], s => (s, none)
  | p :: ps, s =>
    let r := imageStore s w p
    match r.2.2 with
    | some f => (r.1, some (f, p :: ps))
    | none => writeUnsaved { w with clk := r.2.1 } ps r.1

/-- The save's ERET (R271): after every store of the group, and every CADD, is performed, the group leaves its lane. A write of its image
that is refused faults like a store. -/
def eretSave (s : State) : State :=
  if storesDue s.cur || s.cur.ops.any (·.kind == .cadd) || (!s.cur.unsaved.isEmpty && deviceHeld s) then stallOn 21 true s
  else
    let g := s.cur
    match writeUnsaved (imageAgent g.core g.ctx g.lclk) g.unsaved s with
    | (s, some (f, ps)) => trapAt f.1 f.2 accStore false ((ps.head?.map (·.va)).getD 0) (modCur s fun g => { g with unsaved := ps })
    | (s, none) =>
      let s := modCur (countIssue s) fun g => { g with priv := false, st := .swapped, ops := [], unsaved := [] }
      leaveCore s g.core g.blk

/-- How the read of a frame ends: its words with their poison, the trap that it takes, or an access that waits where it is performed. -/
inductive FrameRead where
  | ok (s : State) (ws : List (Word × Option Nat))
  | trap (s : State) (cause sub va : Nat)
  | wait (s : State)

/-- `n` words of a frame read as loads of the group. -/
def frameRead : Nat → Nat → State → FrameRead
  | 0, _, s => .ok s []
  | n + 1, va, s =>
    match address s (whoOf s s.cur) va 4 { r := true } with
    | (s, .error f) => .trap s f.1 f.2 va
    | (s, .ok l) =>
      match groupLoad s s.cur l 4 with
      | .done s clk x bad =>
        match frameRead n (va + 4) (modCur s fun g => { g with lclk := clk }) with
        | .ok s ws => .ok s ((BitVec.ofNat 32 x, bad) :: ws)
        | r => r
      | .trap s c u => .trap s c u va
      | .abort s c => .trap s c 0 va
      | .wait s => .wait s

/-- A poisoned word of the frame itself, with its place, traps (R295). -/
def framePoison (ws : List (Word × Option Nat)) : Option (Nat × Nat) :=
  ws.zipIdx.findSome? fun x => x.1.2.map fun sub => (sub, x.2)

/-- Where the words stand that a restore reads, with how many: the frame, g0 to g3 and v0. -/
def frameParts (g : Group) : List (Nat × Nat) :=
  let at_ := gpair g 0
  [(at_, 48), (at_ + 512, 4), (at_ + 512 + 4 * g.ub, 32)]

/-- The words that a restore reads: the frame, g0 to g3 and v0. -/
def frameWhole (s : State) : FrameRead :=
  let at_ := gpair s.cur 0
  match frameRead 48 at_ s with
  | .ok s ws =>
    match framePoison ws with
    | some p => .trap s 13 p.1 (at_ + 4 * p.2)
    | none =>
      match frameRead 4 (at_ + 512) s with
      | .ok s gs =>
        match frameRead 32 (at_ + 512 + 4 * s.cur.ub) s with
        | .ok s vs => .ok s (ws ++ gs ++ vs)
        | r => r
      | r => r
  | r => r

/-- Word `k` of what a restore has read. -/
def fw (ws : List (Word × Option Nat)) (k : Nat) : Word := (ws.getD k (0, none)).1

/-- The poison that word `k` of what a restore has read came with (R295). -/
def fwBad (ws : List (Word × Option Nat)) (k : Nat) : Option Nat := (ws.getD k (0, none)).2

/-- The poison of register `r` of those that the device has saved, when its word comes with `bad`: two registers share an 8-byte word of
the image, and where one of them was poisoned as it was saved the other comes back as it was (R287). -/
def savedPoison (kept : SMap Nat) (r : Nat) (bad : Option Nat) : Option Nat :=
  if bad.isSome && ((mfind kept (r / 2 * 2)).isSome || (mfind kept (r / 2 * 2 + 1)).isSome) then mfind kept r else bad

/-- The registers that a restore loads (R271). The clock is the frame's, or the front after a rebase, with the raises
that the group's barriers have kept for it. -/
def loadFrame (s : State) (ws : List (Word × Option Nat)) (g : Group) : Group :=
  let clk := if (fw ws 11).toNat = s.cp.rebases then clamp s (fw ws 10) else s.cp.front
  let clk := match (awayGroup s g.blk g.grpib).bind (·.barRaise) with
    | some t => ltMax clk t
    | none => clk
  let kept := awayGroup s g.blk g.grpib
  let gBad := fun r => savedPoison ((kept.map (·.gPoison)).getD []) r (fwBad ws (48 + r))
  let vBad := fun t => savedPoison ((kept.map (·.vPoison)).getD []) t (fwBad ws (52 + t))
  let g := (List.range 4).foldl (fun g r => gpoison (gset g r (fw ws (48 + r))) r (gBad r)) g
  let g := (List.range 32).foldl (fun g t => vpoison (vset g 0 t (fw ws (52 + t))) 0 t (vBad t)) g
  let g := (List.range 8).foldl (fun g r => mwrite g r (fw ws (18 + r))) g
  { g with pc := g.codebase + (fw ws 1).setWidth 64, rix := (fw ws 2).toNat % 64, pmask := fw ws 5, fmt := fmtWritten (fw ws 6),
           flags := flagsWritten (fw ws 7), srs := BitVec.ofNat 64 ((fw ws 8).toNat + 2 ^ 32 * (fw ws 9).toNat), lclk := clk,
           xc := fw ws 12, xcv := (fw ws 13).getLsbD 0, alo := fw ws 14, ahi := fw ws 15, astat := fw ws 16, aid := fw ws 17,
           f := (fw ws 26).setWidth 4, instret := fw ws 27, priv := false, restore := false }

/-- A future of FUTS counted again, or its answer delivered if it came meanwhile (R232, R271). -/
def recountFuture (s : State) (x : Word) : State :=
  let g := s.cur
  let tag := x.toNat / 2 ^ 16
  let w := x.toNat / 2 ^ 12 % 16
  let r := 8 * (x.toNat / 2 ^ 6 % 64)
  if !x.getLsbD 0 then s
  else if s.cp.futures.any (fun f => f.tag == tag && f.blk == g.blk && f.grpib == g.grpib) then
    let s := issueOp s .future (some w) [] [r, r + 1] 0 0 0 false
    { s with cp := { s.cp with futures := s.cp.futures.map fun f =>
      if f.tag == tag then { f with gid := gidOf g, w := w, reg := r } else f } }
  else
    match s.cp.answers.find? (fun a => a.1 == tag) with
    | none => s
    | some a =>
      let s := { s with cp := { s.cp with answers := s.cp.answers.filter (fun a => a.1 != tag) } }
      modCur s fun g => gset (gset g r a.2.1) (r + 1) a.2.2

/-- The launches that a restored group still has outstanding, and the operation of an interrupted instruction: each counted on its counter
again. -/
def takeLaunches (s : State) (kept : Group) : State :=
  let s := kept.ops.foldl (fun s o => modCur s fun g =>
    let g := { g with ops := g.ops ++ [o], nextOp := max g.nextOp (o.id + 1) }
    match o.w with
    | some w => wInc g w
    | none => g) s
  let gid := gidOf s.cur
  let mine := fun (l : Launch) => !isSupName l.gid && l.blk == s.cur.blk && l.grpib == s.cur.grpib
  { s with cp := { s.cp with launches := s.cp.launches.map fun l => if mine l then { l with gid := gid } else l } }

/-- The lull that a restored group enters, and counts (R300, R326): one whose condition holds already is left at once, a counter's joined
(R146). -/
def enterWake (s : State) (ws : List (Word × Option Nat)) (pa : Nat) : State :=
  let g := s.cur
  let w := fun k => (fw ws (28 + k)).toNat
  let cont := g.codebase + (fw ws 29).setWidth 64
  let lull := fun (k : Wake) (s : State) =>
    countStall (modCur s fun g => { g with st := .lull k cont }) (gidOf g) 6 (Config.cycles (freeIx s 40))
  let go := fun (s : State) => modCur s fun g => { g with pc := cont, rix := 0, st := .ready, age := s.turn }
  match w 0 with
  | 1 => if wget g (w 2 % 16) ≤ w 3 % 256 then go (modCur s fun g => joinCounter g (w 2 % 16)) else lull (.count (w 2 % 16) (w 3 % 256)) s
  | 2 =>
    let target := w 4 + 2 ^ 32 * w 5
    let va := w 2 + 2 ^ 32 * (w 3 % 2 ^ 26)
    let req : CtrReq := { va := va, pa := pa, target := target, next := cont, yields := some cont }
    pend (modCur (lull (.monitor pa target) s) fun g => { g with req := some req }) (.cwaitRequest (gidOf g))
  | 3 =>
    let id := w 2 % 16
    if w 2 / 16 % 2 = 1 then
      let k := gridBar s g.blk id
      if k.gen = w 3 % 512 ∧ awaits s k then lull (.grid id) s else go s
    else
      let k := barrierOf s g.blk id
      if k.gen = w 3 % 512 ∧ awaits s k then lull (.barrier id) s else go s
  | 4 => pend (lull .yielded s) (.yieldExpiry (gidOf g))
  | _ => s

/-- The finish times that a group has still to join: those kept of it, and those of the commands that its restore routine issued (R146). -/
def mergeJoins (a b : SMap Word) : SMap Word :=
  a.foldl (fun m p => mset m p.1 (match mfind m p.1 with | some t => ltMax t p.2 | none => p.2)) b

/-- The group's frame has been read (R271): registers, futures, launches and due traps return, PRIV is cleared, and the
group goes on, enters the lull, or is held again, which it counts (R285, R300). -/
def finishRestore (s : State) (ws : List (Word × Option Nat)) (pa : Nat) : State :=
  let g := s.cur
  let kept := awayGroup s g.blk g.grpib
  let s := modCur s fun g =>
    { loadFrame s ws g with st := .ready, age := s.turn, bpSkip := false, due := (kept.map (·.due)).getD [],
                            joins := mergeJoins ((kept.map (·.joins)).getD []) g.joins, walks := [], mid := none }
  let s := (List.range 8).foldl (fun s i => recountFuture s (fw ws (40 + i))) s
  let s := match kept with
    | some k => takeLaunches s k
    | none => s
  let s := modBlock s g.blk fun k => { k with waiting := mdel k.waiting g.grpib }
  let s := enterWake s ws pa
  if (fw ws 3).toNat % 8 = 4 ∧ (ctx s g.ctx).dbg ∧ s.io.dbgOn then
    countStall (modCur s fun g => { g with under := g.st, st := .held }) (gidOf g) 20 (Config.cycles (freeIx s 24))
  else s

/-- The restore's ERET (R271), whose reads of the frame are loads of the group: after a GST of the routine (R110), with walks for their
pages (R241). A frame that is not of version 1 is an engine fault; a counter address of WAKE that does not translate traps as the request of
a CWAITY would (R220). -/
def eretRestore (s : State) : State :=
  withUses { gr := [0, 1] } (afterGst (withWalks { r := true }
    ((frameParts s.cur).flatMap fun p => [p.1, p.1 + 4 * p.2 - 4]) fun s =>
    match frameWhole s with
    | .trap s c u va => trapAt c u accLoad false va s
    | .wait s => stallOn 21 true s
    | .ok s ws =>
      if fw ws 0 ≠ 1 then engineFault 8 false none s
      else if (fw ws 28).toNat ≠ 2 then finishRestore (countIssue s) ws 0
      else
        let va := (fw ws 30).toNat + 2 ^ 32 * ((fw ws 31).toNat % 2 ^ 26)
        walkedAt 8 { r := true } (fun _ => va) (fun s =>
          match address s (whoOf s s.cur) va 8 { r := true } with
          | (s, .error f) => trapAt f.1 f.2 accCounter false va s
          | (s, .ok l) => finishRestore (countIssue s) ws l.pa) s)) s

/-- ERET (R271): ends the save or the restore routine of a group with PRIV set; ILL_ENC elsewhere. -/
def execEret (s : State) : Out :=
  .next (if s.cur.sup || !s.cur.priv then illEnc 0 s else if s.cur.restore then eretRestore s else eretSave s)

/-! ## The request (R133, R188, R268, R285, R324) -/

/-- A copy command of a block is withdrawn from its counter (R188). -/
def withdrawCopy (s : State) (c : CopyCmd) : State := arriveCommand s c.gid c.opId c.w none

/-- The restart area of a core of the span (R188, R270): the block's copies on the core, in the order they issued, and no
record in the rest. -/
def writeRestarts (s : State) (b core : Nat) (cs : List CopyCmd) : State :=
  let ix := (block s b).span.idxOf core
  let ws := cs.flatMap fun c => restartRecord c (c.sub != 0)
  let r := imageWords (imageAgent core ((taskOf s (block s b).task).ctx) s.cp.front) (imageAddr s b + 2048 * (1 + ix))
    ((ws ++ List.replicate 512 0).take 512) s
  match (blockGroups s b).find? (·.core == core) with
  | some g => leaveUnsaved r.1 (gidOf g) r.2
  | none => r.1

/-- The copies of a block on a core stop at a unit boundary, are recorded and withdrawn (R188). DESIGN CHOICE (log 66): the record for
the fault queue of a parked copy that has not been posted yet is dropped with the command. -/
def stopCopies (s : State) (b core : Nat) : State :=
  let k := Machine.core s core
  let mine := (k.parkedCpy ++ k.cpyq).filter fun c => c.blk == b && !isSupName c.gid
  let cs := mine.foldl (fun l c => enqueueCpy { c with started := false } l) []
  let s := writeRestarts s b core cs
  let keep := fun (c : CopyCmd) => !mine.contains c
  let s := modCore s core fun k =>
    { k with cpyq := k.cpyq.filter keep,
             parkedCpy := k.parkedCpy.filter keep,
             replay := k.replay.filter (fun r => !(mine.any fun c => r.cmd == some c.stamp && !r.posted)),
             unposted := k.unposted.filter (fun r => !(mine.any fun c => r.cmd == some c.stamp)) }
  kickEngines (cs.foldl withdrawCopy s) core

/-- The matrix commands of a block on a core stop (R133): one that has not begun at once, one in its array phase at its
next K-block boundary, which is due. -/
def stopMmas (s : State) (b core : Nat) : State :=
  let mine := (Machine.core s core).mmaq.filter fun m => m.blk == b
  let s := (mine.filter fun m => !m.started).foldl (fun s m => withdrawMma s core m 0 m.next) s
  if mine.any (·.started) then
    pend (modCore s core fun k => { k with mmaq := k.mmaq.map fun m =>
      if m.blk == b && m.started then { m with stopping := true } else m }) (.mmaStop core)
  else s

/-- The words of an image that hold the block's barriers (R270, R324): their words, clocks and arrival sets. -/
def barrierWords (s : State) (b : Nat) : List Word :=
  let k := fun id => barrierOf s b id
  (List.range 16).map (fun id => BitVec.ofNat 32 ((k id).gen % 512 * 2 ^ 23 + (k id).count % 512 * 2 ^ 14 + (k id).gcount % 512)) ++
  (List.range 16).map (fun id => if (k id).count = 0 then 0 else (k id).clk) ++ List.replicate 224 0 ++
  (List.range 16).flatMap (fun id => (List.range 16).map fun j =>
    BitVec.ofNat 32 (bitsToNat ((List.range 32).map fun i => (k id).arrived.contains (32 * j + i))))

/-- A pre-emption request reaches a block (R285): its engines stop, its regions abort with cause 6, the barrier words of
its image are written, and each of its groups is to vector. -/
def requestPreemption (s : State) (b : Nat) : State :=
  let k := block s b
  if k.st ≠ .resident then s
  else
    let s := modBlock s b fun k => { k with st := .saving }
    let r := imageWords (imageAgent (k.span.headD 0) (taskOf s k.task).ctx s.cp.front) (imageAddr s b) (barrierWords s b) s
    let s := match (blockGroups s b).head? with
      | some g => leaveUnsaved r.1 (gidOf g) r.2
      | none => r.1
    let s := k.span.foldl (fun s c => stopMmas (stopCopies s b c) b c) s
    (blockGroups s b).foldl (fun s g =>
      let s := regionAbort s (gidOf g) 6 0 none
      pend (modGroup s (gidOf g) fun g => { g with preempt := true }) (.preemptionVector (gidOf g))) s

end

end Sys2Proof.Machine
end

