-- ==== Sys2Proof/Machine/EvGroup.lean ====
section
/-! DEFINITION. Steps of a group and its core (R39, R47, R95, R97, R156, R171, R172, R227, R228, R235, R268, R279, R280,
R285, R306, R319): arrivals, fills, ticks, wakes, traps that no instruction raises, and the posting of fault records. -/

namespace Sys2Proof.Machine

noncomputable section

/-! ## Branches and arrivals -/

/-- A group stalled for one of some reasons looks again; it keeps its place in the selection order (R19). -/
def unstall (s : State) (gid : Nat) (reasons : List Nat) : State :=
  modGroup s gid fun g =>
    match inner g with
    | .stalled r _ => if reasons.contains r then setInner g .ready else g
    | _ => g

/-- BRANCH_RESOLVE (R95): the group can be selected again. -/
def execBranchResolve (gid : Nat) (s : State) : Out := .next (unstall s gid [4])

/-- A read of a line of HBM4E is on its way: its miss has not reached the memory-side cache, or its request waits for its bank or at it
(R161, R166, R321). -/
def lineAwaited (s : State) (line : Nat) : Bool :=
  let pa := line * 128
  (s.pending.any fun e => match e with
    | .mscLineMiss a _ _ => a / 128 == line
    | .hbmRead a => a / 128 == line
    | _ => false) || (bank s (hbmBank pa)).queue.contains (rowOf pa)

/-- An outstanding operation of a group of one of some kinds arrives. -/
def arrive (s : State) (gid op : Nat) (kinds : List OpKind) (f : OpRec → Group → Group) : State :=
  match group s gid with
  | none => s
  | some g =>
    match g.ops.find? (fun o => o.id == op) with
    | none => s
    | some o => if kinds.contains o.kind && o.tag != 1 then recheck (setGroup s (arriveOp (f o g) op)) gid else s

/-- The registers of an operation are poisoned in the threads of a mask; a uniform register if any thread is named
(R171, R295). -/
def poisonDests (sub : Nat) (m : Word) (o : OpRec) (g : Group) : Group :=
  let g := o.vregs.foldl (fun g r => (threads m).foldl (fun g t => vpoison g r t (some sub)) g) g
  if m = 0 then g else o.gregs.foldl (fun g r => gpoison g r (some sub)) g

/-- No load of a core is outstanding, so that every line that its L1 asked for has come (R153). -/
def allCame (s : State) (core : Nat) : State :=
  let waits := (allGroups s).any fun g => g.core == core && g.ops.any fun o => o.tag != 1 && [OpKind.load, .atom, .prf, .gld].contains o.kind
  if waits then s
  else modCore s core fun k => { k with l1 := k.l1.map fun p => (p.1, { p.2 with asked := none }) }

/-- An operation waits for the data of a line that has not come from memory (R171, R321). -/
def dataAwaited (s : State) (gid op : Nat) : Bool :=
  (group s gid).any fun g => g.ops.any fun o => o.id == op && o.lines.any (lineAwaited s)

/-- LOAD_DATA_RETURN (R153, R171, R172): once its lines have come from memory (R321), the destination is ready and the operation arrives;
`poison` names the threads whose data came back as poison from a peer or the host (SUB 5, whatever its origin: log 34). -/
def execLoadDataReturn (gid op : Nat) (poison : Word) (s : State) : Out :=
  .next (if dataAwaited s gid op then pend s (.loadDataReturn gid op poison)
    else allCame (arrive s gid op [.load, .atom, .prf, .gld, .cread] (poisonDests 5 poison)) (gid / 2048))

/-- STORE_PERFORMED (R172). -/
def execStorePerformed (gid op : Nat) (s : State) : Out := .next (arrive s gid op [.store, .atom, .gst] fun _ g => g)

/-- SCRATCH_PHASE (R17, R96, R97): the oldest scratch request at a core completes there; none overtakes it. One whose parts are at several
cores arrives with the last. -/
def execScratchPhase (core : Nat) (s : State) : Out :=
  .next (
    match (Machine.core s core).scq with
    | [] => s
    | (gid, op) :: rest =>
      let s := modCore s core fun k => { k with scq := rest }
      if scratchQueued s gid op then s else arrive s gid op [.scrLoad, .scrStore, .atom] fun _ g => g)

/-! ## Fills -/

/-- CONSTANT_LINE_FILL (R90, R319): the line enters the constant cache and the group looks again. A fill waits where a walk or a read of
its line does (R158, R202, R249). -/
def execConstantLineFill (gid va : Nat) (s : State) : Out :=
  .next (
    match group s gid with
    | none => s
    | some g =>
      if walksHeld s then pend s (.constantLineFill gid va)
      else match address s (whoOf s g) va 4 { r := true } with
      | (s, .error _) => unstall s gid [9]
      | (s, .ok l) =>
        if fillHeld s l then pend s (.constantLineFill gid va)
        else if (lineFault s l).isSome then unstall s gid [9]
        else
          let s := lineRead s g.ctx l
          unstall (modCore s g.core fun k => { k with ccache := putLine s (bankKey s g l) (lineBytes s l) k.ccache }) gid [9])

/-- The first of the three words at a group's PC whose line the instruction cache does not hold. -/
def missingWord (s : State) (g : Group) : Option Nat :=
  ([0, 1, 2].map fun k => (g.pc.toNat + 4 * k) % 2 ^ 64).find? fun va =>
    (mfind (core s g.core).icache (codeKey (codeCtx g) va)).isNone

/-- ICACHE_FILL (R39, R40): the line of the first word that a group waits for enters the instruction cache; a fault of
the fetch is met by the group itself. A fill waits where a walk or a read of its line does (R158, R202, R249). -/
def execIcacheFill (gid : Nat) (s : State) : Out :=
  .next (
    match group s gid with
    | none => s
    | some g =>
      if walksHeld s then pend s (.icacheFill gid)
      else
        match missingWord s g with
        | some va =>
          match fillLine s g va with
          | some s => unstall s gid [17, 18]
          | none => pend s (.icacheFill gid)
        | none => unstall s gid [17, 18])

/-- The groups of a cluster that wait for a walk look again; those of its context go on with its page, whether it found a leaf or ended in
a fault, which each of them then meets itself (R241). -/
def walkEnded (s : State) (cl asid va : Nat) : State :=
  modAll s fun g =>
    if g.core / 8 = cl ∧ inner g = .stalled 10 false then
      setInner (if g.ctx = asid then { g with walks := g.walks ++ [pageNo va] } else g) .ready
    else g

/-- PAGE_WALK (R239 to R241): a walk for a core. It waits while no walk may begin (R158, R249). -/
def execPageWalk (core asid va : Nat) (wr : Bool) (s : State) : Out :=
  .next (if 2 ^ 58 ≤ va then s
    else if walksHeld s then pend s (.pageWalk core asid va wr)
    else
      walkEnded (translate s { core := core, asid := asid, clk := 0, user := false } va { w := wr }).1 (core / 8) asid va)

/-! ## Time -/

/-- DRIFT_TICK (R156): the count has reached TICK: LCLK := LCLK + 1, and the count is 0 again, but for the cycles that the model counted
at once beyond TICK (log 2). -/
def execDriftTick (gid : Nat) (s : State) : Out :=
  .next (modGroup s gid fun g =>
    if tickDue s g then { g with lclk := clamp s g.lclk + 1, drift := g.drift - (ctx s g.ctx).tickNow.toNat } else g)

/-- TICK_RESTART (R156): the counts of every resident group of the context restart, and TICK as it was last written governs them. -/
def execTickRestart (ctx : Nat) (s : State) : Out :=
  .next (modAll (modCtx s ctx fun c => { c with tickNow := c.tick }) fun g =>
    if isResident g && g.ctx == ctx then { g with drift := 0 } else g)

/-! ## The lull (R227, R228) -/

/-- The wake condition of a lulled group holds (R219, R225, R226). A monitor's is its reply (R223). -/
def wakeHolds (s : State) (g : Group) : Bool :=
  match inner g with
  | .lull (.count w n) _ => wget g w ≤ n
  | .lull (.barrier id) _ => !(barrierOf s g.blk id).arrived.contains g.grpib
  | .lull (.grid id) _ => !(gridBar s g.blk id).arrived.contains g.grpib
  | _ => false

/-- LULL_WAKE (R227): a lulled group whose condition holds is ready at its continuation; a counter's is joined
(R146). -/
def execLullWake (gid : Nat) (s : State) : Out :=
  .next (modGroup s gid fun g =>
    if wakeHolds s g then
      wakeGroup s.turn (match inner g with
        | .lull (.count w _) _ => joinCounter g w
        | _ => g)
    else g)

/-- YIELD_EXPIRY (R228): the delay has ended. -/
def execYieldExpiry (gid : Nat) (s : State) : Out :=
  .next (modGroup s gid fun g =>
    match inner g with
    | .lull .yielded _ => wakeGroup s.turn g
    | _ => g)

/-! ## Traps that no instruction raises -/

/-- A group is stalled before an instruction that it has not issued. -/
def stalledBefore (g : Group) : Bool :=
  match g.st with
  | .stalled _ _ => !g.preempt
  | _ => false

/-- WATCHDOG_EXPIRY (R285): a group stalled for longer than its context's WDOG traps with cause 15, its instruction not
issued; what it had asked of a slice is dropped. -/
def execWatchdogExpiry (gid cycles : Nat) (s : State) : Out :=
  .next (
    match group s gid with
    | none => s
    | some g =>
      let limit := (ctx s g.ctx).wdog.toNat
      if limit ≠ 0 ∧ limit < cycles ∧ stalledBefore g then
        let s := makeCur (dropMonitors s gid) gid
        trapHere 15 (cycles % 2 ^ 32) (modCur s fun g => { g with req := none, ticket := none, setF := none })
      else s)

/-- PC_BREAKPOINT (R306): the group traps before its next instruction as BKPT does. -/
def execPcBreakpoint (gid : Nat) (s : State) : Out :=
  .next (
    match group s gid with
    | none => s
    | some g => if g.st = .ready ∧ !g.priv then breakHere (makeCur s gid) else s)

/-- ILLEGAL_INSTRUCTION (R47, R48, R50): ILL_GUARD or ILL_ENC at word `word` of the current group's instruction. -/
def execIllegalInstruction (guard : Bool) (word : Nat) (s : State) : Out :=
  .next (if guard then trapWord 6 word s else illEnc word s)

/-! ## Pre-emption (R268, R285) -/

/-- PREEMPTION_REQUEST (R285). -/
def execPreemptionRequest (blk : Nat) (s : State) : Out :=
  .next (unlessHeld (.preemptionRequest blk) (fun s => requestPreemption s blk) s)

/-- The reason under which a group with a pre-emption pending accrues a cycle (R300): that of its state where it stands earlier in the
table, else pre-empt. -/
def preemptReason (g : Group) : Nat :=
  match g.st with
  | .stalled r _ => min r 19
  | .atBarrier _ => 7
  | .lull _ _ => 6
  | .parked => 11
  | _ => 19

/-- PREEMPTION_VECTOR (R268): a group vectors once its accesses have arrived; until then it counts pre-empt, or what it waits for. -/
def execPreemptionVector (gid : Nat) (s : State) : Out :=
  .next (
    match group s gid with
    | none => s
    | some g =>
      if !g.preempt || !isResident g then s
      else if mayVector s g then unlessHeld (.preemptionVector gid) (fun s => vectorGroup s gid) s
      else countStall s gid (preemptReason g) (Config.cycles s.turn))

/-! ## Posting a fault record (R259, R280) -/

/-- A 64-bit counter at a physical address raised by an agent, as a CADD is (R221), if it does not overflow: its time. A poisoned counter
stays poisoned (R295). -/
def counterAdd (s : State) (ctxId : Nat) (clk : Word) (pa amount : Nat) (v : Via) : Option (State × Word) :=
  let s := sliceReady s ctxId (pa / 128) true v
  let x := readBytes s.mm.mem pa 8 + amount
  if 2 ^ 64 ≤ x then none
  else
    let r := sliceStore s ctxId clk pa 8 x v
    some (stayBad (badAt s pa 8) pa 8 r.1, r.2)

/-- The words of a record written at consecutive addresses by a core: none if an address is refused. -/
def writeRecord (w : Who) : Nat → List Word → State → Option (State × Word)
  | _, [], s => some (s, w.clk)
  | va, x :: xs, s =>
    match address s w va 4 { w := true } with
    | (_, .error _) => none
    | (s, .ok l) =>
      let r := plainStore s w l 4 x.toNat
      writeRecord { w with clk := ltMax w.clk r.2 } (va + 4) xs r.1

/-- The value of a counter of a core's ring, and its leaf. -/
def ringCounter (s : State) (c va : Nat) : Option (State × Nat × Leaf) :=
  match address s (ringAgent c) va 8 { r := true, w := true } with
  | (_, .error _) => none
  | (s, .ok l) => let s := sliceReady s 0 (l.pa / 128) false l.via; some (s, readBytes s.mm.mem l.pa 8, l)

/-- A posted record: its entry is freed at once for a parked copy and a record with RGN = 1, and a parked copy's command
learns its ring index (R280, R284). -/
def markPosted (s : State) (c index : Nat) (r : FaultRec) : State :=
  modCore s c fun k =>
    let replay := if r.frees then k.replay.erase r else k.replay.replace r { r with posted := true }
    { k with replay := replay ++ k.unposted.take (64 - replay.length), unposted := k.unposted.drop (64 - replay.length),
             parkedCpy := k.parkedCpy.map fun q => if r.cmd = some q.stamp then { q with ring := some index } else q }

/-- The clock with which a record is posted: that of the group at the trap, which its word 9 holds; of a parked copy,
the front. -/
def recordClock (s : State) (r : FaultRec) : Word := if r.cmd.isSome then s.cp.front else r.words.getD 9 0

/-- The words of a record that an uncorrectable error has struck are delivered poisoned (R295). -/
def poisonRecord (s : State) (c tail : Nat) (words : List Nat) : State :=
  match (address s (ringAgent c) (ringRecord s c tail) 4 { r := true }).2 with
  | .error _ => s
  | .ok l => { s with mm := { s.mm with bad := words.foldl (fun m i => mset m (l.pa / 8 + i) 3) s.mm.bad } }

/-- A record is written at index `tail` of a core's ring and the tail counter is added (R259). ASID then follows the
record at the head (R235). -/
def appendRecord (s : State) (c tail : Nat) (lt : Leaf) (r : FaultRec) : State :=
  match writeRecord { ringAgent c with clk := recordClock s r } (ringRecord s c tail) r.words s with
  | none => s
  | some (s, clk) =>
    let s := if r.bad.isEmpty then s else poisonRecord s c tail r.bad
    match counterAdd s 0 clk lt.pa 1 lt.via with
    | none => s
    | some (s, _) =>
      let s := modCore s c fun k => { k with fqTail := tail + 1 }
      let s := refreshAsid (markPosted s c tail r) c
      if (core s c).replay.any (fun r => !r.posted) then pend s (.faultRecordPost c) else s

/-- The oldest unposted record of a core is written into the ring and the tail counter is added, if there is room (R259,
R280). -/
def postRecord (s : State) (c : Nat) : State :=
  match (core s c).replay.find? (fun r => !r.posted) with
  | none => s
  | some r =>
    if ringLog s c = 0 then s
    else
      match ringCounter s c (ringBase s c) with
      | none => s
      | some (s, tail, lt) =>
        match ringCounter s c (ringBase s c + 8) with
        | none => s
        | some (s, head, _) => if 2 ^ ringLog s c ≤ tail - head then s else appendRecord s c tail lt r

/-- FAULT_RECORD_POST (R280). -/
def execFaultRecordPost (core : Nat) (s : State) : Out :=
  .next (unlessHeld (.faultRecordPost core) (fun s => postRecord s core) s)

end

end Sys2Proof.Machine
end

