-- ==== Sys2Proof/Machine/EvCounter.lean ====
section
/-! DEFINITION. Steps of counters and monitors (R221 to R224): a CADD at its slice and its answer; a wait's request, its
reply, its refusal and its repetition. -/

namespace Sys2Proof.Machine

noncomputable section

/-! ## CADD (R221) -/

/-- The undo log's account of a CADD that issued in step `step` (R290, R291). -/
def caddInfo (s : State) (g : Group) (va old step : Nat) : UlogInfo :=
  let untracked : Bool := match (address s (whoOf s g) va 8 {}).2 with
    | .ok l => placeOf l == .untracked
    | .error _ => false
  { va := va, type := 1, old := old, flags := if untracked then 9 else 1, size := 3, core := g.core, slot := g.slot, step := step }

/-- The page through which a group reaches an address, as its translation stands. -/
def viaOf (s : State) (g : Group) (va : Nat) : Via :=
  match (address s (whoOf s g) va 8 {}).2 with
  | .ok l => l.via
  | .error _ => {}

/-- The record of a CADD written into its space (R290). That of a refused CADD, whose space is reserved, says that the counter holds
what it held (log 61). -/
def logCadd (s : State) (g : Group) (o : OpRec) (old : Nat) (t : Word) : State :=
  match o.ulog with
  | some (at_, seq, step) => ulogWrite s g.ctx (caddInfo s g o.addr.toNat old step) t (at_, seq)
  | none => s

/-- A CADD is refused, with the cause and the sub-cause of the trap that its answer brings (R221). -/
def refuseCadd (gid op : Nat) (why : Nat × Nat) (s : State) : State :=
  pend (modGroup s gid fun g => { g with ops := g.ops.map fun p => if p.id == op then { p with bad := true, why := why } else p })
    (.caddAnswer gid op)

/-- CADD_AT_SLICE (R139, R147, R221): the addition, at max(LCLK, rts + 1), with LCLK raised to that time; or its refusal, which
changes nothing: for a full counter, or for memory that refuses it by then (R233, R250, R251). A poisoned counter stays poisoned (R295). It
waits where the line is held (R202, R249). -/
def execCaddAtSlice (gid addr amount op : Nat) (s : State) : Out :=
  .next (
    match group s gid with
    | none => s
    | some g =>
      match g.ops.find? (fun o => o.id == op && o.kind == .cadd) with
      | none => s
      | some o =>
        if lineHeld s none (addr / 128) true then pend s (.caddAtSlice gid addr amount op)
        else
          let v := viaOf s g o.addr.toNat
          match memFault s addr v with
          | some f =>
            refuseCadd gid op f (logCadd (noteFault s g.ctx addr f) g o (readBytes s.mm.mem addr 8) (clamp s g.lclk))
          | none =>
            let s := sliceReady s g.ctx (addr / 128) true v
            let old := readBytes s.mm.mem addr 8
            if 2 ^ 64 ≤ old + amount then refuseCadd gid op (14, 0) (logCadd s g o old (clamp s g.lclk))
            else
              let bad := badAt s addr 8
              let r := sliceStore s g.ctx (clamp s g.lclk) addr 8 (old + amount) v
              let s := modGroup (logCadd (stayBad bad addr 8 r.1) g o old r.2) gid fun g => { g with lclk := ltMax g.lclk r.2 }
              pend (noteHead s g { pa := addr, mt := 0, loc := 0 } o.addr.toNat) (.caddAnswer gid op))

/-- CADD_ANSWER (R221): the CADD arrives; the group of a refused one traps at its next boundary. -/
def execCaddAnswer (gid op : Nat) (s : State) : Out :=
  .next (
    match (group s gid).bind fun g => g.ops.find? fun o => o.id == op && o.kind == .cadd with
    | none => s
    | some o =>
      let s := arrive s gid op [.cadd] fun _ g => g
      if o.bad then dueTrap s gid { cause := o.why.1, sub := o.why.2, fba := some o.fba, faddr := o.addr } else s)

/-! ## Waiting on a counter (R223, R224) -/

/-- The wait's condition holds: the group acquires, and goes on after the instruction or, if it is in the lull, at its
continuation (R223). -/
def answerWait (s : State) (gid : Nat) : State :=
  match group s gid with
  | none => s
  | some g =>
    match g.req with
    | none => s
    | some r =>
      let g := { g with lclk := ltMax g.lclk (lineOf s (r.pa / 128)).wts, req := none, ticket := none }
      match inner g with
      | .lull (.monitor _ _) _ => setGroup s (wakeGroup s.turn g)
      | .stalled _ _ =>
        countStall (setGroup s (setInner { atNext r.next g with instret := g.instret + 1 } .ready)) gid 0 1
      | _ => s

/-- A request may take an entry of its slice (R224): none while another's ticket is unserved, unless it comes with a
ticket for which an entry is reserved or a free entry is left. -/
def mayTake (k : Slice) (ticket : Option Nat) : Bool :=
  match ticket with
  | some t => k.resv.contains t || k.mons.length + k.resv.length < 128
  | none => k.nacked.isEmpty && k.mons.length + k.resv.length < 128

/-- A request takes an entry: the group of a CWAITY enters the lull, that of a CWAIT stays stalled. -/
def takeEntry (s : State) (g : Group) (r : CtrReq) : State :=
  let gid := gidOf g
  let s := modSlice s (homeSlice (r.pa / 128)) fun k =>
    { k with mons := k.mons ++ [{ gid := gid, pa := r.pa, target := r.target }],
             nacked := k.nacked.filter (·.gid != gid), resv := k.resv.filter fun t => g.ticket != some t }
  let g := { g with ticket := none }
  match inner g, r.yields with
  | .stalled _ _, some cont =>
    let g := { atNext cont g with instret := g.instret + 1, age := s.turn }
    countStall (setGroup s (setInner g (.lull (.monitor r.pa r.target) cont))) gid 6 (Config.cycles s.turn)
  | .stalled _ _, none => setGroup s (setInner g (.stalled 5 false))
  | _, _ => setGroup s g

/-- A request is refused: it gets a ticket if it has none, and is to be repeated. A group that is stalled counts
monitor-nack. -/
def refuseEntry (s : State) (g : Group) (r : CtrReq) : State :=
  let gid := gidOf g
  let h := homeSlice (r.pa / 128)
  let t := g.ticket.getD (slice s h).tickNo
  let s := if g.ticket.isSome then s
    else modSlice s h fun k =>
      { k with tickNo := (k.tickNo + 1) % 2 ^ 32,
               nacked := k.nacked ++ [{ gid := gid, pa := r.pa, target := r.target, ticket := some t }] }
  let g := { g with ticket := some t }
  let g := match inner g with
    | .stalled _ _ => setInner g (.stalled 16 false)
    | _ => g
  pend (countStall (setGroup s g) gid 16 (Config.cycles s.turn)) (.nackRetry gid)

/-- A request that memory refuses, or whose counter is poisoned, by the time it reaches its slice is given up, and its group traps at its
next boundary (R233, R250, R251, R295): before its instruction, or, where an entry that it had taken was freed again, at its continuation in
the lull (log 82). -/
def refuseWait (s : State) (g : Group) (r : CtrReq) (f : Nat × Nat) : State :=
  let s := modSlice (noteFault s g.ctx r.pa f) (homeSlice (r.pa / 128)) fun k =>
    { k with nacked := k.nacked.filter (·.gid != gidOf g), resv := k.resv.filter fun t => g.ticket != some t }
  let g := { g with req := none, ticket := none }
  let g := match inner g with
    | .lull _ _ => wakeGroup s.turn g
    | .stalled _ _ => setInner g .ready
    | _ => g
  dueTrap (setGroup s g) (gidOf g) { cause := f.1, sub := f.2, faddr := BitVec.ofNat 64 r.va }

/-- What ends a counter wait at its slice, if anything does (R250, R251, R295). -/
def waitFault (s : State) (g : Group) (r : CtrReq) : Option (Nat × Nat) :=
  (memFault s r.pa (viaOf s g r.va)).orElse fun _ => (badAt s r.pa 8).map fun n => (13, n)

/-- A request at its slice (R223, R224). -/
def serveWait (s : State) (gid : Nat) : State :=
  match group s gid with
  | none => s
  | some g =>
    match g.req with
    | none => s
    | some r =>
      match waitFault s g r with
      | some f => refuseWait s g r f
      | none =>
      let s := sliceReady s g.ctx (r.pa / 128) false (viaOf s g r.va)
      let k := slice s (homeSlice (r.pa / 128))
      if r.target ≤ readBytes s.mm.mem r.pa 8 then
        answerWait (modSlice s (homeSlice (r.pa / 128)) fun k =>
          { k with nacked := k.nacked.filter (·.gid != gid), resv := k.resv.filter fun t => g.ticket != some t }) gid
      else if k.mons.any (·.gid == gid) then s
      else if mayTake k g.ticket then takeEntry s g r
      else refuseEntry s g r

/-- A group's request waits where it is performed (R202, R249). -/
def waitHeld (s : State) (gid : Nat) : Bool := (group s gid).any fun g => g.req.any fun r => lineHeld s none (r.pa / 128) false

/-- CWAIT_REQUEST (R223): a new request reaches its slice. -/
def execCwaitRequest (gid : Nat) (s : State) : Out :=
  .next (if waitHeld s gid then pend s (.cwaitRequest gid)
    else if (group s gid).any fun g => g.ticket.isNone then serveWait s gid else s)

/-- NACK_RETRY (R224): a refused request is repeated with its ticket. It is a request of its core's, which a rebase holds back (R158). -/
def execNackRetry (gid : Nat) (s : State) : Out :=
  .next (if rebasing s || waitHeld s gid then pend s (.nackRetry gid)
    else if (group s gid).any fun g => g.ticket.isSome then serveWait s gid else s)

/-- The first monitor of a group, in any slice. -/
def monitorOf (s : State) (gid : Nat) : Option (Nat × Mon) :=
  s.slices.findSome? fun p => (p.2.mons.find? fun m => m.gid == gid).map fun m => (p.1, m)

/-- MONITOR_REPLY (R223): a monitor whose condition holds, or has come true by a write, replies with its line's wts, which the slice
recalls from an owner (R155), and its entry is freed. -/
def execMonitorReply (gid : Nat) (s : State) : Out :=
  .next (
    match monitorOf s gid with
    | none => s
    | some (i, m) =>
      if m.due || m.target ≤ readBytes s.mm.mem m.pa 8 then
        answerWait (modSlice (recallLine s (m.pa / 128)) i (freeMons fun x => x.gid == gid)) gid
      else s)

/-- A wait's request whose address is translated afresh (R224, R272): as it stood where the translation is refused by now. -/
def freshRequest (s : State) (gid : Nat) : State :=
  match group s gid with
  | none => s
  | some g =>
    match g.req with
    | none => s
    | some r =>
      match address s (whoOf s g) r.va 8 { r := true } with
      | (s, .error _) => s
      | (s, .ok l) => if inDevice l then modGroup s gid fun g => { g with req := some { r with pa := l.pa } } else s

/-- MONITOR_REARM (R224): an entry held too long is freed, and the request is repeated as a new one, its address translated afresh. It is a
request of its core's, which waits where a walk does (R158). -/
def execMonitorRearm (gid : Nat) (s : State) : Out :=
  .next (
    match monitorOf s gid with
    | none => s
    | some (i, _) =>
      if walksHeld s then pend s (.monitorRearm gid)
      else
        let s := modGroup (modSlice s i (freeMons fun x => x.gid == gid)) gid fun g => { g with ticket := none }
        pend (freshRequest s gid) (.cwaitRequest gid))

/-- TICKET_RESERVATION_EXPIRY (R224): the oldest reservation of a slice ends. -/
def execTicketReservationExpiry (slice : Nat) (s : State) : Out :=
  .next (modSlice s slice fun k => { k with resv := k.resv.drop 1 })

end

end Sys2Proof.Machine
end

