-- ==== Sys2Proof/Machine/EvMemory.lean ====
section
/-! DEFINITION. Steps of the memory system (R150, R154, R155, R157, R158, R160 to R167, R249, R321, R325): slices, L1s, the
memory-side cache, the HBM4E controllers, the counter tree and the front. -/

namespace Sys2Proof.Machine

noncomputable section

/-! ## Slices and L1s -/

/-- A line that a slice serves: device memory of R237 that is not the window of registers, and not refused by R250 or
R251. -/
def servesLine (s : State) (line : Nat) : Bool :=
  deviceOk (line * 128) && !(mmioBase ≤ line * 128 && line * 128 < mmioTop) && (memFault s (line * 128)).isNone

/-- The agent of a core that asks for a line on its own account. -/
def lineAgent (s : State) (core asid : Nat) (t : Word) : Who :=
  { core := core, asid := asid, clk := t, lease := (ctx s asid).lease.toNat }

/-- SLICE_READ_SERVICE (R153): a miss of a core at time `t`; nothing is asked for while a copy serves that time. It waits where the line
is held (R158, R202, R249). -/
def execSliceReadService (core asid line : Nat) (t : Word) (s : State) : Out :=
  .next (if !servesLine s line then s
    else if mustWait s none line false then pend s (.sliceReadService core asid line t)
    else (trackedLine s (lineAgent s core asid t) line {}).1)

/-- OWNERSHIP_REQUEST (R155). It waits where the line is held (R158, R202, R249). -/
def execOwnershipRequest (core asid line : Nat) (s : State) : Out :=
  .next (if !servesLine s line then s
    else if mustWait s none line true then pend s (.ownershipRequest core asid line)
    else ownLine s (lineAgent s core asid 0) line {})

/-- OWNER_RECALL (R155). -/
def execOwnerRecall (line : Nat) (s : State) : Out :=
  .next (if (l2Line s line).isSome then recallLine s line else s)

/-- L1_REPLACEMENT (R154, R155, R195, R325): a shared copy is dropped silently, an exclusive line is written back. -/
def execL1Replacement (core asid line : Nat) (s : State) : Out := .next (replaceL1 s none core asid line)

/-- L2_EVICTION (R150, R161, R249): the owner is recalled, EVTS rises to the line's rts, and a dirty line is written to
the memory side. -/
def execL2Eviction (line : Nat) (s : State) : Out := .next (if (l2Line s line).isNone then s else evictLine s line)

/-- UNTRACKED_ACCESS (R160): an untracked or direct access of a group's agent to device memory: a load, or with data a
store, whose time the group's clock takes. It waits where the line is held (R158, R202, R249). -/
def execUntrackedAccess (gid pa n : Nat) (direct : Bool) (data : Option Nat) (s : State) : Out :=
  .next (
    match group s gid with
    | none => s
    | some g =>
      if !servesLine s (pa / 128) || !([1, 2, 4, 8].contains n) || pa % n != 0 then s
      else if mustWait s none (pa / 128) data.isSome then pend s (.untrackedAccess gid pa n direct data)
      else
        match data with
        | none => if direct then (directLoad s g.ctx pa n {}).1 else (untrackedLoad s g.ctx pa n {}).1
        | some x =>
          let r := if direct then directStore s g.ctx pa n x {} else untrackedStore s g.ctx pa n x {}
          modGroup r.1 gid fun g => { g with lclk := ltMax g.lclk r.2 })

/-! ## The memory-side cache -/

/-- MSC_LINE_MISS (R161 to R163): a read that missed in the L2 reaches the cache. -/
def execMscLineMiss (pa ctx : Nat) (noAlloc : Bool) (s : State) : Out := .next (mscRead s pa ctx noAlloc)

/-- MSC_EVICTION (R162): a line of a set is evicted. -/
def execMscEviction (stack set tag : Nat) (s : State) : Out :=
  .next (
    let key := stack % 8 * 1024 + set % 1024
    match (mscSet s key).find? (fun x => x.tag == tag) with
    | none => s
    | some x => setMsc (mscEvict s x) key ((mscSet s key).filter fun y => y.tag != tag))

/-- A stack's window of scratch of a grant: its first byte and its bytes (R164). -/
def grantWindow (stack : Nat) (g : Word) : Nat × Nat :=
  (mscBase + stack * 2 ^ 40, g.toNat / 2 ^ 20 % 16 * (g.toNat / 2 ^ 10 % 2 ^ 10 + 1) * 2048)

/-- The bytes of a range of device memory zeroed: none is listed, and none is poisoned. -/
def zeroRange (s : State) (a n : Nat) : State :=
  clearBad (modMem s fun m => m.filter fun c => !(a ≤ c.1 && c.1 < a + n)) a n

/-- A write of MSCGRANT is refused (R164). -/
def grantRefused (old new : Word) : Bool :=
  let ways := new.toNat / 2 ^ 20 % 16
  ways == 0 || 12 < ways || 1023 < new.toNat % 2 ^ 10 + new.toNat / 2 ^ 10 % 2 ^ 10 ||
    (old.getLsbD 31 && (old.toNat % 2 ^ 30 != new.toNat % 2 ^ 30))

/-- The lines of a set that stand in the `ways` ways converted: which ways hold which lines is free (log 2), but no more go than ways are
converted, and no more stay than ways are left. -/
def convertedLines (s : State) (ways : Nat) (xs : List MscLine) : List MscLine :=
  let named := (xs.filter fun x => Config.freeBit (freeIx s 26 + 2 ^ 64 * x.tag)).take ways
  named ++ (xs.filter fun x => !named.contains x).drop (16 - ways)

/-- The sets of a stack that a grant names lose the lines in the ways converted. -/
def convertSets (s : State) (stack : Nat) (g : Word) : State :=
  let first := g.toNat % 2 ^ 10
  (List.range (g.toNat / 2 ^ 10 % 2 ^ 10 + 1)).foldl (fun s i =>
    let key := stack * 1024 + first + i
    let gone := convertedLines s (g.toNat / 2 ^ 20 % 16) (mscSet s key)
    setMsc (gone.foldl mscEvict s) key ((mscSet s key).filter fun x => !gone.contains x)) s

/-- A write of MSCGRANT (R164): refused with ERR; a conversion; a return; or the fields alone while EN stays 0. -/
def writeGrant (s : State) (stack : Nat) (val : Word) : State :=
  let old := mget 0 s.mm.grant stack
  let put := fun (s : State) (x : Word) => { s with mm := { s.mm with grant := mput 0 s.mm.grant stack x } }
  let new := val &&& 0xBFFFFFFF
  if grantRefused old val then put s (old ||| 0x40000000)
  else
    let w := grantWindow stack new
    if new.getLsbD 31 && !old.getLsbD 31 then zeroRange (convertSets (put s new) stack new) w.1 w.2
    else if !new.getLsbD 31 && old.getLsbD 31 then zeroRange (put s new) w.1 w.2
    else put s new

/-- MSCGRANT_CONVERT (R164): the firmware writes a stack's register. -/
def execMscgrantConvert (stack : Nat) (val : Word) (s : State) : Out :=
  .next (if 8 ≤ stack then s else writeGrant s stack val)

/-- MSCGRANT_RETURN (R164): EN written 0, the fields as they stand. -/
def execMscgrantReturn (stack : Nat) (s : State) : Out :=
  .next (if 8 ≤ stack || !(mget 0 s.mm.grant stack).getLsbD 31 then s
    else writeGrant s stack (mget 0 s.mm.grant stack &&& 0x3FFFFFFF))

/-! ## HBM4E (R165 to R167) -/

/-- A bank serves a request (R166): its oldest, opening its row if need be; or, if `ahead`, one to the open row before an older one to
another row, unless 16 have passed since the row was opened. -/
def serveNext (ahead : Bool) (b : Bank) : Bank :=
  match b.queue with
  | [] => b
  | r :: rs =>
    if ahead && b.pass < 16 && b.row.any (fun o => o != r && rs.contains o) then
      { b with queue := b.queue.erase (b.row.getD 0), pass := b.pass + 1 }
    else if b.row = some r then { b with queue := rs }
    else { b with row := some r, pass := 0, queue := rs }

/-- A bank serves some of its requests; which of them pass an older one is given. -/
def serveMany (ahead : Nat → Bool) : Nat → Bank → Bank
  | 0, b => b
  | n + 1, b => serveMany ahead n (serveNext (ahead n) b)

/-- A bank serves as many of its requests as the controller's timing lets it, which is free, as is the choice of those that pass an
older one (log 2). -/
def serveSome (s : State) (key : Nat) (b : Bank) : Bank :=
  serveMany (fun n => Config.freeBit (freeIx s 27 + 2 ^ 64 * (key * 64 + n)))
    (Config.pick (freeIx s 28 + 2 ^ 64 * key) % (b.queue.length + 1)) b

/-- The bank's next step is due: while requests wait the controller serves them, and then its row may be closed (R166). -/
def bankDue (s : State) (key : Nat) : State := if s.pending.contains (.rowIdleClose key) then s else pend s (.rowIdleClose key)

/-- HBM_READ (R166, R321): a read reaches its bank's queue; a bank that has no older request and whose row is closed, or open at the
read's row, serves it, and other requests are served as the timing lets them. None is served within an all-bank refresh (R167). -/
def execHbmRead (pa : Nat) (s : State) : Out :=
  .next (
    if hbmTop ≤ pa then s
    else
      let key := hbmBank pa
      let b := bank s key
      let q := { b with queue := b.queue ++ [rowOf pa], pend := b.pend + 1 }
      bankDue (setBank s key (
        if (pseudo s (pcOf pa)).refab then q
        else if b.queue.isEmpty ∧ (b.row = none ∨ b.row = some (rowOf pa)) then serveNext false q
        else serveSome s key q)) key)

/-- A bank's row is closed with its issued reads at their ends: those in its queue are pending still (R166, R167). -/
def closeRow (b : Bank) : Bank := { b with row := none, pend := b.queue.length }

/-- ROW_IDLE_CLOSE (R166): the row of a bank without a request in its queue is closed; while requests wait there, those that the
controller's timing lets it are served first, the next at least, but none within an all-bank refresh (R167). -/
def execRowIdleClose (bank : Nat) (s : State) : Out :=
  .next (
    let b := Machine.bank s bank
    if b.queue.isEmpty then setBank s bank (closeRow b)
    else if (pseudo s (bank / 16)).refab then bankDue s bank
    else
      let r := setBank s bank (serveSome s bank (serveNext (Config.freeBit (freeIx s 29 + 2 ^ 64 * bank)) b))
      bankDue r bank)

/-- The trace record of a refresh slot (R303): the outcome is 0 refresh, 1 postpone, 2 forced all-bank, 3 skipped. -/
def slotRecord (s : State) (p ptr outcome ppc : Nat) : State :=
  traceRecord s 30 (9 * 2 ^ 60 + p / 64 * 2 ^ 57 + p / 2 % 32 * 2 ^ 52 + p % 2 * 2 ^ 51 + ptr % 4 * 2 ^ 49 + ptr / 4 * 2 ^ 47 +
    outcome * 2 ^ 45 + ppc * 2 ^ 41 + Config.cycles s.turn % 2 ^ 32)

/-- A slot of a pseudo-channel (R167). A read whose burst has begun may still be pending: its end is not kept (log 2). -/
def refreshSlot (s : State) (pc : Nat) : State :=
  let p := pseudo s pc
  let p := { p with slots := p.slots + 1 }
  let key := pc * 16 + p.ptr
  let b := bank s key
  let pending := !b.queue.isEmpty || (0 < b.pend && Config.freeBit (freeIx s 29 + 2 ^ 64 * pc))
  if p.refab then slotRecord (setPseudo s pc p) pc p.ptr 3 p.ppc
  else if pending && p.ppc < 8 then slotRecord (setPseudo s pc { p with ppc := p.ppc + 1 }) pc p.ptr 1 (p.ppc + 1)
  else if pending then
    slotRecord (pend (setPseudo s pc { p with ppc := 0, refab := true }) (.allBankRefresh pc)) pc p.ptr 2 0
  else slotRecord (setPseudo (setBank s key (closeRow b)) pc { p with ptr := (p.ptr + 1) % 16 }) pc p.ptr 0 p.ppc

/-- The pseudo-channels below `pc` that have not come to its next slot. -/
def behind (s : State) (pc : Nat) : List Nat := (List.range pc).filter fun q => (pseudo s q).slots ≤ (pseudo s pc).slots

/-- REFRESH_SLOT (R167): the slots of all pseudo-channels fall in the same cycles, and their records enter the trace in ascending order:
those below this one that have not come to this slot come first, and that of the one above it is due. -/
def execRefreshSlot (pc : Nat) (s : State) : Out :=
  .next (
    if 512 ≤ pc then s
    else
      let s := refreshSlot ((behind s pc).foldl refreshSlot s) pc
      if pc + 1 < 512 ∧ (pseudo s (pc + 1)).slots < (pseudo s pc).slots ∧ !s.pending.contains (.refreshSlot (pc + 1)) then
        pend s (.refreshSlot (pc + 1))
      else s)

/-- ALL_BANK_REFRESH (R167): every bank of the pseudo-channel is closed, and its queue is served again. -/
def execAllBankRefresh (pc : Nat) (s : State) : Out :=
  .next (
    if !(pseudo s pc).refab then s
    else
      let s := (List.range 16).foldl (fun s i =>
        setBank s (pc * 16 + i) (serveSome s (pc * 16 + i) (closeRow (bank s (pc * 16 + i))))) s
      setPseudo s pc { pseudo s pc with refab := false })

/-! ## Verified memory (R249, R250) -/

/-- MEMORY_WRITEBACK (R249): the line's minor advances, with the nodes above it; at 127 the group is re-encrypted first. -/
def execMemoryWriteback (line : Nat) (s : State) : Out :=
  .next (
    let grp := line / 16
    if !verifiedLine s line || deadGroup s grp then s
    else if mget 0 (ctrBlk s grp).minors (line % 16) < 127 then advanceMinor s line
    else pend (pend s (.groupReencryption grp)) (.memoryWriteback line))

/-- GROUP_REENCRYPTION (R249): of a group one of whose minors has reached 127. -/
def execGroupReencryption (grp : Nat) (s : State) : Out :=
  .next (if deadGroup s grp || !(ctrBlk s grp).minors.any (fun p => p.2 == 127) then s else reencrypt s grp)

/-! ## The front (R157, R158) -/

/-- The latest of some times, none before the front. -/
def latest (s : State) (ts : List Word) : Word := ts.foldl (fun t x => ltMax t (clamp s x)) s.cp.front

/-- The times that a core holds: its groups', its engine commands' and its L1 lines'. -/
def coreTimes (s : State) (c : Nat) : List Word :=
  let k := core s c
  (((allGroups s).filter fun g => g.core == c).flatMap fun g => [g.lclk, g.alo, g.ahi]) ++
    k.cpyq.map (·.eclk) ++ k.parkedCpy.map (·.eclk) ++ k.mmaq.map (·.eclk) ++ k.l1.flatMap fun p => [p.2.wts, p.2.rts]

/-- The times that a slice holds: its EVTS and its lines'. -/
def sliceTimes (s : State) (i : Nat) : List Word :=
  (slice s i).evts :: (s.mm.lines.filter fun p => homeSlice p.1 == i).flatMap fun p => [p.2.wts, p.2.rts]

/-- The times that a sender of reports holds, numbered as `broadcastFront` numbers destinations. -/
def senderTimes (s : State) (sender : Nat) : List Word :=
  if sender < 192 then coreTimes s sender else if sender < 256 then sliceTimes s (sender - 192)
  else if sender = 256 then [s.io.cxlClk] else [ualClock s (sender - 257)]

/-- A sender reports the latest time it holds. -/
def reportTime (s : State) (sender : Nat) : State :=
  { s with cp := { s.cp with reports := mset s.cp.reports sender (latest s (senderTimes s sender)) } }

/-- FRONT_REPORT (R157): a sender reports, and with it those of lower numbers that hold times: the reports of a boundary are of one
cycle. -/
def execFrontReport (sender : Nat) (s : State) : Out :=
  .next (if 275 ≤ sender then s else reportTime (((frontDests s).filter (· < sender)).foldl reportTime s) sender)

/-- FRONT_RAISE (R157): the decision, once every holder of a time has reported: the front rises to H − 2^29 when H is more
than 2^30 after it and the last raise's passes are complete. -/
def execFrontRaise (s : State) : Out :=
  .next (
    if !(frontDests s).all (fun d => (mfind s.cp.reports d).isSome) then s
    else
      let h := latest s (s.cp.reports.map (·.2))
      let s := { s with cp := { s.cp with reports := [] } }
      if 2 ^ 30 < (h - s.cp.front).toNat && mayRaise s then raiseFront s (h - 0x20000000) else s)

/-- FRONT_BROADCAST (R157). -/
def execFrontBroadcast (dest : Nat) (s : State) : Out := .next (if 275 ≤ dest then s else broadcastFront s dest)

/-- SLICE_SWEEP (R157): the slice visits its next line, in ascending order of address, and rewrites a time before the
front; after the last one its pass is complete. -/
def execSliceSweep (slice : Nat) (s : State) : Out :=
  .next (
    if 64 ≤ slice then s
    else
      let k := Machine.slice s slice
      match s.mm.lines.find? fun p => homeSlice p.1 == slice && k.sweep ≤ p.1 with
      | none => modSlice s slice fun k => { k with sweep := 0, swept := true }
      | some p =>
        let s := modSlice (setL2 s p.1 (lineOf s p.1)) slice fun k => { k with sweep := p.1 + 1 }
        if k.swept then s else pend s (.sliceSweep slice))

/-- L1_SWEEP (R157): exclusive lines' times are rewritten, shared copies that expired before the front are dropped. -/
def execL1Sweep (core : Nat) (s : State) : Out :=
  .next (
    if 192 ≤ core then s
    else
      let s := modCore s core fun k => { k with l1 := (k.l1.filter fun p => p.2.excl || !before p.2.rts s.cp.front).map fun p =>
        (p.1, if p.2.excl then { p.2 with wts := clamp s p.2.wts, rts := clamp s p.2.rts } else p.2) }
      if s.cp.l1Swept.contains core then s else { s with cp := { s.cp with l1Swept := s.cp.l1Swept ++ [core] } })

/-- REBASE (R158): after the requests in flight. -/
def execRebase (f : Word) (s : State) : Out :=
  .next (if requestInFlight s then pend s (.rebase f) else rebaseNow s f)

end

end Sys2Proof.Machine
end

