-- ==== Sys2Proof/Machine/EvPort.lean ====
section
/-! DEFINITION. Steps of the CXL port, the UALink ports, the host and the peers (R148, R160, R178, R242, R244, R250, R251,
R254 to R256, R295, R297, R298). Port 0 is the CXL port; port 1 + p is UALink port p. -/

namespace Sys2Proof.Machine

noncomputable section

/-! ## Messages -/

/-- A message that leaves the device. Kinds: 0 BISnpData, 1 BISnpInv, 2 a held breakpoint, 3 a store's completion, 4 a
load's data, 5 poison, 6 an atomic's old value, 7 a snoop that found nothing, 8 a heartbeat, 10 a fenced peer's network address, which this
device takes over. -/
def send (s : State) (kind port pa : Nat) (data : List Nat) : State :=
  { s with io := { s.io with out := s.io.out ++ [{ kind := kind, port := port, pa := pa, data := data }] } }

/-- A link, and the state with one changed. -/
def link (s : State) (p : Nat) : Link := mget {} s.io.links p
def modLink (s : State) (p : Nat) (f : Link → Link) : State := { s with io := { s.io with links := mmod {} s.io.links p f } }

/-! ## Stores, loads and atomics of ports (R148, R160) -/

/-- A port serves accesses: its link is up, as the boot leaves it once the firmware is READY (R297, R310). -/
def portUp (s : State) (port : Nat) : Bool := s.fw.status == 2 && !(link s port).down

/-- An access of a port that is down: the host's completes with poison, a peer's does not come (R297). -/
def portDown (s : State) (port pa : Nat) : State := if port = 0 then send s 5 port pa [] else s

/-- The words of the MMIO window that the host reaches through BAR0, by their offset: the mailbox and the capability mirror (R313). -/
def inBar0 (o : Nat) : Bool := 0x1000 ≤ o && o < 0x2400

/-- The host's access of `n` bytes to the window, over CXL.io (R313): aligned, of 1, 2, 4 or 8 bytes. -/
def barRange (port pa n : Nat) : Bool := port == 0 && mmioBase ≤ pa && pa < mmioTop && [1, 2, 4, 8].contains n && pa % n == 0

/-- A port's clock. -/
def portClock (s : State) (port : Nat) : Word := if port = 0 then clamp s s.io.cxlClk else ualClock s (port - 1)

/-- A port's clock is raised to a time that a completion returned (R148). -/
def raisePort (s : State) (port : Nat) (t : Word) : State :=
  if port = 0 then { s with io := { s.io with cxlClk := ltMax (portClock s port) t } }
  else { s with io := { s.io with ualClk := mset s.io.ualClk (port - 1) (ltMax (portClock s port) t) } }

/-- An access of a port that stays within a line of HBM4E. -/
def portRange (port pa n : Nat) : Bool := port < 19 && 0 < n && pa % 128 + n ≤ 128 && pa + n ≤ hbmTop

/-- What a refused access of a port leaves behind: poison answers it, and a failed check is logged and flags the page's owner (R251). -/
def portRefused (s : State) (port pa : Nat) (f : Nat × Nat) : State :=
  send (noteFault s ((ownOf s pa).toNat / 2 ^ 8 % 64) pa f) 5 port pa []

/-- The line that a port reaches made ready at its slice: a peer's access is a device event for the host's copies
(R255), the host's own is not. -/
def portLine (s : State) (port pa : Nat) (write : Bool) : State :=
  let s := if port = 0 then s else snoopHost s (pa / 128) write
  recallLine (ensureLine s 0 (pa / 128) {}) (pa / 128)

/-- A port's store placed at max(carried clock, rts + 1) (R148): the completion returns the time. -/
def placeStore (s : State) (port pa n x : Nat) : State × Word :=
  let line := pa / 128
  let s := portLine s port pa true
  let l := lineOf s line
  let t := ltMax (portClock s port) (l.rts + 1)
  let s := setL2 s line { l with wts := t, rts := t, writer := 0, dirty := true }
  (raisePort (storeRules (devWrite s pa n x) line t) port t, t)

/-- The host may not reach a page of a verified context, nor one that is not marked for it (R244). -/
def hostBarred (s : State) (pa : Nat) : Bool := !(ownOf s pa).getLsbD 15 || (ownOf s pa).getLsbD 14

/-- A write of the host's to a line that it owns ends its ownership: the slice holds the data from then on (R255). DESIGN CHOICE (log 57).
-/
def hostGivesBack (s : State) (port line : Nat) : State :=
  if port = 0 && hostHolds s line == some true then modSlice s (homeSlice line) fun k => { k with snoop := mdel k.snoop line } else s

/-- PORT_STORE (R148, R244, R250, R297): the host's store to a page it may not reach is dropped and logged; a store to a
poisoned group or a line that fails its check is answered with poison. It waits where the line is held (R158, R202, R249). A store of the
host's through BAR0 is a register write; it reaches nothing there but the mailbox and the capability mirror (R313). -/
def execPortStore (port pa n data : Nat) (s : State) : Out :=
  .next (
    if barRange port pa n then (if inBar0 (pa - mmioBase) then pend s (.registerWrite pa n data) else s)
    else if !portRange port pa n then s
    else if !portUp s port then portDown s port pa
    else if port = 0 && hostBarred s pa then logError s 4 9 0 pa (ownerOf s pa) []
    else if mustWait s none (pa / 128) true then pend s (.portStore port pa n data)
    else
      match memFault s pa with
      | some f => portRefused s port pa f
      | none =>
        let r := placeStore (hostGivesBack s port (pa / 128)) port pa n data
        send r.1 3 port pa [r.2.toNat])

/-- The set of a line in its slice's share of the snoop filter: 4,096 sets of 16 (R255; the index is a DESIGN CHOICE, log 24). -/
def snoopSet (line : Nat) : Nat := line / 64 % 4096

/-- The lines of a slice's snoop filter that stand in the set of a line, in the order in which they were filled. -/
def snoopEntries (s : State) (line : Nat) : List (Nat × HostLine) :=
  (slice s (homeSlice line)).snoop.filter fun p => snoopSet p.1 == snoopSet line

/-- The entry of a list that was filled least recently. -/
def firstFilled : List (Nat × HostLine) → Option Nat
  | [] => none
  | p :: ps =>
    match firstFilled ps with
    | none => some p.1
    | some q => if p.2.filled ≤ (mget p.2 ps q).filled then some p.1 else some q

/-- What a load leaves the host holding is the host's choice (log 2): what it held, a shared copy, or the line owned. A line that it owns
it goes on to own, so that the slice keeps no data of it (R255). -/
def hostTakes (s : State) (line : Nat) : Option Bool :=
  if hostHolds s line = some true then some true
  else match Config.pick s.turn % 3 with
  | 0 => none
  | 1 => if (hostHolds s line).isSome then none else some false
  | _ => some true

/-- A port load reads as an untracked load (R148, R160); poison answers a fault or an uncorrectable error. -/
def portRead (s : State) (port pa n : Nat) : State :=
  match memFault s pa with
  | some f => portRefused s port pa f
  | none =>
    let s := portLine s port pa false
    if (badAt s pa n).isSome then send s 5 port pa [] else send s 4 port pa [readBytes s.mm.mem pa n]

/-- A host load that needs an entry in a full set waits for the back-invalidation of the least recently filled one
(R255). Of a line that it takes owned the slice keeps no data. -/
def hostLoad (s : State) (pa n : Nat) : State :=
  let line := pa / 128
  let h := homeSlice line
  match hostTakes s line with
  | none => portRead s 0 pa n
  | some owned =>
    let es := snoopEntries s line
    if (hostHolds s line).isNone && 16 ≤ es.length then
      match firstFilled es with
      | none => s
      | some v =>
        let s := if (mfind (slice s h).bisnp v).isSome then s else send s 1 0 (v * 128) []
        modSlice s h fun k => { k with bisnp := mmod [] k.bisnp v (· ++ [.portLoad 0 pa n]) }
    else
      let s := modSlice (portRead s 0 pa n) h fun k => { k with snoop := mset k.snoop line { owned := owned, filled := s.turn } }
      if owned ∧ (l2Line s line).isSome then evictLine s line else s

/-- PORT_LOAD (R148, R244, R255, R256, R297). It waits where the line is held (R158, R202, R249). A load of the host's through BAR0 reads
the mailbox and the capability mirror (R313); what is not reachable there reads 0 (PRESUMED, log 86). -/
def execPortLoad (port pa n : Nat) (s : State) : Out :=
  .next (
    if barRange port pa n then send s 4 0 pa [if inBar0 (pa - mmioBase) then mmioRead s 0 pa n else 0]
    else if !portRange port pa n then s
    else if !portUp s port then portDown s port pa
    else if port = 0 && hostBarred s pa then send s 5 port pa []
    else if mustWait s none (pa / 128) false then pend s (.portLoad port pa n)
    else if port != 0 then portRead s port pa n
    else
      let h := homeSlice (pa / 128)
      match mfind (slice s h).bisnp (pa / 128) with
      | some _ => modSlice s h fun k => { k with bisnp := mmod [] k.bisnp (pa / 128) (· ++ [.portLoad 0 pa n]) }
      | none => hostLoad s pa n)

/-- BISNP_RESPONSE (R256): the data that an owner returns is placed, the entry is freed, and the requests held are served
as fresh ones. -/
def execBisnpResponse (line : Nat) (data : Option Nat) (s : State) : Out :=
  .next (
    let h := homeSlice line
    match mfind (slice s h).bisnp line with
    | none => s
    | some held =>
      let s := match data, hostHolds s line with
        | some x, some true => (placeStore s 0 (line * 128) 128 x).1
        | _, _ => s
      let s := modSlice s h fun k => { k with bisnp := mdel k.bisnp line, snoop := mdel k.snoop line }
      held.foldl pend s)

/-- HOST_SNOOP (R254): the device holds no host line. -/
def execHostSnoop (line : Nat) (s : State) : Out := .next (send s 7 0 (line * 128) [])

/-- The value that a UALink atomic request writes (R176, R178): the integer operations. -/
def portAtom (aop n old x e : Nat) : Option Nat :=
  match aop with
  | 0 => some (atomSum n old x)
  | 2 => some (atomMinS n old x)
  | 3 => some (atomMaxS n old x)
  | 4 => some (atomMinU old x)
  | 5 => some (atomMaxU old x)
  | 6 => some (old &&& x)
  | 7 => some (old ||| x)
  | 8 => some (old ^^^ x)
  | 9 => some x
  | 10 => some (if old = e then x else old)
  | _ => none

/-- PORT_ATOMIC (R178): a peer's request on a word of 4 or 8 bytes, at its slice as a port store is; the old value
answers it. It waits where the line is held (R158, R202, R249). -/
def execPortAtomic (port pa aop n data cmp : Nat) (s : State) : Out :=
  .next (
    if port = 0 || !portRange port pa n || (n != 4 && n != 8) || pa % n != 0 || !portUp s port then s
    else if mustWait s none (pa / 128) true then pend s (.portAtomic port pa aop n data cmp)
    else
      match memFault s pa with
      | some f => portRefused s port pa f
      | none =>
        let s' := portLine s port pa true
        let old := readBytes s'.mm.mem pa n
        match portAtom aop n old (lowBytes n data) (lowBytes n cmp) with
        | none => s
        | some x =>
          let bad := (badAt s' pa n).isSome
          let s := stayBad (if aop = 9 then none else badAt s' pa n) pa n (placeStore s' port pa n x).1
          if bad then send s 5 port pa [] else send s 6 port pa [old])

/-! ## Links (R297) -/

/-- The unit of a port in the error log (R317). -/
def linkUnit (port : Nat) : Nat := if port = 0 then 9 else 10

/-- A link event in the error log (R317). -/
def logLink (s : State) (port lane : Nat) : State := logError s 5 (linkUnit port) (port - 1) 0 0 [BitVec.ofNat 32 ((port - 1) % 32 + lane % 32 * 32)]

/-- LINK_FLIT_CRC_ERROR (R295, R297): the flit is replayed and the error counted against its lane. Whether the errors
before it lie within 1 ms is free (log 2). -/
def execLinkFlitCrcError (port lane : Nat) (s : State) : Out :=
  .next (
    if 19 ≤ port then s
    else
      let n := if Config.freeBit (freeIx s 30) then 1 else mget 0 (link s port).crc lane + 1
      let s := logError (modLink s port fun k => { k with crc := mset k.crc lane n }) 1 (linkUnit port) (port - 1) 0 0 []
      if 16 ≤ n then pend s (.laneFailing port lane) else s)

/-- LANE_FAILING (R297): the port moves to half width without the half that holds the lane. -/
def execLaneFailing (port lane : Nat) (s : State) : Out :=
  .next (
    if mget 0 (link s port).crc lane < 16 || (link s port).failing.contains lane then s
    else logLink (modLink s port fun k =>
      { k with crc := mdel k.crc lane, failing := k.failing ++ [lane], half := true }) port lane)

/-- The peers that a UALink port leads to and that no other working port does (R297, R315). -/
def cutOff (s : State) (port : Nat) : List Nat :=
  (s.fw.podmap.filter fun p =>
    p.2.getLsbD 31 && !p.2.getLsbD 30 && p.2.getLsbD port && (List.range 18).all fun q => !p.2.getLsbD q || (link s (q + 1)).down).map (·.1)

/-- LINK_RETRAIN (R297): with the repair applied; the third failure marks the port down, and a peer that no port reaches
any more counts as silent. -/
def execLinkRetrain (port : Nat) (ok : Bool) (s : State) : Out :=
  .next (
    if 19 ≤ port || (link s port).down then s
    else if ok then modLink s port fun k => { k with retries := 0, half := k.half || !k.failing.isEmpty }
    else if (link s port).retries < 2 then modLink s port fun k => { k with retries := k.retries + 1 }
    else
      let s := logLink (modLink s port fun k => { k with retries := 0, down := true }) port 0
      if port = 0 then s
      else (cutOff s (port - 1)).foldl (fun s k =>
        pend { s with fw := { s.fw with missed := mset s.fw.missed k 4 } } (.peerFence k)) s)

/-- LINK_RESTORED (R297). -/
def execLinkRestored (port : Nat) (s : State) : Out :=
  .next (if (link s port).down then modLink s port fun k => { k with down := false, retries := 0 } else s)

/-- A running copy one of whose reads is answered with poison: it parks with sub-cause 15. The address of that read is free (log 2). -/
def poisonCopy (s : State) (core gid op : Nat) : State :=
  match (Machine.core s core).cpyq with
  | c :: _ =>
    if c.started && c.gid == gid && c.opId == op && !unitsDone s c then
      parkCopy s core c 15 false (Config.pick (freeIx s 31) % 2 ^ 58)
    else s
  | [] => s

/-- MESH_FLIT_CRC_ERROR (R295): a flit is retransmitted; after 8 failures the access, of a group or of one of its copies, is answered
with poison, of sub-cause 3 (DESIGN CHOICE, log 81), and the hop is logged as failed. -/
def execMeshFlitCrcError (hop fails gid op : Nat) (s : State) : Out :=
  .next (
    let s := logError s 1 8 hop 0 0 []
    if fails < 8 then s
    else
      let s := arrive s gid op [.load, .atom, .gld, .cread] (poisonDests 3 0xFFFFFFFF)
      let s := poisonCopy s (gid / 2048) gid op
      logError s 8 8 hop 0 0 [])

/-! ## Peers (R298) -/

/-- The neighbours that the pod map names (R315). -/
def neighbours (s : State) : List Nat :=
  (s.fw.podmap.filter fun p => p.2.getLsbD 31 && !p.2.getLsbD 30 && p.2.getLsbD 29).map (·.1)

/-- HEARTBEAT_SEND (R298): a beat to every neighbour; each has then missed one more, until its own arrives. -/
def execHeartbeatSend (s : State) : Out :=
  .next ((neighbours s).foldl (fun s k =>
    let n := mget 0 s.fw.missed k + 1
    let s := send { s with fw := { s.fw with missed := mset s.fw.missed k n } } 8 0 k []
    if 4 ≤ n && !s.fw.fenced.contains k then pend s (.peerFence k) else s)
    { s with io := { s.io with beats := s.io.beats + 1 } })

/-- HEARTBEAT_RECEIVE (R298): the count of missed beats restarts; a fence stays in force. -/
def execHeartbeatReceive (peer : Nat) (s : State) : Out :=
  .next (if (neighbours s).contains peer then { s with fw := { s.fw with missed := mdel s.fw.missed peer } } else s)

/-- A group waits in a FENCE at pod or span for an access to a peer. -/
def fenceWaits (s : State) (peer : Nat) (g : Group) : Bool :=
  (match g.st with
    | .stalled 21 _ => true
    | _ => false) &&
  g.ops.any (fun o => o.peers.any fun p => p.1 == peer) &&
  match fetchInstr (makeCur s (gidOf g)) with
  | .instr _ (.fenceFull z) _ => z == .pod || z == .span
  | .instr _ (.fenceAcq z) _ => z == .pod || z == .span
  | .instr _ (.fenceRel z) _ => z == .pod || z == .span
  | _ => false

/-- A group's outstanding loads from a peer return poison with SUB 5, in the threads that reached it (R298). -/
def poisonFrom (s : State) (peer gid : Nat) : State :=
  match group s gid with
  | none => s
  | some g =>
    g.ops.foldl (fun s o =>
      if o.peers.any fun p => p.1 == peer then
        let m := o.peers.foldl (fun m p => if p.1 = peer then m ||| p.2 else m) 0
        arrive s gid o.id [.load, .atom, .gld] (poisonDests 5 m)
      else s) s

/-- This device's own peer id (R315). -/
def selfPeer (s : State) : Option Nat := (s.fw.podmap.find? fun p => p.2.getLsbD 31 && p.2.getLsbD 30).map (·.1)

/-- A fenced peer's network address passes to the peer that its entry of the pod map names; where that is this device, it takes it over
(R298, R315). -/
def takeOver (s : State) (peer : Nat) : State :=
  let e := mget 0 s.fw.podmap peer
  if selfPeer s = some (ebits e 18 6) then send s 10 0 peer [e.toNat / 2 ^ 32] else s

/-- PEER_FENCE (R298): after 4 missed beats. -/
def execPeerFence (peer : Nat) (s : State) : Out :=
  .next (
    let e := mget 0 s.fw.podmap peer
    if !e.getLsbD 31 || e.getLsbD 30 || mget 0 s.fw.missed peer < 4 || s.fw.fenced.contains peer then s
    else
      let s := takeOver (logError { s with fw := { s.fw with fenced := s.fw.fenced ++ [peer] } } 6 10 peer 0 0 []) peer
      let s := ((allGroups s).filter (fenceWaits s peer)).foldl (fun s g => trapHere 16 0 (makeCur s (gidOf g))) s
      (allGroups s).foldl (fun s g => poisonFrom s peer (gidOf g)) s)

end

end Sys2Proof.Machine
end

