-- ==== Sys2Proof/Machine/EvDevice.lean ====
section
/-! DEFINITION. Register writes, CORESPLIT, stall counters, samples, soft errors, changes of off-die memory (R16, R251, R284,
R295, R302 to R304, R306, R313, R314). -/

namespace Sys2Proof.Machine

noncomputable section

/-! ## CORESPLIT and the stall counters (R16, R302) -/

/-- A block is resident on a core: one of its groups, or an entry of the slot table. -/
def coreHolds (s : State) (c : Nat) : Bool :=
  !(core s c).slots.isEmpty || (allGroups s).any fun g => g.core == c && !g.sup && isResident g

/-- A core's L1 written back and emptied (R16, R154, R155). -/
def flushL1 (s : State) (c : Nat) : State :=
  let s := ((core s c).l1.filter fun p => p.2.excl).foldl (fun s p => recallLine s (p.1 / 64)) s
  modCore s c fun k => { k with l1 := [] }

/-- A write of CORESPLIT: ignored for 6 and 7, and while a block is resident (R16). -/
def writeSplit (s : State) (c : Nat) (x : BitVec 3) : State :=
  if 192 ≤ c || 6 ≤ x.toNat || coreHolds s c then s else modCore (flushL1 s c) c fun k => { k with scr := x }

/-- CORESPLIT_WRITE (R16). -/
def execCoresplitWrite (core : Nat) (scr : BitVec 3) (s : State) : Out := .next (writeSplit s core scr)

/-- CORESPLIT_RESET (R16): of a core that holds no block. -/
def execCoresplitReset (core : Nat) (s : State) : Out := .next (writeSplit s core 2)

/-- The stall reason that a group accrues where it stands (R300): none of a ready group, which issues, is not selected, or waits for what
its next instruction needs. -/
def stallReason (g : Group) : Option Nat :=
  if g.preempt then some (preemptReason g)
  else
    match g.st with
    | .ready => none
    | .stalled r _ => some r
    | .atBarrier _ => some 7
    | .lull _ _ => some 6
    | .parked => some 11
    | _ => some 20

/-- STALL_COUNTER_CLEAR (R302). The groups of the core that wait go on to count, a free number of cycles each (log 2). -/
def execStallCounterClear (core : Nat) (s : State) : Out :=
  .next (
    if 192 ≤ core then s
    else
      ((allGroups s).filter fun g => g.core == core && isResident g).foldl (fun s g =>
        match stallReason g with
        | some r => countStall s (gidOf g) r (Config.cycles (freeIx s 43 + 2 ^ 64 * gidOf g))
        | none => s) (modCore s core fun k => { k with pstall := [] }))

/-! ## Samples (R304) -/

/-- The slot of a group in its partition's samples: that of the supervisor group is 128. -/
def sampleSlot (g : Group) : Nat := if g.sup then 128 else g.slot % 128

/-- The record of a sample of a group, with the reason that it accrues and a code offset. -/
def sampleRecord (s : State) (g : Group) (r : Nat) (off : Word) : State :=
  traceRecord s 28 (8 * 2 ^ 60 + g.core * 2 ^ 52 + g.part * 2 ^ 49 + sampleSlot g * 2 ^ 40 + r * 2 ^ 35 +
    (if r = 0 then 2 ^ 34 else 0) + off.toNat)

/-- The sample of a group that waits for its turn is taken at it: the group issued its instruction, or stalls before it for a reason. A
group without its turn yet waits on. -/
def sampleTurn (old : Group) (s : State) : State :=
  match group s (gidOf old) with
  | none => s
  | some g =>
    if !g.sampled then s
    else
      let s' := modGroup s (gidOf old) fun g => { g with sampled := false }
      if g.instret ≠ old.instret then sampleRecord s' g 0 (pcOffset old)
      else
        match stallReason g with
        | some r => sampleRecord s' g r (pcOffset g)
        | none => s

/-- The resident group of the lowest slot not below one, of a list. -/
def firstFrom (n : Nat) : List Group → Option Group
  | [] => none
  | g :: gs =>
    match firstFrom n gs with
    | none => if n ≤ sampleSlot g then some g else none
    | some h => if n ≤ sampleSlot g && sampleSlot g ≤ sampleSlot h then some g else some h

/-- SAMPLE (R304): the next resident group of the partition after the one sampled last, wrapping. A ready group is not selected in the
sampled cycle, or waits for a result of its own (R92), or the cycle is that of its next turn, which is free (log 2). -/
def execSample (core part : Nat) (s : State) : Out :=
  .next (
    let k := Machine.core s core
    if 192 ≤ core || 8 ≤ part || k.sampleN.toNat % 2 ^ 24 = 0 then s
    else
      let gs := (allGroups s).filter fun g => g.core == core && g.part == part && isResident g
      match (firstFrom (mget 0 k.lastSlot part) gs).orElse fun _ => firstFrom 0 gs with
      | none => s
      | some g =>
        let s := modCore s core fun k => { k with lastSlot := mput 0 k.lastSlot part (sampleSlot g + 1) }
        match stallReason g with
        | some r => sampleRecord s g r (pcOffset g)
        | none =>
          match Config.pick (freeIx s 44) % 3 with
          | 0 => modGroup s (gidOf g) fun g => { g with sampled := true }
          | r => sampleRecord s g r (pcOffset g))

/-! ## Register writes (R313) -/

/-- The step that carries out a command of the mailbox (R314). -/
def commandOf (c : Nat) : Option Instr :=
  match c with
  | 0x01 => some .loadfw
  | 0x10 => some .mkctx
  | 0x11 => some .loadsv
  | 0x12 => some .setq
  | 0x13 => some .regh
  | 0x14 => some .movepg
  | 0x15 => some .podmap
  | 0x16 => some .admitPeer
  | 0x20 => some .attest
  | 0x21 => some .errlog
  | 0x30 => some .d3hot
  | 0x31 => some .d0
  | _ => none

/-- A command ends with a result (R314). -/
def finishCommand (s : State) (res : Nat) : State :=
  { s with fw := { s.fw with go := false, res := BitVec.ofNat 32 res } }

/-- A write of the mailbox's command word (R314): GO while GO reads 1 is ignored with BUSY; an unlisted code is
UNKNOWN. -/
def writeCommand (s : State) (x : Word) : State :=
  if s.fw.go then (if x.getLsbD 31 then { s with fw := { s.fw with res := 1 } } else s)
  else
    let s := { s with fw := { s.fw with cmd := x &&& 0xFFFF } }
    if !x.getLsbD 31 then s
    else
      match commandOf (x.toNat % 2 ^ 16) with
      | some e => pend { s with fw := { s.fw with go := true } } e
      | none => finishCommand s 4

/-- A word of the mailbox page written. -/
def writeMailbox (s : State) (k : Nat) (x : Word) : State :=
  if k = 1 then writeCommand s x
  else if 16 ≤ k then { s with fw := { s.fw with data := mput 0 s.fw.data k x } }
  else s

/-- A write of CPYCTL (R284). -/
def writeCpyctl (s : State) (c : Nat) (x : Word) : State :=
  let idx := x.toNat % 2 ^ 16
  match x.toNat / 2 ^ 30 with
  | 1 => pend s (.cpyctlResolve c idx)
  | 2 => pend s (.cpyctlCancel c idx)
  | _ => s

/-- A half of a breakpoint register written; its reserved bits stay 0 (R306). -/
def writeBreak (s : State) (c n : Nat) (high : Bool) (x : Word) : State :=
  modCore s c fun k =>
    let b := (mget 0 k.bps n).toNat
    let y := if high then b % 2 ^ 32 + x.toNat % 64 * 2 ^ 32 else b / 2 ^ 32 * 2 ^ 32 + (x &&& 0xFFFFFFFD).toNat
    { k with bps := mput 0 k.bps n (BitVec.ofNat 64 y) }

/-- A word of a core's block written (R284, R302, R306). CORESPLIT is the firmware's alone (R16). -/
def writeCore (s : State) (c o : Nat) (x : Word) : State :=
  if o = 0x100 then writeCpyctl s c x
  else if 0x300 ≤ o ∧ o < 0x340 then writeBreak s c ((o - 0x300) / 8) (o % 8 != 0) x
  else if o = 0x3F8 then pend s (.stallCounterClear c)
  else s

/-- A word of the trace registers written (R303). -/
def writeTrace (s : State) (o : Nat) (x : Word) : State :=
  match o with
  | 0x00 => { s with tr := { s.tr with base := x } }
  | 0x04 => { s with tr := { s.tr with ctl := x &&& 0xF000FFFF } }
  | 0x0C => { s with tr := { s.tr with tail := x } }
  | 0x10 => { s with tr := { s.tr with drop := s.tr.drop &&& ~~~x } }
  | _ => s

/-- A word at an offset of the window written; reserved and read-only words ignore it (R313). -/
def writeRegister (s : State) (o : Nat) (x : Word) : State :=
  if o < 0x1000 then writeTrace s o x
  else if o < 0x2000 then writeMailbox s ((o - 0x1000) / 4) x
  else if 0x10000 ≤ o ∧ o < 0x10000 + 0x1000 * 192 then writeCore s ((o - 0x10000) / 0x1000) (o % 0x1000) x
  else s

/-- The registers that a write of one of their bytes acts on: the bytes not written count as 0 there, and keep their
value elsewhere. -/
def actsOnWrite (o : Nat) : Bool :=
  o == 0x10 || o == 0x1004 || (0x10000 ≤ o && o < 0x10000 + 0x1000 * 192 && o % 0x1000 == 0x100)

/-- `n` bytes written within the word at an offset. -/
def writePart (s : State) (o sh n x : Nat) : State :=
  let old := if actsOnWrite o then 0 else (mmioWord s o).toNat
  let low := old % 2 ^ (8 * sh)
  let high := old / 2 ^ (8 * (sh + n)) * 2 ^ (8 * (sh + n))
  writeRegister s o (BitVec.ofNat 32 (high + lowBytes n x * 2 ^ (8 * sh) + low))

/-- REGISTER_WRITE (R313): 1, 2, 4 or 8 bytes, aligned. -/
def execRegisterWrite (pa n data : Nat) (s : State) : Out :=
  .next (
    if pa < mmioBase || mmioTop ≤ pa || !([1, 2, 4, 8].contains n) || pa % n != 0 then s
    else
      let o := pa - mmioBase
      if n = 8 then writeRegister (writeRegister s o (BitVec.ofNat 32 data)) (o + 4) (BitVec.ofNat 32 (data / 2 ^ 32))
      else writePart s (o - o % 4) (o % 4) n data)

/-! ## Errors (R251, R295) -/

/-- The unit of the error log (R317), and the place, of a soft error. -/
def errPlace (s : State) (u : ErrUnit) (place index : Nat) : Nat × Nat :=
  match u with
  | .vreg => (0, place / 2048)
  | .greg => (1, place / 2048)
  | .scratch => (2, (block s place).span.headD 0)
  | .l1 => (3, place)
  | .l2 => (4, homeSlice (index / 128))
  | .acc => (5, index / 16384 / 8)
  | .msc => (6, stackOf index)
  | .memory => (7, stackOf index)
  | .replay => (11, place)
  | .exchange => (12, place / 2048)

/-- Words of 8 bytes from word `a` on put into a map of poison. -/
def addBad (a n sub : Nat) (m : SMap Nat) : SMap Nat := (List.range n).foldl (fun m i => mset m (a + i) sub) m

/-- `n` words of 8 bytes of device memory are poisoned: where they stand beneath a line resident in the L2, they are met when that
line has left (R295). -/
def poisonWords (s : State) (pa n sub : Nat) : State :=
  if (l2Line s (pa / 128)).isSome then { s with mm := { s.mm with under := addBad (pa / 8) n sub s.mm.under } }
  else { s with mm := { s.mm with bad := addBad (pa / 8) n sub s.mm.bad } }

/-- An uncorrectable error in an L1: of an exclusive line, the line's newest data; of a shared copy, that copy. -/
def poisonL1 (s : State) (c pa : Nat) : State :=
  ((core s c).l1.filter fun p => p.1 / 64 == pa / 128).foldl (fun s p =>
    if p.2.excl then { s with mm := { s.mm with bad := mset s.mm.bad (pa / 8) 3 } }
    else modCore s c fun k => { k with l1 := mset k.l1 p.1 { p.2 with bad := mset p.2.bad (pa / 8) 3 } }) s

/-- An uncorrectable error (R295), in a word of 8 bytes, in HBM4E of 32. A register file has parity alone, so an error in it is never
corrected. -/
def strike (s : State) (u : ErrUnit) (place index : Nat) : State :=
  match u with
  | .vreg | .exchange => modGroup s place fun g => if index / 32 < g.vb then vpoison g (index / 32) (index % 32) (some 0) else g
  | .greg => modGroup s place fun g => if uniformLegal g index then gpoison g index (some 1) else g
  | .acc => modBlock s place fun k => { k with tileBad := if k.tileBad.contains index then k.tileBad else k.tileBad ++ [index] }
  | .scratch =>
    modBlock s place fun k =>
      { k with scrBad := if k.scrBad.contains index || k.scrSize ≤ 8 * index then k.scrBad else k.scrBad ++ [index] }
  | .l1 => poisonL1 s place index
  | .l2 =>
    if (l2Line s (index / 128)).any fun x => x.owner.isNone then
      { s with mm := { s.mm with bad := mset s.mm.bad (index / 8) 3 } }
    else s
  | .msc => if (mscLine s (index / 2048)).any fun x => x.valid.getLsbD (index % 2048 / 64) then poisonWords s index 1 4 else s
  | .memory => if index < hbmTop then poisonWords s (index - index % 32) 4 4 else s
  | .replay =>
    modCore s place fun k => { k with replay := k.replay.zipIdx.map fun p =>
      if p.2 = index / 8 && !p.1.bad.contains (index % 8) then { p.1 with bad := p.1.bad ++ [index % 8] } else p.1 }

/-- SOFT_ERROR (R295): corrected and logged, or uncorrectable. -/
def execSoftError (unit : ErrUnit) (place index : Nat) (fatal : Bool) (s : State) : Out :=
  .next (
    let at_ := errPlace s unit place index
    let inMemory : Bool := match unit with
      | .l1 | .l2 | .msc | .memory => true
      | _ => false
    let parity := unit == .vreg || unit == .greg
    let log := fun (s : State) (kind : Nat) => logError s kind at_.1 at_.2 (if inMemory then index else 0) (if inMemory then ownerOf s index else 0) []
    if fatal || parity then log (strike s unit place index) 2 else log s 1)

/-- A line of verified memory fails its check from now on (R251). -/
def tamperLine (s : State) (line : Nat) : State :=
  if s.mm.tampered.contains line then s else { s with mm := { s.mm with tampered := s.mm.tampered ++ [line] } }

/-- The counter block (level 0) or node of a stack's tree no longer matches its MAC (R251). -/
def tamperTree (s : State) (b : Nat × Nat × Nat) : State :=
  if s.mm.badTree.contains b then s else { s with mm := { s.mm with badTree := s.mm.badTree ++ [b] } }

/-- The level and the index of the node that stands at a slot of a stack's nodes: those of level 1 first (log 59). -/
def nodeAt : Nat → Nat → Nat → Nat → Option (Nat × Nat)
  | 0, _, _, _ => none
  | fuel + 1, level, size, slot => if slot < size then some (level, slot) else nodeAt fuel (level + 1) (size / 16) (slot - size)

/-- A number with its byte `i` replaced. -/
def setByte (x i : Nat) (data : Byte) : Nat := x / 2 ^ (8 * i + 8) * 2 ^ (8 * i + 8) + data.toNat * 2 ^ (8 * i) + x % 2 ^ (8 * i)

/-- The 256 bits of a counter block or node (R248), and what such bits hold; the reserved ones read 0. -/
def blockBits (b : CtrBlk) : Nat :=
  b.maj % 2 ^ 56 + ((List.range 16).map fun i => mget 0 b.minors i % 128 * 2 ^ (56 + 7 * i)).sum + b.mac.toNat * 2 ^ 168
def blockOfBits (x : Nat) : CtrBlk :=
  { maj := x % 2 ^ 56, minors := (List.range 16).foldl (fun m i => mput 0 m i (x / 2 ^ (56 + 7 * i) % 128)) [],
    mac := BitVec.ofNat 64 (x / 2 ^ 168) }

/-- A counter block or node with a byte replaced. -/
def changedBlock (b : CtrBlk) (i : Nat) (data : Byte) : CtrBlk := blockOfBits (setByte (blockBits b) i data)

/-- A byte of the META pages changed from outside (R242, R248, R251), by its offset there: a data MAC, a counter block, a node or an
entry of the ownership table (log 59). -/
def tamperMeta (s : State) (o : Nat) (data : Byte) : State :=
  let macs := hbmTop / 16
  let ctrs := hbmTop / 64
  if o < macs then
    let mac := BitVec.ofNat 64 (setByte (mget 0 s.mm.macs (o / 8)).toNat (o % 8) data)
    tamperLine { s with mm := { s.mm with macs := mput 0 s.mm.macs (o / 8) mac } } (o / 8)
  else if o < macs + ctrs then
    let grp := (o - macs) / 32
    tamperTree (setCtr s grp (changedBlock (ctrBlk s grp) ((o - macs) % 32) data)) (stackOf (grp * 2048), 0, inStack grp)
  else if o < macs + ctrs + 2 ^ 30 then
    let x := (o - macs - ctrs) / 32
    match nodeAt 6 1 (2 ^ 21) (x % 2 ^ 22) with
    | some n =>
      let stack := x / 2 ^ 22
      tamperTree (setNode s stack n.1 n.2 (changedBlock (nodeOf s stack n.1 n.2) ((o - macs - ctrs) % 32) data)) (stack, n)
    | none => s
  else
    let p := o - macs - ctrs - 2 ^ 30
    let e := (mget 0x8000 s.mm.own (p / 2)).toNat
    let e' := if p % 2 = 0 then e / 256 * 256 + data.toNat else e % 256 + data.toNat * 256
    { s with mm := { s.mm with own := mput 0x8000 s.mm.own (p / 2) (BitVec.ofNat 16 e') } }

/-- What a byte that changed outside makes of a line's bytes as the die reads them (R247): in the clear that byte; under key mode 1 its
block of 16 bytes decrypts to others, which are free (log 13). -/
def changedLine (s : State) (line pa : Nat) (data : Byte) (m : Memory) : Memory :=
  let x := writeByte m pa data
  match mfind s.mm.keys line with
  | none => x
  | some k =>
    if keyMode k = 0 then x
    else writeBytes x (pa - pa % 16) 16 (Config.garbled k k line (readBytes x (line * 128) 128) % 2 ^ 128)

/-- EXTERNAL_MEMORY_CHANGE (R247, R251): a byte of HBM4E changed from outside the die. A line resident in the L2 does not meet it before
it has left the die unwritten; a line of verified memory, or one whose MAC, counter block or nodes were changed, fails its check from
then on. -/
def execExternalMemoryChange (pa : Nat) (data : Byte) (s : State) : Out :=
  .next (
    let line := pa / 128
    if hbmTop ≤ pa then s
    else if metaPage s pa then tamperMeta s (pa - s.mm.metaFrom.getD 0) data
    else if verifiedLine s line then tamperLine s line
    else if (l2Line s line).isNone then modMem s (changedLine s line pa data)
    else
      let below := (mfind s.mm.sealed line).getD (sliceOfMemory s.mm.mem (line * 128) 128)
      { s with mm := { s.mm with sealed := mset s.mm.sealed line (changedLine s line pa data below) } })

end

end Sys2Proof.Machine
end

