-- ==== Sys2Proof/Machine/EvFirmware.lean ====
section
/-! DEFINITION. The firmware: the commands of the mailbox (R234, R235, R242 to R244, R251 to R253, R314 to R318), reset and
boot, power and heat (R308 to R312). -/

namespace Sys2Proof.Machine

noncomputable section

/-! ## The mailbox (R314, R316) -/

/-- A command code is served under a status (R314): 0 ROM, 1 RECOVERY, 2 READY, 3 FAULT, 4 D3HOT. -/
def servedIn (status code : Nat) : Bool :=
  match status with
  | 1 => code == 0x01
  | 2 => code != 0x01
  | 3 => code == 0x20 || code == 0x21
  | 4 => code == 0x31 || code == 0x20 || code == 0x21
  | _ => false

/-- The firmware carries out the command that GO started, or answers BUSY where it is not served (R314). -/
def command (code : Nat) (body : State → State) (s : State) : State :=
  if !s.fw.go || s.fw.cmd.toNat != code then s
  else if !servedIn s.fw.status code then finishCommand s 1
  else body s

/-- Argument word k (R316). -/
def arg (s : State) (k : Nat) : Word := mget 0 s.fw.data (16 + k)

/-- The 64-bit argument at words k and k + 1. -/
def argPair (s : State) (k : Nat) : Nat := (arg s k).toNat + 2 ^ 32 * (arg s (k + 1)).toNat

/-- `n` argument words from word k on. -/
def args (s : State) (k n : Nat) : List Word := (List.range n).map fun i => arg s (k + i)

/-- An answer replaces the arguments from word 0. -/
def answer (s : State) (ws : List Word) : State :=
  { s with fw := { s.fw with data := ws.zipIdx.foldl (fun m p => mput 0 m (16 + p.2) p.1) s.fw.data } }

/-- The bytes of words, low bytes first (R4). -/
def bytesOfWords (ws : List Word) : List Byte :=
  ws.flatMap fun w => (List.range 4).map fun i => BitVec.ofNat 8 (w.toNat / 2 ^ (8 * i))

/-- Bytes packed in words, low bytes first (R4). -/
def wordsOfBytes : Nat → List Byte → List Word
  | 0, _ => []
  | n + 1, bs => BitVec.ofNat 32 (readBytes ((bs.take 4).zipIdx.map fun p => (p.2, p.1)) 0 4) :: wordsOfBytes n (bs.drop 4)

/-- A 64-byte digest as bytes. -/
def digestBytes (bs : List Byte) : List Byte := (List.range 64).map (Config.digest bs)

/-- `n` bytes of host memory. -/
def hostBytes (s : State) (a n : Nat) : List Byte := (List.range n).map fun i => mget (Config.hostByte (a + i)) s.mm.hostMem (a + i)

/-! ## Contexts (R235) -/

/-- The bytes of a page scrubbed at its slices, each of its 128 lines as a direct store (R243). -/
def scrubPage (s : State) (pa : Nat) : State :=
  (List.range 128).foldl (fun s i => (directStore s 0 (pa + 128 * i) 128 0 {}).1) s

/-- The translations of a context to a page are dropped, with the instruction-cache lines of the pages they cover
(R243). -/
def dropPhysical (asid pa : Nat) (s : State) : State :=
  let maps := fun (t : TlbEnt) =>
    let base := ebits t.ent 14 38 * 2 ^ 14
    t.asid == asid && ebits t.ent 61 2 == 0 && base ≤ pa && pa < base + 2 ^ levelShift t.level
  let gone := ((s.cores.flatMap fun p => p.2.tlb) ++ (s.clusters.flatMap fun p => p.2.tlb2)).filter maps
  dropEntries maps (fun _ => false) (fun k => gone.any fun t => k / 2 ^ 51 == asid && pageBase (k % 2 ^ 51 * 128) t.level == t.base) s

/-- An access that has set out for an address that a condition names is in flight: a counter operation on its way, or a write-back or a
re-encryption that is due (R243). -/
def inFlight (s : State) (here : Nat → Bool) : Bool :=
  s.pending.any fun e => match e with
    | .caddAtSlice _ pa _ _ => here pa
    | .cwaitRequest gid | .nackRetry gid => (group s gid).any fun g => g.req.any fun r => here r.pa
    | .memoryWriteback line => here (line * 128)
    | .groupReencryption grp => here (grp * 2048)
    | _ => false

/-- What is kept of a page's lines for its old owner is gone: the keys they were written under, and their copies in the constant
caches (R243, R247). -/
def forgetPage (s : State) (page : Nat) : State :=
  { s with
    cores := s.cores.map fun p => (p.1, { p.2 with ccache := p.2.ccache.filter fun q => q.1 % 2 ^ 62 / 128 != page })
    mm := { s.mm with
      keys := s.mm.keys.filter fun p => p.1 / 128 != page
      macs := s.mm.macs.filter fun p => p.1 / 128 != page
      sealed := s.mm.sealed.filter fun p => p.1 / 128 != page
      lines := s.mm.lines.map fun p => if p.1 / 128 = page then (p.1, { p.2 with key := none }) else p
      tampered := s.mm.tampered.filter fun l => l / 128 != page
      badTree := s.mm.badTree.filter fun b => !(b.2.1 == 0 && (List.range 8).any fun i =>
        b.1 == stackOf (page * 2 ^ 14) && b.2.2 == inStack (page * 8 + i))
      under := s.mm.under.filter fun p => p.1 / 2048 != page
      ctrs := s.mm.ctrs.filter fun p => p.1 / 8 != page } }

/-- The translations of a page's owner to it are dropped (R243). -/
def dropOwner (s : State) (pa : Nat) : State := dropPhysical ((ownOf s pa).toNat / 2 ^ 8 % 64) pa s

/-- A page of HBM4E moves to a new owner (R243, R249, R250): no translation of the old owner stays, the page is zeroed, its
counters start again under the new key, in verified memory with their MACs, and nothing in it is poisoned. -/
def reownPage (s : State) (pa : Nat) (entry : BitVec 16) : State :=
  let s := dropOwner s pa
  let page := pa / 2 ^ 14
  let own := fun (s : State) (e : BitVec 16) => { s with mm := { s.mm with own := mput 0x8000 s.mm.own page e } }
  let s := forgetPage (own s (entry &&& 0xBFFF)) page
  let s := scrubPage s pa
  let grps := (List.range 8).map fun i => pa / 2048 + i
  let s := own s entry
  let s := if entry.getLsbD 14 then grps.foldl macWhole s else s
  { s with mm := { s.mm with
    dead := s.mm.dead.map fun d => { d with exempt := d.exempt ++ grps.filter fun g => !d.exempt.contains g } } }

/-- The copies of a context that is torn down are dropped (R245); what an exclusive one held is at its slice. -/
def dropCopies (s : State) (asid : Nat) : State :=
  s.cores.foldl (fun s c =>
    let mine := c.2.l1.filter fun p => p.1 % 64 == asid
    let s := (mine.filter fun p => p.2.excl).foldl (fun s p => recallLine s (p.1 / 64)) s
    modCore s c.1 fun k => { k with l1 := k.l1.filter fun p => p.1 % 64 != asid }) s

/-- The key of a slot is destroyed (R235, R247): what stands under it, and under none before it, is read under no key made later. -/
def destroyKey (s : State) (n : Nat) : State :=
  let gone := fun (k : Nat) => if k % 64 = n ∧ keyMode k ≠ 0 then k + 256 else k
  { s with mm := { s.mm with
    keys := s.mm.keys.map fun p => (p.1, gone p.2)
    lines := s.mm.lines.map fun p => (p.1, { p.2 with key := p.2.key.map gone }) } }

/-- A context is torn down (R235, R244, R246): its translations and copies go, its pages pass, zeroed, to no owner, and its key is
destroyed. -/
def tearDown (s : State) (n : Nat) : State :=
  let s := dropCopies (dropAsid n s) n
  let pages := (s.mm.own.filter fun p => p.2.toNat / 2 ^ 8 % 64 == n).map fun p => (p.1 * 2 ^ 14, p.2 &&& 0x8000)
  let s := destroyKey (pages.foldl (fun s p => reownPage s p.1 p.2) s) n
  modCtx s n fun _ => { ctxReset n with live := false }

/-- A context made from the words of its entry (R235): its log is off until its pages are its own (R289). -/
def makeContext (s : State) (n : Nat) : State :=
  let w := fun k => (arg s (1 + k)).toNat
  let ver := w 0 / 2 ^ 30 % 2 == 1
  let c : Ctx :=
    { ctxReset n with
      live := true, ver := ver, dbg := w 0 / 2 ^ 29 % 2 == 1, root := w 2 % 2 ^ 20 * 2 ^ 32 + w 1 / 2 ^ 14 * 2 ^ 14,
      tick := BitVec.ofNat 16 (w 3 / 2 ^ 16), tickNow := BitVec.ofNat 16 (w 3 / 2 ^ 16), lease := BitVec.ofNat 16 (w 3), ulogBase := w 4,
      ulogSize := BitVec.ofNat 32 (w 6 % 2 ^ 16), kshare := BitVec.ofNat 64 (w 8 + 2 ^ 32 * w 9),
      wdog := BitVec.ofNat 32 (w 10), key := true, ctxm := if ver then bytesOfWords (args s 17 16) else [] }
  writePolicy (modCtx s n fun _ => c) n (arg s 8)

/-- MKCTX (R235, R316). A context that is torn down gives its pages up as a page move does, after the accesses in flight (R243). -/
def execMkctx (s : State) : Out :=
  .next (command 0x10 (fun s =>
    let n := (arg s 0).toNat % 64
    if n = 0 then finishCommand s 3
    else if (arg s 1).getLsbD 31 then
      (if (ctx s n).live then finishCommand s 3 else finishCommand (makeContext s n) 0)
    else if inFlight s fun pa => pa < hbmTop && (ownOf s pa).toNat / 2 ^ 8 % 64 == n then pend (dropAsid n s) .mkctx
    else unlessHeld .mkctx (fun s => finishCommand (tearDown s n) 0) s) s)

/-! ## The supervisor (R234, R276) -/

/-- A page of HBM4E that the firmware takes for context 0, from the META pages down (log 21), as a page move does: it is zeroed (R243,
R246). -/
def takePage (s : State) : State × Nat :=
  let pa := s.mm.metaFrom.getD hbmTop - (s.fw.pages + 1) * 2 ^ 14
  (reownPage { s with fw := { s.fw with pages := s.fw.pages + 1 } } pa 0, pa)

/-- A page of context 0 mapped, from a table on: missing tables are taken and linked (R236, R237). -/
def mapFrom : Nat → State → Nat → Nat → Nat → State
  | 0, s, _, _, _ => s
  | fuel + 1, s, level, table, va =>
    let a := table + 8 * levelIndex va level
    let e := BitVec.ofNat 64 (readBytes s.mm.mem a 8)
    if level = 3 then
      let r := takePage s
      (untrackedStore r.1 0 a 8 (r.2 + 0x1D) {}).1
    else if ebits e 0 2 = 3 then mapFrom fuel s (level + 1) (ebits e 14 38 * 2 ^ 14) va
    else
      let r := takePage s
      mapFrom fuel (untrackedStore r.1 0 a 8 (r.2 + 3) {}).1 (level + 1) r.2 va

/-- A page of context 0 mapped for supervisor code: readable, writable, executable, tracked (log 21). -/
def mapPage (s : State) (va : Nat) : State :=
  let r := if (ctx s 0).root = 0 then takePage s else (s, (ctx s 0).root)
  mapFrom 4 (modCtx r.1 0 fun c => { c with root := r.2 }) 0 r.2 va

/-- The firmware's agent in context 0. -/
def firmwareAgent : Who := { core := Config.cpCore, asid := 0, clk := 0, user := false }

/-- Bytes of an image placed in a page of context 0, which is mapped first if it is not. -/
def placeBytes (s : State) (va : Nat) (bs : List Byte) : State :=
  let s := match address s firmwareAgent va 1 { w := true, x := true } with
    | (s, .ok _) => s
    | (s, .error _) => mapPage s va
  match address s firmwareAgent va 1 { w := true, x := true } with
  | (s, .error _) => s
  | (s, .ok l) => bs.zipIdx.foldl (fun s p => (untrackedStore s 0 (l.pa + p.2) 1 p.1.toNat {}).1) s

/-- An image placed from a page of context 0 on. -/
def placeImage : Nat → State → Nat → List Byte → State
  | 0, s, _, _ => s
  | fuel + 1, s, va, bs => if bs.isEmpty then s else placeImage fuel (placeBytes s va (bs.take 16384)) (va + 16384) (bs.drop 16384)

/-- Every core's supervisor group starts at TVEC (R276); a region that one has open aborts (R203). -/
def startSupervisors (s : State) (entry : Word) : State :=
  (List.range Config.cores).foldl (fun s c =>
    let s := regionAbort s (c * 2048 + Config.supSlot) 14 0 none
    let s := modCore s c fun k => { k with tvec := entry &&& 0xFFFFFFFC }
    setGroup s { supGroup c with lclk := s.cp.front, pc := (entry &&& 0xFFFFFFFC).setWidth 64, st := .ready, age := s.turn }) s

/-- LOADSV (R234, R235, R276, R316): context 0 is live from now on. Its pages are taken after the accesses in flight (R243). -/
def execLoadsv (s : State) : Out :=
  .next (command 0x11 (fun s =>
    let len := (arg s 2).toNat
    let va := argPair s 4
    if 2 ^ 24 < len || (arg s 3).toNat % 4 != 0 || va % 2 ^ 14 != 0 || 2 ^ 58 ≤ va then finishCommand s 3
    else if (List.range 64).any fun n => n != 0 && (ctx s n).live then finishCommand s 1
    else if deviceHeld s || inFlight s fun pa => pa < hbmTop then pend s .loadsv
    else
      let image := hostBytes s (argPair s 0) len
      let s := placeImage 1024 (modCtx (dropAsid 0 s) 0 fun c => { c with live := true, key := true }) va image
      let s := { s with fw := { s.fw with svm := digestBytes image } }
      finishCommand (startSupervisors s (BitVec.ofNat 32 (va + (arg s 3).toNat))) 0) s)

/-! ## Queues and handles (R208, R212) -/

/-- A queue. -/
def queue (s : State) (q : Nat) : Queue := mget {} s.cp.queues q

/-- The state with a queue changed. -/
def modQueue (s : State) (q : Nat) (f : Queue → Queue) : State := { s with cp := { s.cp with queues := mmod {} s.cp.queues q f } }

/-- Word k of a queue's descriptor, and its fields (R208). -/
def qWord (q : Queue) (k : Nat) : Nat := (q.desc.getD k 0).toNat
def qBase (q : Queue) : Nat := qWord q 0 / 4096 * 4096 + 2 ^ 32 * (qWord q 1 % 2 ^ 26)
def qEnabled (q : Queue) : Bool := qWord q 2 / 2 ^ 31 == 1
def qDevice (q : Queue) : Bool := qWord q 2 / 2 ^ 30 % 2 == 1
def qLevel (q : Queue) : Nat := qWord q 2 / 2 ^ 27 % 8
def qCtx (q : Queue) : Nat := qWord q 2 / 2 ^ 21 % 64
def qLog (q : Queue) : Nat := qWord q 2 % 32
def qTail (q : Queue) : Nat := qWord q 3 + 2 ^ 32 * qWord q 4
def qHead (q : Queue) : Nat := qWord q 5 + 2 ^ 32 * qWord q 6

/-- SETQ (R208, R316): bits of QERR written 1 are cleared and QIDX stays. The count of records processed starts again when
the ring or a counter is another one (log 22). -/
def execSetq (s : State) : Out :=
  .next (command 0x12 (fun s =>
    let n := (arg s 0).toNat % 1024
    let old := queue s n
    let ws := args s 1 8
    let w7 := BitVec.ofNat 32 (qWord old 7) &&& ~~~(ws.getD 7 0 &&& 0xFF000000)
    let q : Queue := { old with desc := ws.take 7 ++ [w7] }
    if qEnabled q && (!(ctx s (qCtx q)).live || qLog q = 0 || 16 < qLog q) then finishCommand s 3
    else
      let same := ([0, 1, 3, 4, 5, 6].all fun k => qWord q k == qWord old k)
      let s := modQueue s n fun _ => if same then q else { q with processed := 0 }
      finishCommand (if qEnabled q then pend s (.queueRecordRead n) else s) 0) s)

/-- The handles that a launch record reads, and those it writes (R210); 0 names none. -/
def readHandles (r : List Word) : List Nat :=
  [(r.getD 20 0).toNat % 2 ^ 16, (r.getD 20 0).toNat / 2 ^ 16, (r.getD 21 0).toNat % 2 ^ 16, (r.getD 21 0).toNat / 2 ^ 16].filter (· != 0)
def writtenHandles (r : List Word) : List Nat := [(r.getD 22 0).toNat % 2 ^ 16, (r.getD 22 0).toNat / 2 ^ 16].filter (· != 0)

/-- A task that is not complete names a handle. -/
def handleNamed (s : State) (h : Nat) : Bool :=
  s.cp.tasks.any fun p => p.2.st != .done && (readHandles p.2.record ++ writtenHandles p.2.record).contains h

/-- REGH (R212, R316). -/
def execRegh (s : State) : Out :=
  .next (command 0x13 (fun s =>
    let h := (arg s 0).toNat % 2 ^ 16
    let size := argPair s 4
    let put := fun (s : State) (m : SMap Handle) => { s with cp := { s.cp with handles := m } }
    if h = 0 then finishCommand s 3
    else if size = 0 then
      (if handleNamed s h then finishCommand s 1 else finishCommand (put s (mdel s.cp.handles h)) 0)
    else
      finishCommand (put s (mset s.cp.handles h
        { base := argPair s 2, size := size, dom := (arg s 1).toNat % 4, ctx := (arg s 1).toNat / 4 % 64,
          fin := s.cp.front, rfin := s.cp.front })) 0) s)

/-! ## Pages, peers, reports (R243, R253, R298, R315, R317) -/

/-- MOVEPG (R243, R316): the old owner's translations are dropped, and the page moves after the accesses to it in flight. A META page stays
one (log 59). -/
def execMovepg (s : State) : Out :=
  .next (command 0x14 (fun s =>
    let pa := argPair s 0
    let e := (arg s 2).setWidth 16
    if pa % 2 ^ 14 != 0 || hbmTop ≤ pa || e.getLsbD 7 || metaPage s pa then finishCommand s 3
    else if deviceHeld s || inFlight s fun a => a / 2 ^ 14 == pa / 2 ^ 14 then pend (dropOwner s pa) .movepg
    else finishCommand (reownPage s pa (e &&& 0xFF00)) 0) s)

/-- An access to a peer is in flight: an operation that has reached one, or a copy command in progress there. -/
def peerTraffic (s : State) : Bool := (allGroups s).any fun g => g.ops.any fun o => !o.peers.isEmpty

/-- PODMAP (R315, R316): exactly one valid entry is this device. -/
def execPodmap (s : State) : Out :=
  .next (command 0x15 (fun s =>
    let entry := fun k => BitVec.ofNat 64 ((arg s (4 * k)).toNat + 2 ^ 32 * (arg s (4 * k + 1)).toNat)
    let es := (List.range 64).map fun k => (k, entry k)
    if (es.filter fun p => p.2.getLsbD 31 && p.2.getLsbD 30).length != 1 then finishCommand s 3
    else if peerTraffic s then finishCommand s 1
    else finishCommand { s with fw := { s.fw with podmap := es.filter fun p => p.2 != 0 } } 0) s)

/-- ADMIT (R298, R316). -/
def execAdmitPeer (s : State) : Out :=
  .next (command 0x16 (fun s =>
    let k := (arg s 0).toNat % 64
    finishCommand { s with fw := { s.fw with fenced := s.fw.fenced.filter (· != k), missed := mdel s.fw.missed k } } 0) s)

/-- The bytes of a 32-bit number. -/
def word32 (n : Nat) : List Byte := bytesOfWords [BitVec.ofNat 32 n]

/-- A list of bytes as one of `n`, padded with zeros. -/
def padTo (n : Nat) (bs : List Byte) : List Byte := (bs ++ List.replicate n 0).take n

/-- The report of R253 but for its signature: 304 bytes. -/
def reportBytes (s : State) (nonce : List Word) (named : Option Nat) : List Byte :=
  let c := named.map (ctx s)
  let flags := match named, c with
    | some n, some c => n + (if c.ver then 2 ^ 8 else 0) + (if c.dbg then 2 ^ 9 else 0) + (if c.integ then 2 ^ 10 else 0)
    | _, _ => 0
  let usual := s.fw.throttle == 0 && s.cores.all fun p => p.2.mxidle == 4096
  word32 1 ++ word32 (capability 0x102).toNat ++ bytesOfWords nonce ++ padTo 64 s.fw.fwm ++ padTo 64 s.fw.svm ++
    padTo 64 ((c.map (·.ctxm)).getD []) ++ word32 flags ++
    word32 ((if s.io.dbgOn then 1 else 0) + (if usual then 2 else 0)) ++ (List.range 32).map (Config.aliasKey s.fw.fwm)

/-- ATTEST (R253, R316). -/
def execAttest (s : State) : Out :=
  .next (command 0x20 (fun s =>
    let d := arg s 16
    let body := reportBytes s (args s 0 16) (if d.getLsbD 31 then none else some (d.toNat % 64))
    let sig := (List.range 64).map (Config.signature body)
    let n := min (Config.certLength s.fw.fwm) 1024
    let cert := (List.range n).map (Config.certificate s.fw.fwm)
    finishCommand (answer s (wordsOfBytes 92 (body ++ sig) ++ [BitVec.ofNat 32 n] ++ wordsOfBytes ((n + 3) / 4) cert)) 0) s)

/-- ERRLOG (R316, R317): at most 60 records from the one wanted on. -/
def execErrlog (s : State) : Out :=
  .next (command 0x21 (fun s =>
    let want := arg s 0
    let rs := (s.fw.errlog.filter fun r => !before (r.getD 1 0) want).take 60
    let next := match rs.getLast? with
      | some r => r.getD 1 0 + 1
      | none => BitVec.ofNat 32 s.fw.errSeq
    finishCommand (answer s (BitVec.ofNat 32 rs.length :: next :: rs.flatten)) 0) s)

/-! ## Reset, power and heat (R308 to R312) -/

/-- What no reset and no loss of power takes away: the memories of others, the flash, what is broken, the turn. -/
def survivors (s : State) (fw : Firmware) : State :=
  let r := State.reset
  { r with
    turn := s.turn
    mm := { r.mm with hostMem := s.mm.hostMem, peerMem := s.mm.peerMem }
    io := { r.io with out := s.io.out, dbgOn := s.io.dbgOn }
    fw := { fw with flash := s.fw.flash, image := s.fw.image, stackBad := s.fw.stackBad, portBad := s.fw.portBad,
                    cxlBad := s.fw.cxlBad } }

/-- The first byte of the META pages: a data MAC of 8 bytes for each line, a counter block of 32 for each group of 16 lines, 2 ^ 27 bytes
of nodes for each stack and an ownership entry of 2 for each page stand at the top of HBM4E in this order (R242, R248; log 59). -/
def metaStart : Nat := hbmTop - (hbmTop / 16 + hbmTop / 64 + 2 ^ 30 + hbmTop / 2 ^ 13)

/-- Steps 4 to 7 of a boot (R310, R312): the failure of a stack or of the CXL port ends in FAULT, that of a UALink port leaves it down;
the META pages are laid out. -/
def bootRest (s : State) : State :=
  let fault := fun (s : State) (d : Nat) => { s with fw := { s.fw with status := 3, detail := BitVec.ofNat 32 d } }
  match s.fw.stackBad with
  | d :: _ => fault (logError s 9 7 d 0 0 []) d
  | [] =>
    if s.fw.cxlBad then fault (logError (modLink s 0 fun k => { k with down := true }) 9 9 0 0 0 []) 0
    else
      let s := s.fw.portBad.foldl (fun s p =>
        logError (modLink s (p + 1) fun k => { k with down := true }) 9 10 p 0 0 []) s
      { s with fw := { s.fw with status := 2 }, mm := { s.mm with metaFrom := some metaStart } }

/-- DEVICE_RESET (R310, R311): the boot from step 1; without a good image in the flash it ends in the recovery loader. -/
def execDeviceReset (s : State) : Out :=
  .next (
    let s := survivors s {}
    if s.fw.flash then bootRest { s with fw := { s.fw with fwm := digestBytes s.fw.image } }
    else { s with fw := { s.fw with status := 1 } })

/-- LOADFW (R311, R316): a good image is written to the flash and the device resets. -/
def execLoadfw (s : State) : Out :=
  .next (command 0x01 (fun s =>
    let len := (arg s 2).toNat
    let image := hostBytes s (argPair s 0) len
    if 2 ^ 24 < len then finishCommand s 3
    else if Config.imageGood image then
      pend (finishCommand { s with fw := { s.fw with flash := true, image := image } } 0) .deviceReset
    else finishCommand s 2) s)

/-- Power is gone (R309): everything is lost, and a flash write that was in progress may leave no good image (R311). -/
def losePower (s : State) : State :=
  let writing := s.fw.go && s.fw.cmd == 1 && s.fw.status == 1
  let s' := survivors s { power := .d3cold }
  { s' with fw := { s'.fw with flash := s.fw.flash && !(writing && Config.freeBit (freeIx s 32)) } }

/-- POWER_REMOVAL (R309). -/
def execPowerRemoval (s : State) : Out := .next (losePower s)

/-- THERMAL_SHUTDOWN (R308). -/
def execThermalShutdown (s : State) : Out := .next (losePower s)

/-- THERMAL_THROTTLE (R308): one more step of 10 %. -/
def execThermalThrottle (s : State) : Out := .next { s with fw := { s.fw with throttle := min (s.fw.throttle + 1) 9 } }

/-- THERMAL_RECOVER (R308): one step fewer. -/
def execThermalRecover (s : State) : Out := .next { s with fw := { s.fw with throttle := s.fw.throttle - 1 } }

/-- The value of a counter that the command processor reads in a context: none if its address is refused. -/
def counterValue (s : State) (asid va : Nat) : Option Nat :=
  match (address s { firmwareAgent with asid := asid } va 8 { r := true }).2 with
  | .error _ => none
  | .ok l => some (readBytes s.mm.mem l.pa 8)

/-- An enabled queue holds a record that is not yet released (R209). -/
def holdsRecord (s : State) (q : Queue) : Bool :=
  qEnabled q &&
    match counterValue s (qCtx q) (qTail q), counterValue s (qCtx q) (qHead q) with
    | some t, some h => h < t
    | _, _ => false

/-- A step that belongs to what D3hot keeps: the counters of verified memory. -/
def keptInD3hot : Instr → Bool
  | .memoryWriteback _ | .groupReencryption _ => true
  | _ => false

/-- D3hot is entered (R309): HBM4E with its counters and its ownership, the contexts, the keys and the firmware are kept, and all else
loses its power. DESIGN CHOICE (log 68): the lines of the caches are written back before they do. -/
def enterD3hot (s : State) : State :=
  let s := (s.mm.lines.map (·.1)).foldl evictLine s
  let r := survivors s s.fw
  let m : MemSys :=
    { s.mm with lines := [], msc := [], fpred := [], psel := [], grant := [], banks := [], pcs := [] }
  { r with
    pending := s.pending.filter keptInD3hot
    mm := m
    io := { r.io with links := s.io.links }
    fw := { s.fw with power := .d3hot, status := 4 } }

/-- D3HOT (R309): BUSY while a queue holds a record, or a block is resident or swapped. -/
def execD3hot (s : State) : Out :=
  .next (command 0x30 (fun s =>
    let held := s.blocks.any fun p => p.2.st == .resident || p.2.st == .saving || p.2.st == .swapped
    if held || s.cp.queues.any fun p => holdsRecord s p.2 then finishCommand s 1
    else finishCommand (enterD3hot s) 0) s)

/-- D0 (R309). -/
def execD0 (s : State) : Out :=
  .next (command 0x31 (fun s => finishCommand { s with fw := { s.fw with power := .d0, status := 2 } } 0) s)

end

end Sys2Proof.Machine
end

