-- ==== Sys2Proof/Machine/Place.lean ====
section
/-! DEFINITION. Room on the cores (R15 to R17, R214 to R216, R226): what the groups and blocks of a core hold, what a
bind record asks for, which blocks are pending and where one of them has room. -/

namespace Sys2Proof.Machine

noncomputable section

/-! ## What a core holds (R15, R116) -/

/-- A group holds its registers: a resident user group, or a retired one whose operations have not all arrived (R116). -/
def holdsSlot (c : Nat) (g : Group) : Bool := !g.sup && g.core == c && (isResident g || (g.st == .retired && !g.ops.isEmpty))

/-- The user groups that hold registers of a core. -/
def holders (s : State) (c : Nat) : List Group := (allGroups s).filter (holdsSlot c)

/-- The lanes held on a core, one entry for each group: partition × 32 + lane, and its budget B. -/
abbrev Lanes := List (Nat × Nat)
def lanesHeld (s : State) (c : Nat) : Lanes := (holders s c).map fun g => (g.part * 32 + g.lane, g.vb)

/-- The lane for one more group of budget `b` on a partition (R216): of those with room, the one with the fewest groups,
the lowest on a tie. -/
def pickLane (held : Lanes) (part b : Nat) : Option Nat :=
  let on := fun l => (held.filter fun p => p.1 == part * 32 + l).map (·.2)
  ((List.range 32).filter fun l => (on l).sum + b ≤ 64).foldl (fun best l =>
    match best with
    | none => some l
    | some m => if (on l).length < (on m).length then some l else some m) none

/-- The lanes of groups bound one after another (R216): group i of a core's share on partition (PBASE + i) mod 8. -/
def takeLanes (pbase b : Nat) : List Nat → Lanes → Option (List Nat)
  | [], _ => some []
  | i :: is, held =>
    let part := (pbase + i) % 8
    match pickLane held part b with
    | none => none
    | some l => (takeLanes pbase b is ((part * 32 + l, b) :: held)).map fun ls => (part * 32 + l) :: ls

/-- The groups of an entry that have not retired, counted from the entry's first. -/
def shareOf (s : State) (e : BindRec) : List Nat :=
  (List.range (e.ngM1 + 1)).filter fun i => !(block s e.blk).gone.contains (e.g0 + i)

/-- The lanes held once an entry is bound as well: none if a group of it finds no lane. -/
def bindInto (s : State) (held : Option Lanes) (e : BindRec) : Option Lanes :=
  let b := recB (recordOf s e.blk)
  held.bind fun h => (takeLanes e.pbase b (shareOf s e) h).map fun ls => ls.map (·, b) ++ h

/-- The scratch pages that a block homes on core `i` of its span (R17). -/
def pagesHomed (s : State) (e : BindRec) : Nat :=
  let m := e.spanM1 + 1
  (recScr (recordOf s e.blk) / 16384 + m - 1 - e.spanIdx) / m

/-- Entries fit on a core beside what is bound there, in their order (R15): tiles, scratch pages, uniform registers and
lanes. -/
def fitsOn (s : State) (c : Nat) (es : List BindRec) : Bool :=
  let all := ((core s c).slots.filter fun p => p.2.bound).map (·.2) ++ es
  (all.map fun e => recA (recordOf s e.blk)).sum ≤ 8 &&
  (all.map (pagesHomed s)).sum ≤ (core s c).scr.toNat * 16 &&
  ((holders s c).map (·.ub)).sum * 4 + (es.map fun e => (shareOf s e).length * recU (recordOf s e.blk) * 4).sum ≤ 393216 &&
  (es.foldl (bindInto s) (some (lanesHeld s c))).isSome

/-! ## The slot table (R215, R216) -/

/-- `a` comes before `b` in 16-bit serial-number arithmetic (R216). -/
def seqBefore (a b : Nat) : Bool := a != b && (b + 2 ^ 16 - a) % 2 ^ 16 < 2 ^ 15

/-- An entry put into a list in the order of dispatch. -/
def insertSeq (e : BindRec) : List BindRec → List BindRec
  | [] => [e]
  | x :: xs => if seqBefore e.seq x.seq then e :: x :: xs else x :: insertSeq e xs

/-- The entries of a core that dispatch has not bound, in ascending SEQ. -/
def unbound (s : State) (c : Nat) : List BindRec :=
  (((core s c).slots.filter fun p => !p.2.bound).map (·.2)).foldr insertSeq []

/-- The entries of a block, with their cores. -/
def entriesOf (s : State) (b : Nat) : List (Nat × BindRec) :=
  s.cores.flatMap fun p => (p.2.slots.filter fun q => q.2.blk == b).map fun q => (p.1, q.2)

/-! ## Pending blocks (R214, R226, R229) -/

/-- The span of a block. -/
def spanM (s : State) (b : Nat) : Nat := spanOf (recordOf s b)

/-- A block is pending until every core of its span has a bind record. -/
def stillPending (s : State) (b : Nat) : Bool := blockPending s b && (entriesOf s b).length < spanM s b

/-- The priority level of a block: that of its task's queue; 0 is the highest (R208). -/
def levelOf (s : State) (b : Nat) : Nat := qLevel (queue s (taskOf s (block s b).task).queue)

/-- The pending blocks. -/
def pendingBlocks (s : State) : List Nat := (s.blocks.map (·.1)).filter (stillPending s)

/-- No pending block must be placed before this one (R214): one of a higher level, or a restored one of the same level
where this one is new. -/
def mayPlace (s : State) (b : Nat) : Bool :=
  let new := (block s b).st == .waiting
  (pendingBlocks s).all fun p => p == b ||
    !(levelOf s p < levelOf s b || (levelOf s p == levelOf s b && new && (block s p).st == .swapped))

/-- A bind record for `n` groups of a block, of those not yet given a core, as entry `i` of its span. -/
def bindRec (s : State) (b i n pbase seq : Nat) : BindRec :=
  let k := block s b
  { kind := if k.st == .swapped then 1 else 0, ctx := (taskOf s k.task).ctx, spanIdx := i, spanM1 := spanM s b - 1,
    g0 := ((entriesOf s b).map fun p => p.2.ngM1 + 1).sum, seq := seq, pbase := pbase, ngM1 := n - 1,
    trec := Config.recordCopy k.task, bx := k.bx, by_ := k.by_, bz := k.bz, task := k.task, blk := b, saveIdx := k.saveIdx }

/-- `n` groups of a block fit on a core as entry `i` of its span, on some partition base. -/
def fitsSome (s : State) (c b i n : Nat) : Bool :=
  (core s c).slots.length < 512 && (List.range 8).any fun p => fitsOn s c (unbound s c ++ [bindRec s b i n p 0])

/-- The most groups of a block that fit on a core as entry `i` of its span. -/
def mostGroups (s : State) (c b i : Nat) : Nat :=
  (((List.range (block s b).ng).map (· + 1)).reverse.find? fun n => fitsSome s c b i n).getD 0

/-- Some core, or two cores of one cluster, have room for a block (R15, R17). -/
def hasRoom (s : State) (b : Nat) : Bool :=
  let ng := (block s b).ng
  if spanM s b = 1 then (List.range Config.cores).any fun c => fitsSome s c b 0 ng
  else
    (List.range Config.cores).any fun c =>
      let first := mostGroups s c b 0
      0 < first && (List.range (7 - c % 8)).any fun d =>
        let second := mostGroups s (c + 1 + d) b 1
        0 < second && ng ≤ first + second

/-- The device without a block: what its place holds is free. -/
def withoutBlock (s : State) (b : Nat) : State :=
  { modAll s (fun g => if residentOf b g then { g with st := .swapped, ops := [] } else g) with
    cores := s.cores.map fun p => (p.1, { p.2 with slots := p.2.slots.filter fun q => q.2.blk != b }) }

/-! ## The most blocks of a launch that the device holds (R226) -/

/-- The most blocks of a launch's shape that one core holds, if one can hold a block, with the largest scratchpad
share. -/
def mostOnCore (r : List Word) : Nat :=
  let n := min (min (256 * (64 / recB r) / recGroups r) (98304 / recU r / recGroups r)) 512
  let n := if recA r = 0 then n else min n (8 / recA r)
  if recScr r = 0 then n else min n (80 / (recScr r / 16384))

/-- The most blocks of two cores that an empty cluster holds: blocks share cores in chains, v cores hold v − 1 blocks where
the lanes and uniform registers of v cores hold the groups of v − 1 blocks, and the tiles of a core those of two. -/
def mostInCluster (r : List Word) : Nat :=
  let cap := min (256 * (64 / recB r)) (98304 / recU r)
  let v := if 4 < recA r then 2 else min 8 (recGroups r / (recGroups r - cap))
  8 - (8 + v - 1) / v

/-- The most blocks of a launch's shape that the device holds at once. -/
def mostBlocks (r : List Word) : Nat :=
  if spanOf r = 1 then Config.cores * mostOnCore r else Config.cores / 8 * mostInCluster r

/-- The blocks whose images the swap area must hold (R226). -/
def swapBlocks (r : List Word) : Nat := if recGbar r then nblk r else min (nblk r) (mostBlocks r)

/-- The lanes held on a core once every entry of its slot table is bound. -/
def lanesTaken (s : State) (c : Nat) : Option Lanes := (unbound s c).foldl (bindInto s) (some (lanesHeld s c))

/-- The scratch pages that a core offers to blocks yet to come: an empty core as many as the largest share holds (R16). -/
def pagesLeft (s : State) (c : Nat) : Nat :=
  let es := (core s c).slots.map (·.2)
  (if es.isEmpty then 80 else (core s c).scr.toNat * 16) - (es.map (pagesHomed s)).sum

/-- How many groups of budget `b` find lanes on a partition. -/
def partRoom (held : Lanes) (part b : Nat) : Nat :=
  ((List.range 32).map fun l => (64 - ((held.filter fun p => p.1 == part * 32 + l).map (·.2)).sum) / b).sum

/-- How many of `n` groups that begin on partition `first` come to partition `p` (R216). -/
def comesTo (n first p : Nat) : Nat := n / 8 + (if (p + 8 - first) % 8 < n % 8 then 1 else 0)

/-- How many of `k` runs of `n` groups begin on the partitions below each partition: nine sums, with the bounds on them. A bound names two
sums and a number: the second sum is at most the first plus the number. -/
def runBounds (k n : Nat) (room : Nat → Nat) : List (Nat × Nat × Int) :=
  let r := n % 8
  let left := fun p => (room p : Int) - (k * (n / 8) : Nat)
  (List.range 8).map (fun j => (j + 1, j, (0 : Int))) ++ [(0, 8, (k : Int)), (8, 0, -(k : Int))] ++
    (List.range 8).map fun p => if r ≤ p + 1 then (p + 1 - r, p + 1, left p) else (p + 9 - r, p + 1, left p - k)

/-- One round over the bounds: sums lowered to meet them. -/
def lowerSums (bs : List (Nat × Nat × Int)) (sums : List Int) : List Int :=
  bs.foldl (fun d b => d.set b.2.1 (min (d.getD b.2.1 0) (d.getD b.1 0 + b.2.2))) sums

/-- `k` runs of `n` groups each find lanes on a core whose partitions have room: the bounds can all be met. -/
def runsFit (k n : Nat) (room : Nat → Nat) : Bool :=
  let bs := runBounds k n room
  let d := (List.range 9).foldl (fun d _ => lowerSums bs d) (List.replicate 9 0)
  (List.range 8).all (fun p => k * (n / 8) ≤ room p) && bs.all fun b => d.getD b.2.1 0 ≤ d.getD b.1 0 + b.2.2

/-- The words of uniform registers that a core has left once every entry of its slot table is bound. -/
def uniformLeft (s : State) (c : Nat) : Nat :=
  98304 - ((holders s c).map (·.ub)).sum - ((unbound s c).map fun e => (shareOf s e).length * recU (recordOf s e.blk)).sum

/-- How many more blocks of a record fit on a core beside what it holds or is to hold; an empty core offers the largest share that R16
allows. -/
def moreOnCore (s : State) (c : Nat) (r : List Word) (held : Lanes) : Nat :=
  let es := (core s c).slots.map (·.2)
  let n := min (512 - es.length) (uniformLeft s c / (recGroups r * recU r))
  let n := if recA r = 0 then n else min n ((8 - (es.map fun e => recA (recordOf s e.blk)).sum) / recA r)
  let n := if recScr r = 0 then n else min n (pagesLeft s c / (recScr r / 16384))
  let room := fun p => partRoom held p (recB r)
  ((List.range (n + 1)).reverse.find? fun k => runsFit k (recGroups r) room).getD 0

/-- How many shares of blocks of a record find tiles, pages and entries on a core, up to two. -/
def sharesOn (s : State) (c : Nat) (r : List Word) : Nat :=
  let es := (core s c).slots.map (·.2)
  let tiles := 8 - (es.map fun e => recA (recordOf s e.blk)).sum
  let pages := (recScr r / 16384 + 1) / 2
  min (min (if recA r = 0 then 2 else tiles / recA r) (if pages = 0 then 2 else pagesLeft s c / pages)) (min 2 (512 - es.length))

/-- Two runs of `a` and `b` groups, each from a partition of its own choice, find lanes on a core. -/
def twoRunsFit (a b : Nat) (room : Nat → Nat) : Bool :=
  (List.range 8).any fun x => (List.range 8).any fun y => (List.range 8).all fun p => comesTo a x p + comesTo b y p ≤ room p

/-- For each number of groups of one block that a core may have to take, in ascending order while it can, the most groups of another block
that it takes beside them. -/
def sharesBeside (s : State) (c : Nat) (r : List Word) : List Nat :=
  match lanesTaken s c, sharesOn s c r with
  | none, _ | _, 0 => []
  | some held, n =>
    let uni := uniformLeft s c / recU r
    let room := fun p => partRoom held p (recB r)
    ((List.range (min (recGroups r) (uni + 1))).takeWhile fun a => twoRunsFit a 0 room).map fun a =>
      if n = 1 ∧ 0 < a then 0
      else ((List.range (min (recGroups r) (uni - a + 1))).reverse.find? fun b => twoRunsFit a b room).getD 0

/-- The most blocks of `size` groups that the cores of a cluster, each as `sharesBeside` describes it, hold in chains, in which two
neighbours share a block: the next core of the present chain has to take `a` groups, none where a chain begins. -/
def mostInChains (size : Nat) : Nat → List (List Nat) → Nat → Nat
  | 0, _, _ => 0
  | fuel + 1, cores, a =>
    (cores.eraseDups.map fun x =>
      match x[a]? with
      | none => 0
      | some b =>
        let rest := cores.erase x
        (if a = 0 then 0 else 1) + max (mostInChains size fuel rest 0) (if b = 0 then 0 else mostInChains size fuel rest (size - b))).foldl
      max 0

/-- The most blocks of two cores that a cluster holds beside what its cores hold. -/
def moreInCluster (s : State) (cl : Nat) (r : List Word) : Nat :=
  mostInChains (recGroups r) 8 ((List.range 8).map fun i => sharesBeside s (cl * 8 + i) r) 0

/-- Every block of a grid can be resident at once beside what the cores hold (R226, OVSUB = 0). -/
def gridFits (s : State) (r : List Word) : Bool :=
  if spanOf r = 1 then
    nblk r ≤ ((List.range Config.cores).map fun c =>
      match lanesTaken s c with
      | some held => moreOnCore s c r held
      | none => 0).sum
  else
    nblk r ≤ ((List.range (Config.cores / 8)).map fun cl =>
      let empty := (List.range 8).all fun i => (core s (cl * 8 + i)).slots.isEmpty && (holders s (cl * 8 + i)).isEmpty
      if empty then mostInCluster r else moreInCluster s cl r).sum

end

end Sys2Proof.Machine
end

