-- ==== Sys2Proof/Machine/Tasks.lean ====
section
/-! DEFINITION. The command processor's reading of its queues (R208 to R211): counters, records and their checks, and the
tasks that accepted records make. -/

namespace Sys2Proof.Machine

noncomputable section

/-! ## Accesses of the command processor (log 20) -/

/-- The command processor as an agent in a context. -/
def cpAgent (s : State) (asid : Nat) (clk : Word) : Who :=
  { core := Config.cpCore, asid := asid, clk := clk, user := false, lease := (ctx s asid).lease.toNat }

/-- A leaf in device memory that nothing refuses. -/
def cpReaches (s : State) (l : Leaf) : Bool :=
  match placeOf l with
  | .host | .peer | .mmio => false
  | _ => (memFault s l.pa l.via).isNone

/-- A counter that the command processor reaches, ready at its slice. -/
def cpCounter (s : State) (asid va : Nat) (w : Bool) : State × Option Leaf :=
  match address s (cpAgent s asid s.cp.front) va 8 { r := true, w := w } with
  | (s, .error _) => (s, none)
  | (s, .ok l) => if cpReaches s l then (sliceReady s asid (l.pa / 128) w l.via, some l) else (s, none)

/-- A counter raised by the command processor at a time not below the front. One that is refused, or would overflow, is
not added (log 23). -/
def cpAdd (s : State) (asid : Nat) (clk : Word) (va n : Nat) : State :=
  match cpCounter s asid va true with
  | (s, none) => s
  | (s, some l) =>
    match counterAdd s asid (clamp s clk) l.pa n l.via with
    | some r => r.1
    | none => s

/-- Words read by the command processor as loads; none if one faults. -/
def cpWords (w : Who) : Nat → Nat → State → State × Option (List Word)
  | 0, _, s => (s, some [])
  | n + 1, va, s =>
    match address s w va 4 { r := true } with
    | (s, .error _) => (s, none)
    | (s, .ok l) =>
      match plainLoad s w l 4 with
      | .done s _ x none =>
        match cpWords w n (va + 4) s with
        | (s, some xs) => (s, some (BitVec.ofNat 32 x :: xs))
        | r => r
      | .done s _ _ (some _) => (s, none)
      | _ => (s, none)

/-! ## Queues (R208, R209) -/

/-- A queue's TAIL counter: its value and its line's wts. Its place is noted, so that a write to it is noticed. -/
def readTail (s : State) (q : Nat) : State × Option (Nat × Word) :=
  let k := queue s q
  match cpCounter s (qCtx k) (qTail k) false with
  | (s, none) => (s, none)
  | (s, some l) =>
    (modQueue s q fun k => { k with tailPa := some l.pa },
     some (readBytes s.mm.mem l.pa 8, (lineOf s (l.pa / 128)).wts))

/-- A queue's record may be taken: it is enabled, no task read from it waits to be handed to placement, and for a host's
queue the CXL port is up (R208, R209, R297), or its CXL.cache or CXL.mem has failed at the boot, when the rings in device memory are still
served (R312). -/
def queueOpen (s : State) (q : Nat) : Bool :=
  let k := queue s q
  qEnabled k && (qDevice k || !(link s 0).down || s.fw.cxlBad) && !s.cp.tasks.any fun t => t.2.queue == q && t.2.st == .queued

/-- A queue has a record ready. -/
def recordReady (s : State) (q : Nat) : Bool :=
  queueOpen s q && match (readTail s q).2 with
    | some (t, _) => (queue s q).processed < t
    | none => false

/-- The records that a queue may have taken in a round: WEIGHT, 0 counting as 1 (R208). -/
def qWeight (q : Queue) : Nat := max 1 (qWord q 2 / 2 ^ 13 % 2 ^ 8)

/-- The queue whose turn it is (R209): of the highest level with a record ready, the one served last if its round is not
over, else the next in ascending index. -/
def turnOf (s : State) : Option Nat :=
  let ready := (s.cp.queues.map (·.1)).filter (recordReady s)
  match (ready.map fun q => qLevel (queue s q)).min? with
  | none => none
  | some level =>
    let at_ := ready.filter fun q => qLevel (queue s q) == level
    let next := fun q => match at_.find? (fun p => q < p) with
      | some p => some p
      | none => at_.head?
    match mfind s.cp.served level with
    | none => at_.head?
    | some (q, n) => if at_.contains q && n < qWeight (queue s q) then some q else next q

/-- A queue is served: its count in the round of its level. -/
def noteServed (s : State) (q : Nat) : State :=
  let level := qLevel (queue s q)
  let n := match mfind s.cp.served level with
    | some (p, n) => if p == q && n < qWeight (queue s q) then n + 1 else 1
    | none => 1
  { s with cp := { s.cp with served := mset s.cp.served level (q, n) } }

/-- The first LAUNCH that waits to enter a queue looks again. -/
def wakeLaunch (s : State) (q : Nat) : State :=
  match s.cp.launches.find? (fun l => recBits l.record 23 0 10 == q) with
  | some l => pend s (.launchEnqueue l.gid l.stamp)
  | none => s

/-- A record of a queue is released (R209). -/
def releaseHead (s : State) (q : Nat) : State :=
  let k := queue s q
  wakeLaunch (cpAdd s (qCtx k) s.cp.front (qHead k) 1) q

/-- QERR and QIDX of a rejected record (R208, R211). -/
def setQerr (s : State) (q code index : Nat) : State :=
  modQueue s q fun k => { k with desc := k.desc.set 7 (BitVec.ofNat 32 (code * 2 ^ 24 + index % 2 ^ 24)) }

/-- A record is rejected (R211): QERR and QIDX are set, and CINC is added to CCTR if the record could be read. -/
def rejectRecord (s : State) (q code index : Nat) (r : Option (List Word)) : State :=
  let s := setQerr s q code index
  match r with
  | some r => cpAdd s (qCtx (queue s q)) s.cp.front (recPair r 15) (recWord r 17)
  | none => s

/-! ## The checks of a record (R210, R211) -/

/-- QERR 1: the version, a reserved bit, or CODE. -/
def badForm (r : List Word) : Bool :=
  recBits r 0 28 4 != 1 || recBits r 0 19 9 != 0 || recBits r 0 0 16 != 0 || recBits r 3 31 1 != 0 ||
  recBits r 5 22 10 != 0 || recBits r 6 25 7 != 0 || recBits r 6 10 6 != 0 || recBits r 11 16 16 != 0 ||
  recBits r 23 10 22 != 0 || (List.range 8).any (fun k => recWord r (24 + k) != 0) ||
  recPair r 1 % 256 != 0 || 2 ^ 58 ≤ recPair r 1

/-- QERR 2: the budgets. -/
def badBudget (r : List Word) : Bool :=
  recBits r 5 14 2 == 3 || recBits r 5 16 2 == 3 || 8 < recA r || recU r < recBits r 6 16 9

/-- QERR 2: the BANKTAB entry of a bound bank. -/
def badBank (e : List Word) : Bool := 65536 < (e.getD 2 0).toNat || recPair e 0 % 4 != 0 || recWord e 3 != 0

/-- The BANKTAB entries of the bound banks, those that can be read, and whether one cannot. -/
def readBanks (w : Who) (r : List Word) (s : State) : State × SMap (List Word) × Bool :=
  ((List.range 16).filter fun n => (r.getD 11 0).getLsbD n).foldl (fun (p : State × SMap (List Word) × Bool) n =>
    match cpWords w 4 (recPair r 9 + 16 * n) p.1 with
    | (s, some e) => (s, mset p.2.1 n e, p.2.2)
    | (s, none) => (s, p.2.1, true)) (s, [], false)

/-- QERR 5: a handle that is not registered for the context, or is named twice (R212). -/
def badHandles (s : State) (asid : Nat) (r : List Word) : Bool :=
  let hs := readHandles r ++ writtenHandles r
  !hs.Nodup || hs.any fun h => match mfind s.cp.handles h with
    | some x => x.ctx != asid
    | none => true

/-- The first check that a record fails (R211), 0 if none, and the banks it binds. -/
def checkRecord (s : State) (asid : Nat) (clk : Word) (r : List Word) : State × Nat × SMap (Nat × Nat) :=
  if badForm r then (s, 1, [])
  else
    let w := cpAgent s asid clk
    let b := readBanks w r s
    let s := b.1
    let code :=
      if badBudget r || b.2.1.any (fun e => badBank e.2) then 2
      else if 80 < recScr r / 16384 then 3
      else if recWord r 14 * 4096 < imageSize r (spanOf r) * swapBlocks r then 4
      else if badHandles s asid r then 5
      else 0
    if code ≠ 0 then (s, code, [])
    else
      let u := cpWords w (recBits r 6 16 9) (recPair r 7) s
      (u.1, if b.2.2 || u.2.isNone then 6 else 0, b.2.1.map fun e => (e.1, (recPair e.2 0, recWord e.2 2)))

/-! ## Tasks -/

/-- An accepted record becomes a task, whose handing to placement is due; `carried` is the clock that a LAUNCH carried
(R231). -/
def acceptRecord (s : State) (q index : Nat) (carried : Word) (r : List Word) (banks : SMap (Nat × Nat)) : State :=
  let t := s.cp.nextTask
  let task : Task :=
    { record := r, banks := banks, ctx := qCtx (queue s q), queue := q, index := index, clk := carried, fin := s.cp.front }
  pend { s with cp := { s.cp with tasks := mset s.cp.tasks t task, nextTask := t + 1 } } (.taskHandoff t)

/-- A record that has been read from a queue is checked: rejected and released, or accepted (R209, R211). -/
def takeRecord (s : State) (q index : Nat) (clk carried : Word) (r : List Word) : State :=
  match checkRecord s (qCtx (queue s q)) clk r with
  | (s, 0, banks) => acceptRecord s q index carried r banks
  | (s, code, _) => pend (releaseHead (rejectRecord s q code index (some r)) q) (.queueRecordRead q)

/-- Record P of a queue is read as a tracked load, with the clock raised to the wts of the TAIL line (R209). -/
def readRecord (s : State) (q : Nat) (wts : Word) : State :=
  let k := queue s q
  let index := k.processed
  let refuse := fun (s : State) (code : Nat) =>
    pend (releaseHead (rejectRecord s q code index none) q) (.queueRecordRead q)
  let slot := index % 2 ^ qLog k
  let carried := clamp s (mget s.cp.front k.launchClk slot)
  let s := noteServed (modQueue s q fun k => { k with processed := index + 1, launchClk := mdel k.launchClk slot }) q
  let s := { s with cp := { s.cp with clk := ltMax (clamp s s.cp.clk) wts } }
  if !(ctx s (qCtx k)).live then refuse s 8
  else
    let w := cpAgent s (qCtx k) s.cp.clk
    match address s w (qBase k + slot * 128) 128 { r := true } with
    | (s, .error _) => refuse s 6
    | (s, .ok l) =>
      if !cpReaches s l then refuse s 6
      else
        let c := trackedLine s w (l.pa / 128) l.via
        let s := { c.1 with cp := { c.1.cp with clk := c.2.2 } }
        if (copyBad s c.2.1 l.pa 128).isSome then refuse s 6
        else takeRecord s q index c.2.2 carried (wordsOf 32 (copyBytes s c.2.1 l.pa 128))

end

end Sys2Proof.Machine
end

