-- ==== Sys2Proof/Machine/EvLaunch.lean ====
section
/-! DEFINITION. Steps of a launch (R62, R209 to R217, R226, R229, R231, R232, R324): its record is read, its task is handed
over, its blocks are placed, bound, swapped and restored, and it completes. -/

namespace Sys2Proof.Machine

noncomputable section

/-! ## Queues (R209, R211, R231) -/

/-- QUEUE_RECORD_READ (R209, R211): the next record of a queue is taken, if it is the queue's turn; otherwise that of the
queue whose turn it is comes first. -/
def execQueueRecordRead (q : Nat) (s : State) : Out :=
  .next (unlessHeld (.queueRecordRead q) (fun s =>
    let r := readTail s q
    let s := r.1
    match r.2, turnOf s with
    | some (tail, wts), some p =>
      if !queueOpen s q || tail ≤ (queue s q).processed then s
      else if s.pending.any fun i => i matches .taskHandoff _ then pend s (.queueRecordRead q)
      else if p = q then readRecord s q wts
      else pend (pend s (.queueRecordRead p)) (.queueRecordRead q)
    | _, _ => s) s)

/-- The code with which a LAUNCH is rejected (R211): its queue's context is not live, or the queue is not one for it. -/
def launchCode (s : State) (k : Queue) (l : Launch) : Nat :=
  if !(ctx s (qCtx k)).live then 8
  else if !qDevice k || !qEnabled k || qCtx k != l.ctx then 7
  else 0

/-- A LAUNCH arrives on its group's counter, saved or not (R231, R268). -/
def arriveLaunch (s : State) (l : Launch) : State :=
  let s := { s with cp := { s.cp with launches := s.cp.launches.filter fun x => x.stamp != l.stamp } }
  let mine := fun (o : OpRec) => o.kind == .launch && o.id == l.op
  if isSupName l.gid = false ∧ (awayGroup s l.blk l.grpib).any (fun g => g.ops.any mine) then
    modAway s l.blk l.grpib fun g => { g with ops := g.ops.filter fun o => !mine o }
  else if (group s l.gid).any fun g => g.ops.any mine then recheck (modGroup s l.gid fun g => arriveOp g l.op) l.gid
  else s

/-- A launch record is appended to its ring at index TAIL at the clock the group held, and TAIL is added (R231); `none`
where the ring or a counter is refused. -/
def appendLaunch (s : State) (q tail : Nat) (l : Launch) : State × Bool :=
  let k := queue s q
  let slot := tail % 2 ^ qLog k
  match address s (cpAgent s (qCtx k) l.clk) (qBase k + slot * 128) 128 { r := true, w := true } with
  | (s, .error _) => (s, false)
  | (s, .ok lf) =>
    if !cpReaches s lf then (s, false)
    else
      let x := (l.record.zipIdx.map fun p => p.1.toNat * 2 ^ (32 * p.2)).sum
      let r := sliceStore s (qCtx k) (clamp s l.clk) lf.pa 128 x lf.via
      let s := modQueue r.1 q fun k => { k with launchClk := mset k.launchClk slot l.clk }
      (cpAdd s (qCtx k) r.2 (qTail k) 1, true)

/-- A LAUNCH at its queue (R231): rejected, held until the ring has room, or appended; it arrives unless it is held. -/
def enqueueLaunch (s : State) (l : Launch) : State :=
  let q := recBits l.record 23 0 10
  let k := queue s q
  let reject := fun (s : State) (code index : Nat) =>
    arriveLaunch (cpAdd (setQerr s q code index) l.ctx s.cp.front (recPair l.record 15) (recWord l.record 17)) l
  match launchCode s k l with
  | 0 =>
    let t := readTail s q
    let h := cpCounter t.1 (qCtx k) (qHead k) false
    match t.2, h.2 with
    | some (tail, _), some lf =>
      if tail < readBytes h.1.mm.mem lf.pa 8 + 2 ^ qLog k then
        match appendLaunch h.1 q tail l with
        | (s, true) => pend (arriveLaunch s l) (.queueRecordRead q)
        | (s, false) => reject s 6 tail
      else h.1
    | _, _ => reject h.1 6 k.processed
  | code => reject s code k.processed

/-- LAUNCH_ENQUEUE (R231): LAUNCHes enter a queue in the order in which they issued. -/
def execLaunchEnqueue (gid op : Nat) (s : State) : Out :=
  .next (unlessHeld (.launchEnqueue gid op) (fun s =>
    let l := s.cp.launches.find? fun l => l.stamp == op
    match l with
    | none => s
    | some l =>
      let q := recBits l.record 23 0 10
      let ahead := s.cp.launches.find? fun x => recBits x.record 23 0 10 == q
      if ahead.any fun x => x.stamp != op then s
      else
        let s := enqueueLaunch s l
        if s.cp.launches.any fun x => x.stamp == op then s else wakeLaunch s q) s)

/-! ## Tasks (R212, R213, R226) -/

/-- The state with a buffer handle changed. -/
def modHandle (s : State) (h : Nat) (f : Handle → Handle) : State :=
  match mfind s.cp.handles h with
  | some x => { s with cp := { s.cp with handles := mset s.cp.handles h (f x) } }
  | none => s

/-- A buffer handle. -/
def handleAt (s : State) (h : Nat) : Handle := mget {} s.cp.handles h

/-- A task may be handed over (R210, R212, R226): the queue's order, its handles, its grid-barrier counters, and, for a
grid without OVSUB, room for every block. -/
def mayHandOver (s : State) (k : Task) : Bool :=
  let r := k.record
  let prevDone := match (queue s k.queue).lastTask with
    | some p => (taskOf s p).st == .done
    | none => true
  let grids := (s.cp.tasks.filter fun t => t.2.st == .running && recGbar t.2.record).length
  (recBits r 0 18 1 == 0 || prevDone) &&
  (readHandles r ++ writtenHandles r).all (fun h => (handleAt s h).done) &&
  (writtenHandles r).all (fun h => (handleAt s h).rdrs == 0) &&
  (!recGbar r || (grids < 64 && (recOvsub r || gridFits s r)))

/-- T's initial LCLK (R212, R213). -/
def initialClock (s : State) (k : Task) : Word :=
  let named := readHandles k.record ++ writtenHandles k.record
  let t := named.foldl (fun t h => ltMax t (handleAt s h).fin) (ltMax s.cp.front k.clk)
  let t := (writtenHandles k.record).foldl (fun t h => ltMax t (handleAt s h).rfin) t
  let ual := s.io.ualClk.foldl (fun t p => ltMax t p.2) s.cp.front
  (readHandles k.record).foldl (fun t h =>
    match (handleAt s h).dom with
    | 2 => ltMax t (clamp s s.io.cxlClk)
    | 3 => ltMax t ual
    | _ => t) t

/-- The next block of a task, in ascending L, waits to be placed (R210). -/
def makeBlock (s : State) (t : Nat) : State :=
  let k := taskOf s t
  let r := k.record
  let i := k.placed
  if nblk r ≤ i then s
  else
    let b : Block :=
      { task := t, idx := i, bx := i % nblkX r, by_ := i / nblkX r % nblkY r, bz := i / (nblkX r * nblkY r),
        ng := recGroups r, atiles := recA r, scrSize := recScr r }
    { s with blocks := mset s.blocks s.nextBlk b, nextBlk := s.nextBlk + 1 }

/-- A launch begins: what its fetches and its constant banks read is what memory holds from now on (R41, R90). What the caches hold for
other launches' banks stays (R319). -/
def freshCaches (s : State) (task asid : Nat) : State :=
  { s with cores := s.cores.map fun p =>
      (p.1, { p.2 with ccache := p.2.ccache.filter (fun q => q.1 / 2 ^ 62 != task),
                       icache := p.2.icache.filter fun q => q.1 / 2 ^ 51 != asid }) }

/-- TASK_HANDOFF (R41, R90, R212): readers are counted, written handles take the task as their last writer, the initial clock is
set, the record is released (R209), and the task's first block waits to be placed. -/
def execTaskHandoff (task : Nat) (s : State) : Out :=
  .next (unlessHeld (.taskHandoff task) (fun s =>
    let k := taskOf s task
    if (mfind s.cp.tasks task).isNone || k.st != .queued || !mayHandOver s k then s
    else
      let clk := initialClock s k
      let s := (readHandles k.record).foldl (fun s h => modHandle s h fun x => { x with rdrs := x.rdrs + 1 }) s
      let s := (writtenHandles k.record).foldl (fun s h =>
        modHandle s h fun x => { x with lastw := some task, done := false, rfin := s.cp.front }) s
      let s := modTask (freshCaches s task k.ctx) task fun t => { t with st := .running, clk := clk, fin := clk }
      let s := modQueue s k.queue fun q => { q with lastTask := some task }
      pend (releaseHead (makeBlock s task) k.queue) (.queueRecordRead k.queue)) s)

/-- Something of a task is not finished: a group's stores or engine commands (R213). -/
def taskBusy (s : State) (t : Nat) : Bool :=
  let mine := fun (b : Nat) => (block s b).task == t
  (allGroups s).any (fun g => !g.sup && mine g.blk && !g.ops.isEmpty) ||
  s.cores.any fun p =>
    (p.2.cpyq ++ p.2.parkedCpy).any (fun c => !isSupName c.gid && mine c.blk) || p.2.mmaq.any fun c => mine c.blk

/-- TASK_COMPLETE (R213): once nothing of the task is outstanding, its handles take its finish time, CINC is added to
CCTR, and tasks that wait look again. -/
def execTaskComplete (task : Nat) (s : State) : Out :=
  .next (unlessHeld (.taskComplete task) (fun s =>
    let k := taskOf s task
    if k.st != .running || k.retired < nblk k.record then s
    else if taskBusy s task then pend s (.taskComplete task)
    else
      let s := (writtenHandles k.record).foldl (fun s h => modHandle s h fun x => { x with fin := k.fin, done := true }) s
      let s := (readHandles k.record).foldl (fun s h =>
        modHandle s h fun x => { x with rdrs := x.rdrs - 1, rfin := ltMax x.rfin k.fin }) s
      let s := cpAdd s k.ctx k.fin (recPair k.record 15) (recWord k.record 17)
      let s := modTask s task fun t => { t with st := .done }
      let s := { s with cp := { s.cp with grid := s.cp.grid.filter fun p => p.1 / 16 != task } }
      (s.cp.tasks.filter fun t => t.2.st == .queued).foldl (fun s t => pend s (.taskHandoff t.1)) s) s)

/-! ## Placement (R214, R215) -/

/-- The save image of a block (R215, R226): that it has, or for a new one the first that no block of its task holds. DESIGN CHOICE
(log 85): a block that is bound beside swapped ones may get an image beyond those that R226 counts (R229). -/
def imageOf (s : State) (b : Nat) : Nat :=
  let k := block s b
  if k.st == .swapped || !(entriesOf s b).isEmpty then k.saveIdx
  else
    let used := (s.blocks.filter fun p => p.2.task == k.task && p.2.st != .retired &&
      (p.2.st != .waiting || !(entriesOf s p.1).isEmpty)).map (·.2.saveIdx)
    ((List.range (used.length + 1)).find? fun i => !used.contains i).getD 0

/-- A placement keeps the guarantees of R214 and the limits of R15 to R17: the cores of a span are of one cluster and
rise, the last takes the groups that are left, and the entry fits beside those that are bound before it. -/
def placeable (s : State) (b core pbase seq entry n : Nat) : Bool :=
  let es := entriesOf s b
  let m := spanM s b
  let left := (block s b).ng - (es.map fun p => p.2.ngM1 + 1).sum
  let c := Machine.core s core
  stillPending s b && mayPlace s b && core < Config.cores && pbase < 8 && entry < 512 && seq < 2 ^ 16 &&
  (mfind c.slots entry).isNone && c.slots.all (fun p => p.2.seq != seq) &&
  es.all (fun p => p.1 < core && p.1 / 8 == core / 8) &&
  0 < n && (if es.length + 1 = m then n == left else n < left) &&
  fitsOn s core ((unbound s core).foldr insertSeq [bindRec s b es.length n pbase seq])

/-- PLACEMENT (R214, R215): the firmware writes one bind record of a pending block. The choice is its own, within the
guarantees; a record that would break them is not written. -/
def execPlacement (blk core pbase seq entry n : Nat) (s : State) : Out :=
  .next (
    if !placeable s blk core pbase seq entry n then s
    else
      let image := imageOf s blk
      let i := (entriesOf s blk).length
      let new := (block s blk).st == .waiting
      let s := modBlock s blk fun k => { k with saveIdx := image, span := if i = 0 then [core] else k.span ++ [core] }
      let e := bindRec s blk i n pbase seq
      let s := modCore s core fun c => { c with slots := mset c.slots entry e }
      let s := if new ∧ i + 1 = spanM s blk then
          let t := (block s blk).task
          makeBlock (modTask s t fun t => { t with placed := t.placed + 1 }) t
        else s
      pend s (if new then .bindNewBlock core else .bindRestore core))

/-! ## Dispatch (R62, R210, R216, R268, R324) -/

/-- The launch mask of group i of a block, and its helper threads (R8). -/
def launchMask (r : List Word) (i : Nat) : Word :=
  BitVec.ofNat 32 (bitsToNat ((List.range 32).map fun t => 32 * i + t < 4 * ((recThreads r + 3) / 4)))
def helperMask (r : List Word) (i : Nat) : Word :=
  BitVec.ofNat 32 (bitsToNat ((List.range 32).map fun t =>
    recThreads r ≤ 32 * i + t && 32 * i + t < 4 * ((recThreads r + 3) / 4)))

/-- A place of a lane whose slot no group holds. -/
def freePlace (s : State) (c lane : Nat) : Nat :=
  let held := (holders s c).map (·.slot)
  ((List.range 4).find? fun p => !held.contains (lane * 4 + p)).getD 0

/-- A group as it is bound, on a lane of a core, with every register zero (R216, R246). -/
def boundGroup (s : State) (c lane : Nat) (e : BindRec) (i : Nat) : Group :=
  let b := block s e.blk
  let r := recordOf s e.blk
  let slot := lane * 4 + freePlace s c lane
  let grpib := e.g0 + i
  { core := c, slot := slot, seq := e.seq % 2 ^ 14, part := lane / 32, lane := lane % 32, ctx := e.ctx, blk := e.blk,
    grpib := grpib, vb := recB r, ub := recU r, ab := b.atiles, codebase := BitVec.ofNat 64 (recPair r 1),
    lmask := launchMask r grpib, pmask := launchMask r grpib, hmask := helperMask r grpib, st := .stalled 1 false,
    lclk := s.cp.front, age := s.turn, bound := s.turn * 1024 + i, nextOp := ((group s (c * 2048 + slot)).map (·.nextOp)).getD 0 }

/-- The uniform register of slot s of R270. -/
def slotReg (u s : Nat) : Nat := if s < u - 4 then s else 380 + s - (u - 4)

/-- A group as it starts (R62, R210). -/
def newGroup (r : List Word) (clk : Word) (idx : Nat) (uni : List Word) (g : Group) : Group :=
  let seed := BitVec.ofNat 64 (recPair r 18)
  let g := uni.zipIdx.foldl (fun g p => gset g (slotReg g.ub p.2) p.1) g
  { mwrite g 0 g.lmask with
    pc := g.codebase, lclk := clk,
    srs := seed ^^^ BitVec.ofNat 64 (idx * 2 ^ 32) ^^^ BitVec.ofNat 64 (g.grpib + 1) }

/-- A bound group takes its slot, and until its block begins it counts not-selected (R300; a free number of cycles, log 2). -/
def putBound (s : State) (g : Group) : State :=
  let s := setGroup s g
  if g.st = .stalled 1 false then countStall s (gidOf g) 1 (Config.cycles (freeIx s 42 + 2 ^ 64 * gidOf g)) else s

/-- Every core of a block's span has bound its share: the block is resident and its groups begin (R216). -/
def beginBlock (s : State) (b : Nat) : State :=
  let es := entriesOf s b
  if es.length < spanM s b || es.any (fun p => !p.2.bound) then s
  else
    let s := modBlock s b fun k => { k with st := .resident }
    modBlockGroups s b fun g => if g.st = .stalled 1 false then { g with st := .ready, age := s.turn } else g

/-- An entry is marked bound; the next one is looked at. -/
def markBound (s : State) (c : Nat) (e : BindRec) : State :=
  modCore s c fun k => { k with slots := k.slots.map fun p => if p.2 = e then (p.1, { e with bound := true }) else p }

/-- The groups of an entry, each made from its bound form and put on its lane. -/
def bindGroups (s : State) (c : Nat) (e : BindRec) (make : State → Group → State × Group) : State :=
  match takeLanes e.pbase (recB (recordOf s e.blk)) (shareOf s e) (lanesHeld s c) with
  | none => s
  | some ls =>
    ((shareOf s e).zip ls).foldl (fun s p =>
      let m := make s (boundGroup s c p.2 e p.1)
      putBound m.1 m.2) s

/-- Dispatch takes the first entry that it has not bound, if it is of a kind and fits; else it waits (R216). -/
def dispatch (s : State) (c kind : Nat) (f : State → BindRec → State) : State :=
  match unbound s c with
  | [] => s
  | e :: rest =>
    if e.kind != kind || !fitsOn s c [e] then s
    else
      let s := beginBlock (markBound (f s e) c e) e.blk
      if rest.isEmpty then s else pend (pend s (.bindNewBlock c)) (.bindRestore c)

/-- BIND_NEW_BLOCK (R216): zeroed resources, and groups in the state of R210. -/
def execBindNewBlock (core : Nat) (s : State) : Out :=
  .next (unlessHeld (.bindNewBlock core) (fun s => dispatch s core 0 fun s e =>
    let k := block s e.blk
    let t := taskOf s k.task
    let u := cpWords (cpAgent s e.ctx t.clk) (recBits t.record 6 16 9) (recPair t.record 7) s
    bindGroups u.1 core e fun s g => (s, newGroup t.record t.clk k.idx (u.2.getD []) g)) s)

/-- The barriers of a block as words of an image give them (R324), the inverse of `barrierWords`; carried clocks before
the front read as the front. -/
def barriersOf (s : State) (head sets : List Word) : SMap Barrier :=
  (List.range 16).foldl (fun m id =>
    let w := (head.getD id 0).toNat
    let arrived := (List.range 512).filter fun i => (sets.getD (16 * id + i / 32) 0).getLsbD (i % 32)
    let k : Barrier := { gen := w / 2 ^ 23, count := w / 2 ^ 14 % 512, gcount := w % 512, arrived := arrived,
                         clk := if w / 2 ^ 14 % 512 = 0 then 0 else clamp s (head.getD (16 + id) 0) }
    mput {} m id k) []

/-- The barriers of a swapped block are reloaded from its image (R324), where it can be read. -/
def reloadBarriers (s : State) (c b : Nat) : State :=
  let w := imageAgent c (taskOf s (block s b).task).ctx s.cp.front
  let at_ := imageAddr s b
  match imageRead w 32 at_ s with
  | (s, none) => s
  | (s, some head) =>
    match imageRead w 256 (at_ + 0x400) s with
    | (s, none) => s
    | (s, some sets) => modBlock s b fun k => { k with bars := barriersOf s head sets }

/-- A group enters the restore routine (R268): its mask m0 is the frame's present mask. -/
def restoreGroup (s : State) (g : Group) : State × Group :=
  let at_ := groupRecord s g.blk g.grpib
  let kept := awayGroup s g.blk g.grpib
  let r := imageLoad s (imageAgent g.core g.ctx s.cp.front) (at_ + 0x14)
  let pm := r.2.getD ((kept.map (·.pmask)).getD g.lmask)
  (r.1, { entryRegs at_ 1 pm g with
    priv := true, restore := true, pmask := pm, pc := ((Machine.core s g.core).pvec).setWidth 64,
    nextOp := max g.nextOp ((kept.map (·.nextOp)).getD 0) })

/-- BIND_RESTORE (R268, R324): the barriers are reloaded, and every group of the entry that has not retired vectors to the
restore routine. -/
def execBindRestore (core : Nat) (s : State) : Out :=
  .next (unlessHeld (.bindRestore core) (fun s => dispatch s core 1 fun s e =>
    let first := (entriesOf s e.blk).all fun p => !p.2.bound
    bindGroups (if first then reloadBarriers s core e.blk else s) core e restoreGroup) s)

/-! ## Grid barriers (R226) -/

/-- GRID_BLOCK_ARRIVAL (R226): a block's arrival is counted, with the clock that it carries. -/
def execGridBlockArrival (blk id : Nat) (s : State) : Out :=
  .next (
    let x := gridBar s blk id
    let t := (block s blk).task
    let k := mget {} s.cp.grid (gridKey t id)
    if x.gcount != 1 || k.arrived.contains blk then s
    else
      let k := { k with arrived := k.arrived ++ [blk], count := k.count + 1,
                        clk := if k.arrived.isEmpty then x.clk else ltMax k.clk x.clk }
      checkGrid { s with cp := { s.cp with grid := mset s.cp.grid (gridKey t id) k } } t id)

/-! ## Swapping (R214, R226, R229) -/

/-- Every group of a block that has not retired satisfies a condition, and one has not retired. -/
def allGroupsAre (s : State) (b : Nat) (f : GState → Bool) : Bool :=
  !(blockGroups s b).isEmpty && (blockGroups s b).all fun g => f g.st

/-- A block may be swapped out for another of its launch (R226): resident, its groups all at a grid barrier or retired, and for a block
that is pending no core has room. -/
def ovsubDue (s : State) (blk : Nat) : Bool :=
  let waits := fun (x : GState) => match x with
    | .lull (.grid _) _ => true
    | _ => false
  let k := block s blk
  recOvsub (recordOf s blk) && k.st == .resident && allGroupsAre s blk waits &&
    (pendingBlocks s).any fun p => (block s p).task == k.task && !hasRoom s p

/-- OVSUB_SWAP (R226): a resident block whose groups all wait at a grid barrier or have retired is swapped out for a pending
block of its launch for which no core has room. -/
def execOvsubSwap (blk : Nat) (s : State) : Out :=
  .next (unlessHeld (.ovsubSwap blk) (fun s => if ovsubDue s blk then requestPreemption s blk else s) s)

/-- A lulled block's place would make room for a pending block of the same or a higher level that has none (R229). -/
def lullDue (s : State) (blk : Nat) : Bool :=
  let lulled := fun (x : GState) => match x with
    | .lull _ _ => true
    | _ => false
  let k := block s blk
  let room := fun p => levelOf s p ≤ levelOf s blk && !hasRoom s p && hasRoom (withoutBlock s blk) p
  (ctx s (taskOf s k.task).ctx).lullmax != 0 && k.st == .resident && allGroupsAre s blk lulled && (pendingBlocks s).any room

/-- The turn at which the last group of a lulled block entered the lull: a group issues its last instruction then. -/
def lulledSince (s : State) (blk : Nat) : Nat :=
  (((allGroups s).filter fun g => !g.sup && g.blk == blk).map (·.age)).foldl max 0

/-- LULL_SWAP (R229): a block lulled for LULLMAX is swapped out for a pending block of the same or a higher level that has
room once it is gone, and none now; among the candidates it is the one lulled longest. -/
def execLullSwap (blk : Nat) (s : State) : Out :=
  .next (unlessHeld (.lullSwap blk) (fun s =>
    let longer := (s.blocks.map (·.1)).any fun b => lulledSince s b < lulledSince s blk && lullDue s b
    if lullDue s blk && !longer then requestPreemption s blk else s) s)

/-- The resident blocks of the lowest level that is lower than a block's (R214). -/
def lowestBelow (s : State) (blk : Nat) : List Nat :=
  let lower := ((s.blocks.filter fun p => p.2.st == .resident).map (·.1)).filter fun p => levelOf s blk < levelOf s p
  match (lower.map (levelOf s)).max? with
  | none => []
  | some level => lower.filter fun p => levelOf s p == level

/-- PREEMPTDLY_EXPIRY (R214): a pending block of a higher level has waited PREEMPTDLY: a resident block of the lowest lower
level is pre-empted; which one is free. -/
def execPreemptdlyExpiry (blk : Nat) (s : State) : Out :=
  .next (unlessHeld (.preemptdlyExpiry blk) (fun s =>
    let at_ := lowestBelow s blk
    if at_.isEmpty || !stillPending s blk then s else requestPreemption s (at_.getD (Config.pick s.turn % at_.length) 0)) s)

/-! ## The firmware's own steps (R16, R207, R214, R226, R229) -/

/-- An element of a list by a free value. -/
def pickFree {α : Type} (s : State) (k : Nat) (xs : List α) : Option α := xs[Config.pick (freeIx s k) % xs.length]?

/-- A dispatch order after those of a core's slot table. -/
def nextSeq (s : State) (c : Nat) : Nat :=
  match (core s c).slots.map (·.2.seq) with
  | [] => 0
  | x :: xs => (xs.foldl (fun a y => if seqBefore a y then y else a) x + 1) % 2 ^ 16

/-- The groups that a core may take of a block, as entry `i` of its span, so that the rest finds room on a later core. -/
def groupsFor (s : State) (b i left c : Nat) : List Nat :=
  if i + 1 = spanM s b then (if fitsSome s c b i left then [left] else [])
  else
    let second := ((List.range (7 - c % 8)).map fun d => mostGroups s (c + 1 + d) b 1).foldl max 0
    ((List.range (min (mostGroups s c b i) (left - 1))).map (· + 1)).filter fun n => left ≤ n + second

/-- The placements that are possible for a block on a core: the groups that it takes and the partition base. -/
def placements (s : State) (b c : Nat) : List Instr :=
  let es := entriesOf s b
  let left := (block s b).ng - (es.map fun p => p.2.ngM1 + 1).sum
  let entry := ((List.range 512).find? fun e => (mfind (core s c).slots e).isNone).getD 0
  (groupsFor s b es.length left c).flatMap fun n =>
    ((List.range 8).filter fun p => placeable s b c p (nextSeq s c) entry n).map fun p => .placement b c p (nextSeq s c) entry n

/-- The scratchpad share that a core needs as entry `i` of a block's span (R16, R17). -/
def shareFor (s : State) (b i : Nat) : Nat :=
  let m := spanM s b
  ((recScr (recordOf s b) / 16384 + m - 1 - i) / m + 15) / 16

/-- The writes of CORESPLIT that a pending block needs (R16): where no empty core, or no two of one cluster, offer its scratch, one or two
of a free choice are raised to what it homes there and no further. -/
def raises (s : State) (b : Nat) : List Instr :=
  let empty := (List.range Config.cores).filter fun c => !coreHolds s c
  let need := fun i c => shareFor s b i ≤ (core s c).scr.toNat
  if spanM s b = 1 then
    if empty.any (need 0) then []
    else ((pickFree s 36 empty).map fun c => .coresplitWrite c (BitVec.ofNat 3 (shareFor s b 0))).toList
  else
    let pairs := empty.flatMap fun c => (empty.filter fun d => c < d && c / 8 == d / 8).map fun d => (c, d)
    if pairs.any fun p => need 0 p.1 && need 1 p.2 then []
    else
      match pickFree s 36 pairs with
      | none => []
      | some p =>
        (if need 0 p.1 then [] else [.coresplitWrite p.1 (BitVec.ofNat 3 (shareFor s b 0))]) ++
          (if need 1 p.2 then [] else [.coresplitWrite p.2 (BitVec.ofNat 3 (shareFor s b 1))])

/-- The blocks whose swap is due: for OVSUB at once; for a lull or a delay whose time has passed, which is free, but in one of 64 turns it
has (R207; log 1, log 2). -/
def swaps (s : State) (b : Nat) : List Instr :=
  let blocks := s.blocks.map (·.1)
  let late := s.turn % 64 = 0 || Config.freeBit (freeIx s 37)
  if s.blocks.any fun p => p.2.st == .saving then []
  else
    match blocks.find? (ovsubDue s) with
    | some k => [.ovsubSwap k]
    | none =>
      if !late then []
      else
        match blocks.find? fun k => lullDue s k && !blocks.any fun x => lulledSince s x < lulledSince s k && lullDue s x with
        | some k => [.lullSwap k]
        | none => if (lowestBelow s b).isEmpty then [] else [.preemptdlyExpiry b]

/-- The cores whose share goes back to its reset value (R16): those that have held no block for 100 µs, which is free. -/
def returns (s : State) : List Instr :=
  (s.cores.filter fun p => p.2.scr != 2 && !coreHolds s p.1 && Config.freeBit (freeIx s 38 + 2 ^ 64 * p.1)).map fun p => .coresplitReset p.1

/-- What the firmware does next for the pending blocks (R16, R207, R214): of those that none must precede one is placed where it has room;
else it makes room. Which block, where and when is its choice, and free. -/
def firmwareDue (s : State) : List Instr :=
  match pickFree s 33 ((pendingBlocks s).filter (mayPlace s)) with
  | none => returns s
  | some b =>
    match pickFree s 34 ((List.range Config.cores).filter fun c => !(placements s b c).isEmpty) with
    | some c => (pickFree s 35 (placements s b c)).toList
    | none => raises s b ++ swaps s b ++ returns s

/-- After power-good the boot is due (R310). -/
def boot (s : State) : State := if s.fw.power != .d0 || s.pending.contains .deviceReset then s else pend s .deviceReset

/-- The firmware's next steps are due, if none of its is; before it runs, the boot. -/
def firmware (s : State) : State :=
  let own := s.pending.any fun e => match e with
    | .placement .. | .coresplitWrite .. | .coresplitReset _ | .ovsubSwap _ | .lullSwap _ | .preemptdlyExpiry _ => true
    | _ => false
  if s.fw.status = 0 then boot s
  else if s.fw.status != 2 || own then s
  else { s with pending := s.pending ++ firmwareDue s }

/-! ## System calls (R232) -/

/-- SYSCALL_TIMEOUT (R232): the firmware answers a future in place of the supervisor: status −2. -/
def execSyscallTimeout (tag : Nat) (s : State) : Out := .next (answerFuture s tag 0xFFFFFFFE (Config.noAnswer s.turn))

end

end Sys2Proof.Machine
end

