-- ==== Sys2Proof/Machine/EvDebug.lean ====
section
/-! DEFINITION. The debug port (R263, R267, R293, R294, R307): holding, releasing and stepping a group, its registers, and
going backwards through the undo log. -/

namespace Sys2Proof.Machine

noncomputable section

/-! ## Holding a group (R307) -/

/-- The debug port acts on a group only where it is attached and the group's context has DBG = 1 (R235, R307). -/
def debugTarget (s : State) (gid : Nat) : Option Group :=
  (group s gid).bind fun g => if s.io.dbgOn && (ctx s g.ctx).dbg && isResident g then some g else none

/-- A group stands at an instruction boundary at which nothing comes before a hold: a parked group is held when it is resumed, and one
that a trap is due to parks first (R20, R307). -/
def atBoundary (g : Group) : Bool := g.st != .parked && g.due.isEmpty && g.rix == 0

/-- DEBUG_HOLD (R307): at the group's next instruction boundary. -/
def execDebugHold (gid : Nat) (s : State) : Out :=
  .next (
    match debugTarget s gid with
    | none => s
    | some g =>
      if g.st = .held then s
      else if atBoundary g then holdNow s gid
      else setGroup s { g with holdReq := true })

/-- ULOGPOL.STEP of a context (R289). -/
def setStep (s : State) (n : Nat) (on : Bool) : State :=
  modCtx s n fun c => { c with ulogPol := if on then c.ulogPol ||| 0x20000000 else c.ulogPol &&& 0xDFFFFFFF }

/-- A group that leaves a debug hold: the state that it would be in, exempt from a breakpoint for one instruction
(R306). -/
def unhold (turn : Nat) (g : Group) : Group :=
  { g with st := if g.st = .held then g.under else g.st, under := .ready, holdReq := false, bpSkip := true, age := turn }

/-- DEBUG_RELEASE (R307): the group goes on, and the port no longer steps it. -/
def execDebugRelease (gid : Nat) (s : State) : Out :=
  .next (
    match debugTarget s gid with
    | none => s
    | some g =>
      if g.st != .held && !g.holdReq then s
      else
        let s := setGroup s { unhold s.turn g with stepReq := false, steps := [], stepNo := 0 }
        setStep s g.ctx ((allGroups s).any fun h => h.ctx == g.ctx && h.stepNo != 0))

/-- The group registers that the debug port keeps of a stepped group, in the order of R266 as far as it goes. -/
def steppedRegs (g : Group) : List Word :=
  [pcOffset g, BitVec.ofNat 32 g.rix, g.fmt, g.flags, g.srs.setWidth 32, BitVec.ofNat 32 (g.srs.toNat / 2 ^ 32), g.xc,
   (if g.xcv then 1 else 0), g.pmask, g.hmask, g.instret, g.f.setWidth 32, g.alo, g.ahi, g.astat, g.aid]

/-- What the debug port keeps of a group before a step (R294). -/
def keptStep (g : Group) : Kept :=
  { v := g.v, g := g.g, m := g.m, vBad := g.vPoison, gBad := g.gPoison, frame := steppedRegs g }

/-- DEBUG_STEP (R294, R307): the held group, of which the port keeps 64 steps deep what it is, goes on for one instruction, under a new step
number, and ULOGPOL.STEP is set. -/
def execDebugStep (gid : Nat) (s : State) : Out :=
  .next (
    match debugTarget s gid with
    | none => s
    | some g =>
      if g.st != .held then s
      else
        let n := (ctx s g.ctx).stepped % 65535 + 1
        let s := setStep (modCtx s g.ctx fun c => { c with stepped := n }) g.ctx true
        setGroup s { unhold s.turn g with stepReq := true, stepNo := n, steps := ((n, keptStep g) :: g.steps).take 64 })

/-- DEBUG_PORT_ATTACH (R263). -/
def execDebugPortAttach (on : Bool) (s : State) : Out := .next { s with io := { s.io with dbgOn := on } }

/-- DEBUG_REGISTER_ACCESS (R265 to R267): a register of a parked or held group is read, and sent to the port, or written;
an access that R265 and R266 refuse changes nothing, and one to a register that a load is to write waits. -/
def execDebugRegisterAccess (gid : Nat) (c : RegClass) (sel : Word) (val : Option Word) (s : State) : Out :=
  .next (
    match debugTarget s gid with
    | none => s
    | some g =>
      if g.st != .parked && g.st != .held then s
      else if classBusy g c sel then pend s (.debugRegisterAccess gid c sel val)
      else
        match val with
        | none =>
          match readClass s g c sel with
          | some (x, _) => send s 9 0 gid [x.toNat]
          | none => s
        | some v =>
          if c = .group ∧ sel.toNat % 512 = 13 then
            (if g.st = .parked ∧ v = 0 then resumeGroup s gid else s)
          else
            match writeClass g c sel v with
            | some h => setGroup s h
            | none => s)

/-! ## The undo log read back (R289, R291) -/

/-- A record of the undo log (R291). -/
structure LogRec where
  va   : Nat
  type : Nat
  old  : Nat
  lt   : Word
  win  : Nat
  core : Nat
  slot : Nat
  size : Nat
  step : Nat
  seq  : Word
  deriving DecidableEq, Repr

/-- A word of the record ring at a byte count. -/
def ringWord (s : State) (c : Ctx) (pos : Nat) : Nat := readBytes s.mm.mem (ulogPage c + 2 ^ 14 + pos % ulogRing c) 4

/-- The record at a byte count: the old bytes of a line record follow its 8 words. -/
def logRecAt (s : State) (c : Ctx) (pos : Nat) : LogRec :=
  let w := fun k => ringWord s c (pos + 4 * k)
  let line := ((List.range 32).map fun k => w (8 + k) * 2 ^ (32 * k)).sum
  let type := w 1 / 2 ^ 28
  { va := w 0 + 2 ^ 32 * (w 1 % 2 ^ 26), type := type, old := if type = 2 then line else w 2 + 2 ^ 32 * w 3,
    lt := BitVec.ofNat 32 (w 4), win := w 5 / 2 ^ 16, core := w 5 / 2 ^ 8 % 2 ^ 8, slot := w 6 / 2 ^ 22,
    size := w 6 / 2 ^ 19 % 8, step := w 6 % 2 ^ 16, seq := BitVec.ofNat 32 (w 7) }

/-- The records from a byte count up to HEAD, oldest first. -/
def logRecs (s : State) (c : Ctx) (head : Nat) : Nat → Nat → List LogRec
  | 0, _ => []
  | fuel + 1, pos =>
    if head ≤ pos then []
    else
      let r := logRecAt s c pos
      r :: logRecs s c head fuel (pos + if r.type = 2 then 160 else 32)

/-- Every record that the log keeps. -/
def keptRecs (s : State) (n : Nat) : List LogRec :=
  let c := ctx s n
  let head := ulogField s c 0 8
  let tail := ulogField s c 8 8
  logRecs s c head ((head - tail) / 32 + 1) tail

/-- `a` is undone before `b` (R293): the greater LT, then the greater CORE, then the greater SEQ. -/
def undoneFirst (a b : LogRec) : Bool :=
  if a.lt ≠ b.lt then before b.lt a.lt else if a.core ≠ b.core then b.core < a.core else before b.seq a.seq

/-- A record put into a list in the order of undoing. -/
def insertRec (r : LogRec) : List LogRec → List LogRec
  | [] => [r]
  | x :: xs => if undoneFirst r x then r :: x :: xs else x :: insertRec r xs

/-- The bytes of a record: their number. -/
def recLen (r : LogRec) : Nat := if r.type = 2 then 128 else 2 ^ r.size

/-- The place of a record's bytes in device memory, writable in its context. -/
def recPlace (s : State) (n : Nat) (r : LogRec) : State × Option Leaf :=
  match address s (cpAgent s n s.cp.front) r.va (recLen r) { w := true } with
  | (s, .error _) => (s, none)
  | (s, .ok l) => if cpReaches s l then (s, some l) else (s, none)

/-- A record's old bytes written back through the command processor (R293): at max(its clock, rts + 1), to which its clock
rises. -/
def undoRec (s : State) (n : Nat) (r : LogRec) : State :=
  match recPlace s n r with
  | (s, none) => s
  | (s, some l) =>
    let w := sliceStore s n (clamp s s.cp.clk) l.pa (recLen r) r.old l.via
    { w.1 with cp := { w.1.cp with clk := w.2 } }

/-- Records are undone in the order of R293; seals have no bytes. -/
def undoRecs (s : State) (n : Nat) (rs : List LogRec) : State :=
  ((rs.filter fun r => r.type != 3).foldr insertRec []).foldl (fun s r => undoRec s n r) s

/-! ## REWIND (R293) -/

/-- `a` is before `b` among 16-bit window numbers. -/
def winBefore (a b : Nat) : Bool := a != b && (b + 2 ^ 16 - a) % 2 ^ 16 < 2 ^ 15

/-- The blocks of a context. -/
def ctxBlocks (s : State) (n : Nat) (st : BlkState → Bool) : List Nat :=
  (s.blocks.filter fun p => (taskOf s p.2.task).ctx == n && st p.2.st).map (·.1)

/-- CKPT of a window. -/
def windowCkpt (s : State) (c : Ctx) (w : Nat) : Nat := ulogField s c (4096 + 16 * (w % 512) + 8) 8

/-- A rewind to a window is refused (R293 step 2). -/
def rewindRefused (s : State) (n w : Nat) : Bool :=
  let c := ctx s n
  let sealW := ulogField s c 20 4
  c.ulogSize.toNat < 2 || winBefore w (ulogField s c 16 2 % 2 ^ 16) || winBefore c.window.toNat w ||
  winBefore w ((c.window.toNat + 2 ^ 16 - 511) % 2 ^ 16) || (2 ^ 31 ≤ sealW && !winBefore (sealW % 2 ^ 16) w) ||
  windowCkpt s c w == 0 ||
  (keptRecs s n).any fun r => !winBefore r.win w && r.type != 3 && (recPlace s n r).2.isNone

/-- A group as a checkpoint's record has it: the group waits for nothing that its image does not say, and nothing is left of the run that
is undone. -/
def asRecorded (g : Group) : Group :=
  { g with due := [], ops := g.ops.filter fun o => o.kind == .launch, joins := [], vPoison := [], gPoison := [] }

/-- A checkpoint entry of a size replaces the record of its group in every saved image of the context that holds it; one that has retired
since is a group again. -/
def replaceRecord (s : State) (n size : Nat) (key : List Word) (words : List Word) : State :=
  let k := fun i => (key.getD i 0).toNat
  (ctxBlocks s n (· == .swapped)).foldl (fun s b =>
    let x := block s b
    if x.bx = k 0 ∧ x.by_ = k 1 ∧ x.bz = k 2 ∧ k 3 < x.ng ∧ recordSize (recordOf s b) = size then
      let s := (imageWords (imageAgent (x.span.headD 0) n s.cp.front) (groupRecord s b (k 3)) words s).1
      let g := (awayGroup s b (k 3)).getD { sup := false, ctx := n, blk := b, grpib := k 3, priv := true, st := .swapped }
      modBlock s b fun x => { x with gone := x.gone.filter (· != k 3), waiting := mset x.waiting (k 3) (asRecorded g) }
    else s) s

/-- The entries of a checkpoint, from an address of context 0 on: each a key and a group record, whose size is that of the
block with the key: of a saved one, else of the one made last (R289). -/
def replaceEntries (n : Nat) : Nat → Nat → State → State
  | 0, _, s => s
  | count + 1, va, s =>
    match cpWords (cpAgent s 0 s.cp.clk) 4 va s with
    | (s, none) => s
    | (s, some key) =>
      let k := fun i => (key.getD i 0).toNat
      match (ctxBlocks s n (· == .swapped) ++ (ctxBlocks s n fun _ => true).reverse).find? fun b =>
          let x := block s b
          x.bx == k 0 && x.by_ == k 1 && x.bz == k 2 && k 3 < x.ng with
      | none => s
      | some b =>
        let size := recordSize (recordOf s b)
        match cpWords (cpAgent s 0 s.cp.clk) (size / 4) (va + 16) s with
        | (s, none) => s
        | (s, some ws) => replaceEntries n count (va + 16 + size) (replaceRecord s n size key ws)

/-- The clock of every group frame in the saved images of a context is raised to a time (R293 step 5). -/
def raiseFrames (s : State) (n : Nat) (t : Word) : State :=
  (ctxBlocks s n (· == .swapped)).foldl (fun s b =>
    let x := block s b
    let w := imageAgent (x.span.headD 0) n s.cp.front
    ((List.range x.ng).filter fun i => !x.gone.contains i).foldl (fun s i =>
      let at_ := groupRecord s b i + 0x28
      match imageLoad s w at_ with
      | (s, none) => s
      | (s, some l) => (imageWords w at_ [ltMax l t] s).1) s) s

/-- The saved blocks of a context are to be restored, whatever their groups wait for. -/
def restoreAll (s : State) (n : Nat) : State :=
  (ctxBlocks s n (· == .swapped)).foldl (fun s b =>
    modBlock s b fun k => { k with waiting := k.waiting.map fun p => (p.1, { p.2 with susp := .ready }) }) s

/-- REWIND once every block of the context is saved (R293 steps 2 to 5). -/
def rewindNow (s : State) (n w : Nat) : State :=
  if rewindRefused s n w then restoreAll s n
  else
    let c := ctx s n
    let rs := (keptRecs s n).filter fun r => !winBefore r.win w
    let s := undoRecs s n rs
    let last := s.cp.clk
    let ck := windowCkpt s c w
    let s := match cpWords (cpAgent s 0 s.cp.clk) 1 ck s with
      | (s, some [count]) => replaceEntries n count.toNat (ck + 16) s
      | (s, _) => s
    let s := ulogSetField s c 0 8 (ulogField s c (4096 + 16 * (w % 512)) 8)
    let s := modCtx s n fun c => { c with window := BitVec.ofNat 16 w }
    restoreAll (if rs.any fun r => r.type != 3 then raiseFrames s n last else s) n

/-- REWIND (R293): every block of the context is pre-empted first, and the rewind follows when they are saved. -/
def execRewind (ctx n : Nat) (s : State) : Out :=
  .next (
    let w := n % 2 ^ 16
    if !s.io.dbgOn || !(Machine.ctx s ctx).dbg then s
    else
      unlessHeld (.rewind ctx n) (fun s =>
        let running := ctxBlocks s ctx (· == .resident)
        let saving := ctxBlocks s ctx (· == .saving)
        if running.isEmpty && saving.isEmpty then rewindNow s ctx w
        else pend (running.foldl requestPreemption s) (.rewind ctx n)) s)

/-! ## STEPBACK (R294) -/

/-- The registers that were kept of a group put back, poisoned where they were. -/
def putBack (k : Kept) (g : Group) : Group :=
  let w := fun i => k.frame.getD i 0
  { g with
    v := k.v, g := k.g, m := k.m, vPoison := k.vBad, gPoison := k.gBad,
    pc := codeBase g + (w 0).setWidth 64, rix := (w 1).toNat, fmt := w 2, flags := w 3,
    srs := BitVec.ofNat 64 ((w 4).toNat + 2 ^ 32 * (w 5).toNat), xc := w 6, xcv := (w 7).getLsbD 0, pmask := w 8, hmask := w 9,
    instret := w 10, f := (w 11).setWidth 4, alo := w 12, ahi := w 13, astat := w 14, aid := w 15 }

/-- The bytes of two records overlap. -/
def overlaps (a b : LogRec) : Bool := a.va < b.va + recLen b && b.va < a.va + recLen a

/-- STEPBACK (R294): the group's records of its last k steps are undone, and the registers kept k steps back are put back;
refused where another agent's later record overlaps one of them, or a seal lies among them. -/
def execStepback (gid k : Nat) (s : State) : Out :=
  .next (unlessHeld (.stepback gid k) (fun s =>
    match debugTarget s gid with
    | none => s
    | some g =>
      let steps := g.steps.take k
      let all := if (ctx s g.ctx).ulogSize.toNat < 2 then [] else keptRecs s g.ctx
      let own := fun (r : LogRec) => r.core == g.core && r.slot == g.slot % 1024
      let mine := all.filter fun r => own r && steps.any fun p => p.1 == r.step
      let late := mine.any fun r => all.any fun x => !own x && x.type != 3 && overlaps r x && before r.lt x.lt
      if g.st != .held || k = 0 || g.steps.length < k || mine.any (·.type == 3) || late then s
      else
        let s := undoRecs s g.ctx mine
        modGroup s gid fun g =>
          { putBack ((steps.getLast?.map (·.2)).getD {}) g with under := .ready, steps := g.steps.drop k, due := [] }) s)

end

end Sys2Proof.Machine
end

