-- ==== Sys2Proof/Machine/EvEngine.lean ====
section
/-! DEFINITION. Steps of a core's engines and of the scratch pager (R124 to R127, R133, R136, R183 to R188, R284, R285,
R288): a command starts, runs, completes, parks, is resumed or cancelled. -/

namespace Sys2Proof.Machine

noncomputable section

/-! ## The copy engine -/

/-- COPY_COMMAND_START (R127, R146, R186, R288): the head command begins once nothing that it must follow is incomplete
and its scratch pages are present. -/
def execCopyCommandStart (core : Nat) (s : State) : Out :=
  .next (
    match (Machine.core s core).cpyq with
    | [] => s
    | c :: _ =>
      if c.started || accessBefore s c.gid c.opId || copyBlocked s core c then s
      else
        match missingPage s c.blk (cpyRanges c.op c.flags c.desc) with
        | some p => pend s (.scratchPageRefill c.blk p)
        | none =>
          pend (modHeadCpy s core fun c => { c with started := true })
            (if unitsDone s c then .copyComplete core else .copyUnit core))

/-- COPY_UNIT (R183, R187): the running command performs its next unit, or parks. -/
def execCopyUnit (core : Nat) (s : State) : Out :=
  .next (
    match (Machine.core s core).cpyq with
    | [] => s
    | c :: _ =>
      if !c.started || unitsDone s c then s
      else
        match performUnit core s c with
        | .fault s sub scr at_ => parkCopy s core c sub scr at_
        | .wait => pend s (.copyUnit core)
        | .ok s c =>
          pend (modHeadCpy s core fun _ => c) (if unitsDone s c then .copyComplete core else .copyUnit core))

/-- The counter addition of CNT (R185, R186, R220, R290, R292): 1, as a CADD, after every unit. -/
def addCounter (core : Nat) (s : State) (c : CopyCmd) : UnitStep :=
  let va := cpyCounter c.desc
  let w := cpyWho s core c
  match engineAddr s w va { r := true, w := true } with
  | (s, .error e) => (xlateStop s e va).step
  | (s, .ok l) =>
    let s := notePeer s c l
    let step := match group s c.gid with | some g => stepNo s g | none => 0
    let info : UlogInfo := { va := va, type := 1, flags := 1 + (if placeOf l = .untracked then 8 else 0), size := 3, core := core,
                             slot := c.gid % 2048 % 1024, step := step }
    match placeOf l with
    | .host => .fault s 16 false va
    | .mmio => .fault s 14 false va
    | .peer =>
      let x := readPeer s.mm.peerMem l.pa 8 + 1
      if 2 ^ 64 ≤ x then .fault s 19 false va
      else
        match logged s c.ctx { info with type := 3, old := 2 } (fun s => farStore s w l 8 x) with
        | (s, .error f) => .fault s (logSub f) false va
        | (s, .ok _) => .ok s c
    | _ =>
      if groupWaits s l true then .wait
      else
        match memFault s l.pa l.via with
        | some f => .fault (noteFault s c.ctx l.pa f) 15 false va
        | none =>
          let s := sliceReady s c.ctx (l.pa / 128) true l.via
          let old := readBytes s.mm.mem l.pa 8
          if (badAt s l.pa 8).isSome then .fault s 15 false va
          else if 2 ^ 64 ≤ old + 1 then .fault s 19 false va
          else
            match logged s c.ctx { info with old := old } (fun s => sliceStore s c.ctx c.eclk l.pa 8 (old + 1) l.via) with
            | (s, .error f) => .fault s (logSub f) false va
            | (s, .ok t) => .ok s { c with eclk := ltMax c.eclk t }

/-- A command leaves the queue and arrives with its finish time (R146, R186). -/
def finishCopy (core : Nat) (s : State) (c : CopyCmd) : State :=
  let s := modCore s core fun k => { k with cpyq := k.cpyq.tail }
  kickEngines (arriveCommand s c.gid c.opId c.w (some c.eclk)) core

/-- COPY_COMPLETE (R186, R187): the running command, all of whose units are performed, makes its counter addition and
arrives, or parks with only the addition left. -/
def execCopyComplete (core : Nat) (s : State) : Out :=
  .next (
    match (Machine.core s core).cpyq with
    | [] => s
    | c :: _ =>
      if !c.started || !unitsDone s c then s
      else if flagCnt c.flags then
        match addCounter core s c with
        | .fault s sub scr at_ => parkCopy s core { c with next := unitCount c.op c.flags c.desc } sub scr at_
        | .wait => pend s (.copyComplete core)
        | .ok s c => finishCopy core s c
      else finishCopy core s c)

/-- CPYCTL_RESOLVE (R187, R284): a parked copy takes its place in the queue again. -/
def execCpyctlResolve (core idx : Nat) (s : State) : Out :=
  .next (
    match parkedAt s core idx with
    | none => cpyctlError s core
    | some c =>
      let s := takeParked s core c
      kickEngines (modCore s core fun k =>
        { k with cpyq := enqueueCpy { c with sub := 0, scr := false, faddr := 0, ring := none } k.cpyq }) core)

/-- CPYCTL_CANCEL (R187, R284): a parked copy arrives without its counter addition, and its group traps at its next
boundary with the record's sub-cause. -/
def execCpyctlCancel (core idx : Nat) (s : State) : Out :=
  .next (
    match parkedAt s core idx with
    | none => cpyctlError s core
    | some c =>
      let s := arriveCommand (takeParked s core c) c.gid c.opId c.w (some c.eclk)
      kickEngines (dueTrap s c.gid { cause := 12, sub := c.sub, scr := c.scr, faddr := c.faddr }) core)

/-! ## The matrix engine -/

/-- An earlier copy of the block that conflicts with an MMA is incomplete (R127). -/
def mmaBlocked (s : State) (core : Nat) (m : MmaCmd) : Bool :=
  let k := Machine.core s core
  (k.cpyq ++ k.parkedCpy).any fun c =>
    c.blk == m.blk && c.stamp < m.stamp && conflicts (mmaRanges m.desc) (cpyRanges c.op c.flags c.desc)

/-- MMA_ARRAY_START (R126, R127, R136, R146, R288): the sub-arrays that the head command needs wake as soon as it is at the head, and it
begins when no other is in its array phase and nothing that it must follow is incomplete, no accumulator pass on its tile among it (R130).
-/
def execMmaArrayStart (core : Nat) (s : State) : Out :=
  .next (
    let q := (Machine.core s core).mmaq
    match q.find? (!·.started) with
    | none => s
    | some m =>
      if (subArrays m.desc).any (Machine.core s core).gated.contains then pend s (.subarrayWake core)
      else if q.any (·.started) || accessBefore s m.gid m.opId || mmaBlocked s core m || tileInPass s core m.blk m.tile then s
      else
        match missingPage s m.blk (mmaRanges m.desc) with
        | some p => pend s (.scratchPageRefill m.blk p)
        | none =>
          let s := pend (modCore s core fun k =>
            { k with mmaq := k.mmaq.map fun x => if x.stamp = m.stamp then { x with started := true } else x }) (.mmaComplete core)
          if 1 < q.length then pend s (.mmaArrayStart core) else s)

/-- A command that has run its last K-block leaves the queue and arrives with its finish time (R124, R146). -/
def finishMma (core : Nat) (m : MmaCmd) (s : State) : State :=
  kickEngines (arriveCommand (dropMma s core m.stamp) m.gid m.opId m.w (some m.eclk)) core

/-- MMA_COMPLETE (R124, R133): the running command's remaining K-blocks are written, and it arrives; or it meets poison
and is stopped. -/
def execMmaComplete (core : Nat) (s : State) : Out :=
  .next (
    match (Machine.core s core).mmaq with
    | [] => s
    | m :: _ =>
      if !m.started || m.stopping then s
      else
        kickEngines (advanceMma s core m (mmaKb m.desc - m.next) (fun k kb => mmaPoison k core m kb)
          (fun _ s => finishMma core m s)) core)

/-- K-block `kb` of a command reads scratch offset or tile element `off`, for sub-cause 6 or 7 (R123). -/
def mmaReads (m : MmaCmd) (sub off kb : Nat) : Bool :=
  if sub = 6 then (mmaBlockRanges m.desc kb).any fun r => r.lo ≤ off && off < r.lo + r.len
  else sub == 7 && off < 16384 && off / 128 < mmaM m.desc && off % 128 < mmaN m.desc && !(kb == 0 && mmaZa m.desc)

/-- MMA_RUNTIME_FAULT (R133): the running command stops before the K-block that would read the bad word; it is recorded
and withdrawn, and its group traps at its next boundary. -/
def execMmaRuntimeFault (core sub off : Nat) (s : State) : Out :=
  .next (
    match (Machine.core s core).mmaq with
    | [] => s
    | m :: _ =>
      let n := mmaKb m.desc - m.next
      if !m.started || !((List.range n).any fun i => mmaReads m sub off (m.next + i)) then s
      else
        kickEngines (advanceMma s core m n
          (fun k kb => match mmaPoison k core m kb with
            | some x => some x
            | none => if mmaReads m sub off kb then some (sub, off) else none) (fun _ s => s)) core)

/-- MMA_STOP (R133): the running command finishes its K-block in progress, which one is free (log 2), is recorded and is
withdrawn. -/
def execMmaStop (core : Nat) (s : State) : Out :=
  .next (
    match (Machine.core s core).mmaq with
    | [] => s
    | m :: _ =>
      if !m.started || !m.stopping then s
      else
        let n := mmaKb m.desc - m.next
        let run := if n ≤ 1 then n else 1 + Config.pick s.turn % n
        kickEngines (advanceMma s core m run (fun k kb => mmaPoison k core m kb)
          (fun next s => withdrawMma s core m 0 next)) core)

/-- SUBARRAY_WAKE (R136): every gated sub-array that the head command needs is awake. -/
def execSubarrayWake (core : Nat) (s : State) : Out :=
  .next (
    match (Machine.core s core).mmaq.find? (!·.started) with
    | none => s
    | some m =>
      let need := subArrays m.desc
      kickEngines (modCore s core fun k => { k with gated := k.gated.filter fun i => !need.contains i }) core)

/-- A sub-array put into the gated ones, in ascending order. -/
def gate (i : Nat) : List Nat → List Nat
  | [] => [i]
  | x :: xs => if i < x then i :: x :: xs else if i = x then x :: xs else x :: gate i xs

/-- SUBARRAY_GATE (R136, R137): a sub-array that the running command does not use is power-gated, unless the MXIDLE that governs its
idle interval is 0: 4,096 in the interval that reset began, else that which held when the interval began. -/
def execSubarrayGate (core sub : Nat) (s : State) : Out :=
  .next (
    let k := Machine.core s core
    let used : Bool := match k.mmaq.head? with
      | some m => m.started && (subArrays m.desc).contains sub
      | none => false
    if mget 4096 k.idleLim sub = 0 ∨ used ∨ 16 ≤ sub then s else modCore s core fun k => { k with gated := gate sub k.gated })

/-! ## The scratch pager (R169, R285, R288) -/

/-- The bytes of a page of scratch moved from one map to another. -/
def movePage (page : Nat) (src dst : SMap Byte) : SMap Byte × SMap Byte :=
  let mine := fun (p : Nat × Byte) => p.1 / 16384 == page
  (src.filter fun p => !mine p, (src.filter mine).foldl (fun d p => mset d p.1 p.2) (dst.filter fun p => !mine p))

/-- The first bad word of a page of a block's scratch, if a command's ranges touch the page (R288). -/
def badRefill (k : Block) (page : Nat) (rs : List Range) : Option Nat :=
  if rs.any fun r => 0 < r.len && r.lo < (page + 1) * 16384 && page * 16384 < r.lo + r.len then
    ((k.scrBad.filter fun i => i / 2048 == page).map (8 * ·)).min?
  else none

/-- The commands of a block at the heads of a core's queues that waited for a page in which a word is bad: the copy parks with
sub-cause 15, the MMA is stopped with sub-cause 6 (R288). -/
def failRefilled (s : State) (b page core : Nat) : State :=
  let s := match (Machine.core s core).cpyq.head? with
    | some c =>
      match badRefill (block s b) page (cpyRanges c.op c.flags c.desc) with
      | some o => if c.blk = b ∧ !c.started then parkCopy s core c 15 true o else s
      | none => s
    | none => s
  match (Machine.core s core).mmaq.find? (!·.started) with
  | some m =>
    match badRefill (block s b) page (mmaRanges m.desc) with
    | some o => if m.blk = b then faultMma s core m (6, o) m.next else s
    | none => s
  | none => s

/-- SCRATCH_PAGE_REFILL (R169, R288): an unpinned page holds its contents again; what waited for it goes on, or fails where a word of it is
bad. -/
def execScratchPageRefill (blk page : Nat) (s : State) : Out :=
  .next (
    let k := block s blk
    if !k.unpinned.contains page then s
    else
      let s := modBlock s blk fun k =>
        let r := if k.paged.contains page then movePage page k.backing k.scr else (k.backing, k.scr)
        { k with unpinned := k.unpinned.filter (· != page), paged := k.paged.filter (· != page), backing := r.1, scr := r.2 }
      let s := (blockGroups s blk).foldl (fun s g => unstall s (gidOf g) [9]) s
      let s := k.span.foldl (fun s c => failRefilled s blk page c) s
      k.span.foldl kickEngines s)

/-- SCRATCH_PAGE_WRITEBACK (R285): an unpinned page goes to the backing store. -/
def execScratchPageWriteback (blk page : Nat) (s : State) : Out :=
  .next (
    let k := block s blk
    if !k.unpinned.contains page || k.paged.contains page then s
    else
      modBlock s blk fun k =>
        let r := movePage page k.scr k.backing
        { k with scr := r.1, backing := r.2, paged := k.paged ++ [page] })

end

end Sys2Proof.Machine
end

