-- ==== Sys2Proof/Machine/Region.lean ====
section
/-! DEFINITION. Atomic regions (R191 to R206): ARBEG, AREND, ARABT and ARNRW, and what a slice does on a PREPARE, on a
final position and on an abort. -/

namespace Sys2Proof.Machine

noncomputable section

/-! ## ARBEG (R192) -/

/-- A slot that no region holds, by a free choice (R192; log 2). -/
def freeSlotId (s : State) : Option Nat :=
  let free := (List.range 4096).filter fun i => (mfind s.cp.slots i).isNone
  if free.isEmpty then none else some (free.getD (Config.pick s.turn % free.length) 0)

/-- The latest bound a region may have: FRONT + 2^30 − 1 (R192). -/
def regionCap (s : State) : Word := s.cp.front + 0x3FFFFFFF

/-- min(LCLK + n, cap) (R192). -/
def clockPlus (s : State) (n : Nat) : Word :=
  let l := s.cur.lclk
  let cap := regionCap s
  if before cap l then cap else l + BitVec.ofNat 32 (min n (cap - l).toNat)

/-- The bounds of a new region (R192): an elastic one from LCLK over its window, a firm one at a single position. -/
def regionBounds (s : State) (elastic : Bool) (w : Word) : Word × Word :=
  if elastic then (s.cur.lclk, if w = 0 then regionCap s else clockPlus s (w.toNat - 1))
  else
    let x := clockPlus s (if w = 0 then (ctx s s.cur.ctx).lease.toNat + 1 else w.toNat)
    (x, x)

/-- ASTAT of an open region (R191). -/
def astatOpen (elastic : Bool) : Word := if elastic then 0xC0000000 else 0x80000000

/-- A load of the group has its destination not ready, or a store or an atomic is not performed (R192). -/
def accessDue (g : Group) : Bool :=
  g.ops.any fun o => o.tag != 1 && [.load, .scrLoad, .gld, .cread, .store, .atom, .gst].contains o.kind

/-- A region begins (R192): a nested one aborts; without a free slot the handler runs. -/
def beginRegion (elastic : Bool) (g : BitVec 9) (lit : Word) (s : State) : State :=
  withUses { gr := [g.toNat] } (fun s =>
    if s.cur.rgn.isSome then regionAbort s (gidOf s.cur) 11 0 none
    else if accessDue s.cur then stallOn 14 true s
    else
      let handler := s.cur.pc + lit.signExtend 64
      match freeSlotId s with
      | none => jumpTo handler (modCur s fun g => { g with astat := astatAborted elastic 8 0 none })
      | some slot =>
        let b := regionBounds s elastic (gget s.cur g.toNat)
        let s := { s with cp := { s.cp with slots := mset s.cp.slots slot 0 } }
        advance 2 (modCur s fun g =>
          { g with alo := b.1, ahi := b.2, astat := astatOpen elastic, aid := BitVec.ofNat 32 slot,
                   rgn := some { elastic := elastic, handler := handler, reads := [], writes := [], buf := [], vas := [],
                                 slices := [] } })) s

/-- ARBEG.FIRM (R192). -/
def execArbegFirm (g : BitVec 9) (lit : Word) (s : State) : Out := .next (beginRegion false g lit s)

/-- ARBEG.ELASTIC (R192). -/
def execArbegElastic (g : BitVec 9) (lit : Word) (s : State) : Out := .next (beginRegion true g lit s)

/-! ## At the slice (R202, R203) -/

/-- A slice freezes a region's entries (R202). -/
def freezeEntries (s : State) (i aid : Nat) : State :=
  modSlice s i fun k => { k with rents := k.rents.map fun e => if e.aid == aid then { e with frozen := true } else e }

/-- A slice has acknowledged the end of a region: its slot is free when every slice has (R192). -/
def acknowledge (s : State) (aid : Nat) : State :=
  match mfind s.cp.slots aid with
  | none => s
  | some n => { s with cp := { s.cp with slots := if n ≤ 1 then mdel s.cp.slots aid else mset s.cp.slots aid (n - 1) } }

/-- A slice drops a region's entries and edges (R202, R203). -/
def dropEntriesOf (s : State) (i aid : Nat) : State :=
  acknowledge (modSlice s i fun k =>
    { k with rents := k.rents.filter (fun e => e.aid != aid), edges := k.edges.filter (fun e => e.x != aid && e.y != aid) }) aid

/-- A slice settles the edges of a committed region (R202): what follows it is after c, what precedes it before c. -/
def settleEdges (s : State) (i aid : Nat) (c : Word) : State :=
  (slice s i).edges.foldl (fun s e =>
    if e.x = aid then
      match entryNow s e.y e.line with
      | some z => narrowLo s z (c + 1) 37
      | none => s
    else if e.y = aid then
      match entryNow s e.x e.line with
      | some z => narrowHi s z (c - 1) 37
      | none => s
    else s) s

/-! ## AREND (R202, R203, R206) -/

/-- A narrowing message to a region has not arrived. -/
def messageDue (s : State) (aid : Nat) : Bool :=
  s.pending.any fun e => match e with
    | .narrowingMessage _ a _ _ _ => a == aid
    | _ => false

/-- The undo log's record of one 8-byte word of a commit, as it stood before (R203, R291). -/
def commitInfo (s : State) (g : Group) (pw va : Nat) : UlogInfo :=
  { va := va, type := 1, old := readBytes s.mm.mem (8 * pw) 8, flags := 2, size := 3, core := g.core, slot := g.slot,
    step := stepNo s g }

/-- The records of a commit, one for each 8-byte word that the region wrote (R203), whose spaces are reserved together: none if the log
cannot take them (R194); what a discarding log has given up for them stays given up (R292). DESIGN CHOICE (log 80): the ascending address
order of the records is that of the physical words. -/
def logCommit (s : State) (g : Group) (c : Word) (ws : List (Nat × Nat)) : State × Bool :=
  if !ulogOn (ctx s g.ctx) || ws.isEmpty then (s, true)
  else
    match ulogReserve s g.ctx g.core (32 * ws.length) ws.length with
    | (s, .error _) => (s, false)
    | (s, .ok p) =>
      (ws.zipIdx.foldl (fun t w => ulogWrite t g.ctx (commitInfo s g w.1.1 w.1.2) c (p.1 + 32 * w.2, (p.2 + w.2) % 2 ^ 32)) s, true)

/-- The bytes of a region's buffer put into memory, in one step: whole words are no longer poisoned, but for those that an atomic made
from poison (R295). -/
def publishBytes (r : Region) (line : Nat) (s : State) : State :=
  let xs := r.buf.filter fun p => p.1 / 128 == line
  let s := modMem s fun m => xs.foldl (fun m p => writeByte m p.1 p.2) m
  let whole := fun w => buffered r (8 * w) 8
  let bad := (s.mm.bad.filter fun p => !(p.1 / 16 == line && whole p.1))
  { s with mm := { s.mm with bad := (badOfLine r.bad line).foldl (fun m p => mset m p.1 p.2) bad } }

/-- One line of a write set published at time c (R202): held exclusive, its buffered bytes, wts = rts = c; the region's context has
written it (R150), and monitors and queue tails on it are looked at (R209, R221). -/
def publishLine (r : Region) (w : Who) (c : Word) (s : State) (line : Nat) : State :=
  let s := publishBytes r line (ownLine s w line {})
  let s := setL1 (noteWriter s w.asid line) w.core w.asid line { excl := true, dirty := true, wts := c, rts := c }
  noteTails (evalMonitors s (line * 128) 128) (line * 128) 128

/-- A line of a committed region's read set has been read at time c (R206): where its times are held its rts is at least c. -/
def readAt (c : Word) (s : State) (line : Nat) : State :=
  match l2Line s line with
  | none => modSlice s (homeSlice line) fun k => { k with evts := ltMax (clamp s k.evts) c }
  | some x =>
    match x.owner.bind fun o => (l1Copy s (o / 64) (o % 64) line).map fun l => (o, l) with
    | some (o, l) => setL1 s (o / 64) (o % 64) line { l with rts := ltMax (clamp s l.rts) c }
    | none => setL2 s line { x with rts := ltMax (clamp s x.rts) c }

/-- A region commits at c = ALO (R202, R206). -/
def commitRegion (r : Region) (s₀ : State) : State :=
  let g := s₀.cur
  let c := g.alo
  match logCommit s₀ g c r.vas with
  | (s, false) => regionAbort s (gidOf g) 16 0 none
  | (s, true) =>
    let s := modCur (countLogged s₀ s g) fun g => { g with rgn := none }
    let s := r.writes.foldl (publishLine r (whoOf s g) c) (r.reads.foldl (readAt c) s)
    let s := r.slices.foldl (fun s i => pend s (.finalPosition i g.aid.toNat c)) s
    let aid := g.aid.toNat
    let left := if r.slices.isEmpty then mdel s.cp.slots aid else mset s.cp.slots aid r.slices.length
    let s := { s with cp := { s.cp with slots := left } }
    advance 1 (modCur s fun g => { g with lclk := ltMax g.lclk c, astat := g.astat &&& 0x40000000 })

/-- AREND (R202): with no region open it has no effect. The slices freeze the region's entries and answer, every
message sent before has arrived, and the region commits, once its GST is performed (R110, R138), or, its interval empty, aborts. -/
def execArend (s : State) : Out :=
  .next (
    match s.cur.rgn with
    | none => advance 1 s
    | some r =>
      afterGst (fun s =>
      let aid := s.cur.aid.toNat
      if messageDue s aid then stallOn 14 true s
      else
        let s := r.slices.foldl (fun s i => freezeEntries s i aid) s
        if before s.cur.ahi s.cur.alo then regionAbort s (gidOf s.cur) 1 0 none else commitRegion r s) s)

/-! ## ARABT and ARNRW (R204, R205) -/

/-- ARABT (R204): aborts with cause 7 and a code. -/
def execArabt (i : BitVec 8) (s : State) : Out :=
  .next (if s.cur.rgn.isNone then advance 1 s else regionAbort (countIssue s) (gidOf s.cur) 7 i.toNat none)

/-- A change of a bound of the current group's region relayed to each slice of its set, as a message with cause 0 (R205). -/
def relayOwn (kind : Nat) (old new : Word) (r : Region) (s : State) : State :=
  if old = new then s else r.slices.foldl (fun s _ => pend s (.narrowingMessage kind s.cur.aid.toNat new 0 0)) s

/-- The bounds of the current group's region changed by the core (R205). -/
def narrowOwn (lo hi : Word) (r : Region) (s : State) : State :=
  let g := s.cur
  let s := modCur s fun g => { g with alo := ltMax g.alo lo, ahi := ltMin g.ahi hi }
  relayOwn 0 g.ahi s.cur.ahi r (relayOwn 1 g.alo s.cur.alo r s)

/-- ARNRW (R205): narrows the open region's interval; it aborts with cause 1 if it is then empty. -/
def execArnrw (a b : BitVec 9) (s : State) : Out :=
  .next (withUses { gr := [a.toNat, b.toNat] } (fun s =>
    match s.cur.rgn with
    | none => advance 1 s
    | some r =>
      let s := narrowOwn (gget s.cur a.toNat) (gget s.cur b.toNat) r s
      if before s.cur.ahi s.cur.alo then regionAbort (countIssue s) (gidOf s.cur) 1 0 none else advance 1 s) s)

end

end Sys2Proof.Machine
end

