-- ==== Sys2Proof/Machine/EvRegion.lean ====
section
/-! DEFINITION. Steps of atomic regions (R195 to R203): registration, messages between slices and cores, aborts. -/

namespace Sys2Proof.Machine

noncomputable section

/-- REGION_REGISTRATION (R195, R196): a region takes a line into its read or write set, or aborts. -/
def execRegionRegistration (gid line : Nat) (wr : Bool) (s : State) : Out :=
  .next (
    match registerLine s gid line wr {} with
    | (s, none) => s
    | (s, some cause) => regionAbort s gid cause 0 none)

/-- A region message in the trace ring (R200, R303). -/
def traceMessage (s : State) (kind aid : Nat) (bound : Word) (slice cause : Nat) : State :=
  traceRecord s 29 (kind * 2 ^ 60 + aid % 4096 * 2 ^ 48 + bound.toNat * 2 ^ 16 + slice % 64 * 2 ^ 10 + cause % 1024)

/-- The group whose open region has an AID. -/
def regionGroup (s : State) (aid : Nat) : Option Group :=
  (allGroups s).find? fun g => g.rgn.isSome && g.aid.toNat == aid

/-- The bounds of a group's region narrowed, and the copies of every slice of its set by the core's relay; it aborts if its interval is
empty (R199). -/
def narrowRegion (s : State) (g : Group) (lo hi : Word) (slice : Nat) : State :=
  let lo := ltMax g.alo lo
  let hi := ltMin g.ahi hi
  let s := setGroup s { g with alo := lo, ahi := hi }
  let s := ((g.rgn.map (·.slices)).getD []).foldl (fun s i => narrowCopy s i g.aid.toNat (some lo) (some hi)) s
  if before hi lo then regionAbort s (gidOf g) 1 0 (some (slice % 64)) else s

/-- NARROWING_MESSAGE (R198 to R200): kind 0 lowers AHI, kind 1 raises ALO, kind 2 aborts. -/
def execNarrowingMessage (kind aid : Nat) (bound : Word) (slice cause : Nat) (s : State) : Out :=
  .next (
    match regionGroup s aid with
    | none => if kind ≤ 2 then traceMessage s kind aid bound slice cause else s
    | some g =>
      match kind with
      | 0 => narrowRegion (traceMessage s 0 aid bound slice cause) g g.alo bound slice
      | 1 => narrowRegion (traceMessage s 1 aid bound slice cause) g bound g.ahi slice
      | 2 => regionAbort (traceMessage s 2 aid 0 slice cause) (gidOf g) cause 0 (some (slice % 64))
      | _ => s)

/-- REGION_PREPARE (R202): the region's entries at a slice are frozen. -/
def execRegionPrepare (slice aid : Nat) (s : State) : Out := .next (freezeEntries s slice aid)

/-- FINAL_POSITION (R202): a slice settles the committed region's edges and releases its entries. -/
def execFinalPosition (slice aid : Nat) (c : Word) (s : State) : Out :=
  .next (dropEntriesOf (settleEdges (traceMessage s 3 aid c 0 0) slice aid c) slice aid)

/-- REGION_ABORT_MESSAGE (R200, R203): a slice drops the region's entries and edges. -/
def execRegionAbortMessage (slice : Nat) (m : AbortNote) (s : State) : Out :=
  .next (dropEntriesOf (traceMessage s 2 m.aid 0 m.source m.cause) slice m.aid)

/-- REGION_ABORT (R203): the group's open region aborts at its boundary. -/
def execRegionAbort (gid cause : Nat) (s : State) : Out := .next (regionAbort s gid cause 0 none)

end

end Sys2Proof.Machine
end

