-- ==== Sys2Proof/Machine/Exchange.lean ====
section
/-! DEFINITION. Exchange between threads, reductions and transfers (R98 to R103): VX and VGV. -/

namespace Sys2Proof.Machine

noncomputable section

/-- The outcome of one thread of a carry pass. `d` is the destination register, if the instruction has one; `out` is
what the destination receives, given the carry before and after (R100). A helper's arithmetic trap is discarded: its
destination receives +0 and the carry still takes the step's value. DESIGN CHOICE (log 54): the spec does
not say what a helper's poisoned source contributes to the carry; here it leaves the carry as it was. DESIGN CHOICE (log 70): a discarded
step that rounds stochastically does not advance SRS. -/
def carryThread (d : Option Nat) (srcs : Group → List Nat) (step : Group → Nat → Eff) (out : Group → Nat → Word → Word)
    (g : Group) (t : Nat) : Group × Option PassTrap :=
  let put := fun (g : Group) (x : Word) => match d with | some r => vset g r t x | none => g
  let e := step g t
  if poisoned g (srcs g) t then
    if helper g t then (put g 0, none) else (g, some (poisonTrap g (srcs g) t))
  else if arithTraps g e.raised then
    if helper g t then (put { g with xc := e.val, xcv := true } 0, none)
    else (g, some { t := t, cause := 1, sub := e.raised })
  else (put { commit g e with xc := e.val, xcv := true } (out g t e.val), none)

/-- A single pass with a carry from thread to thread, from RIX on (R98, R100). -/
def carryPass (act : Word) (z : Bool) (d : Option Nat) (srcs : Group → List Nat) (step : Group → Nat → Eff)
    (out : Group → Nat → Word → Word) : List Nat → Group → Group × Option PassTrap
  | [], g => (g, none)
  | t :: ts, g =>
    if t < g.rix then carryPass act z d srcs step out ts g
    else if act.getLsbD t then
      match carryThread d srcs step out g t with
      | (g, none) => carryPass act z d srcs step out ts g
      | (g, some x) => (g, some x)
    else if z then
      carryPass act z d srcs step out ts (match d with | some r => vset g r t 0 | none => g)
    else carryPass act z d srcs step out ts g

/-- The step of a fold or scan on a thread: the first active thread's value as it stands, then `f` on the carry and the
value (R70, R100). -/
def foldStep (a : Nat) (f : Group → Word → Word → Eff) (g : Group) (t : Nat) : Eff :=
  if g.xcv then f g g.xc (vget g a t) else plain g (vget g a t)

/-- A scan (R99, R100): inclusive, or exclusive with zero first. -/
def scanOp (p : Option Prefix) (d a : BitVec 6) (excl : Bool) (f : Group → Word → Word → Eff) (s : State) : State :=
  withUses { vr := [a.toNat], vw := [d.toNat], base := baseWordIx p } (fun s =>
    let act := activeMask s.cur (maskOf p)
    endPass (words1 p) act s (carryPass act (zeroing (zeroes p) act) (some d.toNat) (fun _ => [a.toNat]) (foldStep a.toNat f)
      (fun g _ c => if excl then (if g.xcv then g.xc else 0) else c) (List.range 32) s.cur)) s

/-- SHDN (R99, R100): each active thread receives the value of the active thread before it, the first that of vb. -/
def execShdn (p : Option Prefix) (d a b : BitVec 6) (s : State) : Out :=
  .next (withUses { vr := [a.toNat, b.toNat], vw := [d.toNat], base := baseWordIx p } (fun s =>
    let act := activeMask s.cur (maskOf p)
    endPass (words1 p) act s (carryPass act (zeroing (zeroes p) act) (some d.toNat)
      (fun g => if g.xcv then [a.toNat] else [a.toNat, b.toNat]) (fun g t => plain g (vget g a.toNat t))
      (fun g t _ => if g.xcv then g.xc else vget g b.toNat t) (List.range 32) s.cur)) s)

/-- The pass of SHUP (R100): thread `p` is completed in the slot of the next active thread. A poison trap stands at `p`
if there is one; a helper's is discarded, with +0 for what it would have read (log 15). -/
def shupPass (act : Word) (z : Bool) (d a b : Nat) : List Nat → Option Nat → Group → Group × Option PassTrap
  | [], none, g => (g, none)
  | [], some p, g =>
    if poisoned g [b] p then
      if helper g p then (vset g d p 0, none) else (g, some (poisonTrap g [b] p))
    else (vset g d p (vget g b p), none)
  | t :: ts, p, g =>
    if t < g.rix then shupPass act z d a b ts p g
    else if act.getLsbD t then
      let finish := fun (g : Group) (y : Word) => match p with | some q => vset g d q y | none => g
      if poisoned g [a] t then
        if helper g t then shupPass act z d a b ts none (vset (finish g 0) d t 0)
        else (g, some { poisonTrap g [a] t with t := p.getD t })
      else shupPass act z d a b ts (some t) (finish g (vget g a t))
    else if z then shupPass act z d a b ts p (vset g d t 0)
    else shupPass act z d a b ts p g

/-- SHUP (R99, R100): each active thread receives the value of the active thread after it, the last that of vb. -/
def execShup (p : Option Prefix) (d a b : BitVec 6) (s : State) : Out :=
  .next (withUses { vr := [a.toNat, b.toNat], vw := [d.toNat], base := baseWordIx p } (fun s =>
    let act := activeMask s.cur (maskOf p)
    endPass (words1 p) act s (shupPass act (zeroing (zeroes p) act) d.toNat a.toNat b.toNat (List.range 32) none s.cur)) s)

/-- An FP32 sum step (R70). -/
def sumStep (p : Option Prefix) (g : Group) (x y : Word) : Eff := float2 p fAdd g x y

/-- PSUM.F (R99): inclusive FP32 prefix sum. -/
def execPsumF (p : Option Prefix) (d a : BitVec 6) (s : State) : Out :=
  .next (scanOp p d a false (sumStep p) s)

/-- PSUMX.F (R99): exclusive FP32 prefix sum. -/
def execPsumxF (p : Option Prefix) (d a : BitVec 6) (s : State) : Out :=
  .next (scanOp p d a true (sumStep p) s)

/-- PSUM.I (R99): inclusive sum, wrapping. -/
def execPsumI (p : Option Prefix) (d a : BitVec 6) (s : State) : Out :=
  .next (scanOp p d a false (int2 (· + ·)) s)

/-- PSUMX.I (R99): exclusive sum. -/
def execPsumxI (p : Option Prefix) (d a : BitVec 6) (s : State) : Out :=
  .next (scanOp p d a true (int2 (· + ·)) s)

/-- PMAX.I (R99): running signed maximum. -/
def execPmaxI (p : Option Prefix) (d a : BitVec 6) (s : State) : Out :=
  .next (scanOp p d a false (int2 maxS) s)

/-- PMIN.I (R99): running signed minimum. -/
def execPminI (p : Option Prefix) (d a : BitVec 6) (s : State) : Out :=
  .next (scanOp p d a false (int2 minS) s)

/-- PMAX.F (R99): running maximumNumber. -/
def execPmaxF (p : Option Prefix) (d a : BitVec 6) (s : State) : Out :=
  .next (scanOp p d a false (pick32 true) s)

/-- PMIN.F (R99): running minimumNumber. -/
def execPminF (p : Option Prefix) (d a : BitVec 6) (s : State) : Out :=
  .next (scanOp p d a false (pick32 false) s)

/-! ## SHFL, quad swaps, ZIP and UZP (R98, R99, R101, R102) -/

/-- The value of a source register of a thread as an exchange reads it: 0 for a thread that is not active, and for a
helper whose register is poisoned (R9, R98). -/
def exchanged (g : Group) (act : Word) (r t : Nat) : Word :=
  if act.getLsbD t && !poisoned g [r] t then vget g r t else 0

/-- The first active thread, not a helper, that has a poisoned source (R98). -/
def exchangePoison (g : Group) (act : Word) (srcs : List Nat) : Option Nat :=
  (threads act).find? fun t => poisoned g srcs t && !helper g t

/-- The writing pass of an exchange from RIX on: `val r t` into each destination register; a helper with a poisoned
source receives +0; inactive threads are merged or zeroed. -/
def exchangeWrite (act : Word) (z : Bool) (ds srcs : List Nat) (val : Nat → Nat → Word) (g0 : Group) : Group :=
  (List.range 32).foldl (fun g t =>
    if t < g0.rix then g
    else if act.getLsbD t then
      ds.foldl (fun g r => vset g r t (if poisoned g0 srcs t then 0 else val r t)) g
    else if z then ds.foldl (fun g r => vset g r t 0) g
    else g) g0

/-- An exchange that reads every source before it writes: a poison trap has RIX 0 and nothing written (R98). -/
def exchangeOp (p : Option Prefix) (ds srcs : List Nat) (val : Group → Word → Nat → Nat → Word) (s : State) : State :=
  withUses { vr := srcs, vw := ds, base := baseWordIx p } (fun s =>
    let g := s.cur
    let act := activeMask g (maskOf p)
    match exchangePoison g act srcs with
    | some t => endPass (words1 p) act s (g, some { poisonTrap g srcs t with t := 0 })
    | none => endPass (words1 p) act s (exchangeWrite act (zeroing (zeroes p) act) ds srcs (val g act) g, none)) s

/-- SHFL (R99): each thread receives va of the thread that the low five bits of its vb name. -/
def execShfl (p : Option Prefix) (d a b : BitVec 6) (s : State) : Out :=
  .next (exchangeOp p [d.toNat] [a.toNat, b.toNat]
    (fun g act _ t => exchanged g act a.toNat ((exchanged g act b.toNat t).toNat % 32)) s)

/-- One quad of a swap (R101): a poison trap of one of its threads stands at its first active thread, with none of the
quad written. -/
def quadStep (act : Word) (z : Bool) (d a x q : Nat) (g : Group) : Group × Option PassTrap :=
  let ts := [4 * q, 4 * q + 1, 4 * q + 2, 4 * q + 3]
  let on := ts.filter act.getLsbD
  match (on.filter (fun t => g.rix ≤ t)).find? (fun t => poisoned g [a] t && !helper g t) with
  | some t => (g, some { poisonTrap g [a] t with t := on.headD (4 * q) })
  | none =>
    (ts.foldl (fun h t =>
      if t < g.rix then h
      else if act.getLsbD t then vset h d t (if poisoned g [a] t then 0 else exchanged g act a (t ^^^ x))
      else if z then vset h d t 0 else h) g, none)

/-- The quads of a swap in order. -/
def quadPass (act : Word) (z : Bool) (d a x : Nat) : List Nat → Group → Group × Option PassTrap
  | [], g => (g, none)
  | q :: qs, g =>
    match quadStep act z d a x q g with
    | (g, none) => quadPass act z d a x qs g
    | (g, some e) => (g, some e)

/-- A quad swap: V[vd][t] := V[va][t ^ x] (R99, R101). -/
def quadSwap (p : Option Prefix) (d a : BitVec 6) (x : Nat) (s : State) : State :=
  withUses { vr := [a.toNat], vw := [d.toNat], base := baseWordIx p } (fun s =>
    let act := activeMask s.cur (maskOf p)
    endPass (words1 p) act s (quadPass act (zeroing (zeroes p) act) d.toNat a.toNat x (List.range 8) s.cur)) s

/-- QSWH (R99): the neighbour t ^ 1. -/
def execQswh (p : Option Prefix) (d a : BitVec 6) (s : State) : Out := .next (quadSwap p d a 1 s)

/-- QSWV (R99): the neighbour t ^ 2. -/
def execQswv (p : Option Prefix) (d a : BitVec 6) (s : State) : Out := .next (quadSwap p d a 2 s)

/-- QSWD (R99): the neighbour t ^ 3. -/
def execQswd (p : Option Prefix) (d a : BitVec 6) (s : State) : Out := .next (quadSwap p d a 3 s)

/-- The place of a thread among the active threads. -/
def rankOf (act : Word) (t : Nat) : Nat := ((threads act).filter (· < t)).length

/-- The `i`-th active thread. -/
def nthActive (act : Word) (i : Nat) : Nat := (threads act).getD i 0

/-- What ZIPn gives register `vd + j` of the thread of rank `i`: the element at position j × m + i, which is element
pos ÷ n of source pos mod n (R102). -/
def zipVal (n d a : Nat) (g : Group) (act : Word) (r t : Nat) : Word :=
  let pos := (r - d) * (threads act).length + rankOf act t
  exchanged g act (a + pos % n) (nthActive act (pos / n))

/-- What UZPn gives register `vd + j` of the thread of rank `i`: input position i × n + j, which is element pos mod m of
register pos ÷ m (R102). -/
def uzpVal (n d a : Nat) (g : Group) (act : Word) (r t : Nat) : Word :=
  let m := (threads act).length
  let pos := rankOf act t * n + (r - d)
  exchanged g act (a + pos / m) (nthActive act (pos % m))

/-- A run of `n` registers. -/
def run (r : BitVec 6) (n : Nat) : List Nat := (List.range n).map (r.toNat + ·)

/-- ZIPn (R102). -/
def zipOp (n : Nat) (p : Option Prefix) (d a : BitVec 6) (s : State) : State :=
  exchangeOp p (run d n) (run a n) (zipVal n d.toNat a.toNat) s

/-- UZPn (R102). -/
def uzpOp (n : Nat) (p : Option Prefix) (d a : BitVec 6) (s : State) : State :=
  exchangeOp p (run d n) (run a n) (uzpVal n d.toNat a.toNat) s

/-- ZIP2 (R102): 2 registers interleaved. -/
def execZip2 (p : Option Prefix) (d a : BitVec 6) (s : State) : Out := .next (zipOp 2 p d a s)

/-- ZIP3 (R102): 3 registers interleaved. -/
def execZip3 (p : Option Prefix) (d a : BitVec 6) (s : State) : Out := .next (zipOp 3 p d a s)

/-- ZIP4 (R102): 4 registers interleaved. -/
def execZip4 (p : Option Prefix) (d a : BitVec 6) (s : State) : Out := .next (zipOp 4 p d a s)

/-- UZP2 (R102): 2 registers taken apart. -/
def execUzp2 (p : Option Prefix) (d a : BitVec 6) (s : State) : Out := .next (uzpOp 2 p d a s)

/-- UZP3 (R102): 3 registers taken apart. -/
def execUzp3 (p : Option Prefix) (d a : BitVec 6) (s : State) : Out := .next (uzpOp 3 p d a s)

/-- UZP4 (R102): 4 registers taken apart. -/
def execUzp4 (p : Option Prefix) (d a : BitVec 6) (s : State) : Out := .next (uzpOp 4 p d a s)

/-! ## VGV (R103) -/

/-- A fold ends: gd receives the running value, or the value of an empty active set. -/
def endFold (d : BitVec 9) (empty : Word) (act : Word) (s : State) (r : Group × Option PassTrap) : State :=
  match r.2 with
  | none => endPass 1 act s (gset r.1 d.toNat (if r.1.xcv then r.1.xc else empty), none)
  | some x => endPass 1 act s (r.1, some x)

/-- A fold over the active threads under m0 into a uniform register (R70, R103). -/
def foldOp (d : BitVec 9) (a : BitVec 6) (empty : Word) (step : Group → Nat → Eff) (s : State) : State :=
  withUses { vr := [a.toNat], gw := [d.toNat] } (fun s =>
    let act := activeMask s.cur 0
    endFold d empty act s (carryPass act false none (fun _ => [a.toNat]) step (fun _ _ c => c) (List.range 32) s.cur)) s

/-- RSUM.F (R103): left fold of FP32 sums. -/
def execRsumF (g : BitVec 9) (a : BitVec 6) (s : State) : Out :=
  .next (foldOp g a 0 (foldStep a.toNat (sumStep none)) s)

/-- RSUM.I (R103): sum, wrapping. -/
def execRsumI (g : BitVec 9) (a : BitVec 6) (s : State) : Out :=
  .next (foldOp g a 0 (foldStep a.toNat (int2 (· + ·))) s)

/-- RMAX.F (R103): maximumNumber fold. -/
def execRmaxF (g : BitVec 9) (a : BitVec 6) (s : State) : Out :=
  .next (foldOp g a 0xFF800000 (foldStep a.toNat (pick32 true)) s)

/-- RMIN.F (R103): minimumNumber fold. -/
def execRminF (g : BitVec 9) (a : BitVec 6) (s : State) : Out :=
  .next (foldOp g a 0x7F800000 (foldStep a.toNat (pick32 false)) s)

/-- RMAX.I (R103): signed maximum. -/
def execRmaxI (g : BitVec 9) (a : BitVec 6) (s : State) : Out :=
  .next (foldOp g a 0x80000000 (foldStep a.toNat (int2 maxS)) s)

/-- RMIN.I (R103): signed minimum. -/
def execRminI (g : BitVec 9) (a : BitVec 6) (s : State) : Out :=
  .next (foldOp g a 0x7FFFFFFF (foldStep a.toNat (int2 minS)) s)

/-- RAND (R103): bitwise and. -/
def execRand (g : BitVec 9) (a : BitVec 6) (s : State) : Out :=
  .next (foldOp g a 0xFFFFFFFF (foldStep a.toNat (int2 (· &&& ·))) s)

/-- ROR (R103): bitwise or. -/
def execRor (g : BitVec 9) (a : BitVec 6) (s : State) : Out :=
  .next (foldOp g a 0 (foldStep a.toNat (int2 (· ||| ·))) s)

/-- RXOR (R103): bitwise exclusive or. -/
def execRxor (g : BitVec 9) (a : BitVec 6) (s : State) : Out :=
  .next (foldOp g a 0 (foldStep a.toNat (int2 (· ^^^ ·))) s)

/-- BALLOT (R103): bit t is 1 exactly for an active thread whose va is not 0. -/
def execBallot (g : BitVec 9) (a : BitVec 6) (s : State) : Out :=
  .next (foldOp g a 0 (fun g t =>
    plain g ((if g.xcv then g.xc else 0) ||| (if vget g a.toNat t = 0 then 0 else BitVec.ofNat 32 (2 ^ t)))) s)

/-- One thread's register into a uniform register: a poisoned source traps on the thread, or gives +0 if the thread is a
helper (R9, R295). -/
def takeThread (d : BitVec 9) (a : BitVec 6) (t : Option Nat) (act : Word) (s : State) : State :=
  let g := s.cur
  match t with
  | none => endPass 1 act s (gset g d.toNat 0, none)
  | some t =>
    if !poisoned g [a.toNat] t then endPass 1 act s (gset g d.toNat (vget g a.toNat t), none)
    else if helper g t then endPass 1 act s (gset g d.toNat 0, none)
    else endPass 1 act s (g, some (poisonTrap g [a.toNat] t))

/-- VGET (R103): V[va][idx], 0 if idx is not present. A resume beyond idx completes it (R21). -/
def execVget (g : BitVec 9) (a : BitVec 6) (i : BitVec 5) (s : State) : Out :=
  .next (withUses { vr := [a.toNat], gw := [g.toNat] } (fun s =>
    let act := activeMask s.cur 0
    if i.toNat < s.cur.rix then endPass 1 act s (s.cur, none)
    else takeThread g a (if s.cur.pmask.getLsbD i.toNat then some i.toNat else none) act s) s)

/-- VPUT (R103): V[va][idx] := G[gd], unless idx is not present. -/
def execVput (g : BitVec 9) (a : BitVec 6) (i : BitVec 5) (s : State) : Out :=
  .next (uniformOp { vw := [a.toNat], gr := [g.toNat] } 1 (fun h =>
    if h.pmask.getLsbD i.toNat then vset h a.toNat i.toNat (gget h g.toNat) else h) s)

/-- FIRST (R103): V[va] of the lowest active thread, 0 if there is none. DESIGN CHOICE (log 71): resumed past a thread it takes the lowest
that is left, 0 if none is, and at RIX 32 it writes nothing. -/
def execFirst (g : BitVec 9) (a : BitVec 6) (s : State) : Out :=
  .next (withUses { vr := [a.toNat], gw := [g.toNat] } (fun s =>
    let act := activeMask s.cur 0
    takeThread g a ((threads act).find? (fun t => s.cur.rix ≤ t)) act s) s)

end

end Sys2Proof.Machine
end

