-- ==== Sys2Proof/Machine/Launch.lean ====
section
/-! DEFINITION. LAUNCH (R231). -/

namespace Sys2Proof.Machine

noncomputable section

/-- The launch record has been read: the group's clock is that of the load, one operation is counted, and the record is
on its way to the command processor with the clock that the group held at issue (R231). -/
def sendLaunch (w : BitVec 4) (clk : Word) (record : List Word) (s : State) : State :=
  let at_ := s.cur.lclk
  let s := modCur s fun g => { g with lclk := clk }
  let g := s.cur
  let l : Launch := { gid := gidOf g, op := g.nextOp, stamp := s.turn, blk := g.blk, grpib := g.grpib, ctx := g.ctx, clk := at_, record := record }
  let s := issueOp s .launch (some w.toNat) [] [] 0 0 0 false
  pend (advance 1 { s with cp := { s.cp with launches := s.cp.launches ++ [l] } }) (.launchEnqueue l.gid l.stamp)

/-- LAUNCH (R231): reads a record of 128 bytes in device memory as a tracked load. -/
def execLaunch (gp : BitVec 7) (w : BitVec 4) (s : State) : Out :=
  .next (withUses { gr := pairOf gp } (afterGst (outsideRegion (walkedAt 128 { r := true } (fun g => pairVal g gp) fun s =>
    let va := pairVal s.cur gp
    if 255 ≤ wget s.cur w.toNat then stallOn 5 true s
    else
      match address s (whoOf s s.cur) va 128 { r := true } with
      | (s, .error f) => trapAt f.1 f.2 accLoad false va s
      | (s, .ok l) =>
        match placeOf l with
        | .host | .peer | .mmio => trapAt 3 0 accLoad false va s
        | _ =>
          if mustWait s none (l.pa / 128) false then stallOn 21 true s
          else
            match memFault s l.pa l.via with
            | some f => uniformStop accLoad va (memTrap s s.cur.ctx l.pa f)
            | none =>
              let r := trackedLine s (whoOf s s.cur) (l.pa / 128) l.via
              match copyBad r.1 r.2.1 l.pa 128 with
              | some sub => trapAt 13 sub accLoad false va (modCur r.1 fun g => { g with lclk := r.2.2 })
              | none =>
                match sealed r.1 5 with
                | (s, some f) => trapAt f.1 f.2 accLoad false va s
                | (s, none) => sendLaunch w r.2.2 (wordsOf 32 (copyBytes r.1 r.2.1 l.pa 128)) s))) s)

end

end Sys2Proof.Machine
end

