-- ==== Sys2Proof/Machine/Move.lean ====
section
/-! DEFINITION. Moves, selects and masks (R104 to R106): VMV, VMVG and MK. -/

namespace Sys2Proof.Machine

noncomputable section

/-! ## VMV and VMVG (R104, R105) -/

/-- MOV (R104): va. -/
def execMov (p : Option Prefix) (d a : BitVec 6) (s : State) : Out := .next (vector1 p d a plain s)

/-- The select mask of SEL and SEL.G (R105): m1 without a prefix, else the prefix's ms. -/
def selectMask (p : Option Prefix) : Nat := match p with | none => 1 | some q => q.ms.toNat

/-- SEL and SEL.G: the execution mask is m0, the select mask is read at issue (R105). DESIGN CHOICE (log 55): both operands are read, so
poison in the one that a thread does not select traps. -/
def selectOp (p : Option Prefix) (d a : BitVec 6) (b : Src) (s : State) : State :=
  withUses { vr := a.toNat :: srcV b, vw := [d.toNat], gr := srcG b, base := baseWordIx p } (fun s =>
    let m := mreg s.cur (selectMask p)
    vectorPass (words1 p) 0 (zeroes p) d.toNat (a.toNat :: srcV b)
      (fun g t => plain g (if m.getLsbD t then vget g a.toNat t else srcVal g t b)) s) s

/-- SEL (R104): va where the select mask is 1, else vb. -/
def execSel (p : Option Prefix) (d a b : BitVec 6) (s : State) : Out := .next (selectOp p d a (.v b) s)

/-- SEL.G (R104): va where the select mask is 1, else the uniform operand. -/
def execSelG (p : Option Prefix) (d a : BitVec 6) (b : BitVec 9) (s : State) : Out := .next (selectOp p d a (.g b) s)

/-- A vector instruction without sources. -/
def vector0 (p : Option Prefix) (d : BitVec 6) (f : Group → Nat → Word) (s : State) : State :=
  vectorOp p d [] false [] 0 (fun g t => plain g (f g t)) s

/-- TIDX (R104): the thread index. -/
def execTidx (p : Option Prefix) (d : BitVec 6) (s : State) : Out :=
  .next (vector0 p d (fun _ t => BitVec.ofNat 32 t) s)

/-- QIDX (R104): the quad index. -/
def execQidx (p : Option Prefix) (d : BitVec 6) (s : State) : Out :=
  .next (vector0 p d (fun _ t => BitVec.ofNat 32 (t / 4)) s)

/-- LIDX (R104): the index in the block, 32 × GRPIB + t. -/
def execLidx (p : Option Prefix) (d : BitVec 6) (s : State) : Out :=
  .next (vector0 p d (fun g t => BitVec.ofNat 32 (32 * g.grpib + t)) s)

/-- MOVG (R104): the uniform operand. -/
def execMovg (p : Option Prefix) (d : BitVec 6) (b : BitVec 9) (s : State) : Out :=
  .next (vectorB p d (.g b) 0 plain s)

/-! ## MK (R106) -/

/-- A mask register computed from two mask registers. -/
def maskOp (d a b : BitVec 3) (f : Word → Word → Word) (s : State) : State :=
  uniformOp {} 1 (fun g => mwrite g d.toNat (f (mreg g a.toNat) (mreg g b.toNat))) s

/-- MAND (R106): ma & mb. -/
def execMand (d a b : BitVec 3) (s : State) : Out := .next (maskOp d a b (· &&& ·) s)

/-- MOR (R106): ma | mb. -/
def execMor (d a b : BitVec 3) (s : State) : Out := .next (maskOp d a b (· ||| ·) s)

/-- MXOR (R106): ma ^ mb. -/
def execMxor (d a b : BitVec 3) (s : State) : Out := .next (maskOp d a b (· ^^^ ·) s)

/-- MANDN (R106): ma & ~mb. -/
def execMandn (d a b : BitVec 3) (s : State) : Out := .next (maskOp d a b andNot s)

/-- MNOT (R106): ~ma. -/
def execMnot (d a : BitVec 3) (s : State) : Out :=
  .next (uniformOp {} 1 (fun g => mwrite g d.toNat (~~~(mreg g a.toNat))) s)

/-- A uniform register computed from a mask register. -/
def fromMask (a : BitVec 3) (n : BitVec 9) (f : Word → Word) (s : State) : State :=
  uniformOp { gw := [n.toNat] } 1 (fun g => gset g n.toNat (f (mreg g a.toNat))) s

/-- MTOG (R106): G[gn] := M[ma]. -/
def execMtog (a : BitVec 3) (n : BitVec 9) (s : State) : Out := .next (fromMask a n id s)

/-- GTOM (R106): M[md] := G[gn]. -/
def execGtom (d : BitVec 3) (n : BitVec 9) (s : State) : Out :=
  .next (uniformOp { gr := [n.toNat] } 1 (fun g => mwrite g d.toNat (gget g n.toNat)) s)

/-- MPOP (R106): the number of 1 bits of M[ma]. -/
def execMpop (a : BitVec 3) (n : BitVec 9) (s : State) : Out :=
  .next (fromMask a n (fun x => BitVec.ofNat 32 (popcount x)) s)

/-- The index of the lowest 1 bit, or 32 (R106). -/
def lowestBit (x : Word) : Word := BitVec.ofNat 32 ((threads x).headD 32)

/-- MFFS (R106): the index of the lowest 1 bit of M[ma], or 32. -/
def execMffs (a : BitVec 3) (n : BitVec 9) (s : State) : Out := .next (fromMask a n lowestBit s)

/-- MALL (R106): M[md] := the launch mask. -/
def execMall (d : BitVec 3) (s : State) : Out := .next (uniformOp {} 1 (fun g => mwrite g d.toNat g.lmask) s)

/-- MCLR (R106): M[md] := 0. -/
def execMclr (d : BitVec 3) (s : State) : Out := .next (uniformOp {} 1 (fun g => mwrite g d.toNat 0) s)

end

end Sys2Proof.Machine
end

