-- ==== Sys2Proof/Machine/Uniform.lean ====
section
/-! DEFINITION. The uniform ALU, immediates and compares (R107 to R109). -/

namespace Sys2Proof.Machine

noncomputable section

/-! ## GGG (R107) -/

/-- The registers of a GGG instruction that reads ga and gb and writes gd (R43). -/
def gggUses (p : Option Prefix) (d a b : BitVec 8) : Uses :=
  { gr := [gaOf p a, gbOf p b], gw := [gdOf p d], base := baseWordIx p }

/-- A GGG instruction on two words. -/
def ggg (p : Option Prefix) (d a b : BitVec 8) (f : Word → Word → Word) (s : State) : State :=
  uniformOp (gggUses p d a b) (words1 p) (fun g => gset g (gdOf p d) (f (gget g (gaOf p a)) (gget g (gbOf p b)))) s

/-- GADD (R107): a + b. -/
def execGadd (p : Option Prefix) (d a b : BitVec 8) (s : State) : Out := .next (ggg p d a b (· + ·) s)

/-- GSUB (R107): a − b. -/
def execGsub (p : Option Prefix) (d a b : BitVec 8) (s : State) : Out := .next (ggg p d a b (· - ·) s)

/-- GMUL (R107): bits 31:0 of a × b. -/
def execGmul (p : Option Prefix) (d a b : BitVec 8) (s : State) : Out := .next (ggg p d a b (· * ·) s)

/-- GMULH (R107): bits 63:32 of the signed product. -/
def execGmulh (p : Option Prefix) (d a b : BitVec 8) (s : State) : Out := .next (ggg p d a b mulHigh s)

/-- GAND (R107): a & b. -/
def execGand (p : Option Prefix) (d a b : BitVec 8) (s : State) : Out := .next (ggg p d a b (· &&& ·) s)

/-- GOR (R107): a | b. -/
def execGor (p : Option Prefix) (d a b : BitVec 8) (s : State) : Out := .next (ggg p d a b (· ||| ·) s)

/-- GXOR (R107): a ^ b. -/
def execGxor (p : Option Prefix) (d a b : BitVec 8) (s : State) : Out := .next (ggg p d a b (· ^^^ ·) s)

/-- GANDN (R107): a & ~b. -/
def execGandn (p : Option Prefix) (d a b : BitVec 8) (s : State) : Out := .next (ggg p d a b andNot s)

/-- GSHL (R107): a << b, 0 from 32 on. -/
def execGshl (p : Option Prefix) (d a b : BitVec 8) (s : State) : Out := .next (ggg p d a b shlW s)

/-- GSHR (R107): logical a >> b, 0 from 32 on. -/
def execGshr (p : Option Prefix) (d a b : BitVec 8) (s : State) : Out := .next (ggg p d a b shrW s)

/-- GSAR (R107): arithmetic a >> b. -/
def execGsar (p : Option Prefix) (d a b : BitVec 8) (s : State) : Out := .next (ggg p d a b sarW s)

/-- GNMULH (R107): bits 63:32 of the unsigned product. -/
def execGnmulh (p : Option Prefix) (d a b : BitVec 8) (s : State) : Out := .next (ggg p d a b mulHighU s)

/-- GMIN (R107): signed minimum. -/
def execGmin (p : Option Prefix) (d a b : BitVec 8) (s : State) : Out := .next (ggg p d a b minS s)

/-- GMAX (R107): signed maximum. -/
def execGmax (p : Option Prefix) (d a b : BitVec 8) (s : State) : Out := .next (ggg p d a b maxS s)

/-- GNMIN (R107): unsigned minimum. -/
def execGnmin (p : Option Prefix) (d a b : BitVec 8) (s : State) : Out := .next (ggg p d a b minU s)

/-- GNMAX (R107): unsigned maximum. -/
def execGnmax (p : Option Prefix) (d a b : BitVec 8) (s : State) : Out := .next (ggg p d a b maxU s)

/-- A GGG instruction on register pairs, modulo 2^64 (R107). -/
def ggg64 (p : Option Prefix) (d a b : BitVec 8) (f : Nat → Nat → Nat) (s : State) : State :=
  let x := gaOf p a
  let y := gbOf p b
  let z := gdOf p d
  uniformOp { gr := [x, x + 1, y, y + 1], gw := [z, z + 1], base := baseWordIx p } (words1 p)
    (fun g => gsetPair g z (f (gpair g x) (gpair g y) % 2 ^ 64)) s

/-- GADD64 (R107): pair ga + pair gb. -/
def execGadd64 (p : Option Prefix) (d a b : BitVec 8) (s : State) : Out := .next (ggg64 p d a b (· + ·) s)

/-- GSUB64 (R107): pair ga − pair gb. -/
def execGsub64 (p : Option Prefix) (d a b : BitVec 8) (s : State) : Out :=
  .next (ggg64 p d a b (fun x y => x + 2 ^ 64 - y) s)

/-- A uniform float operation: an enabled exception traps before gd is written; otherwise the flags are raised once
(R66, R107). -/
def uniformFloat (u : Uses) (words d : Nat) (op : Group → Eff) (s : State) : State :=
  withUses u (fun s =>
    let e := op s.cur
    if arithTraps s.cur e.raised then trapHere 1 e.raised s
    else advance words (modCur s fun g => gset (commit g e) d e.val)) s

/-- GFADD (R107): FP32 a + b. -/
def execGfadd (p : Option Prefix) (d a b : BitVec 8) (s : State) : Out :=
  .next (uniformFloat (gggUses p d a b) (words1 p) (gdOf p d)
    (fun g => float2 none fAdd g (gget g (gaOf p a)) (gget g (gbOf p b))) s)

/-- GFMUL (R107): FP32 a × b. -/
def execGfmul (p : Option Prefix) (d a b : BitVec 8) (s : State) : Out :=
  .next (uniformFloat (gggUses p d a b) (words1 p) (gdOf p d)
    (fun g => float2 none (fun _ => fMul) g (gget g (gaOf p a)) (gget g (gbOf p b))) s)

/-- The registers of a GGG instruction that also reads gd. -/
def gggUsesD (p : Option Prefix) (d a b : BitVec 8) : Uses :=
  { gr := [gaOf p a, gbOf p b, gdOf p d], gw := [gdOf p d], base := baseWordIx p }

/-- GFFMA (R107): FP32 a × b + gd, one rounding. -/
def execGffma (p : Option Prefix) (d a b : BitVec 8) (s : State) : Out :=
  .next (uniformFloat (gggUsesD p d a b) (words1 p) (gdOf p d)
    (fun g => float3 none fusedAdd g (gget g (gaOf p a)) (gget g (gbOf p b)) (gget g (gdOf p d))) s)

/-- GMAD (R107): bits 31:0 of a × b + gd. -/
def execGmad (p : Option Prefix) (d a b : BitVec 8) (s : State) : Out :=
  .next (uniformOp (gggUsesD p d a b) (words1 p)
    (fun g => gset g (gdOf p d) (gget g (gaOf p a) * gget g (gbOf p b) + gget g (gdOf p d))) s)

/-- A GGG instruction that reads only ga. -/
def ggg1 (p : Option Prefix) (d a : BitVec 8) (f : Word → Word) (s : State) : State :=
  uniformOp { gr := [gaOf p a], gw := [gdOf p d], base := baseWordIx p } (words1 p)
    (fun g => gset g (gdOf p d) (f (gget g (gaOf p a)))) s

/-- GMOV (R107): a. -/
def execGmov (p : Option Prefix) (d a : BitVec 8) (s : State) : Out := .next (ggg1 p d a id s)

/-- GNOT (R107): ~a. -/
def execGnot (p : Option Prefix) (d a : BitVec 8) (s : State) : Out := .next (ggg1 p d a (~~~·) s)

/-! ## GI16 (R108) -/

/-- GMOVI (R108): the immediate, sign extended. -/
def execGmovi (d : BitVec 9) (i : BitVec 16) (s : State) : Out :=
  .next (uniformOp { gw := [d.toNat] } 1 (fun g => gset g d.toNat (i.signExtend 32)) s)

/-- GADDI (R108): gd plus the immediate, sign extended. -/
def execGaddi (d : BitVec 9) (i : BitVec 16) (s : State) : Out :=
  .next (uniformOp { gr := [d.toNat], gw := [d.toNat] } 1 (fun g => gset g d.toNat (gget g d.toNat + i.signExtend 32)) s)

/-- GMOVHI (R108): the immediate into the high half, the low half kept. -/
def execGmovhi (d : BitVec 9) (i : BitVec 16) (s : State) : Out :=
  .next (uniformOp { gr := [d.toNat], gw := [d.toNat] } 1
    (fun g => gset g d.toNat ((i.setWidth 32 <<< 16) ||| (gget g d.toNat &&& 0xFFFF))) s)

/-! ## GCMP and GCMPI (R109) -/

/-- The registers of an operand of GCMP: a pair for I64. -/
def cmpRegs (t : GCmpType) (r : BitVec 9) : List Nat :=
  match t with
  | .i64 => [r.toNat, r.toNat + 1]
  | _ => [r.toNat]

/-- The condition of GCMP on the operands, and the exceptions it raises (R85, R109). -/
def gcmpValue (c : CmpCond) (t : GCmpType) (a b : BitVec 9) (g : Group) : Bool × Nat :=
  let x := gget g a.toNat
  let y := gget g b.toNat
  match t with
  | .i32 => (condInt c x.toInt y.toInt, 0)
  | .n32 => (condInt c x.toNat y.toNat, 0)
  | .f32 => (condFloat c (f32 x) (f32 y), condRaises c (f32 x) (f32 y))
  | .i64 => (condInt c (BitVec.ofNat 64 (gpair g a.toNat)).toInt (BitVec.ofNat 64 (gpair g b.toNat)).toInt, 0)

/-- GCMP (R109): f[fd] := cond(a, b); an enabled IV traps before the flag is written. -/
def execGcmp (f : BitVec 2) (c : CmpCond) (t : GCmpType) (a b : BitVec 9) (s : State) : Out :=
  .next (withUses { gr := cmpRegs t a ++ cmpRegs t b } (fun s =>
    let r := gcmpValue c t a b s.cur
    if arithTraps s.cur r.2 then trapHere 1 r.2 s
    else advance 1 (modCur s fun g => fset { g with flags := g.flags ||| BitVec.ofNat 32 r.2 } f.toNat r.1)) s)

/-- GCMPI (R109): f[fd] := cond(G[ga], sext(imm)), as I32. -/
def execGcmpi (f : BitVec 2) (c : CmpCond) (a : BitVec 9) (i : BitVec 11) (s : State) : Out :=
  .next (uniformOp { gr := [a.toNat] } 1
    (fun g => fset g f.toNat (condInt c (gget g a.toNat).toInt i.toInt)) s)

end

end Sys2Proof.Machine
end

