-- ==== Sys2Proof/Machine/VecHalf.lean ====
section
/-! DEFINITION. Packed FP16 and BF16 arithmetic (R80): VH. -/

namespace Sys2Proof.Machine

noncomputable section

/-- The format of a packed half (R80). -/
def halfFmt (bf : Bool) : Fmt := if bf then bf16 else fp16

/-- The half of a word at bit 0 or 16. -/
def halfOf (hi : Bool) (x : Word) : Nat := if hi then x.toNat / 2 ^ 16 else x.toNat % 2 ^ 16

/-- A function of halves on both halves of its operands, low half first, each rounded once in its own format (R74,
R80). -/
def halves (p : Option Prefix) (bf : Bool) (f : Nat → Nat → Nat → Nat → XVal × Nat) (g : Group) (x y z : Word) : Eff :=
  let rm := rmode g p
  let r := packPair 16 (halfFmt bf) rm false g.srs
    (f rm (halfOf false x) (halfOf false y) (halfOf false z)) (f rm (halfOf true x) (halfOf true y) (halfOf true z))
  { val := BitVec.ofNat 32 r.1, raised := r.2.1, srs := r.2.2 }

/-- A function of two halves of a format. -/
def half2 (bf : Bool) (f : Nat → FVal → FVal → XVal × Nat) (rm x y _z : Nat) : XVal × Nat :=
  f rm (fval (halfFmt bf) x) (fval (halfFmt bf) y)

/-- minimumNumber or maximumNumber of each half (R54, R80). -/
def pickHalves (bf big : Bool) (g : Group) (x y : Word) : Eff :=
  let lo := fPick (halfFmt bf) big (halfOf false x) (halfOf false y)
  let hi := fPick (halfFmt bf) big (halfOf true x) (halfOf true y)
  { val := BitVec.ofNat 32 (lo.1 + 2 ^ 16 * hi.1), raised := lo.2 ||| hi.2, srs := g.srs }

/-- HDOT2 of a thread (R80): c + a.lo × b.lo + a.hi × b.hi into FP32, one rounding. -/
def dotHalves (p : Option Prefix) (bf : Bool) (g : Group) (x y z : Word) : Eff :=
  let v := fun hi w => fval (halfFmt bf) (halfOf hi w)
  deliver32 (rmode g p) g (fDot2 (rmode g p) (v false x) (v false y) (v true x) (v true y) (f32 z))

/-- HADD2 (R80): a + b in each half. -/
def execHadd2 (p : Option Prefix) (bf : Bool) (d a b : BitVec 6) (s : State) : Out :=
  .next (vector2 p d a (.v b) 0 (fun g x y => halves p bf (half2 bf fAdd) g x y 0) s)

/-- HSUB2 (R80): a − b in each half. -/
def execHsub2 (p : Option Prefix) (bf : Bool) (d a b : BitVec 6) (s : State) : Out :=
  .next (vector2 p d a (.v b) 0 (fun g x y => halves p bf (half2 bf fSub) g x y 0) s)

/-- HMUL2 (R80): a × b in each half. -/
def execHmul2 (p : Option Prefix) (bf : Bool) (d a b : BitVec 6) (s : State) : Out :=
  .next (vector2 p d a (.v b) 0 (fun g x y => halves p bf (half2 bf (fun _ => fMul)) g x y 0) s)

/-- HFMA2 (R80): a × b + c in each half, one rounding each. -/
def execHfma2 (p : Option Prefix) (bf : Bool) (d a b : BitVec 6) (s : State) : Out :=
  .next (vector3 p d a (.v b)
    (halves p bf fun rm x y z => fFma rm (fval (halfFmt bf) x) (fval (halfFmt bf) y) (fval (halfFmt bf) z)) s)

/-- HMIN2 (R80): minimumNumber of each half. -/
def execHmin2 (p : Option Prefix) (bf : Bool) (d a b : BitVec 6) (s : State) : Out :=
  .next (vector2 p d a (.v b) 0 (pickHalves bf false) s)

/-- HMAX2 (R80): maximumNumber of each half. -/
def execHmax2 (p : Option Prefix) (bf : Bool) (d a b : BitVec 6) (s : State) : Out :=
  .next (vector2 p d a (.v b) 0 (pickHalves bf true) s)

/-- HDOT2 (R80): c + a.lo × b.lo + a.hi × b.hi. -/
def execHdot2 (p : Option Prefix) (bf : Bool) (d a b : BitVec 6) (s : State) : Out :=
  .next (vector3 p d a (.v b) (dotHalves p bf) s)

end

end Sys2Proof.Machine
end

