-- ==== Sys2Proof/Machine/Dispatch.lean ====
section
/-! DEFINITION. The meaning of every instruction and of every step of the device: one call each. -/

namespace Sys2Proof.Machine noncomputable section

def exec (i : Instr) (s : State) : Host.Outcome State Fault Refusal :=
  match i with
  | .fadd p d a b => Sys2Proof.Machine.execFadd p d a b s
  | .fsub p d a b => Sys2Proof.Machine.execFsub p d a b s
  | .fmul p d a b => Sys2Proof.Machine.execFmul p d a b s
  | .ffma p d a b => Sys2Proof.Machine.execFfma p d a b s
  | .ffms p d a b => Sys2Proof.Machine.execFfms p d a b s
  | .fnma p d a b => Sys2Proof.Machine.execFnma p d a b s
  | .fmin p d a b => Sys2Proof.Machine.execFmin p d a b s
  | .fmax p d a b => Sys2Proof.Machine.execFmax p d a b s
  | .fdiv p d a b => Sys2Proof.Machine.execFdiv p d a b s
  | .fsqrt p d a => Sys2Proof.Machine.execFsqrt p d a s
  | .frcp p d a => Sys2Proof.Machine.execFrcp p d a s
  | .frsq p d a => Sys2Proof.Machine.execFrsq p d a s
  | .fexp2 p d a => Sys2Proof.Machine.execFexp2 p d a s
  | .flog2 p d a => Sys2Proof.Machine.execFlog2 p d a s
  | .fsigm p d a => Sys2Proof.Machine.execFsigm p d a s
  | .ftanh p d a => Sys2Proof.Machine.execFtanh p d a s
  | .fabs p d a => Sys2Proof.Machine.execFabs p d a s
  | .fneg p d a => Sys2Proof.Machine.execFneg p d a s
  | .frint p d a => Sys2Proof.Machine.execFrint p d a s
  | .fcpys p d a b => Sys2Proof.Machine.execFcpys p d a b s
  | .fclass p d a => Sys2Proof.Machine.execFclass p d a s
  | .fscale p d a b => Sys2Proof.Machine.execFscale p d a b s
  | .faddG p d a g => Sys2Proof.Machine.execFaddG p d a g s
  | .fsubG p d a g => Sys2Proof.Machine.execFsubG p d a g s
  | .fmulG p d a g => Sys2Proof.Machine.execFmulG p d a g s
  | .ffmaG p d a g => Sys2Proof.Machine.execFfmaG p d a g s
  | .fminG p d a g => Sys2Proof.Machine.execFminG p d a g s
  | .fmaxG p d a g => Sys2Proof.Machine.execFmaxG p d a g s
  | .fdivG p d a g => Sys2Proof.Machine.execFdivG p d a g s
  | .fscaleG p d a g => Sys2Proof.Machine.execFscaleG p d a g s
  | .hadd2 p bf d a b => Sys2Proof.Machine.execHadd2 p bf d a b s
  | .hsub2 p bf d a b => Sys2Proof.Machine.execHsub2 p bf d a b s
  | .hmul2 p bf d a b => Sys2Proof.Machine.execHmul2 p bf d a b s
  | .hfma2 p bf d a b => Sys2Proof.Machine.execHfma2 p bf d a b s
  | .hmin2 p bf d a b => Sys2Proof.Machine.execHmin2 p bf d a b s
  | .hmax2 p bf d a b => Sys2Proof.Machine.execHmax2 p bf d a b s
  | .hdot2 p bf d a b => Sys2Proof.Machine.execHdot2 p bf d a b s
  | .iadd p d a b => Sys2Proof.Machine.execIadd p d a b s
  | .isub p d a b => Sys2Proof.Machine.execIsub p d a b s
  | .imul p d a b => Sys2Proof.Machine.execImul p d a b s
  | .imulh p d a b => Sys2Proof.Machine.execImulh p d a b s
  | .nmulh p d a b => Sys2Proof.Machine.execNmulh p d a b s
  | .imad p d a b => Sys2Proof.Machine.execImad p d a b s
  | .imin p d a b => Sys2Proof.Machine.execImin p d a b s
  | .imax p d a b => Sys2Proof.Machine.execImax p d a b s
  | .nmin p d a b => Sys2Proof.Machine.execNmin p d a b s
  | .nmax p d a b => Sys2Proof.Machine.execNmax p d a b s
  | .and p d a b => Sys2Proof.Machine.execAnd p d a b s
  | .or p d a b => Sys2Proof.Machine.execOr p d a b s
  | .xor p d a b => Sys2Proof.Machine.execXor p d a b s
  | .andn p d a b => Sys2Proof.Machine.execAndn p d a b s
  | .shl p d a b => Sys2Proof.Machine.execShl p d a b s
  | .shr p d a b => Sys2Proof.Machine.execShr p d a b s
  | .sar p d a b => Sys2Proof.Machine.execSar p d a b s
  | .rotl p d a b => Sys2Proof.Machine.execRotl p d a b s
  | .popc p d a => Sys2Proof.Machine.execPopc p d a s
  | .clz p d a => Sys2Proof.Machine.execClz p d a s
  | .brev p d a => Sys2Proof.Machine.execBrev p d a s
  | .iabs p d a => Sys2Proof.Machine.execIabs p d a s
  | .iadds p d a b => Sys2Proof.Machine.execIadds p d a b s
  | .isubs p d a b => Sys2Proof.Machine.execIsubs p d a b s
  | .idp4 p d a b => Sys2Proof.Machine.execIdp4 p d a b s
  | .iaddG p d a g => Sys2Proof.Machine.execIaddG p d a g s
  | .isubG p d a g => Sys2Proof.Machine.execIsubG p d a g s
  | .imulG p d a g => Sys2Proof.Machine.execImulG p d a g s
  | .imadG p d a g => Sys2Proof.Machine.execImadG p d a g s
  | .andG p d a g => Sys2Proof.Machine.execAndG p d a g s
  | .orG p d a g => Sys2Proof.Machine.execOrG p d a g s
  | .xorG p d a g => Sys2Proof.Machine.execXorG p d a g s
  | .shlG p d a g => Sys2Proof.Machine.execShlG p d a g s
  | .shrG p d a g => Sys2Proof.Machine.execShrG p d a g s
  | .sarG p d a g => Sys2Proof.Machine.execSarG p d a g s
  | .iminG p d a g => Sys2Proof.Machine.execIminG p d a g s
  | .imaxG p d a g => Sys2Proof.Machine.execImaxG p d a g s
  | .nminG p d a g => Sys2Proof.Machine.execNminG p d a g s
  | .nmaxG p d a g => Sys2Proof.Machine.execNmaxG p d a g s
  | .cvtF32I32 p d a => Sys2Proof.Machine.execCvtF32I32 p d a s
  | .cvtF32N32 p d a => Sys2Proof.Machine.execCvtF32N32 p d a s
  | .cvtI32F32 p d a => Sys2Proof.Machine.execCvtI32F32 p d a s
  | .cvtN32F32 p d a => Sys2Proof.Machine.execCvtN32F32 p d a s
  | .cvtF16x2 p d a b => Sys2Proof.Machine.execCvtF16x2 p d a b s
  | .cvtBf16x2 p d a b => Sys2Proof.Machine.execCvtBf16x2 p d a b s
  | .cvtF32F16l p d a => Sys2Proof.Machine.execCvtF32F16l p d a s
  | .cvtF32F16h p d a => Sys2Proof.Machine.execCvtF32F16h p d a s
  | .cvtF32Bf16l p d a => Sys2Proof.Machine.execCvtF32Bf16l p d a s
  | .cvtF32Bf16h p d a => Sys2Proof.Machine.execCvtF32Bf16h p d a s
  | .cvtE4m3x2L p d a b => Sys2Proof.Machine.execCvtE4m3x2L p d a b s
  | .cvtE4m3x2H p d a b => Sys2Proof.Machine.execCvtE4m3x2H p d a b s
  | .cvtE5m2x2L p d a b => Sys2Proof.Machine.execCvtE5m2x2L p d a b s
  | .cvtE5m2x2H p d a b => Sys2Proof.Machine.execCvtE5m2x2H p d a b s
  | .cvtF32E4m3B0 p d a => Sys2Proof.Machine.execCvtF32E4m3B0 p d a s
  | .cvtF32E4m3B1 p d a => Sys2Proof.Machine.execCvtF32E4m3B1 p d a s
  | .cvtF32E4m3B2 p d a => Sys2Proof.Machine.execCvtF32E4m3B2 p d a s
  | .cvtF32E4m3B3 p d a => Sys2Proof.Machine.execCvtF32E4m3B3 p d a s
  | .cvtF32E5m2B0 p d a => Sys2Proof.Machine.execCvtF32E5m2B0 p d a s
  | .cvtF32E5m2B1 p d a => Sys2Proof.Machine.execCvtF32E5m2B1 p d a s
  | .cvtF32E5m2B2 p d a => Sys2Proof.Machine.execCvtF32E5m2B2 p d a s
  | .cvtF32E5m2B3 p d a => Sys2Proof.Machine.execCvtF32E5m2B3 p d a s
  | .cmp m c a b t o => Sys2Proof.Machine.execCmp m c a b t o s
  | .shdn p d a b => Sys2Proof.Machine.execShdn p d a b s
  | .shup p d a b => Sys2Proof.Machine.execShup p d a b s
  | .psumF p d a => Sys2Proof.Machine.execPsumF p d a s
  | .psumxF p d a => Sys2Proof.Machine.execPsumxF p d a s
  | .psumI p d a => Sys2Proof.Machine.execPsumI p d a s
  | .psumxI p d a => Sys2Proof.Machine.execPsumxI p d a s
  | .pmaxI p d a => Sys2Proof.Machine.execPmaxI p d a s
  | .pminI p d a => Sys2Proof.Machine.execPminI p d a s
  | .shfl p d a b => Sys2Proof.Machine.execShfl p d a b s
  | .qswh p d a => Sys2Proof.Machine.execQswh p d a s
  | .qswv p d a => Sys2Proof.Machine.execQswv p d a s
  | .qswd p d a => Sys2Proof.Machine.execQswd p d a s
  | .zip2 p d a => Sys2Proof.Machine.execZip2 p d a s
  | .zip3 p d a => Sys2Proof.Machine.execZip3 p d a s
  | .zip4 p d a => Sys2Proof.Machine.execZip4 p d a s
  | .uzp2 p d a => Sys2Proof.Machine.execUzp2 p d a s
  | .uzp3 p d a => Sys2Proof.Machine.execUzp3 p d a s
  | .uzp4 p d a => Sys2Proof.Machine.execUzp4 p d a s
  | .pmaxF p d a => Sys2Proof.Machine.execPmaxF p d a s
  | .pminF p d a => Sys2Proof.Machine.execPminF p d a s
  | .rsumF g a => Sys2Proof.Machine.execRsumF g a s
  | .rsumI g a => Sys2Proof.Machine.execRsumI g a s
  | .rmaxF g a => Sys2Proof.Machine.execRmaxF g a s
  | .rminF g a => Sys2Proof.Machine.execRminF g a s
  | .rmaxI g a => Sys2Proof.Machine.execRmaxI g a s
  | .rminI g a => Sys2Proof.Machine.execRminI g a s
  | .rand g a => Sys2Proof.Machine.execRand g a s
  | .ror g a => Sys2Proof.Machine.execRor g a s
  | .rxor g a => Sys2Proof.Machine.execRxor g a s
  | .vget g a imm => Sys2Proof.Machine.execVget g a imm s
  | .vput g a imm => Sys2Proof.Machine.execVput g a imm s
  | .first g a => Sys2Proof.Machine.execFirst g a s
  | .ballot g a => Sys2Proof.Machine.execBallot g a s
  | .faddi d imm => Sys2Proof.Machine.execFaddi d imm s
  | .fmuli d imm => Sys2Proof.Machine.execFmuli d imm s
  | .fmovi d imm => Sys2Proof.Machine.execFmovi d imm s
  | .iaddi d imm => Sys2Proof.Machine.execIaddi d imm s
  | .imovi d imm => Sys2Proof.Machine.execImovi d imm s
  | .faddL p d a lit => Sys2Proof.Machine.execFaddL p d a lit s
  | .fmulL p d a lit => Sys2Proof.Machine.execFmulL p d a lit s
  | .ffmaL p d a b lit => Sys2Proof.Machine.execFfmaL p d a b lit s
  | .fmovL p d lit => Sys2Proof.Machine.execFmovL p d lit s
  | .iaddL p d a lit => Sys2Proof.Machine.execIaddL p d a lit s
  | .imovL p d lit => Sys2Proof.Machine.execImovL p d lit s
  | .andL p d a lit => Sys2Proof.Machine.execAndL p d a lit s
  | .fminL p d a lit => Sys2Proof.Machine.execFminL p d a lit s
  | .fmaxL p d a lit => Sys2Proof.Machine.execFmaxL p d a lit s
  | .ffmaK d a k f => Sys2Proof.Machine.execFfmaK d a k f s
  | .faddK d a k f => Sys2Proof.Machine.execFaddK d a k f s
  | .fmulK d a k f => Sys2Proof.Machine.execFmulK d a k f s
  | .iaddK d a k f => Sys2Proof.Machine.execIaddK d a k f s
  | .movK d k f => Sys2Proof.Machine.execMovK d k f s
  | .mov p d a => Sys2Proof.Machine.execMov p d a s
  | .sel p d a b => Sys2Proof.Machine.execSel p d a b s
  | .tidx p d => Sys2Proof.Machine.execTidx p d s
  | .qidx p d => Sys2Proof.Machine.execQidx p d s
  | .lidx p d => Sys2Proof.Machine.execLidx p d s
  | .movg p d g => Sys2Proof.Machine.execMovg p d g s
  | .selG p d a g => Sys2Proof.Machine.execSelG p d a g s
  | .mand d a b => Sys2Proof.Machine.execMand d a b s
  | .mor d a b => Sys2Proof.Machine.execMor d a b s
  | .mxor d a b => Sys2Proof.Machine.execMxor d a b s
  | .mandn d a b => Sys2Proof.Machine.execMandn d a b s
  | .mnot d a => Sys2Proof.Machine.execMnot d a s
  | .mtog a n => Sys2Proof.Machine.execMtog a n s
  | .gtom d n => Sys2Proof.Machine.execGtom d n s
  | .mpop a n => Sys2Proof.Machine.execMpop a n s
  | .mffs a n => Sys2Proof.Machine.execMffs a n s
  | .mall d => Sys2Proof.Machine.execMall d s
  | .mclr d => Sys2Proof.Machine.execMclr d s
  | .gadd p d a b => Sys2Proof.Machine.execGadd p d a b s
  | .gsub p d a b => Sys2Proof.Machine.execGsub p d a b s
  | .gmul p d a b => Sys2Proof.Machine.execGmul p d a b s
  | .gmulh p d a b => Sys2Proof.Machine.execGmulh p d a b s
  | .gand p d a b => Sys2Proof.Machine.execGand p d a b s
  | .gor p d a b => Sys2Proof.Machine.execGor p d a b s
  | .gxor p d a b => Sys2Proof.Machine.execGxor p d a b s
  | .gandn p d a b => Sys2Proof.Machine.execGandn p d a b s
  | .gshl p d a b => Sys2Proof.Machine.execGshl p d a b s
  | .gshr p d a b => Sys2Proof.Machine.execGshr p d a b s
  | .gsar p d a b => Sys2Proof.Machine.execGsar p d a b s
  | .gnmulh p d a b => Sys2Proof.Machine.execGnmulh p d a b s
  | .gmin p d a b => Sys2Proof.Machine.execGmin p d a b s
  | .gmax p d a b => Sys2Proof.Machine.execGmax p d a b s
  | .gnmin p d a b => Sys2Proof.Machine.execGnmin p d a b s
  | .gnmax p d a b => Sys2Proof.Machine.execGnmax p d a b s
  | .gadd64 p d a b => Sys2Proof.Machine.execGadd64 p d a b s
  | .gsub64 p d a b => Sys2Proof.Machine.execGsub64 p d a b s
  | .gfadd p d a b => Sys2Proof.Machine.execGfadd p d a b s
  | .gfmul p d a b => Sys2Proof.Machine.execGfmul p d a b s
  | .gffma p d a b => Sys2Proof.Machine.execGffma p d a b s
  | .gmad p d a b => Sys2Proof.Machine.execGmad p d a b s
  | .gmov p d a => Sys2Proof.Machine.execGmov p d a s
  | .gnot p d a => Sys2Proof.Machine.execGnot p d a s
  | .gmovi d imm => Sys2Proof.Machine.execGmovi d imm s
  | .gaddi d imm => Sys2Proof.Machine.execGaddi d imm s
  | .gmovhi d imm => Sys2Proof.Machine.execGmovhi d imm s
  | .gcmp f c t a b => Sys2Proof.Machine.execGcmp f c t a b s
  | .gcmpi f c a imm => Sys2Proof.Machine.execGcmpi f c a imm s
  | .gld d gp imm => Sys2Proof.Machine.execGld d gp imm s
  | .gld64 d gp imm => Sys2Proof.Machine.execGld64 d gp imm s
  | .gst d gp imm => Sys2Proof.Machine.execGst d gp imm s
  | .br o => Sys2Proof.Machine.execBr o s
  | .brF f o => Sys2Proof.Machine.execBrF f o s
  | .brNf f o => Sys2Proof.Machine.execBrNf f o s
  | .brMnz m o => Sys2Proof.Machine.execBrMnz m o s
  | .brMz m o => Sys2Proof.Machine.execBrMz m o s
  | .brMall m o => Sys2Proof.Machine.execBrMall m o s
  | .brMnall m o => Sys2Proof.Machine.execBrMnall m o s
  | .loop d o => Sys2Proof.Machine.execLoop d o s
  | .call o => Sys2Proof.Machine.execCall o s
  | .jg a l => Sys2Proof.Machine.execJg a l s
  | .brx a l => Sys2Proof.Machine.execBrx a l s
  | .land => Sys2Proof.Machine.execLand s
  | .nop => Sys2Proof.Machine.execNop s
  | .ldv p v a gp w s_ => Sys2Proof.Machine.execLdv p v a gp w s_ s
  | .ldvs p v a gp w s_ => Sys2Proof.Machine.execLdvs p v a gp w s_ s
  | .stv p v a gp w s_ => Sys2Proof.Machine.execStv p v a gp w s_ s
  | .lds p v a w s_ => Sys2Proof.Machine.execLds p v a w s_ s
  | .sts p v a w s_ => Sys2Proof.Machine.execSts p v a w s_ s
  | .atomAddI p v a gp z r => Sys2Proof.Machine.execAtomAddI p v a gp z r s
  | .atomAddF p v a gp r => Sys2Proof.Machine.execAtomAddF p v a gp r s
  | .atomMinI p v a gp z r => Sys2Proof.Machine.execAtomMinI p v a gp z r s
  | .atomMaxI p v a gp z r => Sys2Proof.Machine.execAtomMaxI p v a gp z r s
  | .atomMinN p v a gp z r => Sys2Proof.Machine.execAtomMinN p v a gp z r s
  | .atomMaxN p v a gp z r => Sys2Proof.Machine.execAtomMaxN p v a gp z r s
  | .atomAnd p v a gp z r => Sys2Proof.Machine.execAtomAnd p v a gp z r s
  | .atomOr p v a gp z r => Sys2Proof.Machine.execAtomOr p v a gp z r s
  | .atomXor p v a gp z r => Sys2Proof.Machine.execAtomXor p v a gp z r s
  | .atomXchg p v a gp z r => Sys2Proof.Machine.execAtomXchg p v a gp z r s
  | .atomCas p v a gp z r => Sys2Proof.Machine.execAtomCas p v a gp z r s
  | .atomMinF p v a gp r => Sys2Proof.Machine.execAtomMinF p v a gp r s
  | .atomMaxF p v a gp r => Sys2Proof.Machine.execAtomMaxF p v a gp r s
  | .atomAddBf16x2 p v a gp => Sys2Proof.Machine.execAtomAddBf16x2 p v a gp s
  | .atomsAddI p v a z r => Sys2Proof.Machine.execAtomsAddI p v a z r s
  | .atomsAddF p v a r => Sys2Proof.Machine.execAtomsAddF p v a r s
  | .atomsMinI p v a z r => Sys2Proof.Machine.execAtomsMinI p v a z r s
  | .atomsMaxI p v a z r => Sys2Proof.Machine.execAtomsMaxI p v a z r s
  | .atomsMinN p v a z r => Sys2Proof.Machine.execAtomsMinN p v a z r s
  | .atomsMaxN p v a z r => Sys2Proof.Machine.execAtomsMaxN p v a z r s
  | .atomsAnd p v a z r => Sys2Proof.Machine.execAtomsAnd p v a z r s
  | .atomsOr p v a z r => Sys2Proof.Machine.execAtomsOr p v a z r s
  | .atomsXor p v a z r => Sys2Proof.Machine.execAtomsXor p v a z r s
  | .atomsXchg p v a z r => Sys2Proof.Machine.execAtomsXchg p v a z r s
  | .atomsCas p v a z r => Sys2Proof.Machine.execAtomsCas p v a z r s
  | .atomsMinF p v a r => Sys2Proof.Machine.execAtomsMinF p v a r s
  | .atomsMaxF p v a r => Sys2Proof.Machine.execAtomsMaxF p v a r s
  | .atomsAddBf16x2 p v a => Sys2Proof.Machine.execAtomsAddBf16x2 p v a s
  | .prf p a gp w s_ => Sys2Proof.Machine.execPrf p a gp w s_ s
  | .exit p => Sys2Proof.Machine.execExit p s
  | .fenceFull s_ => Sys2Proof.Machine.execFenceFull s_ s
  | .fenceAcq s_ => Sys2Proof.Machine.execFenceAcq s_ s
  | .fenceRel s_ => Sys2Proof.Machine.execFenceRel s_ s
  | .cadd gp a w => Sys2Proof.Machine.execCadd gp a w s
  | .cwait gp a => Sys2Proof.Machine.execCwait gp a s
  | .cread gp a w => Sys2Proof.Machine.execCread gp a w s
  | .cwaity gp a lit => Sys2Proof.Machine.execCwaity gp a lit s
  | .wait w n => Sys2Proof.Machine.execWait w n s
  | .waity w n lit => Sys2Proof.Machine.execWaity w n lit s
  | .barSync imm n => Sys2Proof.Machine.execBarSync imm n s
  | .barArrive imm n => Sys2Proof.Machine.execBarArrive imm n s
  | .barWait imm n => Sys2Proof.Machine.execBarWait imm n s
  | .barGsync imm => Sys2Proof.Machine.execBarGsync imm s
  | .barGarrive imm => Sys2Proof.Machine.execBarGarrive imm s
  | .barGwait imm => Sys2Proof.Machine.execBarGwait imm s
  | .yield => Sys2Proof.Machine.execYield s
  | .ltadvReg g => Sys2Proof.Machine.execLtadvReg g s
  | .ltadvImm imm => Sys2Proof.Machine.execLtadvImm imm s
  | .cpyLoad g w r c => Sys2Proof.Machine.execCpyLoad g w r c s
  | .cpyStore g w r c => Sys2Proof.Machine.execCpyStore g w r c s
  | .cpyGather g w r c => Sys2Proof.Machine.execCpyGather g w r c s
  | .cpyScatter g w r c => Sys2Proof.Machine.execCpyScatter g w r c s
  | .cpyPackload g w r c => Sys2Proof.Machine.execCpyPackload g w r c s
  | .cpyRemote g w r c => Sys2Proof.Machine.execCpyRemote g w r c s
  | .cpyFill g w s_ r c => Sys2Proof.Machine.execCpyFill g w s_ r c s
  | .cpyRedstore g w r c => Sys2Proof.Machine.execCpyRedstore g w r c s
  | .mma t g w r => Sys2Proof.Machine.execMma t g w r s
  | .acld d z a => Sys2Proof.Machine.execAcld d z a s
  | .acst s_ z a => Sys2Proof.Machine.execAcst s_ z a s
  | .acadd s_ z a => Sys2Proof.Machine.execAcadd s_ z a s
  | .acz z a => Sys2Proof.Machine.execAcz z a s
  | .pkplF32 v a pm => Sys2Proof.Machine.execPkplF32 v a pm s
  | .pkplBf16l v a pm => Sys2Proof.Machine.execPkplBf16l v a pm s
  | .syscSigret g => Sys2Proof.Machine.execSyscSigret g s
  | .syscFuture w n g => Sys2Proof.Machine.execSyscFuture w n g s
  | .trap imm => Sys2Proof.Machine.execTrap imm s
  | .bkpt => Sys2Proof.Machine.execBkpt s
  | .srr g imm => Sys2Proof.Machine.execSrr g imm s
  | .srw g imm => Sys2Proof.Machine.execSrw g imm s
  | .eret => Sys2Proof.Machine.execEret s
  | .xrd g t c => Sys2Proof.Machine.execXrd g t c s
  | .xwr g t c => Sys2Proof.Machine.execXwr g t c s
  | .tlbiAll => Sys2Proof.Machine.execTlbiAll s
  | .tlbiAsid gp => Sys2Proof.Machine.execTlbiAsid gp s
  | .tlbiPage gp => Sys2Proof.Machine.execTlbiPage gp s
  | .ltset a => Sys2Proof.Machine.execLtset a s
  | .arbegFirm g lit => Sys2Proof.Machine.execArbegFirm g lit s
  | .arbegElastic g lit => Sys2Proof.Machine.execArbegElastic g lit s
  | .arend => Sys2Proof.Machine.execArend s
  | .arabt imm => Sys2Proof.Machine.execArabt imm s
  | .arnrw a b => Sys2Proof.Machine.execArnrw a b s
  | .wmark imm => Sys2Proof.Machine.execWmark imm s
  | .launch gp w => Sys2Proof.Machine.execLaunch gp w s
  | .branchResolve gid => Sys2Proof.Machine.execBranchResolve gid s
  | .loadDataReturn gid op poison => Sys2Proof.Machine.execLoadDataReturn gid op poison s
  | .storePerformed gid op => Sys2Proof.Machine.execStorePerformed gid op s
  | .scratchPhase core => Sys2Proof.Machine.execScratchPhase core s
  | .constantLineFill gid va => Sys2Proof.Machine.execConstantLineFill gid va s
  | .scratchPageRefill blk page => Sys2Proof.Machine.execScratchPageRefill blk page s
  | .pageWalk core asid va wr => Sys2Proof.Machine.execPageWalk core asid va wr s
  | .faultRecordPost core => Sys2Proof.Machine.execFaultRecordPost core s
  | .driftTick gid => Sys2Proof.Machine.execDriftTick gid s
  | .tickRestart ctx => Sys2Proof.Machine.execTickRestart ctx s
  | .lullWake gid => Sys2Proof.Machine.execLullWake gid s
  | .yieldExpiry gid => Sys2Proof.Machine.execYieldExpiry gid s
  | .watchdogExpiry gid cycles => Sys2Proof.Machine.execWatchdogExpiry gid cycles s
  | .pcBreakpoint gid => Sys2Proof.Machine.execPcBreakpoint gid s
  | .preemptionRequest blk => Sys2Proof.Machine.execPreemptionRequest blk s
  | .preemptionVector gid => Sys2Proof.Machine.execPreemptionVector gid s
  | .copyCommandStart core => Sys2Proof.Machine.execCopyCommandStart core s
  | .copyUnit core => Sys2Proof.Machine.execCopyUnit core s
  | .copyComplete core => Sys2Proof.Machine.execCopyComplete core s
  | .cpyctlResolve core idx => Sys2Proof.Machine.execCpyctlResolve core idx s
  | .cpyctlCancel core idx => Sys2Proof.Machine.execCpyctlCancel core idx s
  | .mmaArrayStart core => Sys2Proof.Machine.execMmaArrayStart core s
  | .mmaComplete core => Sys2Proof.Machine.execMmaComplete core s
  | .mmaRuntimeFault core sub off => Sys2Proof.Machine.execMmaRuntimeFault core sub off s
  | .subarrayWake core => Sys2Proof.Machine.execSubarrayWake core s
  | .subarrayGate core sub => Sys2Proof.Machine.execSubarrayGate core sub s
  | .sliceReadService core asid line t => Sys2Proof.Machine.execSliceReadService core asid line t s
  | .ownershipRequest core asid line => Sys2Proof.Machine.execOwnershipRequest core asid line s
  | .ownerRecall line => Sys2Proof.Machine.execOwnerRecall line s
  | .l1Replacement core asid line => Sys2Proof.Machine.execL1Replacement core asid line s
  | .l2Eviction line => Sys2Proof.Machine.execL2Eviction line s
  | .untrackedAccess gid pa n direct data => Sys2Proof.Machine.execUntrackedAccess gid pa n direct data s
  | .mscLineMiss pa ctx noAlloc => Sys2Proof.Machine.execMscLineMiss pa ctx noAlloc s
  | .mscEviction stack set tag => Sys2Proof.Machine.execMscEviction stack set tag s
  | .mscgrantConvert stack val => Sys2Proof.Machine.execMscgrantConvert stack val s
  | .mscgrantReturn stack => Sys2Proof.Machine.execMscgrantReturn stack s
  | .hbmRead pa => Sys2Proof.Machine.execHbmRead pa s
  | .rowIdleClose bank => Sys2Proof.Machine.execRowIdleClose bank s
  | .refreshSlot pc => Sys2Proof.Machine.execRefreshSlot pc s
  | .allBankRefresh pc => Sys2Proof.Machine.execAllBankRefresh pc s
  | .memoryWriteback line => Sys2Proof.Machine.execMemoryWriteback line s
  | .groupReencryption grp => Sys2Proof.Machine.execGroupReencryption grp s
  | .frontReport sender => Sys2Proof.Machine.execFrontReport sender s
  | .frontRaise => Sys2Proof.Machine.execFrontRaise s
  | .frontBroadcast dest => Sys2Proof.Machine.execFrontBroadcast dest s
  | .sliceSweep slice => Sys2Proof.Machine.execSliceSweep slice s
  | .l1Sweep core => Sys2Proof.Machine.execL1Sweep core s
  | .rebase f => Sys2Proof.Machine.execRebase f s
  | .portStore port pa n data => Sys2Proof.Machine.execPortStore port pa n data s
  | .portLoad port pa n => Sys2Proof.Machine.execPortLoad port pa n s
  | .bisnpResponse line data => Sys2Proof.Machine.execBisnpResponse line data s
  | .hostSnoop line => Sys2Proof.Machine.execHostSnoop line s
  | .regionRegistration gid line wr => Sys2Proof.Machine.execRegionRegistration gid line wr s
  | .narrowingMessage kind aid bound slice cause => Sys2Proof.Machine.execNarrowingMessage kind aid bound slice cause s
  | .regionPrepare slice aid => Sys2Proof.Machine.execRegionPrepare slice aid s
  | .finalPosition slice aid c => Sys2Proof.Machine.execFinalPosition slice aid c s
  | .regionAbortMessage slice aid => Sys2Proof.Machine.execRegionAbortMessage slice aid s
  | .regionAbort gid cause => Sys2Proof.Machine.execRegionAbort gid cause s
  | .caddAtSlice gid addr amount op => Sys2Proof.Machine.execCaddAtSlice gid addr amount op s
  | .caddAnswer gid op => Sys2Proof.Machine.execCaddAnswer gid op s
  | .cwaitRequest gid => Sys2Proof.Machine.execCwaitRequest gid s
  | .monitorReply gid => Sys2Proof.Machine.execMonitorReply gid s
  | .monitorRearm gid => Sys2Proof.Machine.execMonitorRearm gid s
  | .nackRetry gid => Sys2Proof.Machine.execNackRetry gid s
  | .ticketReservationExpiry slice => Sys2Proof.Machine.execTicketReservationExpiry slice s
  | .gridBlockArrival blk id => Sys2Proof.Machine.execGridBlockArrival blk id s
  | .ovsubSwap blk => Sys2Proof.Machine.execOvsubSwap blk s
  | .queueRecordRead q => Sys2Proof.Machine.execQueueRecordRead q s
  | .taskHandoff task => Sys2Proof.Machine.execTaskHandoff task s
  | .placement blk core pbase seq entry n => Sys2Proof.Machine.execPlacement blk core pbase seq entry n s
  | .bindNewBlock core => Sys2Proof.Machine.execBindNewBlock core s
  | .bindRestore core => Sys2Proof.Machine.execBindRestore core s
  | .launchEnqueue gid op => Sys2Proof.Machine.execLaunchEnqueue gid op s
  | .taskComplete task => Sys2Proof.Machine.execTaskComplete task s
  | .lullSwap blk => Sys2Proof.Machine.execLullSwap blk s
  | .preemptdlyExpiry blk => Sys2Proof.Machine.execPreemptdlyExpiry blk s
  | .syscallTimeout tag => Sys2Proof.Machine.execSyscallTimeout tag s
  | .coresplitWrite core scr => Sys2Proof.Machine.execCoresplitWrite core scr s
  | .coresplitReset core => Sys2Proof.Machine.execCoresplitReset core s
  | .stallCounterClear core => Sys2Proof.Machine.execStallCounterClear core s
  | .sample core part => Sys2Proof.Machine.execSample core part s
  | .registerWrite pa n data => Sys2Proof.Machine.execRegisterWrite pa n data s
  | .debugHold gid => Sys2Proof.Machine.execDebugHold gid s
  | .debugRelease gid => Sys2Proof.Machine.execDebugRelease gid s
  | .debugStep gid => Sys2Proof.Machine.execDebugStep gid s
  | .rewind ctx n => Sys2Proof.Machine.execRewind ctx n s
  | .stepback gid k => Sys2Proof.Machine.execStepback gid k s
  | .loadfw => Sys2Proof.Machine.execLoadfw s
  | .mkctx => Sys2Proof.Machine.execMkctx s
  | .loadsv => Sys2Proof.Machine.execLoadsv s
  | .setq => Sys2Proof.Machine.execSetq s
  | .regh => Sys2Proof.Machine.execRegh s
  | .movepg => Sys2Proof.Machine.execMovepg s
  | .podmap => Sys2Proof.Machine.execPodmap s
  | .admitPeer => Sys2Proof.Machine.execAdmitPeer s
  | .attest => Sys2Proof.Machine.execAttest s
  | .errlog => Sys2Proof.Machine.execErrlog s
  | .d3hot => Sys2Proof.Machine.execD3hot s
  | .d0 => Sys2Proof.Machine.execD0 s
  | .deviceReset => Sys2Proof.Machine.execDeviceReset s
  | .powerRemoval => Sys2Proof.Machine.execPowerRemoval s
  | .thermalThrottle => Sys2Proof.Machine.execThermalThrottle s
  | .thermalRecover => Sys2Proof.Machine.execThermalRecover s
  | .thermalShutdown => Sys2Proof.Machine.execThermalShutdown s
  | .laneFailing port lane => Sys2Proof.Machine.execLaneFailing port lane s
  | .linkRetrain port ok => Sys2Proof.Machine.execLinkRetrain port ok s
  | .heartbeatSend => Sys2Proof.Machine.execHeartbeatSend s
  | .peerFence peer => Sys2Proof.Machine.execPeerFence peer s
  | .illegalInstruction guard word => Sys2Proof.Machine.execIllegalInstruction guard word s
  | .icacheFill gid => Sys2Proof.Machine.execIcacheFill gid s
  | .mmaStop core => Sys2Proof.Machine.execMmaStop core s
  | .softError unit place index fatal => Sys2Proof.Machine.execSoftError unit place index fatal s
  | .externalMemoryChange pa data => Sys2Proof.Machine.execExternalMemoryChange pa data s
  | .scratchPageWriteback blk page => Sys2Proof.Machine.execScratchPageWriteback blk page s
  | .heartbeatReceive peer => Sys2Proof.Machine.execHeartbeatReceive peer s
  | .linkFlitCrcError port lane => Sys2Proof.Machine.execLinkFlitCrcError port lane s
  | .meshFlitCrcError hop fails gid op => Sys2Proof.Machine.execMeshFlitCrcError hop fails gid op s
  | .linkRestored port => Sys2Proof.Machine.execLinkRestored port s
  | .debugPortAttach on => Sys2Proof.Machine.execDebugPortAttach on s
  | .debugRegisterAccess gid c sel val => Sys2Proof.Machine.execDebugRegisterAccess gid c sel val s
  | .portAtomic port pa aop n data cmp => Sys2Proof.Machine.execPortAtomic port pa aop n data cmp s

end
end Sys2Proof.Machine
end

