-- ==== Sys2Proof/Machine/Autonomous.lean ====
section
/-! DEFINITION. The steps that the device takes of itself, as time goes by (R136, R157, R167, R224, R232, R285, R304). When each of them
comes, where the spec bounds its time in cycles only, is free (log 1). -/

namespace Sys2Proof.Machine

noncomputable section

/-- The sub-arrays of a core that may be power-gated (R136, R137). -/
def gateable (c : Nat) (k : Core) : List (List Instr) :=
  ((List.range 16).filter fun i => !k.gated.contains i && mget 4096 k.idleLim i != 0).map fun i => [.subarrayGate c i]

/-- The kinds of step that the device takes of itself. -/
def ownKinds : Nat := 10

/-- The steps of a kind that time may bring: a report of every holder of a time and the decision on it (R157); the passes of the slices and
the L1s; a refresh slot of every pseudo-channel (R167); the gating of an idle sub-array; the watchdog of a stalled group (R285); the
end of a future's time (R232); the re-arming of a monitor and the end of a reservation (R224); the samples (R304). -/
def ownStepsOf (s : State) : Nat → List (List Instr)
  | 0 => [[.frontReport ((frontDests s).foldl max 0), .frontRaise]]
  | 1 => (timedSlices s).map fun i => [.sliceSweep i]
  | 2 => (timedCores s).map fun c => [.l1Sweep c]
  | 3 => [[.refreshSlot 511]]
  | 4 => s.cores.flatMap fun p => gateable p.1 p.2
  | 5 => ((allGroups s).filter fun g => stalledBefore g && (ctx s g.ctx).wdog != 0).map fun g =>
      [.watchdogExpiry (gidOf g) ((ctx s g.ctx).wdog.toNat + 1)]
  | 6 => s.cp.futures.map fun f => [.syscallTimeout f.tag]
  | 7 => s.slices.flatMap fun p => p.2.mons.map fun m => [.monitorRearm m.gid]
  | 8 => (s.slices.filter fun p => !p.2.resv.isEmpty).map fun p => [.ticketReservationExpiry p.1]
  | _ => (s.cores.filter fun p => p.2.sampleN.toNat % 2 ^ 24 != 0).flatMap fun p => (List.range 8).map fun i => [.sample p.1 i]

/-- What time brings next: in one of 64 turns the kinds take turns, and of each kind its steps; else it is free (log 1). -/
def ownNext (s : State) : List Instr :=
  let sure := s.turn % 64 = 48
  let kind := if sure then s.turn / 64 % ownKinds else Config.pick (freeIx s 45) % (ownKinds + 1)
  let n := if sure then s.turn / 64 / ownKinds else Config.pick (freeIx s 46)
  let steps := if kind < ownKinds then ownStepsOf s kind else []
  ((steps[n % steps.length]?).getD []).filter fun e => !s.pending.contains e

/-- The steps of the device itself that time has brought are due, once the firmware is READY. DESIGN CHOICE (log 1): the device's first
step brings none. -/
def ownSteps (s : State) : State :=
  if s.fw.status != 2 || s.turn ≤ 1 then s else { s with pending := s.pending ++ ownNext s }

end

end Sys2Proof.Machine
end

