-- ==== Sys2Proof/Machine/Select.lean ====
section
/-! DEFINITION. What the next step of the device is: a step that is due, or the turn of a group (R19, R20, R89, R218). The
order in which the device's agents act is not the spec's: it is given by free values (log 1, log 2). -/

namespace Sys2Proof.Machine

noncomputable section

/-- What a step does: it is done, or an instruction or a step of the device is executed on a state. -/
inductive Choice where
  | stop (f : Fault)
  | done (s : State)
  | run (s : State) (i : Instr)

/-! ## The groups that can be selected (R19, R218) -/

/-- A ready group, which no pre-emption waits for, unless it is within an instruction (R20, R130). -/
def canIssue (g : Group) : Bool := g.st == .ready && (!g.preempt || g.mid.isSome)

/-- A group that is stalled before an instruction which it tries again. -/
def canRetry (g : Group) : Bool :=
  (!g.preempt || g.mid.isSome) && match g.st with
    | .stalled _ true => true
    | _ => false

/-- The groups from which the next one is chosen: the ready ones, and those that are stalled and may be ready by now. -/
def candidates (s : State) : List Group := (allGroups s).filter fun g => canIssue g || canRetry g

/-- A group of a partition may have its turn: a ready one, and a stalled one that has not tried since a ready group of the partition was
last selected. So each stalled group that a condition holds back tries in its place in the order, and none keeps a ready one from its turn
(R207, R218; log 1). -/
def mayTry (s : State) (g : Group) : Bool := canIssue g || (canRetry g && g.tried < mget 0 (core s g.core).rounds g.part)

/-- Those of a partition's groups that may have their turn: all of them where each has tried. -/
def inRound (s : State) (gs : List Group) : List Group := if gs.any (mayTry s) then gs.filter (mayTry s) else gs

/-- A partition of the device. -/
def partOf (g : Group) : Nat := g.core * 8 + g.part

/-- The partitions of a list of groups. -/
def partsOf (gs : List Group) : List Nat :=
  gs.foldl (fun ps g => if ps.contains (partOf g) then ps else ps ++ [partOf g]) []

/-- `a` comes before `b` in its partition (R218): the greater age, then the lower lane, then the one bound earlier. -/
def firstOf (a b : Group) : Bool :=
  if a.age ≠ b.age then a.age < b.age else if a.lane ≠ b.lane then a.lane < b.lane else a.bound ≤ b.bound

/-- The first of a list of groups. -/
def oldest : List Group → Option Group
  | [] => none
  | g :: gs =>
    match oldest gs with
    | none => some g
    | some h => if firstOf g h then some g else some h

/-- An element of a list by a free value; the only one where there is one. -/
def pickOne {α : Type} (n : Nat) (xs : List α) : Option α :=
  match xs with
  | [x] => some x
  | _ => xs[Config.pick n % xs.length]?

/-- The partition of a list whose turn it is in the order of their numbers, the `n`th or the next after it. -/
def partFrom (n : Nat) (ps : List Nat) : Option Nat := ((ps.filter (n ≤ ·)).min?).orElse fun _ => ps.min?

/-- The group that a partition selects (R218). Which partition is next, where several can issue, is free, but in every 64th turn they take
turns (R207; log 1). -/
def nextGroup (s : State) : Option Group :=
  let gs := candidates s
  let ps := partsOf gs
  let p := if s.turn % 64 = 0 then partFrom (s.turn / 64 % (8 * Config.cores)) ps else pickOne (3 * s.turn) ps
  p.bind fun p => oldest (inRound s (gs.filter fun g => partOf g == p))

/-- A ready group that is selected has counted, a free number of cycles each (log 2), the cycles in which it was not selected, and those in
which its instruction waited for a result of its own in a lane, uniform or mask register or a flag (R92, R94, R300). -/
def countWaits (s : State) (g : Group) : State :=
  if canIssue g && g.mid.isNone then
    countStall (countStall s (gidOf g) 1 (Config.cycles (freeIx s 23))) (gidOf g) 2 (Config.cycles (freeIx s 41))
  else s

/-- A group is selected. Its partition's stalled groups may try again when it is a ready one, or when each of them has tried. -/
def selectGroup (s : State) (g : Group) : State :=
  let new := canIssue g || !mayTry s g
  let s := if new then modCore s g.core fun k => { k with rounds := mput 0 k.rounds g.part s.turn } else s
  makeCur (countWaits s g) (gidOf g)

/-! ## The steps that are due -/

/-- A step of the device that may come later than other steps: the spec bounds its time, if at all, in cycles. -/
def mayWait : Instr → Bool
  | .branchResolve _ | .loadDataReturn .. | .storePerformed .. | .scratchPhase _ | .constantLineFill .. |
    .scratchPageRefill .. | .faultRecordPost _ | .tickRestart _ | .yieldExpiry _ | .copyCommandStart _ | .copyUnit _ |
    .copyComplete _ | .mmaArrayStart _ | .mmaComplete _ | .subarrayWake _ | .mscLineMiss .. | .mscEviction .. |
    .memoryWriteback _ | .frontBroadcast _ | .caddAtSlice .. | .caddAnswer .. | .cwaitRequest _ | .monitorReply _ |
    .nackRetry _ | .gridBlockArrival .. | .queueRecordRead _ | .taskHandoff _ | .launchEnqueue .. | .taskComplete _ |
    .rewind .. | .debugRegisterAccess .. | .icacheFill _ | .hbmRead _ | .bindNewBlock _ | .bindRestore _ | .scratchPageWriteback .. |
    .placement .. | .coresplitWrite .. | .coresplitReset _ | .ovsubSwap _ | .lullSwap _ | .preemptdlyExpiry _ | .pageWalk .. |
    .rowIdleClose _ | .frontReport _ | .frontRaise | .sliceSweep _ | .l1Sweep _ | .refreshSlot _ | .subarrayGate .. |
    .watchdogExpiry .. | .syscallTimeout _ | .monitorRearm _ | .ticketReservationExpiry _ | .sample .. => true
  | _ => false

/-- The number of due steps, counted from the first, that may wait. -/
def waiting : List Instr → Nat
  | [] => 0
  | e :: es => if mayWait e then waiting es + 1 else 0

/-- The list without its element `n`. -/
def without {α : Type} : Nat → List α → List α
  | _, [] => []
  | 0, _ :: xs => xs
  | n + 1, x :: xs => x :: without n xs

/-- The counter whose monitor has the group `gid` (R223). -/
def monitored (s : State) (gid : Nat) : Option Nat :=
  s.slices.findSome? fun p => (p.2.mons.find? fun m => m.gid == gid).map (·.pa)

/-- Of the replies due on one counter the first is taken, whichever was chosen: they go in the order of registration (R223). -/
def replyOrder (s : State) (n : Nat) : Nat :=
  match s.pending[n]? with
  | some (.monitorReply gid) =>
    (s.pending.findIdx? fun e => match e with
      | .monitorReply other => monitored s other == monitored s gid
      | _ => false).getD n
  | _ => n

/-- The due step to take: the first, or by a free value one of those at the front that may wait; in every 64th turn the first (R207;
log 1). -/
def dueIndex (s : State) : Nat :=
  let n := waiting s.pending
  if n ≤ 1 ∨ s.turn % 64 = 32 then 0 else replyOrder s (Config.pick (3 * s.turn + 1) % n)

/-- A due step is taken before a group's turn, unless it may wait, a group can run and a free value says so; in one of 64 turns it is
taken, in one a group runs (R207; log 1). -/
def takesDue (s : State) : Bool :=
  !s.pending.isEmpty &&
    (waiting s.pending == 0 || (candidates s).isEmpty || s.turn % 64 == 32 || (s.turn % 64 != 0 && Config.freeBit (3 * s.turn + 1)))

/-! ## The turn of a group -/

/-- An armed breakpoint matches the next instruction of a group (R306). -/
def breaksAt (s : State) (g : Group) : Bool :=
  !g.priv && !g.bpSkip && (core s g.core).bps.any fun p =>
    p.2.getLsbD 0 && ebits p.2 32 6 == g.ctx && g.pc == codeBase g + BitVec.ofNat 64 (ebits p.2 2 30 * 4)

/-- The oldest trap due to the current group is taken at this boundary, RIX being 0 (R133, R187, R221, R282). -/
def takeDue (t : DueTrap) (s : State) : State :=
  takeTrap { cause := t.cause, sub := t.sub, acc := if t.cause = 12 then accEngine else accCounter, scr := t.scr, rix := 0,
             fba := t.fba.getD s.cur.pc, faddr := t.faddr, amask := activeMask s.cur 0 }
    (modCur s fun g => { g with due := g.due.drop 1 })

/-- Instructions that access device memory, or that take the place of an access in the device order (R138). -/
def accessesMemory : Instr → Bool
  | .gld .. | .gld64 .. | .gst .. | .ldv .. | .ldvs .. | .stv .. | .atomAddI .. | .atomAddF .. | .atomMinI .. | .atomMaxI .. |
    .atomMinN .. | .atomMaxN .. | .atomAnd .. | .atomOr .. | .atomXor .. | .atomXchg .. | .atomCas .. | .atomMinF .. |
    .atomMaxF .. | .atomAddBf16x2 .. | .cadd .. | .cwait .. | .cread .. | .cwaity .. | .cpyLoad .. | .cpyStore .. | .cpyGather .. |
    .cpyScatter .. | .cpyPackload .. | .cpyRemote .. | .cpyFill .. | .cpyRedstore .. | .eret | .arbegFirm .. | .arbegElastic .. |
    .arend | .launch .. => true
  | _ => false

/-- Instructions that have an effect when no thread of theirs remains: a fold writes its result, the operation of a memory instruction
arrives (R103, R174, R266). -/
def endsAt32 : Instr → Bool
  | .rsumF .. | .rsumI .. | .rmaxF .. | .rminF .. | .rmaxI .. | .rminI .. | .rand .. | .ror .. | .rxor .. | .ballot .. |
    .ldv .. | .ldvs .. | .stv .. | .lds .. | .sts .. | .prf .. | .atomAddI .. | .atomAddF .. | .atomMinI .. | .atomMaxI .. |
    .atomMinN .. | .atomMaxN .. | .atomAnd .. | .atomOr .. | .atomXor .. | .atomXchg .. | .atomCas .. | .atomMinF .. |
    .atomMaxF .. | .atomAddBf16x2 .. | .atomsAddI .. | .atomsAddF .. | .atomsMinI .. | .atomsMaxI .. | .atomsMinN .. |
    .atomsMaxN .. | .atomsAnd .. | .atomsOr .. | .atomsXor .. | .atomsXchg .. | .atomsCas .. | .atomsMinF .. | .atomsMaxF .. |
    .atomsAddBf16x2 .. => true
  | _ => false

/-- The addition of a CADD of the group that is not performed yet, with its place among the due steps. -/
def caddDue (s : State) (gid : Nat) : Option Nat :=
  s.pending.findIdx? fun e => match e with
    | .caddAtSlice g _ _ _ => g == gid
    | _ => false

/-- The current group's instruction: before one that accesses device memory the group's CADD is performed, so that its accesses keep their
order (R138, R147). -/
def runInstr (s : State) (i : Instr) (n : Nat) : Choice :=
  match (if accessesMemory i then caddDue s (gidOf s.cur) else none) with
  | some k =>
    match s.pending[k]? with
    | some e => .run { s with pending := without k s.pending } e
    | none => .done s
  | none => if s.cur.rix = 32 && !endsAt32 i then .done (advance n s) else .run s i

/-- The current group at its turn: its clock has been raised by the ticks that are due (R156). -/
def turnGroup (s : State) (g : Group) : Group := { ticked s g with st := .ready, tried := s.turn }

/-- The current group's turn (R20, R21, R50): at an instruction boundary a trap that is due, then a hold; a breakpoint; then the
instruction at its PC. At RIX 32 no thread of it remains (R266). A group within an instruction goes on with it. -/
def groupTurn (s : State) : Choice :=
  let s := modCur s (turnGroup s)
  let g := s.cur
  let between := g.rix == 0 && g.mid.isNone
  match (if g.priv || !between then [] else g.due) with
  | t :: _ => .done (takeDue t s)
  | [] =>
    if g.holdReq && between then .done (holdNow s (gidOf g))
    else if g.mid.isNone && breaksAt s g then .run s (.pcBreakpoint (gidOf g))
    else
      match fetchInstr s with
      | .instr s i n => runInstr s i n
      | .miss s k => .done (pend (stallOn (if k = 0 then 18 else 17) false s) (.icacheFill (gidOf g)))
      | .illegal s guard k => .run s (.illegalInstruction guard k)
      | .fault s c u k =>
        .done (if c = 0 then stallOn u true s
          else takeTrap { cause := c, sub := u, acc := accFetch, rix := g.rix, fba := g.pc,
                          faddr := g.pc + BitVec.ofNat 64 (4 * k), amask := activeMask g 0 } s)

/-! ## The next step -/

/-- The device has no power, and no reset is due (R309). -/
def noPower (s : State) : Bool := s.fw.power == .d3cold && s.pending.head? != some .deviceReset

/-- The device is in a state in which groups issue (R309). -/
def powered (s : State) : Bool := s.fw.power == .d0

/-- The next step: the chosen group's turn, a due step, or the turn of a group that is selected now; else nothing happens. -/
def choose (s : State) : Choice :=
  if noPower s then .stop .powerOff
  else
    let s := { s with turn := s.turn + 1 }
    let lead := if s.lead = some (gidOf s.cur) && powered s && (canIssue s.cur || canRetry s.cur) then true else false
    let s := { s with lead := none }
    if lead then groupTurn s
    else if takesDue s || (!powered s && !s.pending.isEmpty) then
      let n := dueIndex s
      match s.pending[n]? with
      | some e => .run { s with pending := without n s.pending } e
      | none => .done s
    else if !powered s then .done s
    else
      match nextGroup s with
      | some g => groupTurn (selectGroup s g)
      | none => .done s

/-! ## Single-stepping (R294, R307) -/

/-- A group, as it was before a step of the device and as it is after it, has run its instruction: it has issued it, or the instruction
has aborted the group's region, which does not count it (R203). -/
def ranStep (turn : Nat) (old g : Group) : Bool :=
  g.instret != old.instret || (g.tried == turn && old.rgn.isSome && g.rgn.isNone)

/-- A stepped group, as it was before a step of the device, that has run its instruction is held again; one that has parked is held when it
is resumed. -/
def settleGroup (after : State) (old : Group) : State :=
  match group after (gidOf old) with
  | none => after
  | some g =>
    if !g.stepReq then after
    else if g.st = .parked then
      setGroup after { g with stepReq := false, holdReq := true }
    else if !ranStep after.turn old g then after
    else
      let s := setGroup after { g with stepReq := false }
      if g.st = .retired ∨ g.st = .swapped then s else holdNow s (gidOf g)

/-- The ticks that are due: a group's drift count has reached TICK (R156). -/
def ticksOf (s : State) : List Instr :=
  (allGroups s).filterMap fun g => if tickDue s g && !s.pending.contains (.driftTick (gidOf g)) then some (.driftTick (gidOf g)) else none

/-- What follows every step: stepped groups are held again, samples that awaited a group's turn are taken, and the ticks and the steps of
the firmware and of the device itself that are due are steps to come. -/
def settle (before after : State) : State :=
  let s := ((allGroups before).filter (·.stepReq)).foldl settleGroup after
  let s := ((allGroups before).filter (·.sampled)).foldl (fun s g => sampleTurn g s) s
  ownSteps (firmware { s with pending := s.pending ++ ticksOf s })

/-! ## Placing an instruction (log 4) -/

/-- The page that the code of the current group stands in at an address: mapped one to one within HBM4E. -/
def codeLeaf (va : Nat) : DWord := BitVec.ofNat 64 (va % hbmTop / 2 ^ 14 * 2 ^ 14 + 0x13D)

/-- A word of code placed at a virtual address of the current group: in memory, with the translation of its page in the
core's TLB and the right of its context to the page. -/
def placeWord (s : State) (va w : Nat) : State :=
  let g := s.cur
  let asid := codeCtx g
  let pa := va % hbmTop
  let s := modMem s fun m => writeBytes m pa 4 w
  let mine := BitVec.ofNat 16 (asid * 2 ^ 8 + (if (ctx s asid).ver then 2 ^ 14 else 0))
  let s := if ownerAllows s asid pa then s
    else { s with mm := { s.mm with own := mset s.mm.own (pa / 2 ^ 14) mine } }
  let t : TlbEnt := { asid := asid, base := pageBase va 3, level := 3, ent := codeLeaf va }
  modCore s g.core fun k => if k.tlb.head? = some t then k else { k with tlb := t :: k.tlb }

/-- The instruction cache holds the line of an address as memory holds it. -/
def placeLine (s : State) (va : Nat) : State :=
  let g := s.cur
  let l : Leaf := { pa := va % hbmTop, mt := 0, loc := 0 }
  modCore s g.core fun k => { k with icache := mset k.icache (codeKey (codeCtx g) va) (lineBytes s l) }

/-- An instruction placed at the current group's PC, its words beyond those given being 0, and the group ready to run it
next, the firmware READY. -/
def placeInstr (s : State) (w : Nat) : State :=
  let at_ := fun k => (s.cur.pc.toNat + 4 * k) % 2 ^ 64
  let s := (List.range 3).foldl (fun s k => placeWord s (at_ k) (w / 2 ^ (32 * k) % 2 ^ 32)) s
  let s := (List.range 3).foldl (fun s k => placeLine s (at_ k)) s
  let s := modCur s fun g =>
    { g with st := .ready, preempt := false, holdReq := false, due := [], bpSkip := true,
             rix := if g.rix = 32 then 0 else g.rix }
  { s with lead := some (gidOf s.cur), fw := { s.fw with power := .d0, status := 2 } }

end

end Sys2Proof.Machine
end

