-- ==== Sys2Proof/Machine/Step.lean ====
section
/-! DEFINITION. One step of the device, and the state with an instruction placed where the next step fetches it. -/

namespace Sys2Proof.Machine

noncomputable section

/-- One step of the device: the choice of Machine/Select.lean, executed, and what follows every step. -/
def step (s : State) : Host.Outcome State Fault Refusal :=
  match choose s with
  | .stop f => .fault f
  | .done t => .next (settle s t)
  | .run t i =>
    match exec i t with
    | .next u => .next (settle s u)
    | r => r

/-- The state with an instruction of three words at most where the next step fetches it: it stands at the current group's
PC, and that group has the next turn. It stands for what the host and the supervisor do to load a program (log 4). -/
def State.withFetchWord (s : State) (nbits w : Nat) : State := placeInstr s (w % 2 ^ nbits)

end

end Sys2Proof.Machine
end

