-- ==== Sys2Proof/Safety.lean ====
section
/-! DEFINITION. The terms in which the statements speak of the device: when an instruction issues, when it has completed,
what it leaves as it was, and what a pass over the threads of a group delivers. -/

namespace Sys2Proof

open Machine

/-! ## Forms -/

/-- A form of two vector sources, and one of a single vector source, with a prefix (R42). -/
abbrev FormVV := Option Prefix → BitVec 6 → BitVec 6 → BitVec 6 → Instr
abbrev FormV := Option Prefix → BitVec 6 → BitVec 6 → Instr

/-- A form of two vector sources read as pairs of FP16, or of BF16 (R80). -/
abbrev FormHH := Option Prefix → Bool → BitVec 6 → BitVec 6 → BitVec 6 → Instr

/-- A form of a vector source and a uniform one, with a prefix (R42). -/
abbrev FormVG := Option Prefix → BitVec 6 → BitVec 6 → BitVec 9 → Instr

/-- A form of three uniform registers, with a prefix (R42). -/
abbrev FormGG := Option Prefix → BitVec 8 → BitVec 8 → BitVec 8 → Instr

/-! ## The canonical form of memory -/

/-- Device memory is in its canonical form. -/
def MemoryCanonical (s : State) : Prop := Memory.wf s.mm.mem = true

/-! ## Issue and completion -/

/-- Every check before an instruction's effect passes (R49, R171, R295): the vector registers `vs`, the uniform registers
`gr` and `gw` and the tiles it names are within the group's budgets, none of the registers is the destination of an
operation that has not arrived, and none of the uniform registers `gr`, which it reads, is poisoned. -/
structure Issues (g : Group) (vs gr gw : List Nat) (tiles : List Nat := []) : Prop where
  vectors  : ∀ r ∈ vs, r < g.vb ∧ ∀ o ∈ g.ops, r ∉ o.vregs
  uniforms : ∀ r ∈ gr ++ gw, (r + 4 < g.ub ∨ (380 ≤ r ∧ r < 384)) ∧ ∀ o ∈ g.ops, r ∉ o.gregs
  sound    : ∀ r ∈ gr, mfind g.gPoison r = none
  tile     : ∀ z ∈ tiles, z < g.ab

/-- The current group's instruction has completed (R21, R37, R98): the PC is at `pc`, RIX, XC and XCV are 0, and INSTRET
has counted it. -/
structure CompletedAt (pc : DWord) (s t : State) : Prop where
  pc      : t.cur.pc = pc
  rix     : t.cur.rix = 0
  xc      : t.cur.xc = 0
  xcv     : t.cur.xcv = false
  instret : t.cur.instret = s.cur.instret + 1

/-- The current group's instruction of `words` words has completed, and the PC has advanced by 4 × words (R37). -/
def Completed (words : Nat) (s t : State) : Prop := CompletedAt (s.cur.pc + BitVec.ofNat 64 (4 * words)) s t

/-! ## Frames -/

/-- Nothing beyond the current group has changed, every byte of memory included, but for the stall counters of partitions
(R302). -/
structure DeviceKept (s t : State) : Prop where
  all   : t = { s with cur := t.cur, cores := t.cores }
  bytes : ∀ a, readByte t.mm.mem a = readByte s.mm.mem a
  cores : ∀ c, Machine.core t c = { Machine.core s c with pstall := (Machine.core t c).pstall }

/-- Of the current group nothing has changed beyond the registers and flags that programs compute with, its position, its
counts and its poison; nor have its operations outstanding and their counters, unless one belongs to an interrupted
instruction (R174). What an instruction within which it stood had done is forgotten: the walks that it awaited, and its place. -/
structure GroupKept (g h : Group) : Prop where
  all : h = { g with v := h.v, vPoison := h.vPoison, g := h.g, gPoison := h.gPoison, m := h.m, f := h.f, flags := h.flags,
                     srs := h.srs, pc := h.pc, rix := h.rix, xc := h.xc, xcv := h.xcv, instret := h.instret, age := h.age,
                     stall := h.stall, drift := h.drift, bpSkip := h.bpSkip, ops := h.ops, w := h.w, walks := h.walks, mid := h.mid }
  ops : (∀ o ∈ g.ops, o.tag ≠ 1) → h.ops = g.ops ∧ ∀ w, wget h w = wget g w

/-- The vector registers but `ds`, as every thread reads them, and their poison are unchanged. -/
def VectorsKept (ds : List Nat) (g h : Group) : Prop :=
  ∀ r t, t < 32 → r ∉ ds → vget h r t = vget g r t ∧ mfind h.vPoison (r * 32 + t) = mfind g.vPoison (r * 32 + t)

/-- The uniform registers but `ds`, and their poison, are unchanged. -/
def UniformsKept (ds : List Nat) (g h : Group) : Prop :=
  ∀ r, r ∉ ds → gget h r = gget g r ∧ mfind h.gPoison r = mfind g.gPoison r

/-- The mask registers but `ds` are unchanged. -/
def MasksKept (ds : List Nat) (g h : Group) : Prop := ∀ r, r ∉ ds → mreg h r = mreg g r

/-- The flags f0 to f3 are unchanged. -/
def FlagsKept (g h : Group) : Prop := h.f = g.f

/-- FLAGS and SRS are unchanged. -/
def StatusKept (g h : Group) : Prop := h.flags = g.flags ∧ h.srs = g.srs

/-- Beyond the vector registers `vs`, the uniform registers `gs`, the mask registers `ms`, the flags, FLAGS and SRS, an
instruction has changed nothing. -/
structure OthersKept (vs gs ms : List Nat) (s t : State) : Prop where
  vector : VectorsKept vs s.cur t.cur
  unif   : UniformsKept gs s.cur t.cur
  masks  : MasksKept ms s.cur t.cur
  group  : GroupKept s.cur t.cur
  device : DeviceKept s t

/-- An instruction of `words` words has completed and has changed nothing but the vector registers `vs`, the uniform
registers `gs` and the mask registers `ms`. -/
structure OnlyWrites (words : Nat) (vs gs ms : List Nat) (s t : State) : Prop where
  done   : Completed words s t
  status : StatusKept s.cur t.cur
  flags  : FlagsKept s.cur t.cur
  others : OthersKept vs gs ms s t

/-! ## A pass over the threads (R36) -/

/-- The threads that an instruction under mask register `ms` visits (R12), from RIX on (R21). -/
def visited (g : Group) (ms : Nat) : List Nat := (threads (activeMask g ms)).filter (g.rix ≤ ·)

/-- What the threads of a list deliver in their order (R61, R62, R65): the value of each, the exceptions raised by any of them,
and the generator after the last. `e` is what one thread delivers with the generator it finds. -/
def passOver (e : DWord → Nat → Eff) : List Nat → DWord → List (Nat × Word) × Nat × DWord
  | [], srs => ([], 0, srs)
  | t :: ts, srs =>
    let x := e srs t
    let r := passOver e ts x.srs
    ((t, x.val) :: r.1, x.raised ||| r.2.1, r.2.2)

/-- What a thread delivers where `e` is what its operation does: the trap of a helper thread, for a poisoned source or an
enabled exception, is discarded with +0 (R9). -/
def settled (g : Group) (srcs : List Nat) (e : DWord → Nat → Eff) (srs : DWord) (t : Nat) : Eff :=
  if helper g t && (poisoned g srcs t || arithTraps g (e srs t).raised) then { val := 0, srs := srs } else e srs t

/-- What the visited threads of an instruction deliver. -/
def passOf (g : Group) (ms : Nat) (srcs : List Nat) (e : DWord → Nat → Eff) : List (Nat × Word) × Nat × DWord :=
  passOver (settled g srcs e) (visited g ms) g.srs

/-- No visited thread of an instruction, helpers apart, reads a poisoned register (R295). -/
def NoPoison (g : Group) (ms : Nat) (srcs : List Nat) : Prop :=
  ∀ t ∈ visited g ms, helper g t = false → poisoned g srcs t = false

/-- No visited thread of an instruction, helpers apart, traps: none reads a poisoned register, and no exception that one of
them raises is enabled (R66, R295). -/
structure NoTrap (g : Group) (ms : Nat) (srcs : List Nat) (e : DWord → Nat → Eff) : Prop where
  sound  : NoPoison g ms srcs
  masked : arithTraps g (passOf g ms srcs e).2.1 = false

/-- Vector register `d` after an instruction that delivers `val`: a visited thread has its value, sound; a thread that is
not active is zeroed if the instruction says so and some thread is active; every other thread keeps what it held (R12, R36,
R44). -/
def Delivered (z : Bool) (ms d : Nat) (val : Nat → Word) (g h : Group) : Prop :=
  ∀ t < 32,
    if t < g.rix ∨ ((activeMask g ms).getLsbD t = false ∧ (z = false ∨ activeMask g ms = 0)) then
      vget h d t = vget g d t ∧ mfind h.vPoison (d * 32 + t) = mfind g.vPoison (d * 32 + t)
    else vget h d t = (if (activeMask g ms).getLsbD t then val t else 0) ∧ mfind h.vPoison (d * 32 + t) = none

/-- A vector instruction that rounds nothing has completed: register `d` holds `val t` in every visited thread `t`, but +0
in a helper thread that read a poisoned register (R9), and nothing else has changed. -/
structure VectorDone (z : Bool) (ms words d : Nat) (srcs : List Nat) (val : Nat → Word) (s t : State) : Prop where
  value : Delivered z ms d (fun i => if helper s.cur i && poisoned s.cur srcs i then 0 else val i) s.cur t.cur
  only  : OnlyWrites words [d] [] [] s t

/-- A vector instruction whose threads deliver `e` one after the other has completed: register `d` holds each visited
thread's value, FLAGS has the exceptions of all of them, SRS is what the last one leaves, and nothing else has changed. -/
structure VectorRounded (z : Bool) (ms words d : Nat) (srcs : List Nat) (e : DWord → Nat → Eff) (s t : State) : Prop where
  done   : Completed words s t
  value  : Delivered z ms d (fun i => (mfind (passOf s.cur ms srcs e).1 i).getD 0) s.cur t.cur
  raised : t.cur.flags = s.cur.flags ||| BitVec.ofNat 32 (passOf s.cur ms srcs e).2.1
  srs    : t.cur.srs = (passOf s.cur ms srcs e).2.2
  flags  : FlagsKept s.cur t.cur
  others : OthersKept [d] [] [] s t

/-- A result that is not rounded. -/
def unrounded (x : Word) (srs : DWord) : Eff := { val := x, srs := srs }

/-- A result rounded once into FP32 (R60, R74): the exact value and the exceptions of the operation, under a mode, with a
generator. -/
noncomputable def rounded32 (rm : Nat) (x : XVal × Nat) (srs : DWord) : Eff :=
  { val := BitVec.ofNat 32 (roundTo fp32 rm false x.1 srs).bits, raised := x.2 ||| (roundTo fp32 rm false x.1 srs).ex,
    srs := (roundTo fp32 rm false x.1 srs).srs }

/-- Two results of `w` bits, the low one rounded first, packed low first (R74, R80, R83). -/
noncomputable def roundedPair (w : Nat) (f : Fmt) (rm : Nat) (sat : Bool) (lo hi : XVal × Nat) (srs : DWord) : Eff :=
  let a := roundTo f rm sat lo.1 srs
  let b := roundTo f rm sat hi.1 a.srs
  { val := BitVec.ofNat 32 (a.bits + 2 ^ w * b.bits), raised := lo.2 ||| a.ex ||| hi.2 ||| b.ex, srs := b.srs }

/-- The datum of a format at a bit of a word. -/
noncomputable def datum (f : Fmt) (bit : Nat) (x : Word) : FVal := fval f (x.extractLsb' bit (1 + f.eb + f.mb)).toNat

/-! ## Uniform results -/

/-- A uniform instruction that rounds nothing has completed: each register of `ws` holds its value, sound, and nothing else
has changed. -/
structure UniformDone (words : Nat) (ws : List (Nat × Word)) (s t : State) : Prop where
  value : ∀ w ∈ ws, gget t.cur w.1 = w.2 ∧ mfind t.cur.gPoison w.1 = none
  only  : OnlyWrites words [] (ws.map (·.1)) [] s t

/-- A uniform instruction that delivers `e` has completed (R66, R107): register `d` holds its value, FLAGS has its
exceptions, SRS is what it leaves, and nothing else has changed. -/
structure UniformRounded (words d : Nat) (e : Eff) (s t : State) : Prop where
  done   : Completed words s t
  value  : gget t.cur d = e.val ∧ mfind t.cur.gPoison d = none
  raised : t.cur.flags = s.cur.flags ||| BitVec.ofNat 32 e.raised
  srs    : t.cur.srs = e.srs
  flags  : FlagsKept s.cur t.cur
  others : OthersKept [] [d] [] s t

/-- A mask instruction has completed: mask register `d` holds `x`, and nothing else has changed. -/
structure MaskDone (d : Nat) (x : Word) (s t : State) : Prop where
  value : mreg t.cur d = x
  only  : OnlyWrites 1 [] [] [d] s t

/-- A uniform compare has completed (R109): flag `f` is `b`, FLAGS has the exceptions `raised`, and nothing else has
changed. -/
structure FlagDone (f : Nat) (b : Bool) (raised : Nat) (s t : State) : Prop where
  done   : Completed 1 s t
  value  : ∀ i < 4, fget t.cur i = if i = f then b else fget s.cur i
  raised : t.cur.flags = s.cur.flags ||| BitVec.ofNat 32 raised
  srs    : t.cur.srs = s.cur.srs
  others : OthersKept [] [] [] s t

/-! ## Folds and scans (R70, R98 to R100) -/

/-- The carry with which an instruction's pass begins (R98): none before the first active thread. -/
def carryIn (g : Group) : Option Word := if g.xcv then some g.xc else none

/-- What a fold or scan of `x` makes of the threads of a list (R70, R100): for each the carry before it and the carry after
it, where the first active thread's value is taken as it stands and `f` is applied to the carry and each later value; the
exceptions raised by any of them, and the generator after the last. -/
def scanOver (f : Word → Word → DWord → Eff) (x : Nat → Word) :
    Option Word → List Nat → DWord → List (Nat × Option Word × Word) × Nat × DWord
  | _, [], srs => ([], 0, srs)
  | c, t :: ts, srs =>
    let e := match c with
      | none => unrounded (x t) srs
      | some y => f y (x t) srs
    let r := scanOver f x (some e.val) ts e.srs
    ((t, c, e.val) :: r.1, e.raised ||| r.2.1, r.2.2)

/-- A fold or scan of register `a` under mask register `ms`. -/
def scanOf (g : Group) (ms a : Nat) (f : Word → Word → DWord → Eff) : List (Nat × Option Word × Word) × Nat × DWord :=
  scanOver f (vget g a) (carryIn g) (visited g ms) g.srs

/-- No visited thread of a fold or scan traps, helpers included: none reads a poisoned register, and no exception that one
raises is enabled. -/
structure NoScanTrap (g : Group) (ms : Nat) (srcs : List Nat) (raised : Nat) : Prop where
  sound  : ∀ t ∈ visited g ms, poisoned g srcs t = false
  masked : arithTraps g raised = false

/-! ## Constant banks (R90) -/

/-- The walks that an instruction needs have ended (R170, R241): each of its addresses is in a TLB, or its walk has ended for the
instruction and a walk may begin. -/
def walksDone (s : State) (need : Need) (vas : List Nat) : Bool :=
  (untranslated s (whoOf s s.cur) need vas).all fun va => s.cur.walks.contains (pageNo va) && !walksHeld s

/-- The word that a constant-bank form finds at issue, and the state after its translation (R90): 0 for a bank not bound and
beyond a bank's size; else the word of its line, where the page may be read and the cache holds the line. Of a line that a store has
changed since it was fetched it is the old or the new word; which of them is free (R90; log 2). -/
noncomputable def bankWord (s : State) (k : BitVec 4) (f : BitVec 9) : Option (Word × State) :=
  match bankOf s k.toNat with
  | none => some (0, s)
  | some (base, size) =>
    if size ≤ 4 * f.toNat then some (0, s)
    else if !walksDone s { r := true } [base + 4 * f.toNat] then none
    else
      match address s (whoOf s s.cur) (base + 4 * f.toNat) 4 { r := true } with
      | (_, .error _) => none
      | (s', .ok l) =>
        (mfind (Machine.core s' s'.cur.core).ccache (bankKey s' s'.cur l)).bind fun old =>
          match wordOf (oldOrNew s' (bankKey s' s'.cur l) old (lineBytes s' l)) l.pa with
          | .error _ => none
          | .ok x => some (x, s')

/-! ## Control -/

/-- A branch has been taken (R95, R111): the PC is at the target, the group stalls until the branch resolves, that step is
due, and beyond the registers `gs` and `ms` nothing else has changed. -/
structure Branched (target : DWord) (gs ms : List Nat) (s t : State) : Prop where
  done    : CompletedAt target s t
  stalled : t.cur.st = .stalled 4 false
  due     : t.pending = s.pending ++ [.branchResolve (gidOf s.cur)]
  status  : StatusKept s.cur t.cur
  flags   : FlagsKept s.cur t.cur
  others  : OthersKept [] gs ms s { t with cur := { t.cur with st := s.cur.st }, pending := s.pending }

/-! ## Memory instructions (R171, R172) -/

/-- No GST of the group is still to be performed (R110). -/
def NoGst (g : Group) : Prop := ∀ o ∈ g.ops, o.kind ≠ .gst

/-- The operations outstanding, their counters, the clock, the group's state and the steps due as they are in `s`, and the rest as
in `t`. -/
def takenBack (s t : State) : State :=
  { t with pending := s.pending,
           cur := { t.cur with ops := s.cur.ops, nextOp := s.cur.nextOp, w := s.cur.w, lclk := s.cur.lclk, st := s.cur.st } }

/-- After an access whose L1 phase holds the group (`l1`), the group waits for its end under L1-miss; after any other, its state is as
it was (R170). -/
def Phase (l1 : Bool) (g h : Group) : Prop := h.st = if l1 then .stalled 9 true else g.st

/-- An operation outstanding of a group: its number, kind, arrival counter, and the registers interlocked until it arrives. -/
def Outstanding (g : Group) (id : Nat) (kind : OpKind) (w : Option Nat) (vregs gregs : List Nat) : Prop :=
  ∃ o ∈ g.ops, o.id = id ∧ o.kind = kind ∧ o.w = w ∧ o.vregs = vregs ∧ o.gregs = gregs ∧ o.tag = 0

/-- An instruction of one word that leaves one operation outstanding has completed (R171, R172): the operation is counted on
its arrival counter, its arrival `due` is a step to come, its L1 phase holds the group if it has one (`l1`), and beyond the
uniform registers `gs` and the clock nothing else has changed since `s`. -/
structure Issued (l1 : Bool) (kind : OpKind) (w : Option Nat) (vregs gregs gs : List Nat) (due : Instr) (s t : State) : Prop where
  done   : Completed 1 s t
  phase  : Phase l1 s.cur t.cur
  op     : Outstanding t.cur s.cur.nextOp kind w vregs gregs
  next   : t.cur.nextOp = s.cur.nextOp + 1
  count  : (∀ o ∈ s.cur.ops, o.tag ≠ 1) → ∀ n, wget t.cur n = if w = some n then wget s.cur n + 1 else wget s.cur n
  due    : t.pending = s.pending ++ [due]
  status : StatusKept s.cur t.cur
  flags  : FlagsKept s.cur t.cur
  others : OthersKept [] gs [] s (takenBack s t)

/-- The state after every visited thread of a vector memory instruction has performed its part, if none traps or waits and the
group's region, if it is in one, does not abort: `f` is what one thread does (R170, R174). The stores that the threads of STV have
had admitted are then performed, a line after the other, each line's threads in ascending order (R155). -/
noncomputable def performed (p : Option Prefix) (ds srcs : List Nat) (gen : DWord)
    (f : Served → State → Nat → Served × MemStep) (s : State) : Option State :=
  match memPass (activeMask s.cur (maskOf p)) (zeroing (zeroes p) (activeMask s.cur (maskOf p))) ds srcs f (List.range 32) { gen := gen } s with
  | (s', m, .whole) => some (performStores m.stores s')
  | _ => none

/-- A vector memory instruction has issued whole, its threads having led to `s` (R171, R172): its operation, number `id`, interlocks
its destinations, the steps `due` with which it arrives are to come, its L1 phase holds the group if it has one (`l1`), and nothing
else has changed since. -/
structure MemIssued (l1 : Bool) (words id : Nat) (ds : List Nat) (due : List Instr) (s t : State) : Prop where
  done   : Completed words s t
  phase  : Phase l1 s.cur t.cur
  op     : ∀ o ∈ s.cur.ops, o.id = id → Outstanding t.cur id o.kind o.w ds []
  due    : t.pending = s.pending ++ due
  status : StatusKept s.cur t.cur
  flags  : FlagsKept s.cur t.cur
  vector : VectorsKept [] s.cur t.cur
  unif   : UniformsKept [] s.cur t.cur
  masks  : MasksKept [] s.cur t.cur
  clock  : t.cur.lclk = s.cur.lclk ∧ t.cur.srs = s.cur.srs ∧ t.cur.rgn = s.cur.rgn ∧ t.cur.nextOp = s.cur.nextOp
  memory : t.mm = s.mm ∧ t.blocks = s.blocks ∧ t.slices = s.slices ∧ t.cp = s.cp ∧ t.fw = s.fw ∧ t.io = s.io ∧
    t.others = s.others
  cores  : ∀ c, Machine.core t c =
    { Machine.core s c with pstall := (Machine.core t c).pstall, scq := (Machine.core t c).scq }

/-- The scratch homes of a request whose threads name the offsets `os` (R17): the issuing core, where the block has one core; else
each core of its span that homes a page of one of them, once. -/
structure Homes (s : State) (os : List Nat) (cs : List Nat) : Prop where
  once : cs.Nodup
  one  : (block s s.cur.blk).span.length ≤ 1 → cs = [s.cur.core]
  many : 1 < (block s s.cur.blk).span.length → ∀ c, c ∈ cs ↔
    ∃ o ∈ os, (block s s.cur.blk).span[o / 16384 % (block s s.cur.blk).span.length]? = some c

/-- A scratch request has issued (R17, R97): it stands last in the queue of each of its homes, and its phase there is a step to
come. -/
def Requested (words id : Nat) (ds cs : List Nat) (s t : State) : Prop :=
  MemIssued false words id ds (cs.map .scratchPhase) s t ∧
    ∀ c, (Machine.core t c).scq = (Machine.core s c).scq ++ if c ∈ cs then [(gidOf s.cur, id)] else []

/-! ## Waiting (R223, R227) -/

/-- A group has entered the lull (R227): it waits for `wake`, its PC is the continuation `cont`, the instruction is counted, and
nothing else has changed since `s`. -/
structure Lulled (wake : Wake) (cont : DWord) (s t : State) : Prop where
  done   : CompletedAt cont s t
  asleep : t.cur.st = .lull wake cont
  status : StatusKept s.cur t.cur
  flags  : FlagsKept s.cur t.cur
  others : OthersKept [] [] [] s { t with cur := { t.cur with st := s.cur.st }, pending := s.pending }

/-- A group stalls before its instruction, whose effect has not taken place: it stays at its PC with every register, and only the
reason, and the count of cycles under it, have changed. -/
structure Stalls (reason : Nat) (retry : Bool) (s t : State) : Prop where
  stalled : t.cur.st = .stalled reason retry
  place   : t.cur.pc = s.cur.pc ∧ t.cur.rix = s.cur.rix ∧ t.cur.instret = s.cur.instret
  others  : OthersKept [] [] [] s { t with cur := { t.cur with st := s.cur.st } }

/-! ## Traps (R21, R279, R280) -/

/-- A core's replay queue with one more record: it takes an entry, or waits for one where all 64 are taken (R280). -/
def withRecord (k : Core) (r : FaultRec) : Core :=
  if k.replay.length < 64 then { k with replay := k.replay ++ [r] } else { k with unposted := k.unposted ++ [r] }

/-- A group and its partition have counted cycles under one reason, and under no other (R300 to R302). -/
def Counted (reason : Nat) (g h : Group) : Prop :=
  h = { g with stall := h.stall, drift := h.drift } ∧ ∀ n, n ≠ reason → mget 0 h.stall n = mget 0 g.stall n

/-- A group has parked (R21, R280, R300): it stands where it was with RIX as given and counts replay, the record is in its core's
replay queue, its posting is due, and nothing else has changed, every byte of memory included. -/
structure Parks (r : FaultRec) (rix : Nat) (s t : State) : Prop where
  parked : Counted 11 { s.cur with st := .parked, rix := rix } t.cur
  record : ∀ c, Machine.core t c =
    { (if c = s.cur.core then withRecord (Machine.core s c) r else Machine.core s c) with pstall := (Machine.core t c).pstall }
  due    : t.pending = s.pending ++ [.faultRecordPost s.cur.core]
  others : t = { s with cur := t.cur, cores := t.cores, pending := t.pending }
  bytes  : ∀ a, readByte t.mm.mem a = readByte s.mm.mem a

/-- The words of a trap record (R279): the cause, access kind, SCR and RIX; the sub-cause; the handle; the context; the code
offset; the first-byte address and the faulting address; LCLK; the active mask; the kind of a fault; and the arguments. -/
noncomputable def recordWords (g : Group) (cause sub acc rix : Nat) (scr : Bool) (fba faddr : DWord) (active : Word)
    (args : List Word := [0, 0, 0, 0]) : List Word :=
  [BitVec.ofNat 32 (cause * 2 ^ 24 + (if scr then 2 ^ 22 else 0) + acc * 2 ^ 8 + rix), BitVec.ofNat 32 sub, handleOf g,
    BitVec.ofNat 32 g.ctx, (g.pc - codeBase g).extractLsb' 0 32, fba.extractLsb' 0 32, (fba.extractLsb' 32 26).setWidth 32,
    faddr.extractLsb' 0 32, (faddr.extractLsb' 32 26).setWidth 32, g.lclk, active, 0x40000000] ++ args

/-- The record of a group that parks. -/
noncomputable def parkRecord (g : Group) (cause sub acc rix : Nat) (scr : Bool) (fba faddr : DWord) (active : Word)
    (args : List Word := [0, 0, 0, 0]) : FaultRec :=
  { words := recordWords g cause sub acc rix scr fba faddr active args, gid := gidOf g, posted := false, frees := false }

/-! ## Another group's registers (R265 to R267) -/

/-- An XRD or XWR has completed and f3 reports whether it took effect; beyond f3 and the uniform registers `gs`
nothing else has changed. -/
structure Reported (ok : Bool) (gs : List Nat) (s t : State) : Prop where
  done   : Completed 1 s t
  flag   : ∀ i < 4, fget t.cur i = if i = 3 then ok else fget s.cur i
  status : StatusKept s.cur t.cur
  others : OthersKept [] gs [] s t

/-! ## Cached translations (R272) -/

/-- A TLBI has completed: the cached leaves that meet `leaf`, the walk-cache entries that meet `walk` and the
instruction-cache lines that meet `line` are gone everywhere, and nothing else has changed. -/
structure Dropped (leaf walk : TlbEnt → Bool) (line : Nat → Bool) (s t : State) : Prop where
  done     : Completed 1 s t
  group    : GroupKept s.cur t.cur ∧ VectorsKept [] s.cur t.cur ∧ UniformsKept [] s.cur t.cur ∧ MasksKept [] s.cur t.cur
  cores    : ∀ c, Machine.core t c =
    { Machine.core s c with tlb := (Machine.core s c).tlb.filter (!leaf ·), pstall := (Machine.core t c).pstall,
                            icache := (Machine.core s c).icache.filter (!line ·.1) }
  clusters : ∀ c, mget {} t.clusters c =
    { mget {} s.clusters c with tlb2 := (mget {} s.clusters c).tlb2.filter (!leaf ·),
                                wcache := (mget {} s.clusters c).wcache.filter (!walk ·) }
  others   : t = { s with cur := t.cur, cores := t.cores, clusters := t.clusters }

/-! ## Fetching (R39, R41, R50) -/

/-- The line of the instruction cache with word `k` of the code at the current group's PC is held as memory holds it, and the word is
`w`, sound (R295); its page is translated, or a walk may begin. -/
def CodeWord (s : State) (k : Nat) (w : Word) : Prop :=
  let va := (s.cur.pc.toNat + 4 * k) % 2 ^ 64
  (walksHeld s = false ∨ untranslated s (fetcher s s.cur) { x := true } [va] = []) ∧
  ∃ l, address s (fetcher s s.cur) va 4 { x := true } = (s, .ok l) ∧
    mfind (Machine.core s s.cur.core).icache (codeKey (codeCtx s.cur) va) = some (lineBytes s l) ∧
    badIn (lineBytes s l).2 l.pa 4 = none ∧ BitVec.ofNat 32 (readBytes (lineBytes s l).1 l.pa 4) = w

/-- The state in which the instruction of the current group executes, where that group has the next turn: its clock has been raised by
the ticks that are due (R156). -/
def nextTurn (s : State) : State :=
  let u := { s with turn := s.turn + 1, lead := none }
  { u with cur := { ticked u u.cur with st := .ready, tried := u.turn } }

/-- The current group has the next turn and nothing stands before its instruction: no breakpoint, no pre-emption and, between two
instructions, no trap due to it and no hold. -/
structure TakesTurn (s : State) : Prop where
  power : s.fw.power = .d0
  lead  : s.lead = some (gidOf s.cur)
  ready : canIssue s.cur = true ∨ canRetry s.cur = true
  due   : s.cur.priv = false → s.cur.rix = 0 → s.cur.mid = none → s.cur.due = []
  hold  : s.cur.rix = 0 → s.cur.mid = none → s.cur.holdReq = false
  break_ : s.cur.mid = none → breaksAt (nextTurn s) (nextTurn s).cur = false

/-! ## Steps of the device (log 1) -/

/-- Beyond the group `gid`, and the steps due, a step of the device has changed nothing, every byte of memory included. -/
structure OnlyGroup (gid : Nat) (s t : State) : Prop where
  groups : ∀ i, i ≠ gid → Machine.group t i = Machine.group s i
  rest   : t = { s with cur := t.cur, others := t.others, pending := t.pending }

/-- Operation `o` of group `gid`, which was `g` and is now `h`, has arrived (R171, R172, R219): it is no longer outstanding, its
counter counts one fewer, a group that waits at an interlock or a WAIT looks again, and no register has changed. -/
structure Arrived (gid : Nat) (o : OpRec) (g h : Group) (s t : State) : Prop where
  group : Machine.group t gid = some h
  ops   : h.ops = g.ops.filter (·.id != o.id)
  count : ∀ w, wget h w = if o.w = some w then wget g w - 1 else wget g w
  regs  : h.v = g.v ∧ h.g = g.g ∧ h.m = g.m ∧ h.f = g.f ∧ h.flags = g.flags ∧ h.srs = g.srs
  again : ∀ r, inner g = .stalled r true → inner h = .ready
  only  : OnlyGroup gid s t

/-- A group that is not the current one, or is, has become the current one as `h`; the others are as they were. -/
structure MadeCurrent (h : Group) (s t : State) : Prop where
  cur    : t.cur = h
  former : s.cur ∈ t.others ∨ gidOf s.cur = gidOf h
  groups : ∀ i, i ≠ gidOf h → i ≠ gidOf s.cur → Machine.group t i = Machine.group s i

/-- The finish time that an arrived engine command leaves on its counter for a WAIT to join (R146). -/
def Joins (w : Nat) (fin : Word) (g h : Group) : Prop :=
  (∀ w n k, inner g ≠ .lull (.count w n) k) → mfind h.joins w = some ((mfind g.joins w).elim fin (ltMax · fin))

/-- A step has changed the cores as given and made steps due, and nothing else, every byte of memory included. -/
structure OnlyCore (c : Nat) (k : Core) (s t : State) : Prop where
  core  : ∀ d, Machine.core t d = if d = c then k else Machine.core s d
  rest  : t = { s with cores := t.cores, pending := t.pending }

/-- A region of a group has aborted (R191, R203): the group is at the handler, RIX is 0, and ASTAT says why. -/
structure Aborted (r : Region) (cause code : Nat) (slice : Option Nat) (h : Group) : Prop where
  closed  : h.rgn = none
  handler : h.pc = r.handler ∧ h.rix = 0
  astat   : h.astat = BitVec.ofNat 32 ((if r.elastic then 2 ^ 30 else 0) + cause * 2 ^ 16 + code * 2 ^ 8 + slice.elim 0 (64 + ·))

/-- A block is being pre-empted (R268, R285): it is being saved, and each of its groups is to vector. -/
def Preempted (b : Nat) (s t : State) : Prop :=
  (block t b).st = .saving ∧ ∀ gid g, Machine.group s gid = some g → residentOf b g = true →
    .preemptionVector gid ∈ t.pending ∧ ∃ h, Machine.group t gid = some h ∧ h.preempt = true ∧ h.rgn = none

/-- Messages have left the device (R148, R255). -/
def Sent (ms : List OutMsg) (s t : State) : Prop := t.io.out = s.io.out ++ ms

/-- The error log has one more record (R317). -/
def Recorded (s t : State) : Prop :=
  s.fw.errlog.length < 4096 → t.fw.errlog.length = s.fw.errlog.length + 1 ∧ t.fw.errSeq = (s.fw.errSeq + 1) % 2 ^ 32

/-- A line stands at its slice, or enters it without another having to leave (R150, R325). -/
abbrev Roomy (line : Nat) (s : State) : Prop := (l2Line s line).isSome = true ∨ s.mm.lines.length < sliceLines

/-- The copies of an L1 but for whether their requests may still be in flight. -/
def SameCopies (k q : Core) : Prop :=
  q = { k with l1 := q.l1 } ∧
    ∀ key, (mfind q.l1 key).map (fun c => { c with asked := none }) = (mfind k.l1 key).map fun c => { c with asked := none }

/-- The times of a line at its slice: its own where it is resident, else EVTS, none before the front (R150, R157). -/
noncomputable def sliceWts (s : State) (line : Nat) : Word :=
  clamp s ((l2Line s line).elim (slice s (homeSlice line)).evts (·.wts))
noncomputable def sliceRts (s : State) (line : Nat) : Word :=
  clamp s ((l2Line s line).elim (slice s (homeSlice line)).evts (·.rts))

/-- An aligned access of a group outside a region reaches device memory, and nothing holds it up or refuses it: no region, rebase or
re-encryption holds the line, memory does not refuse it, no host has a copy, the line stands under the key of the page, and it stands
at its slice or has room there. -/
structure Reaches (s : State) (g : Group) (l : Leaf) (n : Nat) (wr : Bool) : Prop where
  place   : inDevice l = true
  size    : n ∈ [1, 2, 4, 8] ∧ l.pa % n = 0
  outside : g.rgn = none
  free    : mustWait s none (l.pa / 128) wr = false
  sound   : memFault s l.pa l.via = none
  host    : hostHolds s (l.pa / 128) = none
  key     : keyDiffers s (l.pa / 128) l.via = none
  room    : Roomy (l.pa / 128) s

/-- The copy of a tracked line in the L1 of a group's core. -/
noncomputable def ownCopy (s : State) (g : Group) (l : Leaf) : Option L1Line :=
  if placeOf l = .tracked then l1Copy s g.core g.ctx (l.pa / 128) else none

/-- Device memory has had `n` bytes stored from a physical address, the low byte of `x` first, and no other byte changed. -/
def BytesStored (s t : State) (pa n x : Nat) : Prop :=
  ∀ a, readByte t.mm.mem a = if pa ≤ a ∧ a < pa + n then BitVec.ofNat 8 (x / 256 ^ (a - pa)) else readByte s.mm.mem a

/-- The clock of a group after a store or an atomic on device memory (R155, R160): later by one than the line's rts, which an exclusive
copy holds, else the slice where no core owns the line. -/
def StoreTime (s : State) (g : Group) (l : Leaf) (clk : Word) : Prop :=
  (∀ c, ownCopy s g l = some c → c.excl = true → clk = ltMax g.lclk (clamp s c.rts + 1)) ∧
  ((l2Line s (l.pa / 128)).bind (·.owner) = none → (∀ c, ownCopy s g l = some c → c.excl = false) →
    clk = ltMax g.lclk (sliceRts s (l.pa / 128) + 1))

/-! ## Units of the copy engine (R183, R184) -/

/-- A command's access reaches a byte of device memory through a leaf that is in the TLBs, and nothing holds it up or refuses it. -/
structure UnitReaches (s : State) (core : Nat) (c : CopyCmd) (va : Nat) (need : Need) (l : Leaf) : Prop where
  leaf   : engineAddr s (cpyWho s core c) va need = (s, .ok l)
  place  : inDevice l = true
  free   : groupWaits s l need.w = false
  sound  : memFault s l.pa l.via = none
  intact : badAt s l.pa 1 = none
  host   : hostHolds s (l.pa / 128) = none
  key    : keyDiffers s (l.pa / 128) l.via = none

/-- `x` is the number whose `n` bytes, low byte first, device memory holds at a virtual address of a command; the core's copy of each of
their lines, if it has one, is exclusive, so that the newest bytes are read. -/
def UnitReads (s : State) (core : Nat) (c : CopyCmd) (va n x : Nat) : Prop :=
  x < 256 ^ n ∧ ∀ k < n, ∃ l, UnitReaches s core c (va + k) { r := true } l ∧
    (∀ k, l1Copy s core c.ctx (l.pa / 128) = some k → k.excl = true) ∧ BitVec.ofNat 8 (x / 256 ^ k) = readByte s.mm.mem l.pa

/-- A block's scratch has had `n` bytes stored from an offset, and no other byte changed. -/
def ScratchStored (a b : Block) (o n x : Nat) : Prop :=
  ∀ q, scrByte b q = if o ≤ q ∧ q < o + n then BitVec.ofNat 8 (x / 256 ^ (q - o)) else scrByte a q

/-- A unit of a command has left every byte of device memory as it was. -/
def MemoryKept (s t : State) : Prop := ∀ a, readByte t.mm.mem a = readByte s.mm.mem a

/-! ## The matrix engine (R58, R119) -/

/-- Element `k` of row `r` of K-block `kb` of an operand in the plane-tile layout, signed, in units of 2^(E − 255 − (p − 1) − 1). -/
noncomputable def planeTerm (b : Block) (planes scales rows p kb r k : Nat) : Int :=
  let word := fun j => scrRead b (planes + ((kb * (1 + p) + j) * rows + r) * 2) 2
  let record := scrRead b (scales + (kb * rows + r) * 4) 4
  let q := ((List.range p).map fun j => if (word (j + 1)).testBit k then 2 ^ j else 0).sum
  (if (word 0).testBit k then -1 else 1) * ((q * (if record.testBit (9 + k / 2) then 1 else 2) : Nat) : Int)

/-- A line that no host, owner or region holds up: the host has no copy of it, no core owns it, no region uses it. -/
structure Quiet (line : Nat) (s : State) : Prop where
  host   : hostHolds s line = none
  owner  : (l2Line s line).bind (·.owner) = none
  region : entriesOn s line = []

/-- The firmware serves a command that GO started (R314). -/
structure Serves (code : Nat) (s : State) : Prop where
  go     : s.fw.go = true
  cmd    : s.fw.cmd.toNat = code
  served : servedIn s.fw.status code = true

/-- A command of the mailbox has ended with a result (R314): 0 done, 1 busy, 2 bad image, 3 bad argument, 4 unknown. -/
def Answered (res : Nat) (t : State) : Prop := t.fw.go = false ∧ t.fw.res = BitVec.ofNat 32 res

/-! ## The order of the machine's data -/

/-- The groups have distinct names, and the maps of blocks, scratch bytes, L1 copies and page owners are in the order of their
keys, each key listed once. -/
structure Ordered (s : State) : Prop where
  groups : ((allGroups s).map gidOf).Nodup
  blocks : mrising s.blocks = true
  scr    : ∀ p ∈ s.blocks, mrising p.2.scr = true ∧ mrising p.2.backing = true
  cores  : mrising s.cores = true
  l1     : ∀ p ∈ s.cores, mrising p.2.l1 = true
  own    : mrising s.mm.own = true

end Sys2Proof
end

