-- ==== Sys2Proof/Certificates/Slice0/Obligations.lean ====
section
/-! DEFINITION. The statements for the provers. -/

noncomputable section

open Sys2Proof Sys2Proof.Machine

/-! ## Vector arithmetic -/

/-- VI with two sources (R81): each instruction completes on every form of it, with the table's result in each thread. VI with one
source, and with a fourth operand (R44, R81). VIG (R82): each instruction is its VI namesake with the uniform register as the
second operand. -/
def Obligations.VectorIntegerResults : Prop :=
  (∀ row ∈ ([(.iadd, fun a b => a + b), (.isub, fun a b => a - b), (.imul, fun a b => a * b),
       (.imulh, fun a b => (a.signExtend 64 * b.signExtend 64).extractLsb' 32 32),
       (.nmulh, fun a b => (a.setWidth 64 * b.setWidth 64).extractLsb' 32 32),
       (.imin, fun a b => if a.slt b then a else b), (.imax, fun a b => if a.slt b then b else a),
       (.nmin, fun a b => if a.ult b then a else b), (.nmax, fun a b => if a.ult b then b else a),
       (.and, fun a b => a &&& b), (.or, fun a b => a ||| b), (.xor, fun a b => a ^^^ b), (.andn, fun a b => a &&& ~~~b),
       (.shl, fun a b => a <<< b), (.shr, fun a b => a >>> b), (.sar, fun a b => a.sshiftRight b.toNat),
       (.rotl, fun a b => a.rotateLeft (b.toNat % 32)),
       (.iadds, fun a b => BitVec.ofInt 32 (max (-2 ^ 31) (min (2 ^ 31 - 1) (a.toInt + b.toInt)))),
       (.isubs, fun a b => BitVec.ofInt 32 (max (-2 ^ 31) (min (2 ^ 31 - 1) (a.toInt - b.toInt))))] :
       List (FormVV × (Word → Word → Word))),
     ∀ p d a b s, Issues s.cur [d.toNat, a.toNat, b.toNat] [] [] → NoPoison s.cur (maskOf p) [a.toNat, b.toNat] →
       ∃ t, exec (row.1 p d a b) s = .next t ∧
         VectorDone (zeroes p) (maskOf p) (words1 p) d.toNat [a.toNat, b.toNat]
           (fun i => row.2 (vget s.cur a.toNat i) (vget s.cur b.toNat i)) s t) ∧
  ((∀ row ∈ ([(.popc, fun a => BitVec.ofNat 32 ((List.range 32).countP a.getLsbD)), (.clz, fun a => a.clz),
       (.brev, fun a => a.reverse), (.iabs, fun a => if a.slt 0 then 0 - a else a)] : List (FormV × (Word → Word))),
     ∀ p d a s, Issues s.cur [d.toNat, a.toNat] [] [] → NoPoison s.cur (maskOf p) [a.toNat] →
       ∃ t, exec (row.1 p d a) s = .next t ∧
         VectorDone (zeroes p) (maskOf p) (words1 p) d.toNat [a.toNat] (fun i => row.2 (vget s.cur a.toNat i)) s t) ∧
   (∀ row ∈ ([(.imad, fun a b c => a * b + c),
       (.idp4, fun a b c => c + ((a.extractLsb' 0 8).signExtend 32 * (b.extractLsb' 0 8).signExtend 32 +
         (a.extractLsb' 8 8).signExtend 32 * (b.extractLsb' 8 8).signExtend 32 +
         (a.extractLsb' 16 8).signExtend 32 * (b.extractLsb' 16 8).signExtend 32 +
         (a.extractLsb' 24 8).signExtend 32 * (b.extractLsb' 24 8).signExtend 32))] :
       List (FormVV × (Word → Word → Word → Word))),
     ∀ p d a b s, Issues s.cur [d.toNat, a.toNat, b.toNat, vcOf p d] [] [] →
       NoPoison s.cur (maskOf p) [a.toNat, b.toNat, vcOf p d] →
       ∃ t, exec (row.1 p d a b) s = .next t ∧
         VectorDone (zeroes p) (maskOf p) (words1 p) d.toNat [a.toNat, b.toNat, vcOf p d]
           (fun i => row.2 (vget s.cur a.toNat i) (vget s.cur b.toNat i) (vget s.cur (vcOf p d) i)) s t)) ∧
  ((∀ row ∈ ([(.iaddG, fun a b => a + b), (.isubG, fun a b => a - b), (.imulG, fun a b => a * b), (.andG, fun a b => a &&& b),
       (.orG, fun a b => a ||| b), (.xorG, fun a b => a ^^^ b), (.shlG, fun a b => a <<< b), (.shrG, fun a b => a >>> b),
       (.sarG, fun a b => a.sshiftRight b.toNat), (.iminG, fun a b => if a.slt b then a else b),
       (.imaxG, fun a b => if a.slt b then b else a), (.nminG, fun a b => if a.ult b then a else b),
       (.nmaxG, fun a b => if a.ult b then b else a)] : List (FormVG × (Word → Word → Word))),
     ∀ p d a b s, Issues s.cur [d.toNat, a.toNat] [b.toNat] [] → NoPoison s.cur (maskOf p) [a.toNat] →
       ∃ t, exec (row.1 p d a b) s = .next t ∧
         VectorDone (zeroes p) (maskOf p) (words1 p) d.toNat [a.toNat]
           (fun i => row.2 (vget s.cur a.toNat i) (gget s.cur b.toNat)) s t) ∧
   (∀ p d a b s, Issues s.cur [d.toNat, a.toNat, vcOf p d] [b.toNat] [] →
       NoPoison s.cur (maskOf p) [a.toNat, vcOf p d] →
       ∃ t, exec (.imadG p d a b) s = .next t ∧
         VectorDone (zeroes p) (maskOf p) (words1 p) d.toNat [a.toNat, vcOf p d]
           (fun i => vget s.cur a.toNat i * gget s.cur b.toNat + vget s.cur (vcOf p d) i) s t))

/-- VF that rounds (R74, R77): the exact result of each thread is rounded once, in the effective mode. VFG (R79): each instruction
is its VF namesake with the uniform register as the second operand. VF that never rounds a result (R54, R77, R78), and FRINT: the
bit operations raise nothing, FMIN and FMAX deliver an operand's bits or the canonical NaN. -/
def Obligations.VectorFloatResults : Prop :=
  ((∀ row ∈ ([(.fadd, fAdd), (.fsub, fun rm a b => fAdd rm a (negate b)), (.fmul, fun _ => fMul), (.fdiv, fun _ => fDiv)] :
       List (FormVV × (Nat → FVal → FVal → XVal × Nat))),
     ∀ p d a b s,
       let e := fun srs i => rounded32 (rmode s.cur p) (row.2 (rmode s.cur p) (f32 (vget s.cur a.toNat i)) (f32 (vget s.cur b.toNat i))) srs
       Issues s.cur [d.toNat, a.toNat, b.toNat] [] [] → NoTrap s.cur (maskOf p) [a.toNat, b.toNat] e →
       ∃ t, exec (row.1 p d a b) s = .next t ∧
         VectorRounded (zeroes p) (maskOf p) (words1 p) d.toNat [a.toNat, b.toNat] e s t) ∧
   (∀ row ∈ ([(.ffma, fun rm a b c => fFma rm a b c), (.ffms, fun rm a b c => fFma rm a b (negate c)),
       (.fnma, fun rm a b c => fFma rm (negate a) b c)] : List (FormVV × (Nat → FVal → FVal → FVal → XVal × Nat))),
     ∀ p d a b s,
       let e := fun srs i => rounded32 (rmode s.cur p) (row.2 (rmode s.cur p) (f32 (vget s.cur a.toNat i))
         (f32 (vget s.cur b.toNat i)) (f32 (vget s.cur (vcOf p d) i))) srs
       Issues s.cur [d.toNat, a.toNat, b.toNat, vcOf p d] [] [] →
       NoTrap s.cur (maskOf p) [a.toNat, b.toNat, vcOf p d] e →
       ∃ t, exec (row.1 p d a b) s = .next t ∧
         VectorRounded (zeroes p) (maskOf p) (words1 p) d.toNat [a.toNat, b.toNat, vcOf p d] e s t) ∧
   (∀ row ∈ ([(.fsqrt, fSqrt), (.frcp, fDiv (.fin false 1 0)), (.frsq, fRsq), (.fexp2, fExp2), (.flog2, fLog2), (.fsigm, fSigm),
       (.ftanh, fTanh)] : List (FormV × (FVal → XVal × Nat))),
     ∀ p d a s,
       let e := fun srs i => rounded32 (rmode s.cur p) (row.2 (f32 (vget s.cur a.toNat i))) srs
       Issues s.cur [d.toNat, a.toNat] [] [] → NoTrap s.cur (maskOf p) [a.toNat] e →
       ∃ t, exec (row.1 p d a) s = .next t ∧
         VectorRounded (zeroes p) (maskOf p) (words1 p) d.toNat [a.toNat] e s t) ∧
   (∀ p d a b s,
     let e := fun srs i => rounded32 (rmode s.cur p) (fScale (f32 (vget s.cur a.toNat i)) (vget s.cur b.toNat i).toInt) srs
     Issues s.cur [d.toNat, a.toNat, b.toNat] [] [] → NoTrap s.cur (maskOf p) [a.toNat, b.toNat] e →
     ∃ t, exec (.fscale p d a b) s = .next t ∧
       VectorRounded (zeroes p) (maskOf p) (words1 p) d.toNat [a.toNat, b.toNat] e s t)) ∧
  ((∀ row ∈ ([(.faddG, fun rm a b => rounded32 rm (fAdd rm (f32 a) (f32 b))),
       (.fsubG, fun rm a b => rounded32 rm (fAdd rm (f32 a) (negate (f32 b)))),
       (.fmulG, fun rm a b => rounded32 rm (fMul (f32 a) (f32 b))), (.fdivG, fun rm a b => rounded32 rm (fDiv (f32 a) (f32 b))),
       (.fscaleG, fun rm a b => rounded32 rm (fScale (f32 a) b.toInt)),
       (.fminG, fun _ a b srs => ⟨BitVec.ofNat 32 (fPick fp32 false a.toNat b.toNat).1, (fPick fp32 false a.toNat b.toNat).2, srs⟩),
       (.fmaxG, fun _ a b srs => ⟨BitVec.ofNat 32 (fPick fp32 true a.toNat b.toNat).1, (fPick fp32 true a.toNat b.toNat).2, srs⟩)] :
       List (FormVG × (Nat → Word → Word → DWord → Eff))),
     ∀ p d a b s,
       let e := fun srs i => row.2 (rmode s.cur p) (vget s.cur a.toNat i) (gget s.cur b.toNat) srs
       Issues s.cur [d.toNat, a.toNat] [b.toNat] [] → NoTrap s.cur (maskOf p) [a.toNat] e →
       ∃ t, exec (row.1 p d a b) s = .next t ∧
         VectorRounded (zeroes p) (maskOf p) (words1 p) d.toNat [a.toNat] e s t) ∧
   (∀ p d a b s,
     let e := fun srs i => rounded32 (rmode s.cur p) (fFma (rmode s.cur p) (f32 (vget s.cur a.toNat i))
       (f32 (gget s.cur b.toNat)) (f32 (vget s.cur (vcOf p d) i))) srs
     Issues s.cur [d.toNat, a.toNat, vcOf p d] [b.toNat] [] → NoTrap s.cur (maskOf p) [a.toNat, vcOf p d] e →
     ∃ t, exec (.ffmaG p d a b) s = .next t ∧
       VectorRounded (zeroes p) (maskOf p) (words1 p) d.toNat [a.toNat, vcOf p d] e s t)) ∧
  ((∀ row ∈ ([(.fabs, fun a => a &&& 0x7FFFFFFF), (.fneg, fun a => a ^^^ 0x80000000),
       (.fclass, fun a => BitVec.ofNat 32 (fClass a.toNat))] : List (FormV × (Word → Word))),
     ∀ p d a s, Issues s.cur [d.toNat, a.toNat] [] [] → NoPoison s.cur (maskOf p) [a.toNat] →
       ∃ t, exec (row.1 p d a) s = .next t ∧
         VectorDone (zeroes p) (maskOf p) (words1 p) d.toNat [a.toNat] (fun i => row.2 (vget s.cur a.toNat i)) s t) ∧
   (∀ p d a b s, Issues s.cur [d.toNat, a.toNat, b.toNat] [] [] → NoPoison s.cur (maskOf p) [a.toNat, b.toNat] →
       ∃ t, exec (.fcpys p d a b) s = .next t ∧
         VectorDone (zeroes p) (maskOf p) (words1 p) d.toNat [a.toNat, b.toNat]
           (fun i => (vget s.cur b.toNat i).extractLsb' 31 1 ++ (vget s.cur a.toNat i).extractLsb' 0 31) s t) ∧
   (∀ row ∈ ([(.fmin, false), (.fmax, true)] : List (FormVV × Bool)), ∀ p d a b s,
       let pick := fun i => fPick fp32 row.2 (vget s.cur a.toNat i).toNat (vget s.cur b.toNat i).toNat
       let e := fun srs i => ⟨BitVec.ofNat 32 (pick i).1, (pick i).2, srs⟩
       Issues s.cur [d.toNat, a.toNat, b.toNat] [] [] → NoTrap s.cur (maskOf p) [a.toNat, b.toNat] e →
       ∃ t, exec (row.1 p d a b) s = .next t ∧
         VectorRounded (zeroes p) (maskOf p) (words1 p) d.toNat [a.toNat, b.toNat] e s t) ∧
   (∀ p d a s,
       let e := fun srs i => ofRounded (fRint (rmode s.cur p) (vget s.cur a.toNat i).toNat srs)
       Issues s.cur [d.toNat, a.toNat] [] [] → NoTrap s.cur (maskOf p) [a.toNat] e →
       ∃ t, exec (.frint p d a) s = .next t ∧
         VectorRounded (zeroes p) (maskOf p) (words1 p) d.toNat [a.toNat] e s t))

/-- VH (R80): each half is its own FP16 or BF16 operation, rounded once, low half first; HDOT2 rounds into FP32. -/
def Obligations.HalfResults : Prop :=
  (∀ row ∈ ([(.hadd2, fAdd), (.hsub2, fun rm a b => fAdd rm a (negate b)), (.hmul2, fun _ => fMul)] :
      List (FormHH × (Nat → FVal → FVal → XVal × Nat))), ∀ p bf d a b s,
    let rm := rmode s.cur p
    let f := if bf then bf16 else fp16
    let op := fun bit i => row.2 rm (datum f bit (vget s.cur a.toNat i)) (datum f bit (vget s.cur b.toNat i))
    let e := fun srs i => roundedPair 16 f rm false (op 0 i) (op 16 i) srs
    Issues s.cur [d.toNat, a.toNat, b.toNat] [] [] → NoTrap s.cur (maskOf p) [a.toNat, b.toNat] e →
    ∃ t, exec (row.1 p bf d a b) s = .next t ∧
      VectorRounded (zeroes p) (maskOf p) (words1 p) d.toNat [a.toNat, b.toNat] e s t) ∧
  (∀ p bf d a b s,
    let rm := rmode s.cur p
    let f := if bf then bf16 else fp16
    let op := fun bit i => fFma rm (datum f bit (vget s.cur a.toNat i)) (datum f bit (vget s.cur b.toNat i))
      (datum f bit (vget s.cur (vcOf p d) i))
    let e := fun srs i => roundedPair 16 f rm false (op 0 i) (op 16 i) srs
    Issues s.cur [d.toNat, a.toNat, b.toNat, vcOf p d] [] [] → NoTrap s.cur (maskOf p) [a.toNat, b.toNat, vcOf p d] e →
    ∃ t, exec (.hfma2 p bf d a b) s = .next t ∧
      VectorRounded (zeroes p) (maskOf p) (words1 p) d.toNat [a.toNat, b.toNat, vcOf p d] e s t) ∧
  (∀ p bf d a b s,
    let rm := rmode s.cur p
    let f := if bf then bf16 else fp16
    let x := fun bit i => datum f bit (vget s.cur a.toNat i)
    let y := fun bit i => datum f bit (vget s.cur b.toNat i)
    let e := fun srs i =>
      rounded32 rm (fDot2 rm (x 0 i) (y 0 i) (x 16 i) (y 16 i) (f32 (vget s.cur (vcOf p d) i))) srs
    Issues s.cur [d.toNat, a.toNat, b.toNat, vcOf p d] [] [] → NoTrap s.cur (maskOf p) [a.toNat, b.toNat, vcOf p d] e →
    ∃ t, exec (.hdot2 p bf d a b) s = .next t ∧
      VectorRounded (zeroes p) (maskOf p) (words1 p) d.toNat [a.toNat, b.toNat, vcOf p d] e s t) ∧
  (∀ row ∈ ([(.hmin2, false), (.hmax2, true)] : List (FormHH × Bool)), ∀ p bf d a b s,
    let f := if bf then bf16 else fp16
    let pick := fun bit i => fPick f row.2 ((vget s.cur a.toNat i).extractLsb' bit 16).toNat
      ((vget s.cur b.toNat i).extractLsb' bit 16).toNat
    let e : DWord → Nat → Eff := fun srs i =>
      ⟨BitVec.ofNat 32 ((pick 0 i).1 + 2 ^ 16 * (pick 16 i).1), (pick 0 i).2 ||| (pick 16 i).2, srs⟩
    Issues s.cur [d.toNat, a.toNat, b.toNat] [] [] → NoTrap s.cur (maskOf p) [a.toNat, b.toNat] e →
    ∃ t, exec (row.1 p bf d a b) s = .next t ∧
      VectorRounded (zeroes p) (maskOf p) (words1 p) d.toNat [a.toNat, b.toNat] e s t)

/-- VCV (R83, R84): integers into FP32, FP32 to integers, narrow codes into FP32. VCV that narrows a pair (R57, R83): a in the
lower place, saturating under the prefix's sat or FMT.NSAT; the FP8 forms write one half of vd and keep the other. -/
def Obligations.ConversionResults : Prop :=
  ((∀ row ∈ ([(.cvtF32I32, fun x => x.toInt), (.cvtF32N32, fun x => x.toNat)] : List (FormV × (Word → Int))), ∀ p d a s,
     let n := fun i => row.2 (vget s.cur a.toNat i)
     let e := fun srs i => rounded32 (rmode s.cur p) (.fin (n i < 0) (n i).natAbs 0 false, 0) srs
     Issues s.cur [d.toNat, a.toNat] [] [] → NoTrap s.cur (maskOf p) [a.toNat] e →
     ∃ t, exec (row.1 p d a) s = .next t ∧
       VectorRounded (zeroes p) (maskOf p) (words1 p) d.toNat [a.toNat] e s t) ∧
   (∀ row ∈ ([(.cvtI32F32, true), (.cvtN32F32, false)] : List (FormV × Bool)), ∀ p d a s,
     let e := fun srs i => ofRounded (fToInt (rmode s.cur p) row.2 (vget s.cur a.toNat i).toNat srs)
     Issues s.cur [d.toNat, a.toNat] [] [] → NoTrap s.cur (maskOf p) [a.toNat] e →
     ∃ t, exec (row.1 p d a) s = .next t ∧
       VectorRounded (zeroes p) (maskOf p) (words1 p) d.toNat [a.toNat] e s t) ∧
   (∀ row ∈ ([(.cvtF32F16l, fp16, 0), (.cvtF32F16h, fp16, 16), (.cvtF32Bf16l, bf16, 0), (.cvtF32Bf16h, bf16, 16),
       (.cvtF32E4m3B0, e4m3, 0), (.cvtF32E4m3B1, e4m3, 8), (.cvtF32E4m3B2, e4m3, 16), (.cvtF32E4m3B3, e4m3, 24),
       (.cvtF32E5m2B0, e5m2, 0), (.cvtF32E5m2B1, e5m2, 8), (.cvtF32E5m2B2, e5m2, 16), (.cvtF32E5m2B3, e5m2, 24)] :
       List (FormV × Fmt × Nat)), ∀ p d a s,
     let v := fun i => datum row.2.1 row.2.2 (vget s.cur a.toNat i)
     let e := fun srs i => rounded32 (rmode s.cur p) (exact (v i), snanEx (v i)) srs
     Issues s.cur [d.toNat, a.toNat] [] [] → NoTrap s.cur (maskOf p) [a.toNat] e →
     ∃ t, exec (row.1 p d a) s = .next t ∧
       VectorRounded (zeroes p) (maskOf p) (words1 p) d.toNat [a.toNat] e s t)) ∧
  ((∀ row ∈ ([(.cvtF16x2, fp16), (.cvtBf16x2, bf16)] : List (FormVV × Fmt)), ∀ p d a b s,
     let x := fun r i => (exact (f32 (vget s.cur r i)), snanEx (f32 (vget s.cur r i)))
     let e := fun srs i => roundedPair 16 row.2 (rmode s.cur p) (saturates s.cur p) (x a.toNat i) (x b.toNat i) srs
     Issues s.cur [d.toNat, a.toNat, b.toNat] [] [] → NoTrap s.cur (maskOf p) [a.toNat, b.toNat] e →
     ∃ t, exec (row.1 p d a b) s = .next t ∧
       VectorRounded (zeroes p) (maskOf p) (words1 p) d.toNat [a.toNat, b.toNat] e s t) ∧
   (∀ row ∈ ([(.cvtE4m3x2L, e4m3, false), (.cvtE4m3x2H, e4m3, true), (.cvtE5m2x2L, e5m2, false), (.cvtE5m2x2H, e5m2, true)] :
       List (FormVV × Fmt × Bool)), ∀ p d a b s,
     let x := fun r i => (exact (f32 (vget s.cur r i)), snanEx (f32 (vget s.cur r i)))
     let e : DWord → Nat → Eff := fun srs i =>
       let pr := roundedPair 8 row.2.1 (rmode s.cur p) (saturates s.cur p) (x a.toNat i) (x b.toNat i) srs
       let old := vget s.cur d.toNat i
       { pr with val := if row.2.2 then pr.val.extractLsb' 0 16 ++ old.extractLsb' 0 16
                        else old.extractLsb' 16 16 ++ pr.val.extractLsb' 0 16 }
     Issues s.cur [d.toNat, a.toNat, b.toNat] [] [] → NoTrap s.cur (maskOf p) [a.toNat, b.toNat, d.toNat] e →
     ∃ t, exec (row.1 p d a b) s = .next t ∧
       VectorRounded (zeroes p) (maskOf p) (words1 p) d.toNat [a.toNat, b.toNat, d.toNat] e s t))

/-- VI20 and VFL (R87, R88): the second operand is a constant of the instruction: the upper 20 bits of an FP32 datum, a
sign-extended integer, or the word that follows. VMV and VMVG (R104, R105): SEL and SEL.G take each thread from one side or the other;
of a helper with a poisoned source, either of the two, the result is +0, which is the choice of log 55. -/
def Obligations.ConstantOperandResults : Prop :=
  ((∀ row ∈ ([(.faddi, fAdd), (.fmuli, fun _ => fMul)] :
       List ((BitVec 6 → BitVec 20 → Instr) × (Nat → FVal → FVal → XVal × Nat))), ∀ d c s,
     let rm := rmode s.cur none
     let e := fun srs i => rounded32 rm (row.2 rm (f32 (vget s.cur d.toNat i)) (f32 (c ++ (0 : BitVec 12)))) srs
     Issues s.cur [d.toNat] [] [] → NoTrap s.cur 0 [d.toNat] e →
     ∃ t, exec (row.1 d c) s = .next t ∧ VectorRounded false 0 1 d.toNat [d.toNat] e s t) ∧
   (∀ d c s, Issues s.cur [d.toNat] [] [] → NoPoison s.cur 0 [d.toNat] →
     ∃ t, exec (.iaddi d c) s = .next t ∧
       VectorDone false 0 1 d.toNat [d.toNat] (fun i => vget s.cur d.toNat i + c.signExtend 32) s t) ∧
   (∀ row ∈ ([(.fmovi, fun c => c ++ (0 : BitVec 12)), (.imovi, fun c => c.signExtend 32)] :
       List ((BitVec 6 → BitVec 20 → Instr) × (BitVec 20 → Word))), ∀ d c s, Issues s.cur [d.toNat] [] [] →
     ∃ t, exec (row.1 d c) s = .next t ∧ VectorDone false 0 1 d.toNat [] (fun _ => row.2 c) s t) ∧
   (∀ row ∈ ([(.faddL, fun rm a c => rounded32 rm (fAdd rm (f32 a) (f32 c))), (.fmulL, fun rm a c => rounded32 rm (fMul (f32 a) (f32 c))),
       (.fminL, fun _ a c srs => ⟨BitVec.ofNat 32 (fPick fp32 false a.toNat c.toNat).1, (fPick fp32 false a.toNat c.toNat).2, srs⟩),
       (.fmaxL, fun _ a c srs => ⟨BitVec.ofNat 32 (fPick fp32 true a.toNat c.toNat).1, (fPick fp32 true a.toNat c.toNat).2, srs⟩)] :
       List ((Option Prefix → BitVec 6 → BitVec 6 → Word → Instr) × (Nat → Word → Word → DWord → Eff))), ∀ p d a c s,
     let e := fun srs i => row.2 (rmode s.cur p) (vget s.cur a.toNat i) c srs
     Issues s.cur [d.toNat, a.toNat] [] [] → NoTrap s.cur (maskOf p) [a.toNat] e →
     ∃ t, exec (row.1 p d a c) s = .next t ∧
       VectorRounded (zeroes p) (maskOf p) (words1 p + 1) d.toNat [a.toNat] e s t) ∧
   (∀ p d a b c s,
     let rm := rmode s.cur p
     let e := fun srs i => rounded32 rm (fFma rm (f32 (vget s.cur a.toNat i)) (f32 (vget s.cur b.toNat i)) (f32 c)) srs
     Issues s.cur [d.toNat, a.toNat, b.toNat] [] [] → NoTrap s.cur (maskOf p) [a.toNat, b.toNat] e →
     ∃ t, exec (.ffmaL p d a b c) s = .next t ∧
       VectorRounded (zeroes p) (maskOf p) (words1 p + 1) d.toNat [a.toNat, b.toNat] e s t) ∧
   (∀ row ∈ ([(.iaddL, fun a c => a + c), (.andL, fun a c => a &&& c)] :
       List ((Option Prefix → BitVec 6 → BitVec 6 → Word → Instr) × (Word → Word → Word))), ∀ p d a c s,
     Issues s.cur [d.toNat, a.toNat] [] [] → NoPoison s.cur (maskOf p) [a.toNat] →
     ∃ t, exec (row.1 p d a c) s = .next t ∧
       VectorDone (zeroes p) (maskOf p) (words1 p + 1) d.toNat [a.toNat] (fun i => row.2 (vget s.cur a.toNat i) c) s t) ∧
   (∀ i ∈ ([.fmovL, .imovL] : List (Option Prefix → BitVec 6 → Word → Instr)), ∀ p d c s, Issues s.cur [d.toNat] [] [] →
     ∃ t, exec (i p d c) s = .next t ∧ VectorDone (zeroes p) (maskOf p) (words1 p + 1) d.toNat [] (fun _ => c) s t)) ∧
  ((∀ p d a s, Issues s.cur [d.toNat, a.toNat] [] [] → NoPoison s.cur (maskOf p) [a.toNat] →
     ∃ t, exec (.mov p d a) s = .next t ∧
       VectorDone (zeroes p) (maskOf p) (words1 p) d.toNat [a.toNat] (fun i => vget s.cur a.toNat i) s t) ∧
   (∀ p d b s, Issues s.cur [d.toNat] [b.toNat] [] →
     ∃ t, exec (.movg p d b) s = .next t ∧
       VectorDone (zeroes p) (maskOf p) (words1 p) d.toNat [] (fun _ => gget s.cur b.toNat) s t) ∧
   (∀ row ∈ ([(.tidx, fun _ i => BitVec.ofNat 32 i), (.qidx, fun _ i => BitVec.ofNat 32 (i / 4)),
       (.lidx, fun g i => BitVec.ofNat 32 (32 * g.grpib + i))] :
       List ((Option Prefix → BitVec 6 → Instr) × (Group → Nat → Word))), ∀ p d s, Issues s.cur [d.toNat] [] [] →
     ∃ t, exec (row.1 p d) s = .next t ∧
       VectorDone (zeroes p) (maskOf p) (words1 p) d.toNat [] (fun i => row.2 s.cur i) s t) ∧
   (∀ p d a b s,
     let select := mreg s.cur (match p with | none => 1 | some q => q.ms.toNat)
     Issues s.cur [d.toNat, a.toNat, b.toNat] [] [] → NoPoison s.cur 0 [a.toNat, b.toNat] →
     ∃ t, exec (.sel p d a b) s = .next t ∧
       VectorDone (zeroes p) 0 (words1 p) d.toNat [a.toNat, b.toNat]
         (fun i => if select.getLsbD i then vget s.cur a.toNat i else vget s.cur b.toNat i) s t) ∧
   (∀ p d a b s,
     let select := mreg s.cur (match p with | none => 1 | some q => q.ms.toNat)
     Issues s.cur [d.toNat, a.toNat] [b.toNat] [] → NoPoison s.cur 0 [a.toNat] →
     ∃ t, exec (.selG p d a b) s = .next t ∧
       VectorDone (zeroes p) 0 (words1 p) d.toNat [a.toNat]
         (fun i => if select.getLsbD i then vget s.cur a.toNat i else gget s.cur b.toNat) s t))

/-- CMP (R85, R86): in every visited thread the new bit combines the old one with the condition; a helper that would trap counts
as a false condition (R9). MK (R106): each instruction completes, with the table's result in the mask register or the uniform
register. -/
def Obligations.CompareMaskResults : Prop :=
  (∀ m c a b ty o s,
     let q := fun i =>
       let x := vget s.cur a.toNat i
       let y := vget s.cur b.toNat i
       match ty with
       | .f32 => (condFloat c (f32 x) (f32 y), condRaises c (f32 x) (f32 y))
       | .i32 => (condInt c x.toInt y.toInt, 0)
       | .n32 => (condInt c x.toNat y.toNat, 0)
       | .f16l => (condFloat c (datum fp16 0 x) (datum fp16 0 y), condRaises c (datum fp16 0 x) (datum fp16 0 y))
       | .bf16l => (condFloat c (datum bf16 0 x) (datum bf16 0 y), condRaises c (datum bf16 0 x) (datum bf16 0 y))
     let e : DWord → Nat → Eff := fun srs i => ⟨if (q i).1 then 1 else 0, (q i).2, srs⟩
     let r := passOf s.cur 0 [a.toNat, b.toNat] e
     Issues s.cur [a.toNat, b.toNat] [] [] → NoTrap s.cur 0 [a.toNat, b.toNat] e →
     ∃ t, exec (.cmp m c a b ty o) s = .next t ∧ Completed 1 s t ∧
       (∀ i < 32,
         let old := (mreg s.cur m.toNat).getLsbD i
         let now := (mfind r.1 i).getD 0 == 1
         (mreg t.cur m.toNat).getLsbD i =
           if i ∈ visited s.cur 0 then
             match o with | .set => now | .and => old && now | .or => old || now | .andn => old && !now
           else old) ∧
       t.cur.flags = s.cur.flags ||| BitVec.ofNat 32 r.2.1 ∧ t.cur.srs = s.cur.srs ∧ FlagsKept s.cur t.cur ∧
       OthersKept [] [] [m.toNat] s t) ∧
  ((∀ row ∈ ([(.mand, fun a b => a &&& b), (.mor, fun a b => a ||| b), (.mxor, fun a b => a ^^^ b), (.mandn, fun a b => a &&& ~~~b)] :
       List ((BitVec 3 → BitVec 3 → BitVec 3 → Instr) × (Word → Word → Word))), ∀ d a b s,
     ∃ t, exec (row.1 d a b) s = .next t ∧ MaskDone d.toNat (row.2 (mreg s.cur a.toNat) (mreg s.cur b.toNat)) s t) ∧
   (∀ d a s, ∃ t, exec (.mnot d a) s = .next t ∧ MaskDone d.toNat (~~~mreg s.cur a.toNat) s t) ∧
   (∀ d s, ∃ t, exec (.mall d) s = .next t ∧ MaskDone d.toNat s.cur.lmask s t) ∧
   (∀ d s, ∃ t, exec (.mclr d) s = .next t ∧ MaskDone d.toNat 0 s t) ∧
   (∀ d n s, Issues s.cur [] [n.toNat] [] → ∃ t, exec (.gtom d n) s = .next t ∧ MaskDone d.toNat (gget s.cur n.toNat) s t) ∧
   (∀ row ∈ ([(.mtog, fun x => x), (.mpop, fun x => BitVec.ofNat 32 ((List.range 32).countP x.getLsbD)),
       (.mffs, fun x => x.ctz)] : List ((BitVec 3 → BitVec 9 → Instr) × (Word → Word))), ∀ a n s,
     Issues s.cur [] [] [n.toNat] →
     ∃ t, exec (row.1 a n) s = .next t ∧ UniformDone 1 [(n.toNat, row.2 (mreg s.cur a.toNat))] s t))

/-! ## Uniform arithmetic and masks -/

/-- GGG on integers (R107): each instruction completes on every form of it, with the table's result in gd. GI16 (R108): its three
instructions, and that a word of its majors is illegal after a prefix. -/
def Obligations.UniformIntegerResults : Prop :=
  ((∀ row ∈ ([(.gadd, fun a b => a + b), (.gsub, fun a b => a - b), (.gmul, fun a b => a * b),
       (.gmulh, fun a b => (a.signExtend 64 * b.signExtend 64).extractLsb' 32 32),
       (.gnmulh, fun a b => (a.setWidth 64 * b.setWidth 64).extractLsb' 32 32),
       (.gand, fun a b => a &&& b), (.gor, fun a b => a ||| b), (.gxor, fun a b => a ^^^ b), (.gandn, fun a b => a &&& ~~~b),
       (.gshl, fun a b => a <<< b), (.gshr, fun a b => a >>> b), (.gsar, fun a b => a.sshiftRight b.toNat),
       (.gmin, fun a b => if a.slt b then a else b), (.gmax, fun a b => if a.slt b then b else a),
       (.gnmin, fun a b => if a.ult b then a else b), (.gnmax, fun a b => if a.ult b then b else a)] :
       List (FormGG × (Word → Word → Word))), ∀ p d a b s,
     Issues s.cur [] [gaOf p a, gbOf p b] [gdOf p d] →
     ∃ t, exec (row.1 p d a b) s = .next t ∧
       UniformDone (words1 p) [(gdOf p d, row.2 (gget s.cur (gaOf p a)) (gget s.cur (gbOf p b)))] s t) ∧
   (∀ row ∈ ([(.gmov, fun a => a), (.gnot, fun a => ~~~a)] :
       List ((Option Prefix → BitVec 8 → BitVec 8 → Instr) × (Word → Word))), ∀ p d a s,
     Issues s.cur [] [gaOf p a] [gdOf p d] →
     ∃ t, exec (row.1 p d a) s = .next t ∧ UniformDone (words1 p) [(gdOf p d, row.2 (gget s.cur (gaOf p a)))] s t) ∧
   (∀ p d a b s, Issues s.cur [] [gaOf p a, gbOf p b, gdOf p d] [] →
     ∃ t, exec (.gmad p d a b) s = .next t ∧ UniformDone (words1 p)
       [(gdOf p d, gget s.cur (gaOf p a) * gget s.cur (gbOf p b) + gget s.cur (gdOf p d))] s t) ∧
   (∀ row ∈ ([(.gadd64, fun a b => a + b), (.gsub64, fun a b => a - b)] : List (FormGG × (DWord → DWord → DWord))), ∀ p d a b s,
     let pair := fun r => gget s.cur (r + 1) ++ gget s.cur r
     let x := row.2 (pair (gaOf p a)) (pair (gbOf p b))
     Issues s.cur [] [gaOf p a, gaOf p a + 1, gbOf p b, gbOf p b + 1] [gdOf p d, gdOf p d + 1] →
     ∃ t, exec (row.1 p d a b) s = .next t ∧
       UniformDone (words1 p) [(gdOf p d, x.extractLsb' 0 32), (gdOf p d + 1, x.extractLsb' 32 32)] s t)) ∧
  ((∀ d c s, Issues s.cur [] [] [d.toNat] →
     ∃ t, exec (.gmovi d c) s = .next t ∧ UniformDone 1 [(d.toNat, c.signExtend 32)] s t) ∧
   (∀ d c s, Issues s.cur [] [d.toNat] [] →
     ∃ t, exec (.gaddi d c) s = .next t ∧ UniformDone 1 [(d.toNat, gget s.cur d.toNat + c.signExtend 32)] s t) ∧
   (∀ d c s, Issues s.cur [] [d.toNat] [] →
     ∃ t, exec (.gmovhi d c) s = .next t ∧ UniformDone 1 [(d.toNat, c ++ (gget s.cur d.toNat).extractLsb' 0 16)] s t) ∧
   (∀ p (w : Word) rest, 0x2E ≤ w.toNat / 2 ^ 25 → w.toNat / 2 ^ 25 ≤ 0x30 → decodeWords (prefixWord p :: w :: rest) = .enc 1))

/-- GGG on FP32 (R66, R107): one rounding in the mode of FMT; where an enabled exception is raised, the instruction traps with gd
as it was. GCMP and GCMPI (R85, R109): one flag, on words, on pairs read as 64-bit integers, on FP32 data with IV for a signalling
NaN, and on an immediate. The conditions of compares (R85): the six orderings of integers, UN never and OR always true; of FP32
data one of which is a NaN only NE and UN are true; and IV is raised for a signalling NaN, but not under UN and OR (R56). -/
def Obligations.UniformFloatResults : Prop :=
  ((∀ row ∈ ([(.gfadd, fAdd), (.gfmul, fun _ => fMul)] : List (FormGG × (Nat → FVal → FVal → XVal × Nat))), ∀ p d a b s,
     let rm := rmode s.cur none
     let e := rounded32 rm (row.2 rm (f32 (gget s.cur (gaOf p a))) (f32 (gget s.cur (gbOf p b)))) s.cur.srs
     Issues s.cur [] [gaOf p a, gbOf p b] [gdOf p d] →
     if arithTraps s.cur e.raised then exec (row.1 p d a b) s = .next (trapHere 1 e.raised s)
     else ∃ t, exec (row.1 p d a b) s = .next t ∧ UniformRounded (words1 p) (gdOf p d) e s t) ∧
   (∀ p d a b s,
     let rm := rmode s.cur none
     let e := rounded32 rm (fFma rm (f32 (gget s.cur (gaOf p a))) (f32 (gget s.cur (gbOf p b)))
       (f32 (gget s.cur (gdOf p d)))) s.cur.srs
     Issues s.cur [] [gaOf p a, gbOf p b, gdOf p d] [] →
     if arithTraps s.cur e.raised then exec (.gffma p d a b) s = .next (trapHere 1 e.raised s)
     else ∃ t, exec (.gffma p d a b) s = .next t ∧ UniformRounded (words1 p) (gdOf p d) e s t)) ∧
  ((∀ f c a b s,
     let x := gget s.cur a.toNat
     let y := gget s.cur b.toNat
     Issues s.cur [] [a.toNat, b.toNat] [] →
     (∃ t, exec (.gcmp f c .i32 a b) s = .next t ∧ FlagDone f.toNat (condInt c x.toInt y.toInt) 0 s t) ∧
     (∃ t, exec (.gcmp f c .n32 a b) s = .next t ∧ FlagDone f.toNat (condInt c x.toNat y.toNat) 0 s t) ∧
     (arithTraps s.cur (condRaises c (f32 x) (f32 y)) = false →
       ∃ t, exec (.gcmp f c .f32 a b) s = .next t ∧
         FlagDone f.toNat (condFloat c (f32 x) (f32 y)) (condRaises c (f32 x) (f32 y)) s t)) ∧
   (∀ f c a b s,
     let pair := fun r => gget s.cur (r + 1) ++ gget s.cur r
     Issues s.cur [] [a.toNat, a.toNat + 1, b.toNat, b.toNat + 1] [] →
     ∃ t, exec (.gcmp f c .i64 a b) s = .next t ∧
       FlagDone f.toNat (condInt c (pair a.toNat).toInt (pair b.toNat).toInt) 0 s t) ∧
   (∀ f c a n s, Issues s.cur [] [a.toNat] [] →
     ∃ t, exec (.gcmpi f c a n) s = .next t ∧ FlagDone f.toNat (condInt c (gget s.cur a.toNat).toInt n.toInt) 0 s t)) ∧
  ((∀ x y : Int, condInt .eq x y = decide (x = y) ∧ condInt .ne x y = decide (x ≠ y) ∧ condInt .lt x y = decide (x < y) ∧
     condInt .le x y = decide (x ≤ y) ∧ condInt .gt x y = decide (x > y) ∧ condInt .ge x y = decide (x ≥ y) ∧
     condInt .un x y = false ∧ condInt .or x y = true) ∧
   (∀ c x y, isNaN (f32 x) ∨ isNaN (f32 y) → condFloat c (f32 x) (f32 y) = decide (c = .ne ∨ c = .un)) ∧
   (∀ c x y, condRaises c (f32 x) (f32 y) =
     if (f32 x = .nan true ∨ f32 y = .nan true) ∧ c ≠ .un ∧ c ≠ .or then exIV else 0))

/-! ## Exchange between threads and transfers -/

/-- The scans of VX (R70, R99, R100): each visited thread receives the running value, its own included or not; the first value is
taken as it stands, and an exclusive scan gives its first thread 0. The folds of VGV and BALLOT (R70, R103): the running value
over the visited threads, or the value of an empty set, in one uniform register. -/
def Obligations.FoldScanResults : Prop :=
  (let max := fun x y : Word => if x.slt y then y else x
   let min := fun x y : Word => if x.slt y then x else y
   let sum := fun rm x y => rounded32 rm (fAdd rm (f32 x) (f32 y))
   let pick : Bool → Word → Word → DWord → Eff := fun big x y srs =>
     ⟨BitVec.ofNat 32 (fPick fp32 big x.toNat y.toNat).1, (fPick fp32 big x.toNat y.toNat).2, srs⟩
   ∀ row ∈ ([(.psumF, false, sum), (.psumxF, true, sum), (.psumI, false, fun _ x y => unrounded (x + y)),
       (.psumxI, true, fun _ x y => unrounded (x + y)), (.pmaxI, false, fun _ x y => unrounded (max x y)),
       (.pminI, false, fun _ x y => unrounded (min x y)), (.pmaxF, false, fun _ => pick true), (.pminF, false, fun _ => pick false)] :
       List (FormV × Bool × (Nat → Word → Word → DWord → Eff))), ∀ p d a s,
     let r := scanOf s.cur (maskOf p) a.toNat (row.2.2 (rmode s.cur p))
     let val := fun i => match mfind r.1 i with
       | some x => if row.2.1 then x.1.getD 0 else x.2
       | none => 0
     Issues s.cur [d.toNat, a.toNat] [] [] → NoScanTrap s.cur (maskOf p) [a.toNat] r.2.1 →
     ∃ t, exec (row.1 p d a) s = .next t ∧ Completed (words1 p) s t ∧
       Delivered (zeroes p) (maskOf p) d.toNat val s.cur t.cur ∧
       t.cur.flags = s.cur.flags ||| BitVec.ofNat 32 r.2.1 ∧ t.cur.srs = r.2.2 ∧ FlagsKept s.cur t.cur ∧
       OthersKept [d.toNat] [] [] s t) ∧
  (let max := fun x y : Word => if x.slt y then y else x
   let min := fun x y : Word => if x.slt y then x else y
   let pick : Bool → Word → Word → DWord → Eff := fun big x y srs =>
     ⟨BitVec.ofNat 32 (fPick fp32 big x.toNat y.toNat).1, (fPick fp32 big x.toNat y.toNat).2, srs⟩
   (∀ row ∈ ([(.rsumF, 0, fun rm x y => rounded32 rm (fAdd rm (f32 x) (f32 y))), (.rmaxF, 0xFF800000, fun _ => pick true),
       (.rminF, 0x7F800000, fun _ => pick false), (.rsumI, 0, fun _ x y => unrounded (x + y)),
       (.rmaxI, 0x80000000, fun _ x y => unrounded (max x y)), (.rminI, 0x7FFFFFFF, fun _ x y => unrounded (min x y)),
       (.rand, 0xFFFFFFFF, fun _ x y => unrounded (x &&& y)), (.ror, 0, fun _ x y => unrounded (x ||| y)),
       (.rxor, 0, fun _ x y => unrounded (x ^^^ y))] :
       List ((BitVec 9 → BitVec 6 → Instr) × Word × (Nat → Word → Word → DWord → Eff))), ∀ d a s,
     let r := scanOf s.cur 0 a.toNat (row.2.2 (rmode s.cur none))
     let val := match r.1.getLast? with
       | some x => x.2.2
       | none => (carryIn s.cur).getD row.2.1
     Issues s.cur [a.toNat] [] [d.toNat] → NoScanTrap s.cur 0 [a.toNat] r.2.1 →
     ∃ t, exec (row.1 d a) s = .next t ∧ UniformRounded 1 d.toNat ⟨val, r.2.1, r.2.2⟩ s t) ∧
   (∀ d a s, Issues s.cur [a.toNat] [] [d.toNat] → (∀ i ∈ visited s.cur 0, poisoned s.cur [a.toNat] i = false) →
     ∃ t x, exec (.ballot d a) s = .next t ∧ UniformDone 1 [(d.toNat, x)] s t ∧
       ∀ i < 32, x.getLsbD i =
         (((carryIn s.cur).getD 0).getLsbD i || decide (i ∈ visited s.cur 0 ∧ vget s.cur a.toNat i ≠ 0))))

/-- SHDN and SHUP (R99, R100): each visited thread receives va of the active thread before it, or after it; the first, or the
last, receives its own vb. SHFL, the quad swaps, ZIP and UZP (R98, R99, R101, R102): every source is read before anything is
written; a thread that is not active, and a helper that is poisoned, read as 0. VGET, VPUT and FIRST (R103): one thread's
register, 0 where the thread is not present or none is active, and +0 where it is a helper whose register is poisoned (R9). -/
def Obligations.ExchangeResults : Prop :=
  (∀ p d a b s,
     let ts := visited s.cur (maskOf p)
     let before := fun i => (ts.filter (· < i)).getLast?
     let after := fun i => ts.find? (i < ·)
     Issues s.cur [d.toNat, a.toNat, b.toNat] [] [] → (∀ i ∈ ts, poisoned s.cur [a.toNat] i = false) →
     ((∀ i ∈ ts, carryIn s.cur = none → before i = none → poisoned s.cur [b.toNat] i = false) →
       ∃ t, exec (.shdn p d a b) s = .next t ∧
         Delivered (zeroes p) (maskOf p) d.toNat
           (fun i => match before i with
             | some j => vget s.cur a.toNat j
             | none => (carryIn s.cur).getD (vget s.cur b.toNat i)) s.cur t.cur ∧
         OnlyWrites (words1 p) [d.toNat] [] [] s t) ∧
     ((∀ i ∈ ts, after i = none → poisoned s.cur [b.toNat] i = false) →
       ∃ t, exec (.shup p d a b) s = .next t ∧
         Delivered (zeroes p) (maskOf p) d.toNat
           (fun i => match after i with
             | some j => vget s.cur a.toNat j
             | none => vget s.cur b.toNat i) s.cur t.cur ∧
         OnlyWrites (words1 p) [d.toNat] [] [] s t)) ∧
  ((∀ p d a b s,
     let act := activeMask s.cur (maskOf p)
     let src := fun r i => if act.getLsbD i && !poisoned s.cur [r] i then vget s.cur r i else 0
     Issues s.cur [d.toNat, a.toNat, b.toNat] [] [] →
     (∀ i ∈ threads act, helper s.cur i = false → poisoned s.cur [a.toNat, b.toNat] i = false) →
     ∃ t, exec (.shfl p d a b) s = .next t ∧
       VectorDone (zeroes p) (maskOf p) (words1 p) d.toNat [a.toNat, b.toNat]
         (fun i => src a.toNat ((src b.toNat i).toNat % 32)) s t) ∧
   (∀ row ∈ ([(.qswh, 1), (.qswv, 2), (.qswd, 3)] : List (FormV × Nat)), ∀ p d a s,
     let act := activeMask s.cur (maskOf p)
     let src := fun r i => if act.getLsbD i && !poisoned s.cur [r] i then vget s.cur r i else 0
     Issues s.cur [d.toNat, a.toNat] [] [] → NoPoison s.cur (maskOf p) [a.toNat] →
     ∃ t, exec (row.1 p d a) s = .next t ∧
       VectorDone (zeroes p) (maskOf p) (words1 p) d.toNat [a.toNat] (fun i => src a.toNat (i ^^^ row.2)) s t) ∧
   (∀ row ∈ ([(.zip2, 2, true), (.zip3, 3, true), (.zip4, 4, true), (.uzp2, 2, false), (.uzp3, 3, false), (.uzp4, 4, false)] :
       List (FormV × Nat × Bool)), ∀ p d a s,
     let n := row.2.1
     let ds := (List.range n).map (d.toNat + ·)
     let srcs := (List.range n).map (a.toNat + ·)
     let ts := threads (activeMask s.cur (maskOf p))
     let m := ts.length
     let element := fun r i => if poisoned s.cur [r] (ts.getD i 0) then 0 else vget s.cur r (ts.getD i 0)
     let val := fun j i =>
       if row.2.2 then element (a.toNat + (j * m + ts.idxOf i) % n) ((j * m + ts.idxOf i) / n)
       else element (a.toNat + (ts.idxOf i * n + j) / m) ((ts.idxOf i * n + j) % m)
     Issues s.cur (ds ++ srcs) [] [] → (∀ i ∈ ts, helper s.cur i = false → poisoned s.cur srcs i = false) →
     ∃ t, exec (row.1 p d a) s = .next t ∧
       (∀ j < n, Delivered (zeroes p) (maskOf p) (d.toNat + j) (fun i => if poisoned s.cur srcs i then 0 else val j i) s.cur t.cur) ∧
       OnlyWrites (words1 p) ds [] [] s t)) ∧
  ((∀ d a i s,
     let present := s.cur.pmask.getLsbD i.toNat
     let bad := poisoned s.cur [a.toNat] i.toNat
     Issues s.cur [a.toNat] [] [d.toNat] → s.cur.rix ≤ i.toNat → (present = true → helper s.cur i.toNat = false → bad = false) →
     ∃ t, exec (.vget d a i) s = .next t ∧
       UniformDone 1 [(d.toNat, if present && !bad then Machine.vget s.cur a.toNat i.toNat else 0)] s t) ∧
   (∀ d a i s, Issues s.cur [a.toNat] [] [d.toNat] → i.toNat < s.cur.rix →
     ∃ t, exec (.vget d a i) s = .next t ∧ OnlyWrites 1 [] [] [] s t) ∧
   (∀ d a i s, Issues s.cur [a.toNat] [d.toNat] [] →
     ∃ t, exec (.vput d a i) s = .next t ∧ OnlyWrites 1 [a.toNat] [] [] s t ∧
       ∀ k < 32,
         if k = i.toNat ∧ s.cur.pmask.getLsbD k = true then
           Machine.vget t.cur a.toNat k = gget s.cur d.toNat ∧ mfind t.cur.vPoison (a.toNat * 32 + k) = none
         else Machine.vget t.cur a.toNat k = Machine.vget s.cur a.toNat k ∧
           mfind t.cur.vPoison (a.toNat * 32 + k) = mfind s.cur.vPoison (a.toNat * 32 + k)) ∧
   (∀ d a s,
     let val := match (visited s.cur 0).head? with
       | some i => if poisoned s.cur [a.toNat] i then 0 else Machine.vget s.cur a.toNat i
       | none => 0
     Issues s.cur [a.toNat] [] [d.toNat] →
     (∀ i ∈ (visited s.cur 0).head?, helper s.cur i = false → poisoned s.cur [a.toNat] i = false) →
     ∃ t, exec (.first d a) s = .next t ∧ UniformDone 1 [(d.toNat, val)] s t))

/-- VVK (R89, R90, R110): the operation on the word of the constant bank, under m0, once the group's GST is performed. -/
def Obligations.ConstantBankResults : Prop :=
  (∀ row ∈ ([(.faddK, fun rm a c => rounded32 rm (fAdd rm (f32 a) (f32 c))), (.fmulK, fun rm a c => rounded32 rm (fMul (f32 a) (f32 c))),
      (.iaddK, fun _ a c => unrounded (a + c))] :
      List ((BitVec 6 → BitVec 6 → BitVec 4 → BitVec 9 → Instr) × (Nat → Word → Word → DWord → Eff))), ∀ d a k f s x s',
    let e := fun srs i => row.2 (rmode s.cur none) (vget s.cur a.toNat i) x srs
    Issues s.cur [d.toNat, a.toNat] [] [] → NoGst s.cur → bankWord s k f = some (x, s') → NoTrap s.cur 0 [a.toNat] e →
    ∃ t, exec (row.1 d a k f) s = .next t ∧ VectorRounded false 0 1 d.toNat [a.toNat] e s' t) ∧
  (∀ d a k f s x s',
    let rm := rmode s.cur none
    let e := fun srs i => rounded32 rm (fFma rm (f32 (vget s.cur d.toNat i)) (f32 (vget s.cur a.toNat i)) (f32 x)) srs
    Issues s.cur [d.toNat, a.toNat] [] [] → NoGst s.cur → bankWord s k f = some (x, s') → NoTrap s.cur 0 [d.toNat, a.toNat] e →
    ∃ t, exec (.ffmaK d a k f) s = .next t ∧ VectorRounded false 0 1 d.toNat [d.toNat, a.toNat] e s' t) ∧
  (∀ d k f s x s', Issues s.cur [d.toNat] [] [] → NoGst s.cur → bankWord s k f = some (x, s') →
    ∃ t, exec (.movK d k f) s = .next t ∧ VectorDone false 0 1 d.toNat [] (fun _ => x) s' t)

/-! ## Control -/

/-- The branches (R95, R111): four times the offset from the PC where the condition holds, else the next instruction. LOOP and
CALL (R112): LOOP subtracts 1 and branches while the result is not 0; CALL writes the code offset of the next instruction to the
pair g380:g381 and branches. JG and BRX (R39, R113, R115): the target is CODEBASE plus a code offset, where the word LAND must
stand. JG writes the link, unless its number is 0x1FF; BRX keeps in m0 the threads that go with the lowest one that is no helper
and gives the others in gl; where there is none it goes on; a poisoned helper counts as 0, which is log 15 (DEDUCED). -/
def Obligations.BranchResults : Prop :=
  (∀ (f : BitVec 2) (m : BitVec 3) (o : BitVec 18) s,
     let same := mreg s.cur m.toNat &&& s.cur.pmask = mreg s.cur 0 &&& s.cur.pmask
     ∀ row ∈ ([(.br o, true), (.brF f o, fget s.cur f.toNat), (.brNf f o, !fget s.cur f.toNat),
         (.brMnz m o, decide (mreg s.cur m.toNat ≠ 0)), (.brMz m o, decide (mreg s.cur m.toNat = 0)),
         (.brMall m o, decide same), (.brMnall m o, decide ¬same)] : List (Instr × Bool)),
       ∃ t, exec row.1 s = .next t ∧ Branched (s.cur.pc + if row.2 then 4 * o.signExtend 64 else 4) [] [] s t) ∧
  ((∀ d o s,
     let x := gget s.cur d.toNat - 1
     Issues s.cur [] [d.toNat] [] →
     ∃ t, exec (.loop d o) s = .next t ∧ Branched (s.cur.pc + if x = 0 then 4 else 4 * o.signExtend 64) [d.toNat] [] s t ∧
       gget t.cur d.toNat = x ∧ mfind t.cur.gPoison d.toNat = none) ∧
   (∀ o s, Issues s.cur [] [] [380, 381] →
     ∃ t, exec (.call o) s = .next t ∧ Branched (s.cur.pc + 4 * o.signExtend 64) [380, 381] [] s t ∧
       gget t.cur 380 = pcOffset s.cur + 4 ∧ gget t.cur 381 = 0 ∧
       mfind t.cur.gPoison 380 = none ∧ mfind t.cur.gPoison 381 = none)) ∧
  ((∀ a l s s',
     let target := codeBase s.cur + (gget s.cur a.toNat).setWidth 64
     let link := if l.toNat = 511 then [] else [l.toNat, l.toNat + 1]
     Issues s.cur [] [a.toNat] link → target.toNat % 4 = 0 → targetWord s s.cur target.toNat = .word s' 0x76000000 →
     ∃ t, exec (.jg a l) s = .next t ∧ Branched target link [] s' t ∧
       (l.toNat ≠ 511 → gget t.cur l.toNat = pcOffset s.cur + 4 ∧ gget t.cur (l.toNat + 1) = 0)) ∧
   (∀ a l s s' t0,
     let act := threads (activeMask s.cur 0)
     let target := codeBase s.cur + (vget s.cur a.toNat t0).setWidth 64
     Issues s.cur [a.toNat] [] [l.toNat] → act.find? (fun i => !helper s.cur i) = some t0 →
     (∀ i ∈ act, helper s.cur i = false → poisoned s.cur [a.toNat] i = false) → target.toNat % 4 = 0 →
     targetWord s s.cur target.toNat = .word s' 0x76000000 →
     ∃ t, exec (.brx a l) s = .next t ∧ Branched target [l.toNat] [0] s' t ∧
       ∀ i < 32,
         let x := if poisoned s.cur [a.toNat] i then 0 else vget s.cur a.toNat i
         (mreg t.cur 0).getLsbD i = decide (i ∈ act ∧ x = vget s.cur a.toNat t0) ∧
         (gget t.cur l.toNat).getLsbD i = decide (i ∈ act ∧ x ≠ vget s.cur a.toNat t0)) ∧
   (∀ a l s, Issues s.cur [a.toNat] [] [l.toNat] → (∀ i ∈ threads (activeMask s.cur 0), helper s.cur i = true) →
     ∃ t, exec (.brx a l) s = .next t ∧ Branched (s.cur.pc + 4) [l.toNat] [] s t ∧ gget t.cur l.toNat = 0))

/-- LAND, NOP and EXIT (R114, R116): the first two only take their issue cycle; EXIT takes the threads of a mask out of the
present and the helper threads, and with the last present thread the group retires. -/
def Obligations.ExitResults : Prop :=
  (∀ i ∈ ([.land, .nop] : List Instr), ∀ s, ∃ t, exec i s = .next t ∧ OnlyWrites 1 [] [] [] s t) ∧
  (∀ p s,
    let left := s.cur.pmask &&& ~~~mreg s.cur (maskOf p)
    privileged s.cur = false → left ≠ 0 →
    ∃ t, exec (.exit p) s = .next t ∧ t.cur.pmask = left ∧ t.cur.hmask = s.cur.hmask &&& left ∧
      OnlyWrites (words1 p) [] [] [] s (modCur t fun g => { g with pmask := s.cur.pmask, hmask := s.cur.hmask })) ∧
  (∀ p s,
    privileged s.cur = false → s.cur.pmask &&& ~~~mreg s.cur (maskOf p) = 0 → s.cur.pmask ≠ 0 →
    (∀ o ∈ s.cur.ops, o.kind ≠ .cadd ∧ o.kind ≠ .future) →
    ∃ t, exec (.exit p) s = .next t ∧ t.cur.st = .retired ∧ t.cur.pmask = 0 ∧ t.cur.rgn = none ∧ Completed (words1 p) s t ∧
      VectorsKept [] s.cur t.cur ∧ UniformsKept [] s.cur t.cur ∧ MasksKept [] s.cur t.cur ∧ StatusKept s.cur t.cur)

/-! ## Memory instructions -/

/-- GLD, GLD64 and GST (R110, R170): the address is the pair plus the scaled immediate. A load's registers hold what the access
gives, with its poison, and are interlocked until it arrives; a store leaves later accesses waiting until it is performed; the group
waits for the end of the L1 phase. Where the walk of the page has not ended the instruction stalls under tlb and the walk is in flight.
What an access of device memory is (R153, R155, R160): a load gives the bytes of memory at the translated address, or those of a copy
that is valid at the group's clock; its clock is the group's, but at least the wts of a tracked line; a store writes its bytes from
that address on and no others, at least one after the line's rts. -/
def Obligations.UniformMemoryResults : Prop :=
  (∀ row ∈ ([(.gld, 1), (.gld64, 2)] : List ((BitVec 9 → BitVec 7 → BitVec 9 → Instr) × Nat)), ∀ d gp i s s1 l s2 clk x bad,
    let n := 4 * row.2
    let va := (((pairVal s.cur gp : Int) + i.toInt * n) % 2 ^ 64).toNat
    let ds := (List.range row.2).map (d.toNat + ·)
    Issues s.cur [] [2 * gp.toNat, 2 * gp.toNat + 1] ds → NoGst s.cur → walksDone s { r := true } [va] = true →
    address s (whoOf s s.cur) va n { r := true } = (s1, .ok l) → groupLoad s1 s1.cur l n = .done s2 clk x bad →
    ∃ t, exec (row.1 d gp i) s = .next t ∧
      Issued true .gld none [] ds ds (.loadDataReturn (gidOf s2.cur) s2.cur.nextOp 0) s2 t ∧ t.cur.lclk = clk ∧
      ∀ k < row.2, gget t.cur (d.toNat + k) = BitVec.ofNat 32 (x / 2 ^ (32 * k)) ∧ mfind t.cur.gPoison (d.toNat + k) = bad) ∧
  (∀ d gp i s s1 l s2 clk x bad,
    let va := (((pairVal s.cur gp : Int) + i.toInt * 4) % 2 ^ 64).toNat
    Issues s.cur [] (d.toNat :: [2 * gp.toNat, 2 * gp.toNat + 1]) [] → NoGst s.cur → walksDone s { w := true } [va] = true →
    address s (whoOf s s.cur) va 4 { w := true } = (s1, .ok l) →
    groupStore s1 s1.cur l va 4 (gget s.cur d.toNat).toNat = .done s2 clk x bad →
    ∃ t, exec (.gst d gp i) s = .next t ∧
      Issued true .gst none [] [] [] (.storePerformed (gidOf s2.cur) s2.cur.nextOp) s2 t ∧ t.cur.lclk = clk) ∧
  (∀ d gp i s,
    let va := (((pairVal s.cur gp : Int) + i.toInt * 4) % 2 ^ 64).toNat
    Issues s.cur [] (d.toNat :: [2 * gp.toNat, 2 * gp.toNat + 1]) [d.toNat] → NoGst s.cur → va % 4 = 0 → va < 2 ^ 58 →
    pageNo va ∉ s.cur.walks →
    ∀ row ∈ ([(.gld d gp i, { r := true }, false), (.gst d gp i, { w := true }, true)] : List (Instr × Need × Bool)),
      tlbFind s (whoOf s s.cur) va row.2.1 = none →
      ∃ t, exec row.1 s = .next t ∧ Stalls 10 false s { t with pending := s.pending } ∧
        (t.pending = s.pending ∧ (64 ≤ (walksOf s (s.cur.core / 8)).length ∨ (s.cur.ctx, pageNo va) ∈ walksOf s (s.cur.core / 8)) ∨
          t.pending = s.pending ++ [.pageWalk s.cur.core s.cur.ctx (pageNo va * 2 ^ 14) row.2.2])) ∧
  ((∀ s g l n asked, Reaches s g l n false → ∃ s2 clk x bad, groupLoad s g l n asked = .done s2 clk x bad ∧
      (∀ a, readByte s2.mm.mem a = readByte s.mm.mem a) ∧ (placeOf l ≠ .tracked → clk = g.lclk) ∧
      ((∀ c, ownCopy s g l = some c → c.excl = true ∨ before c.rts g.lclk = true) →
        x = readBytes s.mm.mem l.pa n ∧ bad = badAt s l.pa n) ∧
      (∀ c, ownCopy s g l = some c → c.excl = true → clk = ltMax g.lclk (clamp s c.wts)) ∧
      (∀ c, ownCopy s g l = some c → c.excl = false → before c.rts g.lclk = false →
        (x = readBytes c.data l.pa n ∧ bad = badIn c.bad l.pa n ∧ clk = ltMax g.lclk (clamp s c.wts)) ∨
        (x = readBytes s.mm.mem l.pa n ∧ bad = badAt s l.pa n)) ∧
      (placeOf l = .tracked → (l2Line s (l.pa / 128)).bind (·.owner) = none →
        (∀ c, ownCopy s g l = some c → c.excl = false ∧ before c.rts g.lclk = true) →
        clk = ltMax g.lclk (sliceWts s (l.pa / 128)))) ∧
   (∀ s g l va n x, Reaches s g l n true → ulogOn (ctx s g.ctx) = false →
      ∃ s2 clk, groupStore s g l va n x = .done s2 clk 0 none ∧ BytesStored s s2 l.pa n x ∧ StoreTime s g l clk))

/-- LDV, LDVS and STV (R168, R170, R172, R173): counted once on the arrival counter, whatever the number of threads; the threads
perform their parts in order; then the PC advances, the arrival is due and the L1 phase holds the group. With no active thread
nothing is outstanding. LDS and STS (R17, R97, R169, R172, R175): as LDV and STV on the scratchpad; the request takes its place in
the scratch queue of each of its homes. -/
def Obligations.VectorMemoryIssue : Prop :=
  (∀ p v a gp w z s s2,
     let n := sizeBytes z
     let vs := if n = 8 then [v.toNat, v.toNat + 1] else [v.toNat]
     let start := fun kind => (openOp kind (some w.toNat) s).1
     let arrival := fun e : Nat → Nat → Instr => e (gidOf s2.cur) s.cur.nextOp
     Issues s.cur (a.toNat :: vs) [2 * gp.toNat, 2 * gp.toNat + 1] [] → NoGst s.cur → wget s.cur w.toNat < 255 →
     interruptedOp s.cur = none →
     (activeMask s.cur (maskOf p) = 0 → ∀ i ∈ ([.ldv p v a gp w z, .ldvs p v a gp w z, .stv p v a gp w z] :
         List Instr), ∃ t, exec i s = .next t ∧ OnlyWrites (words1 p) [] [] [] s t) ∧
     (activeMask s.cur (maskOf p) ≠ 0 →
       (∀ row ∈ ([(.ldv p v a gp w z, false), (.ldvs p v a gp w z, true)] : List (Instr × Bool)),
         walksDone s { r := true } (threadAddrs s.cur (activeMask s.cur (maskOf p)) [a.toNat] false n fun t => globalAddr s.cur p gp a n t) = true →
         performed p vs [a.toNat] 0 (loadThread p v a gp n row.2) (start .load) = some s2 →
         ∃ t, exec row.1 s = .next t ∧ MemIssued true (words1 p) s.cur.nextOp vs [arrival (.loadDataReturn · · 0)] s2 t) ∧
       (walksDone s { w := true }
           (threadAddrs s.cur (activeMask s.cur (maskOf p)) (a.toNat :: vs) true n fun t => globalAddr s.cur p gp a n t) = true →
         performed p [] (a.toNat :: vs) 0 (storeThread p v a gp n) (start .store) = some s2 →
         ∃ t, exec (.stv p v a gp w z) s = .next t ∧
           MemIssued true (words1 p) s.cur.nextOp [] [arrival .storePerformed] s2 t))) ∧
  (∀ p v a w z s s2,
     let n := sizeBytes z
     let vs := if n = 8 then [v.toNat, v.toNat + 1] else [v.toNat]
     let start := fun kind => (openOp kind (some w.toNat) s).1
     let os := (threads (activeMask s.cur (maskOf p))).map fun i =>
       (vget s.cur a.toNat i).toNat + (match p with | none => 0 | some q => q.imm.toNat) * n
     Issues s.cur (a.toNat :: vs) [] [] → NoGst s.cur → wget s.cur w.toNat < 255 → interruptedOp s.cur = none →
     (block s s.cur.blk).unpinned = [] →
     (activeMask s.cur (maskOf p) = 0 → ∀ i ∈ ([.lds p v a w z, .sts p v a w z] : List Instr),
       ∃ t, exec i s = .next t ∧ OnlyWrites (words1 p) [] [] [] s t) ∧
     (activeMask s.cur (maskOf p) ≠ 0 →
       (performed p vs [a.toNat] 0 (ldsThread p v a n) (start .scrLoad) = some s2 →
         ∃ t cs, exec (.lds p v a w z) s = .next t ∧ Homes s os cs ∧ Requested (words1 p) s.cur.nextOp vs cs s2 t) ∧
       (performed p [] (a.toNat :: vs) 0 (stsThread p v a n) (start .scrStore) = some s2 →
         ∃ t cs, exec (.sts p v a w z) s = .next t ∧ Homes s os cs ∧ Requested (words1 p) s.cur.nextOp [] cs s2 t)))

/-- What one thread of LDV, LDVS or STV does (R9, R168, R173): the address is the pair plus the thread's va plus the scaled displacement;
the access's bytes reach the thread's registers, zero or sign extended, and no other thread's; a store gives the low bytes of the thread's
registers; a helper stores nothing; a refused address traps with its cause. A load reads what GLD reads there, but that a line read for a
thread before is read from the same copy (R320). The stores of an instruction outside a region are performed together, the threads of a
line in ascending order, one after the other (R155, R170), and each writes its bytes and no others. What one thread of LDS or STS does (R9,
R169, R175): the offset is the thread's va plus the scaled immediate; alignment comes before the bound; a store writes the bytes from the
offset on and no others. -/
def Obligations.ThreadAccess : Prop :=
  (∀ (p : Option Prefix) (v a : BitVec 6) (gp : BitVec 7) (z : MemSize) (m : Served) (s s1 s2 : State) (t : Nat) (l : Leaf),
     let n := sizeBytes z
     let va := (((pairVal s.cur gp : Int) + (vget s.cur a.toNat t).toNat + dispOf p * n) % 2 ^ 64).toNat
     let vs := if n = 8 then [v.toNat, v.toNat + 1] else [v.toNat]
     t < 32 →
     (∀ sgn m' clk x bad, address s (whoOf s s.cur) va n { r := true } = (s1, .ok l) →
       servedLoad m s1 l n = (m', .done s2 clk x bad) →
       ∃ s3, loadThread p v a gp n sgn m s t = (m', .ok s3) ∧ s3.cur.lclk = clk ∧ s3 = { s2 with cur := s3.cur } ∧
         (∀ k < vs.length, mfind s3.cur.vPoison ((v.toNat + k) * 32 + t) = bad) ∧
         vget s3.cur v.toNat t = (match z with
           | .b8 => if sgn then (BitVec.ofNat 8 x).signExtend 32 else (BitVec.ofNat 8 x).setWidth 32
           | .b16 => if sgn then (BitVec.ofNat 16 x).signExtend 32 else (BitVec.ofNat 16 x).setWidth 32
           | .b32 | .b64 => BitVec.ofNat 32 x) ∧
         (n = 8 → vget s3.cur (v.toNat + 1) t = BitVec.ofNat 32 (x / 2 ^ 32)) ∧
         ∀ r i, i < 32 → (i ≠ t ∨ r ∉ vs) → vget s3.cur r i = vget s2.cur r i) ∧
     (∀ clk x bad,
       let y := (vget s.cur v.toNat t).toNat + (if n = 8 then 2 ^ 32 * (vget s.cur (v.toNat + 1) t).toNat else 0)
       helper s.cur t = false → address s (whoOf s s.cur) va n { w := true } = (s1, .ok l) → s1.cur = s.cur →
       (s.cur.rgn.isSome → regionStore s1 s1.cur l va n (y % 2 ^ (8 * n)) = .done s2 clk x bad →
         ∃ s3, storeThread p v a gp n m s t = (m, .ok s3) ∧ s3 = { s2 with cur := { s2.cur with ops := s3.cur.ops } }) ∧
       (∀ log, s.cur.rgn = none → admitStore s1 s1.cur l (m.stores.filterMap fun i => i.log.map (·.1)) = .ok (s2, log) →
         ∃ s3, storeThread p v a gp n m s t =
             ({ m with stores := m.stores ++ [{ leaf := l, va := va, size := n, data := y % 2 ^ (8 * n), log := log }] }, .ok s3) ∧
           s3 = { s2 with cur := { s2.cur with ops := s3.cur.ops } })) ∧
     (helper s.cur t = true → storeThread p v a gp n m s t = (m, .ok s)) ∧
     (∀ sgn c, address s (whoOf s s.cur) va n { r := true } = (s1, .error c) →
       loadThread p v a gp n sgn m s t = (m, .trap s1 c.1 c.2 va)) ∧
     (∀ c, helper s.cur t = false → address s (whoOf s s.cur) va n { w := true } = (s1, .error c) →
       storeThread p v a gp n m s t = (m, .trap s1 c.1 c.2 va))) ∧
  ((∀ m s l n, s.cur.rgn.isSome ∨ placeOf l ≠ .tracked ∨ mfind m.lines (l.pa / 128) = none →
      (servedLoad m s l n).2 = groupLoad s s.cur l n m.asked) ∧
   (∀ m s l n c, s.cur.rgn = none → placeOf l = .tracked → groupWaits s l false = false → mfind m.lines (l.pa / 128) = some c →
      servedLoad m s l n = (m, .done s s.cur.lclk (copyBytes s c l.pa n) (copyBad s c l.pa n))) ∧
   (∀ xs, (inLineOrder xs).Perm xs ∧
      ∀ k, (inLineOrder xs).filter (fun x => leafKey x.leaf == k) = xs.filter fun x => leafKey x.leaf == k) ∧
   (∀ xs s, performStores xs s = (inLineOrder xs).foldl (fun s x => performStores [x] s) s) ∧
   (∀ s x, Reaches s s.cur x.leaf x.size true → x.log = none →
      BytesStored s (performStores [x] s) x.leaf.pa x.size x.data ∧ StoreTime s s.cur x.leaf (performStores [x] s).cur.lclk)) ∧
  (∀ (p : Option Prefix) (v a : BitVec 6) (z : MemSize) (m : Served) (s : State) (t : Nat),
     let n := sizeBytes z
     let o := (vget s.cur a.toNat t).toNat + (match p with | none => 0 | some q => q.imm.toNat) * n
     let b := block s s.cur.blk
     t < 32 → s.cur.sup = false → mfind s.blocks s.cur.blk = some b →
     (o % n ≠ 0 → ldsThread p v a n m s t = (m, .trap s 4 0 o) ∧
       (helper s.cur t = false → stsThread p v a n m s t = (m, .trap s 4 0 o))) ∧
     (o % n = 0 → b.scrSize < o + n → ldsThread p v a n m s t = (m, .trap s 2 0 o) ∧
       (helper s.cur t = false → stsThread p v a n m s t = (m, .trap s 2 0 o))) ∧
     (o % n = 0 → o + n ≤ b.scrSize →
       (∃ s3, ldsThread p v a n m s t = (m, .ok s3) ∧ s3 = { s with cur := s3.cur } ∧
         vget s3.cur v.toNat t = (match z with
           | .b8 => (scrByte b o).setWidth 32
           | .b16 => (scrByte b (o + 1) ++ scrByte b o).setWidth 32
           | .b32 | .b64 => scrByte b (o + 3) ++ scrByte b (o + 2) ++ scrByte b (o + 1) ++ scrByte b o) ∧
         (n = 8 → vget s3.cur (v.toNat + 1) t =
           scrByte b (o + 7) ++ scrByte b (o + 6) ++ scrByte b (o + 5) ++ scrByte b (o + 4))) ∧
       (helper s.cur t = false → ∃ s3, stsThread p v a n m s t = (m, .ok s3) ∧ s3.cur = s.cur ∧ s3.mm = s.mm ∧
         (∀ k < n, scrByte (block s3 s.cur.blk) (o + k) =
           ((if k < 4 then vget s.cur v.toNat t else vget s.cur (v.toNat + 1) t).extractLsb' (8 * (k % 4)) 8)) ∧
         ∀ k, (k < o ∨ o + n ≤ k) → scrByte (block s3 s.cur.blk) k = scrByte b k)))

/-- ATOM and ATOMS (R171, R176, R177): each instruction's new value is the table's function of the old one and its operands, read
at issue; ATOM names no arrival counter; where the old value is returned its registers are interlocked until it arrives. An atomic
that rounds advances SRS by one step under RSTO and seeds its own generator. With no active thread nothing happens. PRF (R159,
R179): counted on its arrival counter; it traps on nothing after decode, poison in its address included, and leaves every register
and LCLK; in a region, which what it brings in may abort, it completes or the group is at the handler. It does not wait for a GST,
which is log 72 (DEDUCED); while the device's accesses are held it may wait (R158, R202, R249). -/
def Obligations.AtomicIssue : Prop :=
  (∀ p (v a : BitVec 6) gp z r s s2,
     let n := if z then 8 else 4
     let word : (Nat → Nat → Nat) → AtomFn := fun f _ gen old x _ => (some (f old x), gen)
     let int := fun x => (BitVec.ofNat (8 * n) x).toInt
     let addF : AtomFn := fun rm gen old x _ =>
       let y := roundTo fp32 rm false (fAdd rm (fval fp32 old) (fval fp32 x)).1 gen
       (some y.bits, y.srs)
     let addBf : AtomFn := fun rm gen old x _ =>
       let sum := fun a b => (fAdd rm (fval bf16 (a % 2 ^ 16)) (fval bf16 (b % 2 ^ 16))).1
       let lo := roundTo bf16 rm false (sum old x) gen
       let hi := roundTo bf16 rm false (sum (old / 2 ^ 16) (x / 2 ^ 16)) lo.srs
       (some (lo.bits + 2 ^ 16 * hi.bits), hi.srs)
     let wide := fun f => ({ f := f, n := n, ret := r } : AtomShape)
     let float := fun f => ({ f := f, integer := false, ret := r } : AtomShape)
     ∀ row ∈ ([(.atomAddI p v a gp z r, .atomsAddI p v a z r, wide (word fun old x => (old + x) % 2 ^ (8 * n))),
         (.atomMinI p v a gp z r, .atomsMinI p v a z r, wide (word fun old x => if int x < int old then x else old)),
         (.atomMaxI p v a gp z r, .atomsMaxI p v a z r, wide (word fun old x => if int old < int x then x else old)),
         (.atomMinN p v a gp z r, .atomsMinN p v a z r, wide (word fun old x => min old x)),
         (.atomMaxN p v a gp z r, .atomsMaxN p v a z r, wide (word fun old x => max old x)),
         (.atomAnd p v a gp z r, .atomsAnd p v a z r, wide (word fun old x => old &&& x)),
         (.atomOr p v a gp z r, .atomsOr p v a z r, wide (word fun old x => old ||| x)),
         (.atomXor p v a gp z r, .atomsXor p v a z r, wide (word fun old x => old ^^^ x)),
         (.atomXchg p v a gp z r, .atomsXchg p v a z r, { wide (word fun _ x => x) with uses := false }),
         (.atomCas p v a gp z r, .atomsCas p v a z r,
           { wide (fun _ gen old x y => (if old = x then some y else none, gen)) with two := true }),
         (.atomMinF p v a gp r, .atomsMinF p v a r, float (word fun old x => (fPick fp32 false old x).1)),
         (.atomMaxF p v a gp r, .atomsMaxF p v a r, float (word fun old x => (fPick fp32 true old x).1)),
         (.atomAddF p v a gp r, .atomsAddF p v a r, { float addF with draws := true }),
         (.atomAddBf16x2 p v a gp, .atomsAddBf16x2 p v a, { float addBf with draws := true, ret := false })] :
         List (Instr × Instr × AtomShape)),
       let h := row.2.2
       let ops := (List.range (h.n / 4 * (if h.two then 2 else 1))).map (v.toNat + ·)
       let ds := if h.ret then (List.range (h.n / 4)).map (v.toNat + ·) else []
       let start := if h.draws ∧ rmode s.cur p = 5 then modCur s fun g => { g with srs := srsStep g.srs } else s
       let gid := gidOf s2.cur
       let os := (threads (activeMask s.cur (maskOf p))).map fun i =>
         (vget s.cur a.toNat i).toNat + (match p with | none => 0 | some q => q.imm.toNat) * h.n
       Issues s.cur (a.toNat :: ops) [] [] → NoGst s.cur → interruptedOp s.cur = none →
       (Issues s.cur [] [2 * gp.toNat, 2 * gp.toNat + 1] [] → activeMask s.cur (maskOf p) = 0 →
         ∃ t, exec row.1 s = .next t ∧ OnlyWrites (words1 p) [] [] [] s t) ∧
       ((block s s.cur.blk).unpinned = [] → activeMask s.cur (maskOf p) = 0 →
         ∃ t, exec row.2.1 s = .next t ∧ OnlyWrites (words1 p) [] [] [] s t) ∧
       (Issues s.cur [] [2 * gp.toNat, 2 * gp.toNat + 1] [] → activeMask s.cur (maskOf p) ≠ 0 →
         walksDone s { r := true, w := true }
           (threadAddrs s.cur (activeMask s.cur (maskOf p)) (a.toNat :: ops) true h.n fun t => globalAddr s.cur p gp a h.n t) = true →
         performed p ds (a.toNat :: ops) start.cur.srs (atomThread h p v a gp) (openOp .atom none start).1 = some s2 →
         ∃ t, exec row.1 s = .next t ∧ MemIssued true (words1 p) s.cur.nextOp ds
           [if h.ret then .loadDataReturn gid s.cur.nextOp 0 else .storePerformed gid s.cur.nextOp] s2 t) ∧
       ((block s s.cur.blk).unpinned = [] → activeMask s.cur (maskOf p) ≠ 0 →
         performed p ds (a.toNat :: ops) start.cur.srs (atomsThread h p v a) (openOp .atom none start).1 = some s2 →
         ∃ t cs, exec row.2.1 s = .next t ∧ Homes s os cs ∧ Requested (words1 p) s.cur.nextOp ds cs s2 t)) ∧
  (∀ p a gp w z s,
     Issues s.cur [a.toNat] [] [2 * gp.toNat, 2 * gp.toNat + 1] → wget s.cur w.toNat < 255 → deviceHeld s = false →
     ∃ t, exec (.prf p a gp w z) s = .next t ∧ VectorsKept [] s.cur t.cur ∧
       UniformsKept [] s.cur t.cur ∧ MasksKept [] s.cur t.cur ∧ StatusKept s.cur t.cur ∧ FlagsKept s.cur t.cur ∧
       t.cur.lclk = s.cur.lclk ∧
       (∀ r, s.cur.rgn = some r → Completed (words1 p) s t ∨ (t.cur.rgn = none ∧ t.cur.pc = r.handler)) ∧
       (s.cur.rgn = none → Completed (words1 p) s t ∧
         (activeMask s.cur (maskOf p) ≠ 0 → Outstanding t.cur s.cur.nextOp .prf (some w.toNat) [] [] ∧
           .loadDataReturn (gidOf s.cur) s.cur.nextOp 0 ∈ t.pending)))

/-- What one thread of an atomic does (R9, R145, R176, R177): on memory, what the access answers reaches the destination if the
instruction returns it; on scratch, the old bytes are read and replaced by the new value, in one step; a helper's destination
receives +0 and nothing is stored. On device memory the old value is the bytes at the translated address, and the new value replaces
them and nothing else, one after the line's rts (R155, R160). -/
def Obligations.ThreadAtomic : Prop :=
  ∀ (h : AtomShape) (p : Option Prefix) (v a : BitVec 6) (gp : BitVec 7) (m : Served) (s : State) (t : Nat),
    let operand := fun r => ((Machine.vget s.cur r t).toNat +
      (if h.n = 8 then 2 ^ 32 * (Machine.vget s.cur (r + 1) t).toNat else 0)) % 2 ^ (8 * h.n)
    let f := fun old => h.f (rmode s.cur p) m.gen old (operand v.toNat) (operand (v.toNat + h.n / 4))
    (h.n = 4 ∨ h.n = 8) → t < 32 →
    (∀ g l va integer uses new, Reaches s g l h.n true → ulogOn (ctx s g.ctx) = false →
      let old := readBytes s.mm.mem l.pa h.n
      ∃ s2 clk, groupAtomic s g l va h.n integer uses new = .done s2 clk old (badAt s l.pa h.n) ∧
        BytesStored s s2 l.pa h.n ((new old).getD old) ∧ StoreTime s g l clk) ∧
    (∀ s1 s2 l clk old bad,
      let va := (((pairVal s.cur gp : Int) + (Machine.vget s.cur a.toNat t).toNat + dispOf p * h.n) % 2 ^ 64).toNat
      helper s.cur t = false → address s (whoOf s s.cur) va h.n { r := true, w := true } = (s1, .ok l) →
      s1.cur = s.cur → groupAtomic s1 s1.cur l va h.n h.integer h.uses (fun old => (f old).1) = .done s2 clk old bad →
      ∃ s3, atomThread h p v a gp m s t = ({ m with gen := (f old).2 }, .ok s3) ∧ s3 = { s2 with cur := s3.cur } ∧
        s3.cur.lclk = clk ∧
        Machine.vget s3.cur v.toNat t = (if h.ret then BitVec.ofNat 32 old else Machine.vget s2.cur v.toNat t) ∧
        (h.n = 8 → Machine.vget s3.cur (v.toNat + 1) t =
          if h.ret then BitVec.ofNat 32 (old / 2 ^ 32) else Machine.vget s2.cur (v.toNat + 1) t)) ∧
    (helper s.cur t = true → ∃ s3, atomThread h p v a gp m s t = (m, .ok s3) ∧ s3 = { s with cur := s3.cur } ∧
      Machine.vget s3.cur v.toNat t = if h.ret then 0 else Machine.vget s.cur v.toNat t) ∧
    (let o := (Machine.vget s.cur a.toNat t).toNat + (match p with | none => 0 | some q => q.imm.toNat) * h.n
      let b := block s s.cur.blk
      let old := scrRead b o h.n
      helper s.cur t = false → s.cur.sup = false → mfind s.blocks s.cur.blk = some b → o % h.n = 0 → o + h.n ≤ b.scrSize →
      ∃ s3, atomsThread h p v a m s t = ({ m with gen := (f old).2 }, .ok s3) ∧ s3.mm = s.mm ∧
        Machine.vget s3.cur v.toNat t = (if h.ret then BitVec.ofNat 32 old else Machine.vget s.cur v.toNat t) ∧
        ∀ k, scrByte (block s3 s.cur.blk) k =
          match (f old).1 with
          | some x => if o ≤ k ∧ k < o + h.n then BitVec.ofNat 8 (x / 256 ^ (k - o)) else scrByte b k
          | none => scrByte b k)

/-! ## Ordering and waiting -/

/-- FENCE (R143, R180, R298): no effect up to device scope; at system, pod and span scope a release waits for the stores to
untracked memory and the accesses to the host and to peers that its scope orders, and then only completes; an acquire waits for the
loads, and takes the port clocks into LCLK; both stall under fabric until then. WAIT, WAITY, YIELD and LTADV (R146, R174, R219,
R228, R230): a wait whose threshold holds joins the counter's arrived commands and goes on; WAIT else stalls and WAITY enters the
lull with its continuation, where what a trap interrupted may be withdrawn from the counter first (logs 2 and 83); YIELD enters the lull;
LTADV raises LCLK at most to 2^30 − 1 past the front, and is illegal after a prefix. What a fence waits for is log 46 (DEDUCED). -/
def Obligations.FenceWaitResults : Prop :=
  ((∀ z ∈ ([.thr, .quad, .grp, .blk, .core, .clu, .dev] : List Scope),
     ∀ i ∈ ([.fenceFull z, .fenceAcq z, .fenceRel z] : List Instr), ∀ s, NoGst s.cur →
     ∃ t, exec i s = .next t ∧ OnlyWrites 1 [] [] [] s t) ∧
   (∀ z ∈ ([.sys, .pod, .span] : List Scope), ∀ s,
     let cxl := ltMax s.cp.front s.io.cxlClk
     let ual := s.io.ualClk.foldl (fun t p => ltMax t p.2) s.cp.front
     let clock := match z with
       | .sys => cxl
       | .pod => ual
       | _ => ltMax cxl ual
     let released := ∀ o ∈ s.cur.ops, o.tag ≠ 1 → o.kind ≠ .copy → o.untr = false ∧ (z ≠ .pod → o.host = false) ∧ (z ≠ .sys → o.peers = [])
     let acquired := ∀ o ∈ s.cur.ops, o.tag ≠ 1 → o.kind ≠ .load ∧ o.kind ≠ .gld ∧ o.kind ≠ .scrLoad ∧ (o.kind = .atom → o.vregs = [])
     let joined := fun i => ∃ t, exec i s = .next t ∧ t.cur.lclk = ltMax s.cur.lclk clock ∧
       OnlyWrites 1 [] [] [] s (modCur t fun g => { g with lclk := s.cur.lclk })
     NoGst s.cur → s.cur.rgn = none →
     (released → ∃ t, exec (.fenceRel z) s = .next t ∧ OnlyWrites 1 [] [] [] s t) ∧
     (acquired → joined (.fenceAcq z)) ∧ (released → acquired → joined (.fenceFull z)) ∧
     ((∀ o ∈ s.cur.ops, ∀ p ∈ o.peers, p.1 ∉ s.fw.fenced) →
       (¬released → ∀ i ∈ ([.fenceRel z, .fenceFull z] : List Instr), ∃ t, exec i s = .next t ∧ Stalls 21 true s t) ∧
       (¬acquired → ∀ i ∈ ([.fenceAcq z, .fenceFull z] : List Instr), ∃ t, exec i s = .next t ∧ Stalls 21 true s t)))) ∧
  ((∀ w n lit s,
     let done := fun (g : Group) (i : Instr) words => ∃ t, exec i s = .next t ∧
       t.cur.lclk = (match mfind g.joins w.toNat with | some f => ltMax g.lclk f | none => g.lclk) ∧
       mfind t.cur.joins w.toNat = none ∧
       OnlyWrites words [] [] [] { s with cur := g } (modCur t fun h => { h with lclk := g.lclk, joins := g.joins })
     (wget s.cur w.toNat ≤ n.toNat → done s.cur (.wait w n) 1 ∧ (s.cur.rgn = none → done s.cur (.waity w n lit) 2)) ∧
     (n.toNat < wget s.cur w.toNat → ∃ (g : Group) (gone : OpRec → Bool), (∀ o, gone o = true → o.tag = 1 ∧ o.w = some w.toNat) ∧
       g = { s.cur with ops := s.cur.ops.map (fun o => if gone o then { o with w := none } else o),
                        w := mput 0 s.cur.w w.toNat (wget s.cur w.toNat - (s.cur.ops.filter gone).length) } ∧
       (wget g w.toNat ≤ n.toNat → done g (.wait w n) 1 ∧ (s.cur.rgn = none → done g (.waity w n lit) 2)) ∧
       (n.toNat < wget g w.toNat →
         (∃ t reason, exec (.wait w n) s = .next t ∧ (reason = 5 ∨ reason = 13) ∧ Stalls reason true { s with cur := g } t) ∧
         (s.cur.rgn = none → ∃ t, exec (.waity w n lit) s = .next t ∧ t.pending = s.pending ∧
           Lulled (.count w.toNat n.toNat) (s.cur.pc + lit.signExtend 64) { s with cur := g } t)))) ∧
   (∀ s, s.cur.rgn = none → ∃ t, exec .yield s = .next t ∧ Lulled .yielded (s.cur.pc + 4) s t ∧
     t.pending = s.pending ++ [.yieldExpiry (gidOf s.cur)]) ∧
   (∀ s,
     let cap := s.cp.front + 0x3FFFFFFF
     let raised := fun n => if before s.cur.lclk cap then s.cur.lclk + BitVec.ofNat 32 (min n (cap - s.cur.lclk).toNat) else s.cur.lclk
     (∀ a, Issues s.cur [] [a.toNat] [] → ∃ t, exec (.ltadvReg a) s = .next t ∧ t.cur.lclk = raised (gget s.cur a.toNat).toNat ∧
       OnlyWrites 1 [] [] [] s (modCur t fun g => { g with lclk := s.cur.lclk })) ∧
     ∀ c, ∃ t, exec (.ltadvImm c) s = .next t ∧ t.cur.lclk = raised c.toInt.toNat ∧
       OnlyWrites 1 [] [] [] s (modCur t fun g => { g with lclk := s.cur.lclk })) ∧
   (∀ p (w : Word) rest, w.toNat / 2 ^ 25 = 0x4E → decodeWords (prefixWord p :: w :: rest) = .enc 1))

/-- CADD and CREAD (R147, R220 to R222): CADD is counted and its addition at the counter's slice is due; at a peer's counter the sum is
there at issue and the answer is due (logs 8 and 45, DEDUCED); CREAD takes the value and acquires the counter's time. CWAIT and CWAITY
(R223): the request, with the target and the continuations, goes to the counter's slice, and the group waits. Each stalls under fabric
while the counter's line is held for a region or a rebase (R158, R202). -/
def Obligations.CounterResults : Prop :=
  ((∀ gp a w s s1 l,
     let va := pairVal s.cur gp
     let amount := (gget s.cur a.toNat).toNat
     Issues s.cur [] (a.toNat :: [2 * gp.toNat, 2 * gp.toNat + 1]) [] → NoGst s.cur → s.cur.rgn = none → wget s.cur w.toNat < 255 →
     walksDone s { r := true, w := true } [va] = true →
     address s (whoOf s s.cur) va 8 { r := true, w := true } = (s1, .ok l) → ulogOn (ctx s1 s.cur.ctx) = false → s1.cur = s.cur →
     (placeOf l = .tracked ∨ placeOf l = .untracked ∨ placeOf l = .direct → mustWait s1 none (l.pa / 128) true = true →
       ∃ t, exec (.cadd gp a w) s = .next t ∧ Stalls 21 true s1 t) ∧
     (placeOf l = .tracked ∨ placeOf l = .untracked ∨ placeOf l = .direct → mustWait s1 none (l.pa / 128) true = false →
       memFault s1 l.pa l.via = none →
       let s2 := sliceReady s1 s.cur.ctx (l.pa / 128) true l.via
       s2.cur = s.cur → ulogOn (ctx s2 s.cur.ctx) = false →
       ∃ t, exec (.cadd gp a w) s = .next t ∧ t.cur.lclk = s.cur.lclk ∧
         Issued false .cadd (some w.toNat) [] [] [] (.caddAtSlice (gidOf s.cur) l.pa amount s.cur.nextOp) s2 t) ∧
     (placeOf l = .peer → peerReached s1 (l.pa / 2 ^ 46) = true →
       let sum := (readPeer s1.mm.peerMem l.pa 8 + amount) % 2 ^ 64
       let s2 := { s1 with mm := { s1.mm with peerMem := writeFar s1.mm.peerMem l.pa 8 sum } }
       ∃ t, exec (.cadd gp a w) s = .next t ∧ t.cur.lclk = s.cur.lclk ∧
         Issued false .cadd (some w.toNat) [] [] [] (.caddAnswer (gidOf s.cur) s.cur.nextOp) s2 t)) ∧
   (∀ gp a w s s1 l,
     let va := pairVal s.cur gp
     let s2 := sliceReady s1 s.cur.ctx (l.pa / 128) false l.via
     let x := readBytes s2.mm.mem l.pa 8
     Issues s.cur [] [2 * gp.toNat, 2 * gp.toNat + 1] [a.toNat, a.toNat + 1] → NoGst s.cur → s.cur.rgn = none →
     wget s.cur w.toNat < 255 → walksDone s { r := true } [va] = true →
     address s (whoOf s s.cur) va 8 { r := true } = (s1, .ok l) → s1.cur = s.cur → s2.cur = s.cur →
     placeOf l = .tracked ∨ placeOf l = .untracked ∨ placeOf l = .direct → mustWait s1 none (l.pa / 128) false = false →
     memFault s1 l.pa l.via = none →
     ∃ t, exec (.cread gp a w) s = .next t ∧ t.cur.lclk = ltMax s.cur.lclk (lineOf s2 (l.pa / 128)).wts ∧
       gget t.cur a.toNat = BitVec.ofNat 32 x ∧ gget t.cur (a.toNat + 1) = BitVec.ofNat 32 (x / 2 ^ 32) ∧
       mfind t.cur.gPoison a.toNat = badAt s2 l.pa 8 ∧ mfind t.cur.gPoison (a.toNat + 1) = badAt s2 l.pa 8 ∧
       Issued false .cread (some w.toNat) [] [a.toNat, a.toNat + 1] [a.toNat, a.toNat + 1]
         (.loadDataReturn (gidOf s.cur) s.cur.nextOp 0) s2 t)) ∧
  (∀ gp a lit s s1 l,
     let va := pairVal s.cur gp
     let s2 := sliceReady s1 s.cur.ctx (l.pa / 128) false l.via
     let target := (gget s.cur a.toNat).toNat + 2 ^ 32 * (gget s.cur (a.toNat + 1)).toNat
     Issues s.cur [] [2 * gp.toNat, 2 * gp.toNat + 1, a.toNat, a.toNat + 1] [] → NoGst s.cur → s.cur.rgn = none →
     walksDone s { r := true } [va] = true → address s (whoOf s s.cur) va 8 { r := true } = (s1, .ok l) → s1.cur = s.cur → s2.cur = s.cur →
     placeOf l = .tracked ∨ placeOf l = .untracked ∨ placeOf l = .direct → mustWait s1 none (l.pa / 128) false = false →
     memFault s1 l.pa l.via = none → badAt s2 l.pa 8 = none →
     ∀ row ∈ ([(.cwait gp a, s.cur.pc + 4, none), (.cwaity gp a lit, s.cur.pc + 8, some (s.cur.pc + lit.signExtend 64))] :
         List (Instr × DWord × Option DWord)),
       ∃ t, exec row.1 s = .next t ∧
         t.cur.req = some { va := va, pa := l.pa, target := target, next := row.2.1, yields := row.2.2 } ∧
         t.cur.ticket = none ∧ t.pending = s2.pending ++ [.cwaitRequest (gidOf s.cur)] ∧
         Stalls 5 false s2 { t with pending := s2.pending, cur := { t.cur with req := s2.cur.req, ticket := s2.cur.ticket } })

/-- The block barriers (R144, R225): each instruction completes, an arrival once the group's own stores to scratch have reached the array
and until then stalled under scrbank (R97); a supervisor group, which has no block, only goes on (log 16). Every arrival counts, a second
one of the same group too, whose name the set of arrived groups holds once (log 49, DEDUCED); the first of a generation names the count,
511 meaning every group that has not retired; the last arrival raises the clock of every group that arrived, releases those that wait and
begins a new generation. SYNC and WAIT wait for the generation that the group has arrived in. The grid barriers (R226): in a launch with
GBAR each completes as those of a block do; a group's arrival is noted in its block; the block's own goes to the command processor with the
greatest clock when every group that has not retired has arrived. GSYNC and GWAIT wait in the lull. In a launch without GBAR they are
illegal. -/
def Obligations.BarrierResults : Prop :=
  (let kept := fun (s t : State) => Completed 1 s t ∧ VectorsKept [] s.cur t.cur ∧ UniformsKept [] s.cur t.cur ∧
     MasksKept [] s.cur t.cur ∧ StatusKept s.cur t.cur ∧ FlagsKept s.cur t.cur
   (∀ (i : BitVec 4) (n : BitVec 9) s, NoGst s.cur → s.cur.rgn = none → s.cur.st = .ready →
     (∃ t, exec (.barWait i n) s = .next t ∧ kept s t) ∧
     (scratchDue s = false →
       (∃ t, exec (.barSync i n) s = .next t ∧ kept s t) ∧ (∃ t, exec (.barArrive i n) s = .next t ∧ kept s t)) ∧
     (s.cur.sup = false → scratchDue s = true → ∀ j ∈ ([.barSync i n, .barArrive i n] : List Instr),
       ∃ t, exec j s = .next t ∧ Stalls 8 true s t) ∧
     (s.cur.sup = true → ∀ j ∈ ([.barSync i n, .barArrive i n, .barWait i n] : List Instr),
       ∃ t, exec j s = .next t ∧ OnlyWrites 1 [] [] [] s t)) ∧
   ∀ (i : BitVec 4) s, NoGst s.cur → s.cur.rgn = none → recGbar (launchOf s s.cur) = true →
     (∃ t, exec (.barGwait i) s = .next t ∧ kept s t) ∧
     (scratchDue s = false →
       (∃ t, exec (.barGsync i) s = .next t ∧ kept s t) ∧ (∃ t, exec (.barGarrive i) s = .next t ∧ kept s t)) ∧
     (scratchDue s = true → ∀ j ∈ ([.barGsync i, .barGarrive i] : List Instr), ∃ t, exec j s = .next t ∧ Stalls 8 true s t)) ∧
  (∀ (i : BitVec 4) (n : BitVec 9) s b,
     let k := barrierOf s s.cur.blk i.toNat
     let k' : Barrier :=
       { gcount := if k.count = 0 then n.toNat else k.gcount, count := k.count + 1, gen := k.gen,
         arrived := if s.cur.grpib ∈ k.arrived then k.arrived else k.arrived ++ [s.cur.grpib],
         clk := if k.count = 0 then s.cur.lclk else ltMax k.clk s.cur.lclk }
     let need := if k'.gcount = 511 then b.ng - b.gone.length else k'.gcount
     NoGst s.cur → s.cur.rgn = none → s.cur.sup = false → s.cur.st = .ready → mfind s.blocks s.cur.blk = some b →
     (s.cur.grpib ∉ k.arrived → ∃ t, exec (.barWait i n) s = .next t ∧ OnlyWrites 1 [] [] [] s t) ∧
     (s.cur.grpib ∈ k.arrived →
       ∃ t, exec (.barWait i n) s = .next t ∧ t.pending = s.pending ∧ Lulled (.barrier i.toNat) (s.cur.pc + 4) s t) ∧
     (scratchDue s = false → mreg s.cur 0 = s.cur.lmask → (k.count ≠ 0 → k.gcount = n.toNat) → k'.count < need →
       (∃ t, exec (.barArrive i n) s = .next t ∧ barrierOf t s.cur.blk i.toNat = k' ∧
         OnlyWrites 1 [] [] [] s { t with blocks := s.blocks }) ∧
       (∃ t, exec (.barSync i n) s = .next t ∧ barrierOf t s.cur.blk i.toNat = k' ∧ t.cur.st = .atBarrier i.toNat ∧
         OnlyWrites 1 [] [] [] s { t with blocks := s.blocks, cur := { t.cur with st := s.cur.st } })) ∧
     (scratchDue s = false → mreg s.cur 0 = s.cur.lmask → (k.count ≠ 0 → k.gcount = n.toNat) → need ≤ k'.count →
       ∀ j ∈ ([.barArrive i n, .barSync i n] : List Instr), ∃ t, exec j s = .next t ∧
         barrierOf t s.cur.blk i.toNat = { gen := (k.gen + 1) % 512 } ∧ Completed 1 s t ∧ t.cur.st = .ready ∧
         t.cur.lclk = (if s.cur.priv then s.cur.lclk else ltMax s.cur.lclk k'.clk) ∧
         VectorsKept [] s.cur t.cur ∧ UniformsKept [] s.cur t.cur ∧ MasksKept [] s.cur t.cur ∧ StatusKept s.cur t.cur ∧
         ∀ g ∈ s.others, residentOf s.cur.blk g = true → g.grpib ∈ k'.arrived → inner g = .atBarrier i.toNat →
           ∃ h ∈ t.others, gidOf h = gidOf g ∧ inner h = .ready ∧ h.lclk = if g.priv then g.lclk else ltMax g.lclk k'.clk)) ∧
  (∀ (i : BitVec 4) s b,
     let k := gridBar s s.cur.blk i.toNat
     NoGst s.cur → s.cur.rgn = none → s.cur.sup = false → s.cur.st = .ready → mfind s.blocks s.cur.blk = some b →
     (recGbar (launchOf s s.cur) = false → ∀ j ∈ ([.barGsync i, .barGarrive i, .barGwait i] : List Instr),
       exec j s = .next (illEnc 0 s)) ∧
     (recGbar (launchOf s s.cur) = true → scratchDue s = false →
       (∃ t, exec (.barGarrive i) s = .next t ∧ s.cur.grpib ∈ (gridBar t s.cur.blk i.toNat).arrived ∧
         (gridBar t s.cur.blk i.toNat).gen = k.gen ∧
         OnlyWrites 1 [] [] [] s { t with blocks := s.blocks, pending := s.pending }) ∧
       (∃ t, exec (.barGsync i) s = .next t ∧ s.cur.grpib ∈ (gridBar t s.cur.blk i.toNat).arrived ∧
         (gridBar t s.cur.blk i.toNat).gen = k.gen ∧ Lulled (.grid i.toNat) (s.cur.pc + 4) s { t with blocks := s.blocks }) ∧
       (s.cur.grpib ∈ k.arrived →
         ∃ t, exec (.barGwait i) s = .next t ∧ t.pending = s.pending ∧ Lulled (.grid i.toNat) (s.cur.pc + 4) s t) ∧
       (s.cur.grpib ∉ k.arrived → ∃ t, exec (.barGwait i) s = .next t ∧ OnlyWrites 1 [] [] [] s t) ∧
       (k.gcount = 0 → s.others = [] → b.gone = [] → b.ng = 1 → k.arrived = [] →
         ∃ t, exec (.barGarrive i) s = .next t ∧ t.pending = s.pending ++ [.gridBlockArrival s.cur.blk i.toNat])))

/-! ## The engines' instructions and the accumulators -/

/-- CPY (R63, R146, R181, R189): where its checks pass, one command with the descriptor as captured, the group's clock and the first unit
to run enters the core's copy queue, counted on its arrival counter; a command that can round under RSTO advances SRS, and one that cannot
has a generator of no stated value (log 62, DESIGN CHOICE). -/
def Obligations.CopyIssue : Prop :=
  ∀ b w resume cnt scr s,
    let flags := (if cnt then 1 else 0) + (if resume then 2 else 0)
    ∀ row ∈ ([(.cpyLoad b w resume cnt, 0, flags), (.cpyStore b w resume cnt, 1, flags), (.cpyGather b w resume cnt, 2, flags),
        (.cpyScatter b w resume cnt, 3, flags), (.cpyPackload b w resume cnt, 4, flags), (.cpyRemote b w resume cnt, 5, flags),
        (.cpyFill b w scr resume cnt, 6, flags + if scr then 4 else 0), (.cpyRedstore b w resume cnt, 7, flags)] :
        List (Instr × Nat × Nat)),
      let d := (blockOf b).map (gget s.cur)
      let n := extCount row.2.1 row.2.2 d
      let ext := (List.range (n.1 + n.2)).map (8 * b.toNat + 8 + ·)
      let r0 := (gget s.cur (8 * b.toNat + 8 + n.1)).toNat
      let desc := captureDesc row.2.1 d (if resume then 0 else fmtKxp s.cur) (fmtFp8 s.cur)
      let seed := if !resume && fmtRm s.cur == 5 && canRound row.2.1 d then srsStep s.cur.srs else s.cur.srs
      let k := Machine.core s s.cur.core
      ∀ c : CopyCmd, c.gid = gidOf s.cur → c.opId = s.cur.nextOp → c.ctx = s.cur.ctx → c.blk = s.cur.blk → c.grpib = s.cur.grpib →
        c.user = !privileged s.cur → c.op = row.2.1 → c.w = w.toNat → c.flags = row.2.2 → c.desc = desc →
        c.ext = (List.range n.1).map (fun i => gget s.cur (8 * b.toNat + 8 + i)) →
        c.rm = (if resume then r0 / 2 ^ 29 else fmtRm s.cur) →
        c.gen = (if resume then BitVec.ofNat 64 (gpair s.cur (8 * b.toNat + 8 + n.1 + 1)) else if fmtRm s.cur ≠ 5 then 0
          else if canRound row.2.1 d then seed else BitVec.ofNat 64 (Config.pick (freeIx s 20))) →
        c.next = (if resume then r0 % 2 ^ 29 else 0) → c.eclk = s.cur.lclk → c.pc = s.cur.pc → c.stamp = s.turn → c.sub = 0 →
        c.faddr = 0 → c.scr = false → c.ring = none → c.idx = none → c.started = false →
        Issues s.cur [] (blockOf b ++ ext) [] → NoGst s.cur → s.cur.rgn = none → wget s.cur w.toNat < 255 →
        k.cpyq.length + k.parkedCpy.length < 32 → cpyCheck s resume d (cpyPm1 desc + 1) c = none →
        ∃ t, exec row.1 s = .next t ∧ t.cur.lclk = s.cur.lclk ∧
          (Machine.core t s.cur.core).cpyq = k.cpyq ++ [c] ∧
          Issued false .copy (some w.toNat) [] [] [] (.copyCommandStart s.cur.core) (modCur s fun g => { g with srs := seed })
            (modCore t s.cur.core fun q => { q with cpyq := k.cpyq })

/-- MMA (R121 to R123, R134): where its checks pass, one command enters the core's matrix queue, counted on its arrival counter;
one that restarts a stopped command keeps its age, and leaves the tile's header without it (log 26, DEDUCED). -/
def Obligations.MatrixIssue : Prop :=
  ∀ z b w resume s,
    let d := (blockOf b).map (gget s.cur)
    let k := Machine.core s s.cur.core
    let next := if resume then (d.getD 6 0).toNat else 0
    let start := if resume then modBlock s s.cur.blk fun x => unrecordMma x s.cur.core z.toNat s.cur.grpib next else s
    let age := if resume && restarts (block s s.cur.blk) s.cur.core z.toNat s.cur.grpib next
      then hdrAgeAt (block s s.cur.blk) s.cur.core z.toNat 0 else s.turn
    Issues s.cur [] (blockOf b) [] [z.toNat] → NoGst s.cur → s.cur.rgn = none → wget s.cur w.toNat < 255 → k.mmaq.length < 32 →
    (k.mmaq.filter fun m => m.blk == s.cur.blk && m.tile == z.toNat).length < 2 → mmaCheck s d resume = none →
    ∃ t, exec (.mma z b w resume) s = .next t ∧ t.cur.lclk = s.cur.lclk ∧
      (Machine.core t s.cur.core).mmaq = k.mmaq ++ [{
        gid := gidOf s.cur, opId := s.cur.nextOp, blk := s.cur.blk,
        grpib := s.cur.grpib, w := w.toNat, tile := z.toNat, desc := d, next := next, eclk := s.cur.lclk, stamp := s.turn,
        age := age }] ∧
      Issued false .mma (some w.toNat) [] [] [] (.mmaArrayStart s.cur.core) start (modCore t s.cur.core fun q => { q with mmaq := k.mmaq })

/-- ACLD, ACST, ACADD and ACZ (R9, R128 to R130): 32 elements from the row and quarter that the address word names; a helper
stores nothing; ACLD also reads the 16 words of a restart header, and 0 in the threads beyond them. One turn of a group takes the slots
of its pass from the thread that it has come to: all that are left, unless a group of the block in another partition of the core may
take slots between them; the pass then stands before a later thread, where the next turn goes on. With the last slot the instruction
completes, and a command of the core's engines that has not begun is looked at again. -/
def Obligations.AccumulatorResults : Prop :=
  ∀ (d : BitVec 6) (z : BitVec 3) (a : BitVec 9) s b,
    let x := (gget s.cur a.toNat).toNat
    let e := x % 128 * 128 + x / 2 ^ 13 % 4 * 32
    let tile := fun (s : State) i => tileAt (block s s.cur.blk) s.cur.core z.toNat i
    let ts := (threads (activeMask s.cur 0)).filter ((s.cur.mid.map (·.2)).getD s.cur.rix ≤ ·)
    let alone := ∀ h ∈ allGroups s, h.core = s.cur.core → h.blk = s.cur.blk → h.part = s.cur.part ∨ h.st = .retired ∨ h.st = .swapped
    let ready := x < 2 ^ 15 ∧ x / 2 ^ 7 % 2 ^ 6 = 0 ∧ (s.cur.mid = none → tileBusy s s.cur.core s.cur.blk z.toNat = false)
    let sound := ∀ i ∈ ts, elemKey s.cur.core z.toNat (e + i) ∉ b.tileBad
    let soundReg := ∀ i ∈ ts, helper s.cur i = false → poisoned s.cur [d.toNat] i = false
    let turn := fun (i : Instr) (vs : List Nat) (effect : State → List Nat → Prop) => ∃ t k, exec i s = .next t ∧
      (if alone then k = ts.length else k ≤ ts.length ∧ (ts ≠ [] → 0 < k)) ∧ effect t (ts.take k) ∧
      (match ts.drop k with
       | [] => Completed 1 s t ∧ t.cur.mid = none
       | u :: _ => t.cur.mid = some (z.toNat, u) ∧ t.cur.pc = s.cur.pc ∧ t.cur.rix = s.cur.rix ∧ t.cur.instret = s.cur.instret) ∧
      StatusKept s.cur t.cur ∧ FlagsKept s.cur t.cur ∧ OthersKept vs [] [] s { t with blocks := s.blocks, pending := s.pending } ∧
      ∃ due, t.pending = s.pending ++ due ∧ ∀ y ∈ due, y = .copyCommandStart s.cur.core ∨ y = .mmaArrayStart s.cur.core
    let loaded := fun (val : Nat → Word) (t : State) (ks : List Nat) => t.blocks = s.blocks ∧ ∀ i < 32,
      vget t.cur d.toNat i = (if i ∈ ks then val i else vget s.cur d.toNat i) ∧
      mfind t.cur.vPoison (d.toNat * 32 + i) = if i ∈ ks then none else mfind s.cur.vPoison (d.toNat * 32 + i)
    let stored := fun (val : Nat → Word) (t : State) (ks : List Nat) => ∀ i < 16384, tileAt (block t s.cur.blk) s.cur.core z.toNat i =
      if e ≤ i ∧ i < e + 32 ∧ i - e ∈ ks ∧ helper s.cur (i - e) = false then val (i - e) else tile s i
    Issues s.cur [d.toNat] [a.toNat] [] [z.toNat] → mfind s.blocks s.cur.blk = some b →
    (ready → sound → turn (.acld d z a) [d.toNat] (loaded fun i => tile s (e + i))) ∧
    (x = 2 ^ 15 → turn (.acld d z a) [d.toNat] (loaded fun i => if i < 16 then hdrAt b s.cur.core z.toNat i else 0)) ∧
    (ready → soundReg → turn (.acst d z a) [] (stored fun i => vget s.cur d.toNat i)) ∧
    (ready → sound → soundReg → turn (.acadd d z a) [] (stored fun i => BitVec.ofNat 32
      (roundTo fp32 0 false (fAdd 0 (f32 (tile s (e + i))) (f32 (vget s.cur d.toNat i))).1 0).bits)) ∧
    (ready → turn (.acz z a) [] (stored fun _ => 0))

/-- PKPL (R17, R64, R97, R131): the 32 values, +0 for a thread that is not active, with none active too (log 52, DEDUCED), and for a
poisoned helper (log 15, DEDUCED), are packed into two blocks in the mode of FMT,
and the plane words and scale records of both go to scratch, as one request that stands at each of its homes; the exceptions of both
are raised and SRS is what the second leaves. -/
def Obligations.PackPlanesResults : Prop :=
  ∀ (v : BitVec 6) (a : BitVec 9) (pm : BitVec 4) s b,
    ∀ row ∈ ([(.pkplF32 v a pm, fp32), (.pkplBf16l v a pm, bf16)] : List (Instr × Fmt)),
      let p := pm.toNat + 1
      let val := fun i => if (activeMask s.cur 0).getLsbD i && !poisoned s.cur [v.toNat] i
        then datum row.2 0 (vget s.cur v.toNat i) else .fin false 0 0
      let b0 := roundKx ((List.range 16).map val) p (s.cur.fmt.toNat % 8) s.cur.srs
      let b1 := roundKx ((List.range 16).map fun i => val (16 + i)) p (s.cur.fmt.toNat % 8) b0.gen
      let ws := pkplWrites s.cur a.toNat p [b0.blk, b1.blk]
      let id := s.cur.nextOp
      Issues s.cur [v.toNat] ((List.range 4).map (a.toNat + ·)) [] → NoGst s.cur → mfind s.blocks s.cur.blk = some b →
      b.unpinned = [] → (∀ x ∈ ws, scrFault s s.cur x.1 x.2.1 = none) →
      (∀ i ∈ threads (activeMask s.cur 0), helper s.cur i = false → poisoned s.cur [v.toNat] i = false) →
      arithTraps s.cur (b0.ex ||| b1.ex) = false →
      ∃ t cs, exec row.1 s = .next t ∧ Completed 1 s t ∧ Homes s (ws.map (·.1)) cs ∧
        t.cur.flags = s.cur.flags ||| BitVec.ofNat 32 (b0.ex ||| b1.ex) ∧ t.cur.srs = b1.gen ∧
        (block t s.cur.blk).scr = ws.foldl (fun m x => scrPut m x.1 x.2.1 x.2.2) b.scr ∧
        Outstanding t.cur id .scrStore none [] [] ∧ t.pending = s.pending ++ cs.map .scratchPhase ∧
        (∀ c, (Machine.core t c).scq = (Machine.core s c).scq ++ if c ∈ cs then [(gidOf s.cur, id)] else []) ∧
        VectorsKept [] s.cur t.cur ∧ UniformsKept [] s.cur t.cur ∧ MasksKept [] s.cur t.cur ∧ t.mm = s.mm

/-! ## Traps and system instructions -/

/-- TRAP, BKPT and SYSC SIGRET (R21, R263, R264, R279, R280, R300, R306): a user group outside a region parks at its PC with RIX unchanged
and one record, and counts replay; a breakpoint holds the group, which then counts supervisor, where its context allows the debug port and
the port is attached. A trap inside a region (R203, R280): the record says so and frees its entry when posted, and the region aborts with
cause 5: the write buffer is dropped, the group goes on at the handler, and every slice of the region is told. A trap of a supervisor group
(R276): it is held, and the firmware's error log has one more record. The last two are given for TRAP, whose entry is that of every trap.
The active mask in the record of a uniform instruction is m0 with the present threads (log 15, DEDUCED). -/
def Obligations.TrapInstructions : Prop :=
  (∀ s,
     let active := mreg s.cur 0 &&& s.cur.pmask
     let record := fun cause sub args => parkRecord s.cur cause sub 0 s.cur.rix false s.cur.pc s.cur.pc active args
     s.cur.sup = false → s.cur.rgn = none →
     (∀ i, ∃ t, exec (.trap i) s = .next t ∧ Parks (record 10 i.toNat [0, 0, 0, 0]) s.cur.rix s t) ∧
     (((ctx s s.cur.ctx).dbg && s.io.dbgOn) = false →
       ∃ t, exec .bkpt s = .next t ∧ Parks (record 9 0 [0, 0, 0, 0]) s.cur.rix s t) ∧
     (((ctx s s.cur.ctx).dbg && s.io.dbgOn) = true →
       ∃ t, exec .bkpt s = .next t ∧ Counted 20 { s.cur with st := .held, under := .ready } t.cur ∧
         t = { s with cur := t.cur, cores := t.cores, io := { s.io with out := t.io.out } } ∧
         ∀ c, Machine.core t c = { Machine.core s c with pstall := (Machine.core t c).pstall }) ∧
     (∀ b, Issues s.cur [] ((List.range 8).map (8 * BitVec.toNat (b : BitVec 6) + ·)) [] → NoGst s.cur →
       ∃ t, exec (.syscSigret b) s = .next t ∧
         Parks (record 11 0 ((List.range 4).map fun k => gget s.cur (8 * b.toNat + k))) s.cur.rix s t)) ∧
  ((∀ i s r, s.cur.sup = false → s.cur.rgn = some r → s.cur.st = .ready →
     ∃ t, exec (.trap i) s = .next t ∧ t.cur.rgn = none ∧ t.cur.pc = r.handler ∧ t.cur.rix = 0 ∧ t.cur.st = .ready ∧
       t.cur.astat = BitVec.ofNat 32 ((if r.elastic then 2 ^ 30 else 0) + 5 * 2 ^ 16) ∧
       VectorsKept [] s.cur t.cur ∧ UniformsKept [] s.cur t.cur ∧ MasksKept [] s.cur t.cur ∧ t.mm = s.mm ∧
       t.pending = s.pending ++ [.faultRecordPost s.cur.core] ++ r.slices.map (fun i => .regionAbortMessage i { aid := s.cur.aid.toNat, source := 0, cause := 5 }) ∧
       (∃ x ∈ (Machine.core t s.cur.core).replay ++ (Machine.core t s.cur.core).unposted,
         x.gid = gidOf s.cur ∧ x.frees = true ∧ x.words.getD 0 0 = BitVec.ofNat 32 (10 * 2 ^ 24 + 2 ^ 23 + s.cur.rix))) ∧
   (∀ i s, s.cur.sup = true → s.cur.rgn = none → s.fw.errlog.length < 4096 →
     ∃ t, exec (.trap i) s = .next t ∧ Counted 20 { s.cur with st := .held } t.cur ∧
       t.fw.errlog.length = s.fw.errlog.length + 1 ∧ t.fw.errSeq = (s.fw.errSeq + 1) % 2 ^ 32 ∧ t.mm = s.mm ∧ t.pending = s.pending))

/-- WMARK (R274): a window that does not lie ahead of the current one has no effect; else, once the group's stores and atomics are
performed, the context's window is the immediate, and with the undo log on the group parks after the instruction with a call record
of number 0x1000; until then it stalls. -/
def Obligations.WindowMark : Prop :=
  ∀ (i : BitVec 16) s,
    let n := scopeCtx s s.cur
    let ahead := (i - (ctx s n).window).toNat
    s.cur.rgn = none →
    (ahead = 0 ∨ 2 ^ 15 ≤ ahead → ∃ t, exec (.wmark i) s = .next t ∧ OnlyWrites 1 [] [] [] s t) ∧
    (0 < ahead → ahead < 2 ^ 15 → (∃ o ∈ s.cur.ops, o.tag ≠ 1 ∧ o.kind ∈ [OpKind.store, .atom, .gst]) →
      ∃ t, exec (.wmark i) s = .next t ∧ Stalls 21 true s t) ∧
    (0 < ahead → ahead < 2 ^ 15 → (∀ o ∈ s.cur.ops, o.tag ≠ 1 → o.kind ∉ [OpKind.store, .atom, .gst]) →
      ((ctx s n).ulogPol.getLsbD 31 = false → ∃ t, exec (.wmark i) s = .next t ∧ (ctx t n).window = i ∧
        OnlyWrites 1 [] [] [] s { t with fw := s.fw }) ∧
      ((ctx s n).ulogPol.getLsbD 31 = true → s.cur.sup = false →
        ∃ t, exec (.wmark i) s = .next t ∧ (ctx t n).window = i ∧ t.cur.st = .parked ∧ t.cur.pc = s.cur.pc + 4 ∧
          t.cur.instret = s.cur.instret + 1 ∧
          ∃ x ∈ (Machine.core t s.cur.core).replay ++ (Machine.core t s.cur.core).unposted,
            x.gid = gidOf s.cur ∧ x.words.getD 0 0 = 0x0B000000 ∧ x.words.getD 1 0 = 0x1000 ∧ x.words.getD 11 0 = 0x80000000 ∧
            x.words.getD 12 0 = i.setWidth 32))

/-- SRR (R52, R235, R257 to R262): each register of group, block, launch, core and context scope reads as its layout says, no
held time before the front; those of a launch in a supervisor group, which has none, and the cycle count read some value (logs 2 and
17), and CYCLO latches CYCHI; LCLK waits until the group's accesses have taken their times; CODEBASE is a pair. A supervisor register,
and an ID that user code may not read, is illegal there. -/
def Obligations.SystemRegisterReads : Prop :=
  ∀ (g : BitVec 9) s,
    let b := block s s.cur.blk
    let r := (taskOf s b.task).record
    let c := ctx s (scopeCtx s s.cur)
    let k := Machine.core s s.cur.core
    let root := (ctx s k.asid).root
    let reads := fun (rows : List (BitVec 12 × Word)) => ∀ row ∈ rows, ∃ t, exec (.srr g row.1) s = .next t ∧ UniformDone 1 [(g.toNat, row.2)] s t
    let timed := fun o : OpRec => o.tag ≠ 1 ∧ o.kind ∈ [OpKind.load, .store, .atom, .gld, .gst, .cadd, .cread]
    Issues s.cur [] [] [g.toNat] →
    reads [(0x18, BitVec.ofNat 32 s.cur.core), (0x19, BitVec.ofNat 32 (s.cur.core / 8)), (0x20, s.cur.fmt), (0x21, s.cur.flags),
      (0x22, s.cur.srs.extractLsb' 0 32), (0x23, s.cur.srs.extractLsb' 32 32), (0x31, c.lease.setWidth 32), (0x32, c.tick.setWidth 32),
      (0x40, ltMax s.cp.front s.cur.alo), (0x41, ltMax s.cp.front s.cur.ahi), (0x42, s.cur.astat), (0x43, s.cur.aid), (0x50, 0),
      (0x61, s.cur.cycHi), (0x62, s.cur.instret), (0x80, mget 0 s.cur.stall 0), (0x9F, mget 0 s.cur.stall 31), (0x100, 0x001800C0),
      (0x10D, 0x80), (0x10E, 0), (0x1FF, 0)] ∧
    (s.cur.sup = false → reads [(0x10, BitVec.ofNat 32 b.bx), (0x11, BitVec.ofNat 32 b.by_), (0x12, BitVec.ofNat 32 b.bz),
      (0x13, BitVec.ofNat 32 (nblkX r)), (0x14, BitVec.ofNat 32 (nblkY r)), (0x15, BitVec.ofNat 32 (nblkZ r)),
      (0x16, BitVec.ofNat 32 s.cur.grpib), (0x17, BitVec.ofNat 32 b.ng)]) ∧
    (s.cur.sup = true → ∀ i ∈ ([0x10, 0x11, 0x12, 0x13, 0x14, 0x15, 0x16, 0x17] : List (BitVec 12)),
      ∃ t x, exec (.srr g i) s = .next t ∧ UniformDone 1 [(g.toNat, x)] s t) ∧
    (∃ t x, exec (.srr g 0x60) s = .next t ∧ UniformDone 1 [(g.toNat, x)] s (modCur t fun h => { h with cycHi := s.cur.cycHi })) ∧
    ((∃ o ∈ s.cur.ops, timed o) → ∃ t, exec (.srr g 0x30) s = .next t ∧ Stalls 3 true s t) ∧
    ((∀ o ∈ s.cur.ops, ¬timed o) → reads [(0x30, ltMax s.cp.front s.cur.lclk)]) ∧
    (g.toNat % 2 = 1 → exec (.srr g 0x24) s = .next (illEnc 0 s)) ∧
    (g.toNat % 2 = 0 → Issues s.cur [] [] [g.toNat + 1] → ∃ t, exec (.srr g 0x24) s = .next t ∧ UniformDone 1
      [(g.toNat, (codeBase s.cur).extractLsb' 0 32), (g.toNat + 1, ((codeBase s.cur).extractLsb' 32 26).setWidth 32)] s t) ∧
    (privileged s.cur = false → ∀ i : BitVec 12, 0x200 ≤ i.toNat ∨ i.toNat < 0x10 → exec (.srr g i) s = .next (illEnc 0 s)) ∧
    (privileged s.cur = true → reads [(0x200, k.tvec), (0x201, k.pvec), (0x202, k.savebase), (0x203, k.faultq),
      (0x204, BitVec.ofNat 32 k.asid), (0x205, BitVec.ofNat 32 (root % 2 ^ 32)), (0x206, BitVec.ofNat 32 (root / 2 ^ 32)),
      (0x207, k.mxidle), (0x210, BitVec.ofNat 32 c.ulogBase), (0x211, c.ulogSize), (0x212, c.ulogPol), (0x213, c.window.setWidth 32),
      (0x220, s.cp.front), (0x221, c.lullmax), (0x222, k.sampleN)])

/-- SRW (R5, R67 to R69, R235, R257 to R261): a group's own status registers take what their layout allows, and an illegal FMT, or
a register that may not be written, is illegal with nothing changed; at supervisor privilege the core's and the context's registers
are written, a reserved field left 0, PTROOT of the context that ASID names. -/
def Obligations.SystemRegisterWrites : Prop :=
  ∀ (g : BitVec 9) s,
    let x := gget s.cur g.toNat
    let n := scopeCtx s s.cur
    let k := fun t : State => Machine.core t s.cur.core
    Issues s.cur [] [g.toNat] [] →
    (x.toNat % 8 ≤ 5 → x.toNat / 2 ^ 13 % 4 ≤ 1 → ∃ t, exec (.srw g 0x20) s = .next t ∧ t.cur.fmt = x &&& 0x7FFF ∧
      OnlyWrites 1 [] [] [] s (modCur t fun g => { g with fmt := s.cur.fmt })) ∧
    (5 < x.toNat % 8 ∨ 1 < x.toNat / 2 ^ 13 % 4 → exec (.srw g 0x20) s = .next (illEnc 0 s)) ∧
    (∃ t, exec (.srw g 0x21) s = .next t ∧ t.cur.flags = x &&& 0xF8 ∧
      OnlyWrites 1 [] [] [] s (modCur t fun g => { g with flags := s.cur.flags })) ∧
    (∀ row ∈ ([(0x22, s.cur.srs.extractLsb' 32 32 ++ x), (0x23, x ++ s.cur.srs.extractLsb' 0 32)] : List (BitVec 12 × DWord)),
      ∃ t, exec (.srw g row.1) s = .next t ∧ t.cur.srs = row.2 ∧
        OnlyWrites 1 [] [] [] s (modCur t fun g => { g with srs := s.cur.srs })) ∧
    (privileged s.cur = false → ∀ i : BitVec 12, i.toNat < 0x20 ∨ 0x23 < i.toNat → exec (.srw g i) s = .next (illEnc 0 s)) ∧
    (privileged s.cur = true →
      (∃ t, exec (.srw g 0x200) s = .next t ∧ (k t).tvec = x &&& 0xFFFFFFFC ∧ Completed 1 s t ∧ t.mm = s.mm ∧ t.fw = s.fw) ∧
      (∃ t, exec (.srw g 0x201) s = .next t ∧ (k t).pvec = x &&& 0xFFFFFFFC ∧ Completed 1 s t ∧ t.mm = s.mm ∧ t.fw = s.fw) ∧
      (∃ t, exec (.srw g 0x202) s = .next t ∧ (k t).savebase = x ∧ Completed 1 s t ∧ t.mm = s.mm ∧ t.fw = s.fw) ∧
      (∃ t, exec (.srw g 0x203) s = .next t ∧ Completed 1 s t ∧
        (k t).faultq = if x.toNat % 16 = 0 ∨ (4 ≤ x.toNat % 16 ∧ x.toNat % 16 ≤ 12) then x &&& 0xFFFFFFCF else (k s).faultq) ∧
      (∃ t, exec (.srw g 0x205) s = .next t ∧ Completed 1 s t ∧ t.mm = s.mm ∧
        (ctx t (k s).asid).root = (ctx s (k s).asid).root / 2 ^ 32 * 2 ^ 32 + x.toNat / 2 ^ 14 * 2 ^ 14) ∧
      (∃ t, exec (.srw g 0x206) s = .next t ∧ Completed 1 s t ∧ t.mm = s.mm ∧
        (ctx t (k s).asid).root = x.toNat % 2 ^ 20 * 2 ^ 32 + (ctx s (k s).asid).root % 2 ^ 32) ∧
      (∃ t, exec (.srw g 0x207) s = .next t ∧ (k t).mxidle = x ∧ Completed 1 s t ∧ t.mm = s.mm ∧ t.fw = s.fw) ∧
      (∃ t, exec (.srw g 0x222) s = .next t ∧ (k t).sampleN = x &&& 0x00FFFFFF ∧ Completed 1 s t ∧ t.mm = s.mm ∧ t.fw = s.fw) ∧
      (∃ t, exec (.srw g 0x31) s = .next t ∧ (ctx t n).lease = x.extractLsb' 0 16 ∧ Completed 1 s t ∧ t.mm = s.mm) ∧
      (∃ t, exec (.srw g 0x32) s = .next t ∧ (ctx t n).tick = x.extractLsb' 0 16 ∧ Completed 1 s t ∧ t.mm = s.mm ∧
        t.pending = s.pending ++ [.tickRestart n]) ∧
      (∃ t, exec (.srw g 0x221) s = .next t ∧ (ctx t n).lullmax = x ∧ Completed 1 s t ∧ t.mm = s.mm))

/-! ## Another group, pre-emption, translations and the front -/

/-- XRD (R265 to R267): the register of a parked or held group of the core, with its poison, is read into a uniform register, and
f3 is set; a target or a selector that the rules refuse clears f3 and changes nothing else. At user privilege it is illegal. XWR
(R265 to R267): the register of a parked or held group of the core is written and f3 set; LCLK is only raised; STATE resumes a
parked group and frees its replay-queue entry; FUT answers the future of the tag; what the rules refuse clears f3 and changes
nothing else. At user privilege it is illegal. -/
def Obligations.ForeignRegisters : Prop :=
  (∀ (g h : BitVec 9) (c : RegClass) s,
     let sel := gget s.cur (h.toNat + 1)
     let n := sel.toNat % 512
     let th := sel.toNat / 2 ^ 16 % 32
     let clock := fun x : Group => ltMax s.cp.front x.lclk
     (privileged s.cur = false → exec (.xrd g h c) s = .next (illEnc 0 s)) ∧
     (privileged s.cur = true → Issues s.cur [] [h.toNat, h.toNat + 1] [g.toNat] →
       (targetOf s (gget s.cur h.toNat) = none → ∃ t, exec (.xrd g h c) s = .next t ∧ Reported false [] s t) ∧
       (∀ x, targetOf s (gget s.cur h.toNat) = some x →
         (∀ row ∈ ([(c = .v ∧ n < x.vb ∧ ∀ o ∈ x.ops, loads o = true → n ∉ o.vregs, vget x n th, mfind x.vPoison (n * 32 + th)),
             (c = .g ∧ (n + 4 < x.ub ∨ (380 ≤ n ∧ n < 384)) ∧ ∀ o ∈ x.ops, loads o = true → n ∉ o.gregs, gget x n, mfind x.gPoison n),
             (c = .m, mreg x (n % 8), none), (c = .f, (if fget x (n % 4) then 1 else 0), none),
             (c = .w, BitVec.ofNat 32 (wget x (n % 16)), none), (c = .group ∧ n = 0, pcOffset x, none),
             (c = .group ∧ n = 1, BitVec.ofNat 32 x.rix, none), (c = .group ∧ n = 2, x.fmt, none), (c = .group ∧ n = 3, x.flags, none),
             (c = .group ∧ n = 4, x.srs.extractLsb' 0 32, none), (c = .group ∧ n = 5, x.srs.extractLsb' 32 32, none),
             (c = .group ∧ n = 6, clock x, none), (c = .group ∧ n = 7, ltMax s.cp.front x.alo, none), (c = .group ∧ n = 8, ltMax s.cp.front x.ahi, none),
             (c = .group ∧ n = 9, x.astat, none), (c = .group ∧ n = 10, x.aid, none), (c = .group ∧ n = 11, x.xc, none),
             (c = .group ∧ n = 12, (if x.xcv then 1 else 0), none), (c = .group ∧ n = 13 ∧ x.st = .parked, (if x.priv then 11 else 3), none),
             (c = .group ∧ n = 13 ∧ x.st = .held, (if x.priv then 12 else 4), none), (c = .group ∧ n = 14, x.lmask, none)] :
             List (Prop × Word × Option Nat)),
           row.1 → ∃ t, exec (.xrd g h c) s = .next t ∧ Reported true [g.toNat] s t ∧
             gget t.cur g.toNat = row.2.1 ∧ mfind t.cur.gPoison g.toNat = row.2.2) ∧
         ((c = .v ∧ x.vb ≤ n) ∨ (c = .g ∧ x.ub ≤ n + 4 ∧ (n < 380 ∨ 384 ≤ n)) ∨ (c = .group ∧ 15 ≤ n) →
           ∃ t, exec (.xrd g h c) s = .next t ∧ Reported false [] s t)))) ∧
  (∀ (g h : BitVec 9) (c : RegClass) s,
     let sel := gget s.cur (h.toNat + 1)
     let n := sel.toNat % 512
     let th := sel.toNat / 2 ^ 16 % 32
     let v := gget s.cur g.toNat
     let fut := sel.toNat / 2 ^ 16
     (privileged s.cur = false → exec (.xwr g h c) s = .next (illEnc 0 s)) ∧
     (privileged s.cur = true → s.cur.st = .ready → Issues s.cur [] [g.toNat, h.toNat, h.toNat + 1] [] →
       (targetOf s (gget s.cur h.toNat) = none → (c ≠ .group ∨ n ≠ 15) →
         ∃ t, exec (.xwr g h c) s = .next t ∧ Reported false [] s t) ∧
       (∀ x, targetOf s (gget s.cur h.toNat) = some x →
         (∀ row ∈ ([(c = .v ∧ n < x.vb ∧ ∀ o ∈ x.ops, loads o = true → n ∉ o.vregs, vset x n th v),
             (c = .g ∧ (n + 4 < x.ub ∨ (380 ≤ n ∧ n < 384)) ∧ ∀ o ∈ x.ops, loads o = true → n ∉ o.gregs, gset x n v),
             (c = .m, mwrite x (n % 8) v), (c = .f, fset x (n % 4) (v.getLsbD 0)),
             (c = .group ∧ n = 0 ∧ v.toNat % 4 = 0, { x with pc := codeBase x + v.setWidth 64, mid := none }),
             (c = .group ∧ n = 1 ∧ v.toNat ≤ 32, { x with rix := v.toNat, mid := none }),
             (c = .group ∧ n = 2 ∧ v.toNat % 8 ≤ 5 ∧ v.toNat / 2 ^ 13 % 4 ≤ 1, { x with fmt := v &&& 0x7FFF }),
             (c = .group ∧ n = 3, { x with flags := v &&& 0xF8 }),
             (c = .group ∧ n = 4, { x with srs := x.srs.extractLsb' 32 32 ++ v }),
             (c = .group ∧ n = 5, { x with srs := v ++ x.srs.extractLsb' 0 32 }),
             (c = .group ∧ n = 6, { x with lclk := ltMax x.lclk v }), (c = .group ∧ n = 11, { x with xc := v }),
             (c = .group ∧ n = 12, { x with xcv := v.getLsbD 0 })] : List (Prop × Group)),
           row.1 → ∃ t, exec (.xwr g h c) s = .next t ∧ Reported true [] s { t with others := s.others } ∧
             t.others = putGroup s.others row.2) ∧
         ((c = .v ∧ x.vb ≤ n) ∨ (c = .g ∧ x.ub ≤ n + 4 ∧ (n < 380 ∨ 384 ≤ n)) ∨ c = .w ∨
           (c = .group ∧ ((n = 0 ∧ v.toNat % 4 ≠ 0) ∨ (n = 1 ∧ 32 < v.toNat) ∨
             (n = 2 ∧ (5 < v.toNat % 8 ∨ 1 < v.toNat / 2 ^ 13 % 4)) ∨ (7 ≤ n ∧ n ≤ 10) ∨ (n = 13 ∧ (v ≠ 0 ∨ x.st = .held)) ∨
             n = 14 ∨ 16 ≤ n)) →
           ∃ t, exec (.xwr g h c) s = .next t ∧ Reported false [] s t) ∧
         (c = .group → n = 13 → v = 0 → x.st = .parked →
           ∃ t, exec (.xwr g h c) s = .next t ∧ Completed 1 s t ∧ fget t.cur 3 = true ∧ t.mm = s.mm ∧
             t.others = putGroup s.others { x with st := .ready, age := s.turn, bpSkip := true } ∧
             ∀ r ∈ (Machine.core t x.core).replay ++ (Machine.core t x.core).unposted, r.gid = gidOf x → r.frees = true)) ∧
       (c = .group → n = 15 → Issues s.cur [] [g.toNat + 1] [] →
         ∀ f x, s.cp.futures.find? (fun f => f.tag == fut) = some f → group s f.gid = some x → gidOf x ≠ gidOf s.cur →
           (isSupName f.gid = true ∨ awayGroup s f.blk f.grpib = none) →
           ∃ t y, exec (.xwr g h c) s = .next t ∧ Completed 1 s t ∧ fget t.cur 3 = true ∧ (∀ f ∈ t.cp.futures, f.tag ≠ fut) ∧
             group t f.gid = some y ∧ gget y f.reg = v ∧ gget y (f.reg + 1) = gget s.cur (g.toNat + 1)) ∧
       (c = .group → n = 15 → (∀ f ∈ s.cp.futures, f.tag ≠ fut) ∨ (s.cur.ub ≤ g.toNat + 1 + 4 ∧ (g.toNat + 1 < 380 ∨ 384 ≤ g.toNat + 1)) →
         ∃ t, exec (.xwr g h c) s = .next t ∧ Reported false [] s t)))

/-- ERET (R48, R268, R271, R295): outside the save and restore routines it is illegal. The save's clears PRIV and takes the group
off its lane, once its stores and counter additions are performed and its image is written; where words of the image are refused it
rewrites them and faults like a store (log 19, DESIGN CHOICE), once the device may make its accesses; the restore's, after the walks for
the pages of the frame, loads what the frame holds, poison included, and a frame that is not of version 1 is an engine fault of sub-cause
8 with PRIV kept. -/
def Obligations.PreemptionReturn : Prop :=
  ∀ s,
    (s.cur.sup = true ∨ s.cur.priv = false → exec .eret s = .next (illEnc 0 s)) ∧
    (s.cur.sup = false → s.cur.priv = true → s.cur.restore = false →
      let due := fun o : OpRec => o.kind = .cadd ∨ (o.tag ≠ 1 ∧ o.kind ∈ [OpKind.store, .atom, .gst])
      ((∃ o ∈ s.cur.ops, due o) → ∃ t, exec .eret s = .next t ∧ Stalls 21 true s t) ∧
      ((∀ o ∈ s.cur.ops, ¬due o) →
        (s.cur.unsaved = [] →
          ∃ t, exec .eret s = .next t ∧ t.cur.priv = false ∧ t.cur.st = .swapped ∧ t.cur.instret = s.cur.instret + 1 ∧ t.mm = s.mm) ∧
        (s.cur.unsaved ≠ [] → deviceHeld s = true → ∃ t, exec .eret s = .next t ∧ Stalls 21 true s t) ∧
        ∀ s' f p ps, deviceHeld s = false → writeUnsaved (imageAgent s.cur.core s.cur.ctx s.cur.lclk) s.cur.unsaved s = (s', some (f, p :: ps)) →
          exec .eret s = .next (trapAt f.1 f.2 accStore false p.va (modCur s' fun g => { g with unsaved := p :: ps })))) ∧
    (∀ s1 ws, s.cur.sup = false → s.cur.priv = true → s.cur.restore = true → Issues s.cur [] [0, 1] [] → NoGst s.cur →
      walksDone s { r := true } ((frameParts s.cur).flatMap fun p => [p.1, p.1 + 4 * p.2 - 4]) = true →
      frameWhole s = .ok s1 ws →
      (fw ws 0 ≠ 1 → s1.cur.rgn = none → s1.cur.sup = false → s1.cur.rix ≤ 32 →
        ∃ t, exec .eret s = .next t ∧ t.cur.st = .parked ∧ t.cur.priv = s1.cur.priv ∧ t.cur.pc = s1.cur.pc ∧
          ∃ r ∈ (Machine.core t s1.cur.core).replay ++ (Machine.core t s1.cur.core).unposted,
            r.gid = gidOf s1.cur ∧ (r.words.getD 0 0).toNat / 2 ^ 24 = 12 ∧ r.words.getD 1 0 = 8) ∧
      (fw ws 0 = 1 → fw ws 28 = 0 → (∀ k < 8, (fw ws (40 + k)).getLsbD 0 = false) →
        awayGroup s1 s1.cur.blk s1.cur.grpib = none →
        ∃ t, exec .eret s = .next t ∧ t.cur.priv = false ∧ t.cur.pc = s1.cur.codebase + (fw ws 1).setWidth 64 ∧
          t.cur.rix = (fw ws 2).toNat % 64 ∧ t.cur.pmask = fw ws 5 ∧ t.cur.fmt = fw ws 6 &&& 0x7FFF ∧
          t.cur.flags = fw ws 7 &&& 0xF8 ∧ t.cur.srs = fw ws 9 ++ fw ws 8 ∧
          t.cur.lclk = (if (fw ws 11).toNat = s1.cp.rebases then ltMax s1.cp.front (fw ws 10) else s1.cp.front) ∧
          t.cur.xc = fw ws 12 ∧ t.cur.xcv = (fw ws 13).getLsbD 0 ∧ t.cur.alo = fw ws 14 ∧ t.cur.ahi = fw ws 15 ∧
          t.cur.astat = fw ws 16 ∧ t.cur.aid = fw ws 17 ∧ (∀ k < 8, mreg t.cur k = fw ws (18 + k)) ∧
          t.cur.f = (fw ws 26).extractLsb' 0 4 ∧ t.cur.instret = fw ws 27 ∧ (∀ k < 4, gget t.cur k = fw ws (48 + k) ∧ mfind t.cur.gPoison k = fwBad ws (48 + k)) ∧
          (∀ i < 32, vget t.cur 0 i = fw ws (52 + i) ∧ mfind t.cur.vPoison i = fwBad ws (52 + i)) ∧
          (((fw ws 3).toNat % 8 ≠ 4 ∨ (ctx s1 s1.cur.ctx).dbg = false ∨ s1.io.dbgOn = false) → t.cur.st = .ready)))

/-- TLBI (R272): every leaf, every walk-cache entry and every instruction-cache line goes; or those of a context; or the leaves of
any size of a context whose page holds the address, with every walk-cache entry of the context and the lines of that page; all once
no request that has used a dropped entry is on its way to a slice, until when it stalls. At user privilege it is illegal. -/
def Obligations.TranslationDrop : Prop :=
  ∀ (gp : BitVec 7) s,
    let lo := gget s.cur (2 * gp.toNat)
    let asid := lo.toNat % 64
    let va := lo.toNat / 2 ^ 14 * 2 ^ 14 + (gget s.cur (2 * gp.toNat + 1)).toNat % 2 ^ 26 * 2 ^ 32
    let covers := fun t : TlbEnt => t.asid == asid && t.base == pageBase va t.level
    let free := fun leaf => ∀ e ∈ s.pending, usesDropped leaf s e = false
    (privileged s.cur = false → ∀ i ∈ ([.tlbiAll, .tlbiAsid gp, .tlbiPage gp] : List Instr), exec i s = .next (illEnc 0 s)) ∧
    (privileged s.cur = true →
      (free (fun _ => true) → ∃ t, exec .tlbiAll s = .next t ∧ Dropped (fun _ => true) (fun _ => true) (fun _ => true) s t) ∧
      (¬free (fun _ => true) → ∃ t, exec .tlbiAll s = .next t ∧ Stalls 21 true s t) ∧
      (Issues s.cur [] [2 * gp.toNat, 2 * gp.toNat + 1] [] →
        (free (fun t => t.asid == asid) → ∃ t, exec (.tlbiAsid gp) s = .next t ∧
          Dropped (fun t => t.asid == asid) (fun t => t.asid == asid) (fun k => k / 2 ^ 51 == asid) s t) ∧
        (free (tlbHit asid va) → ∃ t line, exec (.tlbiPage gp) s = .next t ∧ Dropped covers (fun t => t.asid == asid) line s t ∧
          ∀ k, k / 2 ^ 51 = asid → k % 2 ^ 51 * 128 / 2 ^ 14 = va / 2 ^ 14 → line k = true)))

/-- LTSET (R157, R158, R273): F equal to the front leaves it; F after it by at most 2^30 raises it, once the passes since the last
raise are complete, and the raise goes out to every core, slice and port; any other F is a rebase, once no request is on its way to a
slice: every held time is F, every L1 is empty, and the count of rebases has risen. The issuing group's clock is then at least F.
Until a raise or a rebase can be made, and while another rebase waits, the group stalls. At user privilege it is illegal. That a raise
waits for the passes of the raise before is log 12 (DESIGN CHOICE), and that a second LTSET stalls under fabric log 43 (DEDUCED). -/
def Obligations.FrontSet : Prop :=
  ∀ (a : BitVec 9) s,
    let f := gget s.cur a.toNat
    let ahead := (f - s.cp.front).toNat
    (privileged s.cur = false → exec (.ltset a) s = .next (illEnc 0 s)) ∧
    (privileged s.cur = true → Issues s.cur [] [a.toNat] [] → rebasing s = true → ∃ t, exec (.ltset a) s = .next t ∧ Stalls 21 true s t) ∧
    (privileged s.cur = true → Issues s.cur [] [a.toNat] [] → rebasing s = false →
      (ahead = 0 → ∃ t, exec (.ltset a) s = .next t ∧ t.cur.lclk = ltMax s.cur.lclk f ∧
        OnlyWrites 1 [] [] [] s (modCur t fun g => { g with lclk := s.cur.lclk })) ∧
      (0 < ahead → ahead ≤ 2 ^ 30 → mayRaise s = false →
        ∃ t, exec (.ltset a) s = .next t ∧ Stalls 21 true s { t with pending := s.pending }) ∧
      (2 ^ 30 < ahead → requestInFlight s = true → ∃ t, exec (.ltset a) s = .next t ∧ t.cur.setF = some f ∧
        t.pending = s.pending ++ [.rebase f] ∧ Stalls 21 false s { t with pending := s.pending, cur := { t.cur with setF := s.cur.setF } }) ∧
      (0 < ahead → ahead ≤ 2 ^ 30 → mayRaise s = true →
        ∃ t, exec (.ltset a) s = .next t ∧ t.cp.front = f ∧ t.cp.raised = true ∧ t.cur.lclk = ltMax s.cur.lclk f ∧ Completed 1 s t ∧
          t.mm = s.mm ∧ (∀ d, d < 192 → ((mfind s.cores d).isSome ∨ ∃ g ∈ allGroups s, g.core = d) → .frontBroadcast d ∈ t.pending) ∧
          (∀ i, (mfind s.slices i).isSome → i < 64 → .frontBroadcast (192 + i) ∈ t.pending) ∧ .frontBroadcast 256 ∈ t.pending ∧
          (∀ p ∈ s.io.ualClk, .frontBroadcast (p.1 + 257) ∈ t.pending)) ∧
      (2 ^ 30 < ahead → requestInFlight s = false → s.cur.rgn = none →
        ∃ t, exec (.ltset a) s = .next t ∧ t.cp.front = f ∧ t.cp.rebases = s.cp.rebases + 1 ∧ Completed 1 s t ∧
          (∀ g ∈ allGroups t, g.lclk = f ∧ g.alo = f ∧ g.ahi = f) ∧ (∀ c, (Machine.core t c).l1 = []) ∧
          (∀ i, (slice t i).evts = f) ∧ (∀ p ∈ t.mm.lines, p.2.wts = f ∧ p.2.rts = f ∧ p.2.owner = none) ∧ t.io.cxlClk = f ∧
          (∀ p ∈ t.io.ualClk, p.2 = f) ∧ t.mm.mem = s.mm.mem))

/-! ## Regions -/

/-- ARBEG (R191, R192): once the group's loads have come and its stores and atomics are performed, the region opens with a slot that was
free and the bounds of its class; without a free slot the group goes on at the handler with cause 8; a nested one aborts the region with
cause 11. AREND, ARABT and ARNRW (R202 to R206): outside a region they have no effect. A region whose GST is performed (R110) and whose
messages have arrived, until when it stalls, commits at ALO: every byte it buffered is published, its clock is at least ALO, and its slices
are told; one whose interval is empty aborts with cause 1. ARABT aborts with cause 7 and its code; ARNRW narrows the bounds, which it
relays to its slices, and aborts with cause 1 if that empties them. ARABT is illegal after a prefix. -/
def Obligations.RegionResults : Prop :=
  (∀ (g : BitVec 9) (lit : Word) s,
     let w := gget s.cur g.toNat
     let handler := s.cur.pc + lit.signExtend 64
     let cap := s.cp.front + 0x3FFFFFFF
     let room := (cap - s.cur.lclk).toNat
     let stretch := fun n : Nat => if room < n then cap else s.cur.lclk + BitVec.ofNat 32 n
     let firm := stretch (if w = 0 then (ctx s s.cur.ctx).lease.toNat + 1 else w.toNat)
     let upper := if w = 0 then cap else stretch (w.toNat - 1)
     let due := fun o : OpRec => o.tag ≠ 1 ∧ o.kind ∈ [OpKind.load, .scrLoad, .gld, .cread, .store, .atom, .gst]
     Issues s.cur [] [g.toNat] [] →
     ∀ row ∈ ([(.arbegFirm g lit, false, 0x80000000, firm, firm), (.arbegElastic g lit, true, 0xC0000000, s.cur.lclk, upper)] :
         List (Instr × Bool × Word × Word × Word)),
       (s.cur.rgn = none → (∃ o ∈ s.cur.ops, due o) → ∃ t, exec row.1 s = .next t ∧ Stalls 14 true s t) ∧
       (s.cur.rgn = none → (∀ o ∈ s.cur.ops, ¬due o) →
         ((∃ i < 4096, mfind s.cp.slots i = none) → room < 2 ^ 31 →
           ∃ t, exec row.1 s = .next t ∧ Completed 2 s t ∧ t.cur.astat = row.2.2.1 ∧ t.cur.alo = row.2.2.2.1 ∧
             t.cur.ahi = row.2.2.2.2 ∧ t.cur.lclk = s.cur.lclk ∧ t.cur.aid.toNat < 4096 ∧ mfind s.cp.slots t.cur.aid.toNat = none ∧
             (mfind t.cp.slots t.cur.aid.toNat).isSome ∧
             t.cur.rgn = some { elastic := row.2.1, handler := handler, reads := [], writes := [], buf := [], vas := [], slices := [] } ∧
             VectorsKept [] s.cur t.cur ∧ UniformsKept [] s.cur t.cur ∧ MasksKept [] s.cur t.cur ∧ t.mm = s.mm) ∧
         ((∀ i < 4096, mfind s.cp.slots i ≠ none) →
           ∃ t, exec row.1 s = .next t ∧ CompletedAt handler s t ∧ t.cur.rgn = none ∧ t.cur.aid = s.cur.aid ∧
             t.cur.astat = (if row.2.1 then 0x40080000 else 0x00080000) ∧ t.mm = s.mm)) ∧
       (∀ r, s.cur.rgn = some r → ∃ t, exec row.1 s = .next t ∧ t.cur.rgn = none ∧ t.cur.pc = r.handler ∧
         t.cur.astat = (if r.elastic then 0x400B0000 else 0x000B0000) ∧ t.mm = s.mm)) ∧
  (∀ (a b : BitVec 9) (code : BitVec 8) s,
     let aid := s.cur.aid.toNat
     let aborted := fun (r : Region) (cause code : Nat) (t : State) => t.cur.rgn = none ∧ t.cur.pc = r.handler ∧ t.cur.rix = 0 ∧
       t.cur.astat = BitVec.ofNat 32 ((if r.elastic then 2 ^ 30 else 0) + cause * 2 ^ 16 + code * 2 ^ 8) ∧
       (∀ i, readByte t.mm.mem i = readByte s.mm.mem i) ∧ VectorsKept [] s.cur t.cur ∧ UniformsKept [] s.cur t.cur ∧
       ∀ i ∈ r.slices, .regionAbortMessage i { aid := aid, source := 0, cause := cause } ∈ t.pending
     (s.cur.rgn = none →
       (∀ i ∈ ([.arend, .arabt code] : List Instr), ∃ t, exec i s = .next t ∧ OnlyWrites 1 [] [] [] s t) ∧
       (Issues s.cur [] [a.toNat, b.toNat] [] → ∃ t, exec (.arnrw a b) s = .next t ∧ OnlyWrites 1 [] [] [] s t)) ∧
     (∀ r, s.cur.rgn = some r →
       (¬NoGst s.cur → ∃ t, exec .arend s = .next t ∧ Stalls 9 true s t) ∧
       (NoGst s.cur → messageDue s aid = true → ∃ t, exec .arend s = .next t ∧ Stalls 14 true s t) ∧
       (NoGst s.cur → messageDue s aid = false → before s.cur.ahi s.cur.alo = true → ∃ t, exec .arend s = .next t ∧ aborted r 1 0 t) ∧
       (NoGst s.cur → messageDue s aid = false → before s.cur.ahi s.cur.alo = false → (ctx s s.cur.ctx).ulogPol.getLsbD 31 = false →
         (∀ l ∈ r.writes, hostHolds s l = none) → (r.buf.map (·.1)).Nodup → s.mm.sealed = [] →
         ∃ t, exec .arend s = .next t ∧ Completed 1 s t ∧ t.cur.rgn = none ∧ t.cur.lclk = ltMax s.cur.lclk s.cur.alo ∧
           t.cur.astat = s.cur.astat &&& 0x40000000 ∧ VectorsKept [] s.cur t.cur ∧ UniformsKept [] s.cur t.cur ∧
           (∀ i ∈ r.slices, .finalPosition i aid s.cur.alo ∈ t.pending) ∧
           ∀ i, readByte t.mm.mem i = if i / 128 ∈ r.writes then (mfind r.buf i).getD (readByte s.mm.mem i) else readByte s.mm.mem i) ∧
       (∃ t, exec (.arabt code) s = .next t ∧ aborted r 7 code.toNat t) ∧
       (Issues s.cur [] [a.toNat, b.toNat] [] →
         let lo := ltMax s.cur.alo (gget s.cur a.toNat)
         let hi := ltMin s.cur.ahi (gget s.cur b.toNat)
         (before hi lo = true → ∃ t, exec (.arnrw a b) s = .next t ∧ aborted r 1 0 t) ∧
         (before hi lo = false → ∃ t, exec (.arnrw a b) s = .next t ∧ Completed 1 s t ∧ t.cur.alo = lo ∧ t.cur.ahi = hi ∧
           t.cur.rgn = some r ∧ VectorsKept [] s.cur t.cur ∧ UniformsKept [] s.cur t.cur ∧ t.mm = s.mm ∧
           ∀ i ∈ r.slices, (lo ≠ s.cur.alo → .narrowingMessage 1 aid lo 0 0 ∈ t.pending) ∧
             (hi ≠ s.cur.ahi → .narrowingMessage 0 aid hi 0 0 ∈ t.pending))))) ∧
  (∀ p (w : Word) rest, w.toNat / 2 ^ 25 = 0x6E → decodeWords (prefixWord p :: w :: rest) = .enc 1)

/-! ## Calls and launches -/

/-- SYSC with a number (R232, R264, R279): a future with a tag that no outstanding one holds, counted on w, with its pair interlocked, and a
call record that carries the eight captured registers; a group that holds eight waits. LAUNCH (R231): the record is read as a
tracked load, one operation is counted on w, and the record is on its way to the command processor with the clock that the group
held at issue. -/
def Obligations.CallLaunchIssue : Prop :=
  (∀ (w : BitVec 4) (n : BitVec 12) (b : BitVec 6) s,
     let r := 8 * b.toNat
     let held := (s.cur.ops.filter fun o => o.kind == .future).length
     Issues s.cur [] ((List.range 8).map (r + ·)) [r, r + 1] → NoGst s.cur → s.cur.rgn = none →
     (8 ≤ held → ∃ t, exec (.syscFuture w n b) s = .next t ∧ Stalls 15 true s t) ∧
     (held < 8 → wget s.cur w.toNat < 255 → (ctx s s.cur.ctx).ulogPol.getLsbD 31 = false → s.cp.futures.length + s.cp.answers.length < 2 ^ 16 →
       ∃ t tag, exec (.syscFuture w n b) s = .next t ∧ Completed 1 s t ∧ (∀ f ∈ s.cp.futures, f.tag ≠ tag) ∧
         (∀ a ∈ s.cp.answers, a.1 ≠ tag) ∧ tag < 2 ^ 16 ∧
         t.cp.futures = s.cp.futures ++ [{ tag := tag, gid := gidOf s.cur, blk := s.cur.blk, grpib := s.cur.grpib, w := w.toNat,
                                           reg := r }] ∧
         Outstanding t.cur s.cur.nextOp .future (some w.toNat) [] [r, r + 1] ∧
         ((∀ o ∈ s.cur.ops, o.tag ≠ 1) → wget t.cur w.toNat = wget s.cur w.toNat + 1) ∧ t.mm = s.mm ∧
         VectorsKept [] s.cur t.cur ∧ UniformsKept [] s.cur t.cur ∧ MasksKept [] s.cur t.cur ∧
         ∃ x ∈ (Machine.core t s.cur.core).replay ++ (Machine.core t s.cur.core).unposted, x.gid = gidOf s.cur ∧
           x.words.getD 0 0 = 0x0B000000 ∧ x.words.getD 1 0 = n.setWidth 32 ∧ x.words.getD 3 0 = BitVec.ofNat 32 (tag * 2 ^ 16 + s.cur.ctx) ∧
           x.words.getD 4 0 = pcOffset s.cur ∧ x.words.getD 9 0 = s.cur.lclk ∧ x.words.getD 11 0 = 0x80000000 ∧
           (∀ k < 4, x.words.getD (5 + k) 0 = gget s.cur (r + k)) ∧ ∀ k < 4, x.words.getD (12 + k) 0 = gget s.cur (r + 4 + k))) ∧
  (∀ (gp : BitVec 7) (w : BitVec 4) s s1 l,
     Issues s.cur [] [2 * gp.toNat, 2 * gp.toNat + 1] [] → NoGst s.cur → s.cur.rgn = none → wget s.cur w.toNat < 255 →
     walksDone s { r := true } [pairVal s.cur gp] = true → address s (whoOf s s.cur) (pairVal s.cur gp) 128 { r := true } = (s1, .ok l) → placeOf l ≠ .host → placeOf l ≠ .peer →
     placeOf l ≠ .mmio → mustWait s1 none (l.pa / 128) false = false → memFault s1 l.pa l.via = none →
     let r := trackedLine s1 (whoOf s1 s1.cur) (l.pa / 128) l.via
     copyBad r.1 r.2.1 l.pa 128 = none → (ctx r.1 r.1.cur.ctx).ulogPol.getLsbD 31 = false →
     ∃ t, exec (.launch gp w) s = .next t ∧ Completed 1 r.1 t ∧ t.cur.lclk = r.2.2 ∧
       t.cp.launches = r.1.cp.launches ++ [{
         gid := gidOf r.1.cur, op := r.1.cur.nextOp, stamp := r.1.turn, blk := r.1.cur.blk,
         grpib := r.1.cur.grpib, ctx := r.1.cur.ctx, clk := r.1.cur.lclk,
         record := (List.range 32).map fun k => BitVec.ofNat 32 (copyBytes r.1 r.2.1 l.pa 128 / 2 ^ (32 * k)) }] ∧
       Outstanding t.cur r.1.cur.nextOp .launch (some w.toNat) [] [] ∧
       t.pending = r.1.pending ++ [.launchEnqueue (gidOf r.1.cur) r.1.turn] ∧ t.mm = r.1.mm ∧
       VectorsKept [] r.1.cur t.cur ∧ UniformsKept [] r.1.cur t.cur ∧ MasksKept [] r.1.cur t.cur)

/-! ## Decoding, stepping and the whole machine -/

/-- Decode and encode agree (R37, R38, R42, R44 to R50): the words of a well-formed instruction decode to it, with its number of
words, whatever follows them; and a part of them asks for the next word. -/
def Obligations.DecodeEncode : Prop :=
  ∀ i rest, wellFormed i = true →
    (encode i).length = wordCount i ∧ decodeWords (encode i ++ rest) = .instr i (wordCount i) ∧
    ∀ k < wordCount i, decodeWords ((encode i).take k) = .more

/-- The guard majors (R47, R50): a word with one of them is refused as a guard where it stands first and where it follows a word
of major 0x7E; a word whose major is reserved is illegal. Words of the spec's tables of written forms, and of R50's table of
fates, read as they say. -/
def Obligations.SampleWords : Prop :=
  (∀ (w : Word) rest,
     let m := w.toNat / 2 ^ 25
     (m = 0 ∨ (0x1E ≤ m ∧ m ≤ 0x21) ∨ (0x5E ≤ m ∧ m ≤ 0x61) ∨ m = 0x7F →
       decodeWords (w :: rest) = .guard 0 ∧ ∀ p, decodeWords (prefixWord p :: w :: rest) = .guard 1) ∧
     (m = 0x1D ∨ (0x3D ≤ m ∧ m ≤ 0x3F) ∨ m = 0x4F ∨ (0x54 ≤ m ∧ m ≤ 0x5D) ∨ (0x72 ≤ m ∧ m ≤ 0x7D) → decodeWords (w :: rest) = .enc 0)) ∧
  ((∀ row ∈ ([([0x0438C282], .fmulG none 7 6 40), ([0x06412543], .hfma2 none true 8 9 10),
       ([0xFC012000, 0x08282105], .imad (some { ms := 0, rnd := .fmt, vc := 9, z := false, sat := false, gx := 0, imm := 0 }) 5 1 2),
       ([0x0E504180], .cmp 1 .lt 2 3 .f32 .set), ([0x243FFFFB], .imovi 3 0xFFFFB), ([0x28104004, 0x100], .iaddL none 2 2 0x100),
       ([0x12280C20], .rsumI 40 3), ([0x38810000], .mand 2 0 1), ([0x62A00805], .gcmp 1 .lt .i32 4 5), ([0x660C0A02], .gld 12 5 2),
       ([0x74205800], .brx 4 22), ([0x82386189], .ldvs none 7 3 6 2 .b16), ([0x8A404145], .atomAddF none 8 2 5 true),
       ([0xA2006100], .mma 0 6 1 false), ([0x96605000, 8], .waity 3 2 8), ([0xD90A0000, 0x40], .arbegElastic 20 0x40),
       ([0xC4602028], .syscFuture 3 0x010 5), ([0xD20A0650], .xwr 10 12 .group), ([0xD4320000], .tlbiPage 12)] :
       List (List Word × Instr)),
     decodeWords row.1 = .instr row.2 row.1.length) ∧
   decodeWords [0x00000000] = .guard 0 ∧ decodeWords [0x3F800000] = .guard 0 ∧ decodeWords [0xFFFFFFFE] = .guard 0 ∧
   decodeWords [0x3A000000] = .enc 0 ∧ decodeWords [0x02182109] = .enc 0 ∧ decodeWords [0xFC380000, 0x02182103] = .enc 0 ∧
   decodeWords [0xFC000000, 0xFC000000] = .enc 1 ∧ decodeWords [0xFC000000, 0x78000000] = .enc 1 ∧
   decodeWords [0xFC800000, 0x3F800000] = .guard 1)

/-- A step of a group that has the next turn fetches the words at its PC until they decode or fail (R50), and executes what they are, with
nothing before it; but a CADD of the group that is on its way is performed before an instruction that accesses memory (R138, R147). At RIX
32 no thread is left (R266), and of the instruction only what it does after its last thread happens. What follows a step (R156, R214, R294,
R310) is nothing where no group is stepped or sampled, no tick is due and the firmware neither runs nor is to boot; a device with power
whose firmware has not booted has its boot due. -/
def Obligations.StepRunsDecoded : Prop :=
  ∀ (s : State) (ws : List Word), TakesTurn s → (∀ k < ws.length, CodeWord (nextTurn s) k (ws.getD k 0)) → 0 < ws.length → ws.length ≤ 3 →
    (∀ k < ws.length, decodeWords (ws.take k) = .more) →
    let runs := fun (i : Instr) (u : State) => step s = match exec i u with
      | .next t => .next (settle s t)
      | r => r
    let cadd := fun i => if accessesMemory i then caddDue (nextTurn s) (gidOf s.cur) else none
    (∀ i n, decodeWords ws = .instr i n → cadd i = none →
      (s.cur.rix ≠ 32 ∨ endsAt32 i = true → runs i (nextTurn s)) ∧
      (s.cur.rix = 32 → endsAt32 i = false → step s = .next (settle s (advance n (nextTurn s))))) ∧
    (∀ i n k e, decodeWords ws = .instr i n → cadd i = some k → s.pending[k]? = some e →
      runs e { nextTurn s with pending := without k s.pending }) ∧
    (∀ guard k, decodeWords ws = (if guard then .guard k else .enc k) → runs (.illegalInstruction guard k) (nextTurn s)) ∧
    ((∀ g ∈ allGroups s, g.stepReq = false ∧ g.sampled = false) → ∀ t, t.fw.status ≠ 0 → t.fw.status ≠ 2 → (∀ g ∈ allGroups t, tickDue t g = false) →
      settle s t = t) ∧
    ((∀ g ∈ allGroups s, g.stepReq = false) → ∀ t, t.fw.status = 0 → t.fw.power = .d0 → .deviceReset ∈ (settle s t).pending)

/-- No step breaks the canonical form of device memory: its addresses stay strictly rising, and no byte is listed that reads as an
unlisted one does (log 5). -/
def Obligations.MemoryStaysCanonical : Prop :=
  ∀ s t, MemoryCanonical s → step s = .next t → MemoryCanonical t

/-- No step breaks the order of the machine's data: groups keep distinct names, and maps the order of their keys. -/
def Obligations.DataStaysOrdered : Prop :=
  ∀ s t, Ordered s → step s = .next t → Ordered t

/-- Right after reset: memory is canonical and every page is the host's (R242); the front, the engines' and the ports' times are 0
(R157); no group but the supervisors', which are held (R276), and no block; no context is made yet (R235), each with its TICK,
LEASE and LULLMAX (R258, R156, R155); and no step is due. -/
def Obligations.ResetState : Prop :=
  let s := State.reset
  MemoryCanonical s ∧ Ordered s ∧ (∀ pa, ownOf s pa = 0x8000) ∧ s.cp.front = 0 ∧ s.cp.rebases = 0 ∧ s.io.cxlClk = 0 ∧ (∀ i, (slice s i).evts = 0) ∧
  (∀ gid g, group s gid = some g → g.sup = true ∧ g.st = .held ∧ g.lclk = 0 ∧ g.pmask = 0xFFFFFFFF ∧ g.priv = false) ∧
  (∀ c < 192, ∃ g, group s (c * 2048 + 1024) = some g ∧ g.core = c) ∧ s.blocks = [] ∧
  (∀ n, (ctx s n).tick = 256 ∧ (ctx s n).lease = 10 ∧ (ctx s n).lullmax = 94000 ∧ (ctx s n).live = false) ∧
  (∀ c, (Machine.core s c).mxidle = 4096 ∧ (Machine.core s c).faultq = 0 ∧ (Machine.core s c).scr = 2) ∧ s.pending = []

/-! ## Steps of groups -/

/-- Steps of a group that no instruction takes (R19, R90, R95, R97, R156, R158, R171, R172, R227, R228): a branch resolves; data comes
back, once the reads of its lines have been served, a store is performed and the oldest scratch request completes, and each arrives, a
request of several parts with the last; a constant line or a code line is filled, but not while a rebase or a re-encryption waits; a
clock ticks once its count has reached TICK as it was last written; a group leaves the lull. A group that was stalled keeps its place in
the selection order; one that leaves the lull is the youngest. That poisoned data has SUB 5 whatever its origin is log 34 (DESIGN
CHOICE); what a tick leaves of a count beyond TICK, and what a tick accrues to, is log 47 (DEDUCED). -/
def Obligations.GroupSteps : Prop :=
  ∀ gid s g, Machine.group s gid = some g →
    (g.st = .stalled 4 false → ∃ t, exec (.branchResolve gid) s = .next t ∧
      Machine.group t gid = some { g with st := .ready } ∧ OnlyGroup gid s t) ∧
    (∀ op o, g.ops.find? (·.id == op) = some o → o.tag ≠ 1 →
      (dataAwaited s gid op = true → ∀ poison,
        exec (.loadDataReturn gid op poison) s = .next { s with pending := s.pending ++ [.loadDataReturn gid op poison] }) ∧
      (o.kind ∈ [OpKind.load, .atom, .prf, .gld, .cread] → dataAwaited s gid op = false → ∀ poison, ∃ t h, exec (.loadDataReturn gid op poison) s = .next t ∧
        Arrived gid o g h s { t with cores := s.cores } ∧ (∀ c, SameCopies (Machine.core s c) (Machine.core t c)) ∧
        (∀ r i, i < 32 → mfind h.vPoison (r * 32 + i) =
          if r ∈ o.vregs ∧ poison.getLsbD i = true then some 5 else mfind g.vPoison (r * 32 + i)) ∧
        ∀ r, mfind h.gPoison r = if r ∈ o.gregs ∧ poison ≠ 0 then some 5 else mfind g.gPoison r) ∧
      (o.kind ∈ [OpKind.store, .atom, .gst] → ∃ t h, exec (.storePerformed gid op) s = .next t ∧ Arrived gid o g h s t ∧
        h.vPoison = g.vPoison ∧ h.gPoison = g.gPoison) ∧
      (o.kind ∈ [OpKind.scrLoad, .scrStore, .atom] → ∀ core rest, (Machine.core s core).scq = (gid, op) :: rest →
        let u := modCore s core fun k => { k with scq := rest }
        (scratchQueued u gid op = false → ∃ t h, exec (.scratchPhase core) s = .next t ∧ Arrived gid o g h u t ∧ h.vPoison = g.vPoison) ∧
        (scratchQueued u gid op = true → exec (.scratchPhase core) s = .next u))) ∧
    (∀ va, walksHeld s = true → exec (.constantLineFill gid va) s = .next { s with pending := s.pending ++ [.constantLineFill gid va] } ∧
      exec (.icacheFill gid) s = .next { s with pending := s.pending ++ [.icacheFill gid] }) ∧
    (∀ va l, walksHeld s = false → address s (whoOf s g) va 4 { r := true } = (s, .ok l) → fillHeld s l = false → lineFault s l = none →
      g.st = .stalled 9 false →
      ∃ t, exec (.constantLineFill gid va) s = .next t ∧ Machine.group t gid = some { g with st := .ready } ∧
        mfind (Machine.core t g.core).ccache (bankKey s g l) = some (lineBytes (lineRead s g.ctx l) l) ∧ t.mm = (lineRead s g.ctx l).mm) ∧
    (∀ va l, walksHeld s = false → missingWord s g = some va → address s (fetcher s g) va 4 { x := true } = (s, .ok l) →
      fillHeld s l = false → lineFault s l = none → g.st = .stalled 18 false →
        ∃ t, exec (.icacheFill gid) s = .next t ∧ Machine.group t gid = some { g with st := .ready } ∧
          mfind (Machine.core t g.core).icache (codeKey (codeCtx g) va) = some (lineBytes (lineRead s (codeCtx g) l) l) ∧
          t.mm = (lineRead s (codeCtx g) l).mm) ∧
    (isResident g = true → (ctx s g.ctx).tickNow ≠ 0 →
      ((ctx s g.ctx).tickNow.toNat ≤ g.drift → ∃ t, exec (.driftTick gid) s = .next t ∧ Machine.group t gid = some
        { g with lclk := ltMax s.cp.front g.lclk + 1, drift := g.drift - (ctx s g.ctx).tickNow.toNat } ∧ OnlyGroup gid s t) ∧
      (g.drift < (ctx s g.ctx).tickNow.toNat → ∃ t, exec (.driftTick gid) s = .next t ∧ Machine.group t gid = some g ∧ OnlyGroup gid s t)) ∧
    (∀ c, ∃ t, exec (.tickRestart c) s = .next t ∧
      Machine.group t gid = some (if isResident g ∧ g.ctx = c then { g with drift := 0 } else g) ∧ (ctx t c).tickNow = (ctx s c).tick ∧
      t = { s with cur := t.cur, others := t.others, fw := { s.fw with ctxs := t.fw.ctxs } }) ∧
    (∀ w n k, g.st = .lull (.count w n) k → wget g w ≤ n → ∃ t, exec (.lullWake gid) s = .next t ∧
      Machine.group t gid = some { g with
        st := .ready, pc := k, age := s.turn, rix := 0,
        lclk := (mfind g.joins w).elim g.lclk (ltMax g.lclk ·), joins := if (mfind g.joins w).isSome then mdel g.joins w else g.joins } ∧
      OnlyGroup gid s t) ∧
    (∀ id k, g.st = .lull (.barrier id) k → g.grpib ∉ (barrierOf s g.blk id).arrived → ∃ t, exec (.lullWake gid) s = .next t ∧
      Machine.group t gid = some { g with st := .ready, pc := k, age := s.turn, rix := 0 } ∧ OnlyGroup gid s t) ∧
    (∀ k, g.st = .lull .yielded k → ∃ t, exec (.yieldExpiry gid) s = .next t ∧
      Machine.group t gid = some { g with st := .ready, pc := k, age := s.turn, rix := 0 } ∧ OnlyGroup gid s t)

/-- Traps and pre-emptions that no instruction raises (R50, R240, R268, R280, R285, R306): a group stalled beyond its context's
limit, or at a breakpoint of its PC, parks with its record; words that decode to nothing trap; a walk caches its leaf, and the groups
that wait for it look again; a record is posted in its ring; a block asked to pre-empt has each group vector, with the entry registers of
the save routine once nothing is outstanding and the group stands between two instructions. Walks, posts and pre-emptions wait while the
device's own accesses are held. The active mask of these records is log 15 (DEDUCED), ACC 1 of fetch and decode traps log 11 (DEDUCED),
and the clock with which a record is posted log 48 (DEDUCED). -/
def Obligations.TrapSteps : Prop :=
  (∀ gid s g, Machine.group s gid = some g → g.sup = false → g.rgn = none →
    let record := fun cause sub => parkRecord g cause sub 0 g.rix false g.pc g.pc (mreg g 0 &&& g.pmask)
    let parked := fun (g : Group) r (s t : State) => (∃ h, Counted 11 { g with st := .parked } h ∧ MadeCurrent h s t) ∧
      (∀ c, Machine.core t c = { (if c = g.core then withRecord (Machine.core s c) r else Machine.core s c) with
        pstall := (Machine.core t c).pstall }) ∧
      t.pending = s.pending ++ [.faultRecordPost g.core] ∧ t.mm = s.mm
    (∀ cycles r b, g.st = .stalled r b → g.preempt = false → (ctx s g.ctx).wdog ≠ 0 → (ctx s g.ctx).wdog.toNat < cycles →
      ∃ t, exec (.watchdogExpiry gid cycles) s = .next t ∧
        parked { g with req := none, ticket := none, setF := none } (record 15 (cycles % 2 ^ 32)) s t) ∧
    (g.st = .ready → g.priv = false → ((ctx s g.ctx).dbg && s.io.dbgOn) = false →
      ∃ t, exec (.pcBreakpoint gid) s = .next t ∧ parked g (record 9 0) s t) ∧
    (g.st = .ready → g.priv = false → ((ctx s g.ctx).dbg && s.io.dbgOn) = true →
      ∃ t h, exec (.pcBreakpoint gid) s = .next t ∧ Counted 20 { g with st := .held, under := .ready } h ∧ MadeCurrent h s t ∧
        t.pending = s.pending ∧ Sent [{ kind := 2, port := 0, pa := gid, data := [] }] s t) ∧
    (g.preempt = true → isResident g = true → mayVector s g = true → deviceHeld s = true →
      exec (.preemptionVector gid) s = .next { s with pending := s.pending ++ [.preemptionVector gid] }) ∧
    (g.preempt = true → isResident g = true → mayVector s g = true → deviceHeld s = false → ∃ t h, exec (.preemptionVector gid) s = .next t ∧
      Machine.group t gid = some h ∧ h.st = .ready ∧ h.priv = true ∧ h.preempt = false ∧ h.fmt = 0 ∧ h.rix = 0 ∧ h.lclk = g.lclk ∧
      h.pc = ((Machine.core s g.core).pvec).setWidth 64 ∧ mreg h 0 = g.pmask ∧ gpair h 0 = groupRecord s g.blk g.grpib % 2 ^ 64 ∧
      gget h 2 = 0 ∧ gget h 3 = 0 ∧ (∀ i < 32, vget h 0 i = BitVec.ofNat 32 (4 * i)) ∧
      (∀ r, 4 ≤ r → gget h r = gget g r) ∧ (∀ r, 0 < r → mreg h r = mreg g r) ∧
      (∀ p ∈ h.vPoison, 32 ≤ p.1) ∧ (∀ p ∈ h.gPoison, 4 ≤ p.1) ∧
      let saved := saveFrame s g (groupRecord s g.blk g.grpib)
      t.mm = saved.1.mm ∧ h.unsaved = g.unsaved ++ saved.2) ∧
    (g.preempt = true → isResident g = true → mayVector s g = false → ∃ t h, exec (.preemptionVector gid) s = .next t ∧
      Machine.group t gid = some h ∧ Counted (preemptReason g) g h ∧ t.mm = s.mm ∧ t.pending = s.pending)) ∧
  (∀ guard k s, s.cur.sup = false → s.cur.rgn = none →
    ∃ t, exec (.illegalInstruction guard k) s = .next t ∧
      Parks (parkRecord s.cur (if guard then 6 else 5) 0 1 s.cur.rix false s.cur.pc (s.cur.pc + BitVec.ofNat 64 (4 * k))
        (mreg s.cur 0 &&& s.cur.pmask)) s.cur.rix s t) ∧
  (∀ core asid va wr s, va < 2 ^ 58 → walksHeld s = true →
    exec (.pageWalk core asid va wr) s = .next { s with pending := s.pending ++ [.pageWalk core asid va wr] }) ∧
  (∀ core asid va wr s s' l, va < 2 ^ 58 → walksHeld s = false →
    translate s { core := core, asid := asid, clk := 0, user := false } va { w := wr } = (s', .ok l) →
    ∃ t, exec (.pageWalk core asid va wr) s = .next t ∧ (Machine.core t core).tlb.any (tlbHit asid va) = true ∧
      t = { s' with cur := t.cur, others := t.others } ∧
      ∀ gid g, Machine.group s' gid = some g → Machine.group t gid = some
        (if g.st = .stalled 10 false ∧ g.core / 8 = core / 8 then
          { g with st := .ready, walks := if g.ctx = asid then g.walks ++ [pageNo va] else g.walks }
         else if inner g = .stalled 10 false ∧ g.core / 8 = core / 8 then
          { g with under := .ready, walks := if g.ctx = asid then g.walks ++ [pageNo va] else g.walks }
         else g)) ∧
  (∀ core s r s1 tail lt s2 head lh s3 clk s4 u, (Machine.core s core).replay.find? (fun r => !r.posted) = some r → r.bad = [] →
    deviceHeld s = false →
    ringLog s core ≠ 0 → ringCounter s core (ringBase s core) = some (s1, tail, lt) →
    ringCounter s1 core (ringBase s core + 8) = some (s2, head, lh) → tail - head < 2 ^ ringLog s core →
    writeRecord { ringAgent core with clk := recordClock s2 r } (ringRecord s2 core tail) r.words s2 = some (s3, clk) →
    counterAdd s3 0 clk lt.pa 1 lt.via = some (s4, u) →
    ∃ t, exec (.faultRecordPost core) s = .next t ∧ t.mm = s4.mm ∧ (Machine.core t core).fqTail = tail + 1 ∧
      (Machine.core t core).fqHead = (Machine.core s4 core).fqHead ∧ (r.frees = false → { r with posted := true } ∈ (Machine.core t core).replay)) ∧
  (∀ b s, (block s b).st = .resident → deviceHeld s = false → ∃ t, exec (.preemptionRequest b) s = .next t ∧ (block t b).st = .saving ∧
    ∀ gid g, Machine.group s gid = some g → residentOf b g = true →
      .preemptionVector gid ∈ t.pending ∧ ∃ h, Machine.group t gid = some h ∧ h.preempt = true ∧ h.rgn = none)

/-! ## Steps of the engines -/

/-- The copy engine (R127, R146, R183 to R187, R279, R284): the head command begins once nothing that it must follow is
incomplete; it performs unit after unit, or parks with its restart record; all its units performed, it makes its counter addition
and arrives with its finish time; and a parked command is resolved, or cancelled, by the index of its record. Unit NEXT is a piece of a
row of the destination, split at its 128-byte boundaries, for SCATTER by numbers that do not depend on the indices, for PACKLOAD a block
of a row. A piece takes its bytes from scratch, from memory or from the pattern, and puts them into scratch or into memory and nowhere
else; REDSTORE combines element by element with what stands there; PACKLOAD packs 16 elements, or transposes a packed block, and writes
its plane words and its scale record. A bad word of scratch is a fault of sub-cause 15. -/
def Obligations.CopySteps : Prop :=
  ∀ core s,
    let k := Machine.core s core
    (∀ c rest, k.cpyq = c :: rest →
      (c.started = false → accessBefore s c.gid c.opId = false → copyBlocked s core c = false →
        missingPage s c.blk (cpyRanges c.op c.flags c.desc) = none →
        ∃ t, exec (.copyCommandStart core) s = .next t ∧ OnlyCore core { k with cpyq := { c with started := true } :: rest } s t ∧
          t.pending = s.pending ++ [if unitsDone s c then .copyComplete core else .copyUnit core]) ∧
      (c.started = true → unitsDone s c = false → ∀ s' d, performUnit core s c = .ok s' d →
        ∃ t, exec (.copyUnit core) s = .next t ∧ (Machine.core t core).cpyq = d :: rest ∧ t.mm = s'.mm ∧ t.blocks = s'.blocks ∧
          (if unitsDone s' d then .copyComplete core else .copyUnit core) ∈ t.pending) ∧
      (c.started = true → unitsDone s c = false → ∀ s' sub scr at_, performUnit core s c = .fault s' sub scr at_ →
        let k' := Machine.core s' core
        let d := { c with started := false, sub := sub, scr := scr, faddr := BitVec.ofNat 64 at_, idx := none, ring := none }
        ∃ t, exec (.copyUnit core) s = .next t ∧ .faultRecordPost core ∈ t.pending ∧
          OnlyCore core (withRecord { k' with cpyq := k'.cpyq.tail, parkedCpy := k'.parkedCpy ++ [d] }
            { words := restartRecord d true, gid := c.gid, posted := false, frees := true, cmd := some c.stamp }) s' t) ∧
      (c.started = true → unitsDone s c = false → performUnit core s c = .wait →
        exec (.copyUnit core) s = .next { s with pending := s.pending ++ [.copyUnit core] }) ∧
      (c.started = true → unitsDone s c = true → ∀ s' d g o,
        (flagCnt c.flags = false ∧ s' = s ∧ d = c) ∨ (flagCnt c.flags = true ∧ addCounter core s c = .ok s' d) →
        Machine.group s' c.gid = some g → g.st ≠ .retired → g.ops.find? (·.id == c.opId) = some o → o.w = some c.w →
        ∃ t h, exec (.copyComplete core) s = .next t ∧
          Arrived c.gid o g h (modCore s' core fun k => { k with cpyq := k.cpyq.tail }) t ∧ Joins c.w d.eclk g h)) ∧
    (∀ idx c, parkedAt s core idx = some c →
      let left := { k with parkedCpy := k.parkedCpy.filter (·.stamp != c.stamp), cpyErr := false }
      (∃ t, exec (.cpyctlResolve core idx) s = .next t ∧ OnlyCore core
        { left with cpyq := enqueueCpy { c with sub := 0, scr := false, faddr := 0, ring := none } k.cpyq } s t) ∧
      (∀ g o, Machine.group s c.gid = some g → g.st ≠ .retired → g.ops.find? (·.id == c.opId) = some o → o.w = some c.w →
        ∃ t h, exec (.cpyctlCancel core idx) s = .next t ∧ Arrived c.gid o g h (modCore s core fun _ => left) t ∧
          Joins c.w c.eclk g h ∧ h.due = g.due ++ [{ cause := 12, sub := c.sub, scr := c.scr, faddr := c.faddr }])) ∧
    (∀ idx, parkedAt s core idx = none →
      (∃ t, exec (.cpyctlResolve core idx) s = .next t ∧ OnlyCore core { k with cpyErr := true } s t) ∧
      (∃ t, exec (.cpyctlCancel core idx) s = .next t ∧ OnlyCore core { k with cpyErr := true } s t)) ∧
    (∀ c : CopyCmd,
      let d := c.desc
      let count := fun ix i => pieces (rowDest c.op c.flags d ix i).2 (cpyRowb d)
      (c.op ≠ 3 → c.op ≠ 4 → ∀ i j, i < cpyRows d → j < count 0 i → c.next = ((List.range i).map (count 0)).sum + j →
        (∀ o, rowIndex s c i = .error o → performUnit core s c = .fault s 15 true o) ∧
        (∀ e ix t f, rowIndex s c i = .ok (e, ix) → rowUnit core s e ix i j = .ok t f →
          performUnit core s c = .ok t { f with next := c.next + 1 })) ∧
      (c.op = 3 → let v := scatterV d
        ∀ e ix, rowIndex s c (c.next / v) = .ok (e, ix) →
          (c.next % v < count ix (c.next / v) → ∀ t f, rowUnit core s e ix (c.next / v) (c.next % v) = .ok t f →
            performUnit core s c = .ok t { f with
              next := if c.next % v + 1 < count ix (c.next / v) then c.next + 1 else (c.next / v + 1) * v }) ∧
          (count ix (c.next / v) ≤ c.next % v → ∀ e' ix' t f, rowIndex s e (c.next / v + 1) = .ok (e', ix') →
            rowUnit core s e' ix' (c.next / v + 1) 0 = .ok t f →
            performUnit core s c = .ok t { f with
              next := if 1 < count ix' (c.next / v + 1) then (c.next / v + 1) * v + 1 else (c.next / v + 2) * v })) ∧
      (c.op = 4 → ∀ t f, packUnit core s c (c.next / cpyRowb d) (c.next % cpyRowb d) = .ok t f →
        performUnit core s c = .ok t { f with next := c.next + 1 }) ∧
      (∀ i, c.op = 2 ∨ c.op = 3 → c.idx = none → rowIndex s c i =
        if (scrBadAt (block s c.blk) (cpyAux21 d + 4 * i) 4).isSome then .error (cpyAux21 d + 4 * i)
        else .ok ({ c with idx := some (i, scrRead (block s c.blk) (cpyAux21 d + 4 * i) 4) },
          scrRead (block s c.blk) (cpyAux21 d + 4 * i) 4)) ∧
      (∀ ix i j b,
        let dst := rowDest c.op c.flags d ix i
        let p := piece dst.2 (cpyRowb d) j
        let o := dst.2 + p.1
        mfind s.blocks c.blk = some b → s.mm.lines.length + 4 < sliceLines →
        (∀ q, rowSrc c.op d c.ext ix i = .scr q → (scrBadAt b (q + p.1) p.2).isSome →
          rowUnit core s c ix i j = .fault s 15 true (q + p.1)) ∧
        ∀ x,
          (match rowSrc c.op d c.ext ix i with
           | .fill => x < 256 ^ p.2 ∧ ∀ k < p.2, x / 256 ^ k % 256 = cpyAux d / 256 ^ ((p.1 + k) % 4) % 256
           | .scr q => scrBadAt b (q + p.1) p.2 = none ∧ x = scrRead b (q + p.1) p.2
           | .glob va => UnitReads s core c (va + p.1) p.2 x) →
          (dst.1 = true → ∃ t f, rowUnit core s c ix i j = .ok t f ∧ f = { c with eclk := f.eclk } ∧ MemoryKept s t ∧
            ScratchStored b (block t c.blk) o p.2 x) ∧
          (∀ l, dst.1 = false → 0 < p.2 → UnitReaches s core c o { r := c.op == 7, w := true } l → badAt s l.pa p.2 = none →
            ulogOn (ctx s c.ctx) = false →
            ∃ t f, rowUnit core s c ix i j = .ok t f ∧ f = { c with eclk := f.eclk, gen := f.gen } ∧ t.blocks = s.blocks ∧
              BytesStored s t l.pa p.2
                (if c.op = 7 then (redUnit (cpyRop d) c.rm (p.2 / 4) c.gen (readBytes s.mm.mem l.pa p.2) x).1 else x))) ∧
      (∀ r kb b x, mfind s.blocks c.blk = some b → s.mm.lines.length + 4 < sliceLines →
        let p := cpyPm1 d + 1
        let row := cpyGa d + r * cpyPitch d
        let z := packSize (cpyFsel d)
        let puts := fun (f : Nat → Nat) (record : Nat) =>
          ((List.range (p + 1)).map fun j => (cpySoff d + ((kb * (1 + p) + j) * cpyRows d + r) * 2, 2, f j)) ++
            [(cpyAux21 d + (kb * cpyRows d + r) * 4, 4, record)]
        let stored := fun (t : State) (ws : List (Nat × Nat × Nat)) => MemoryKept s t ∧
          (block t c.blk).scr = ws.foldl (fun m w => scrPut m w.1 w.2.1 w.2.2) b.scr
        (cpyFsel d < 5 → UnitReads s core c (row + 16 * kb * z) (16 * z) x →
          let k := roundKx ((List.range 16).map fun i => fval (packFmt (cpyFsel d)) (x / 2 ^ (8 * z * i) % 2 ^ (8 * z))) p c.rm c.gen
          ∃ t f, packUnit core s c r kb = .ok t f ∧ f = { c with eclk := f.eclk, gen := k.gen } ∧
            stored t (puts (kxPlane k.blk) (kxRecord k.blk))) ∧
        (∀ y, cpyFsel d = 6 → UnitReads s core c (row + 2 * (p + 1) * kb) (2 * (p + 1)) x →
          UnitReads s core c (cpyX c.ext + (r * cpyRowb d + kb) * 4) 4 y →
          ∃ t f, packUnit core s c r kb = .ok t f ∧ f = { c with eclk := f.eclk } ∧
            stored t (puts (fun j => ((List.range 16).map fun k =>
              if x.testBit (k * (p + 1) + if j = 0 then p else j - 1) then 2 ^ k else 0).sum) (y % 2 ^ 17))))) ∧
    (∀ rm gen old x, old < 2 ^ 32 → x < 2 ^ 32 →
      let w := fun n => (BitVec.ofNat 32 n).toInt
      let sum := fun a b => (fAdd rm (fval bf16 (a % 2 ^ 16)) (fval bf16 (b % 2 ^ 16))).1
      let f := roundTo fp32 rm false (fAdd rm (fval fp32 old) (fval fp32 x)).1 gen
      let lo := roundTo bf16 rm false (sum old x) gen
      let hi := roundTo bf16 rm false (sum (old / 2 ^ 16) (x / 2 ^ 16)) lo.srs
      redElement 0 rm gen old x = (f.bits, f.srs) ∧ redElement 1 rm gen old x = ((old + x) % 2 ^ 32, gen) ∧
      redElement 2 rm gen old x = ((fPick fp32 false old x).1, gen) ∧ redElement 3 rm gen old x = ((fPick fp32 true old x).1, gen) ∧
      redElement 4 rm gen old x = (lo.bits + 2 ^ 16 * hi.bits, hi.srs) ∧
      redElement 5 rm gen old x = ((if w x < w old then x else old), gen) ∧
      redElement 6 rm gen old x = ((if w old < w x then x else old), gen))

/-- The matrix engine (R124 to R127, R133, R136, R137): the first command that has not begun wakes its sub-arrays at once, and begins when
none is in its array phase and nothing that it must follow is incomplete; a running one runs its K-blocks and arrives; where it meets a
poisoned or a bad word, or is to stop, it is recorded in its tile's header before that K-block and withdrawn; a sub-array is gated
unless the MXIDLE that held when its idle interval began is 0. A K-block adds to every element of the corner, which ZA takes as +0 before
K-block 0, the exact sum of the products of the 16 elements of its two blocks (R58, R119), scaled, and rounds once to nearest even; where
a block is NaN the element is; and it changes nothing else. -/
def Obligations.MatrixSteps : Prop :=
  (∀ core s m, (Machine.core s core).mmaq.find? (!·.started) = some m →
    let k := Machine.core s core
    let need := subArrays m.desc
    (need.any k.gated.contains = true → exec (.mmaArrayStart core) s = .next { s with pending := s.pending ++ [.subarrayWake core] }) ∧
    (need.any k.gated.contains = false → k.mmaq.any (·.started) = false → accessBefore s m.gid m.opId = false → mmaBlocked s core m = false →
      tileInPass s core m.blk m.tile = false → missingPage s m.blk (mmaRanges m.desc) = none → ∃ t, exec (.mmaArrayStart core) s = .next t ∧
        OnlyCore core { k with mmaq := k.mmaq.map fun x => if x.stamp = m.stamp then { x with started := true } else x } s t ∧
        t.pending = s.pending ++ .mmaComplete core :: if 1 < k.mmaq.length then [.mmaArrayStart core] else []) ∧
    (∃ t, exec (.subarrayWake core) s = .next t ∧ OnlyCore core { k with gated := k.gated.filter fun i => !need.contains i } s t)) ∧
  (∀ core s m rest, (Machine.core s core).mmaq = m :: rest →
    let k := Machine.core s core
    let n := mmaKb m.desc - m.next
    let poison := fun b kb => mmaPoison b core m kb
    let run := fun stop n => runKBlocks s core m stop n m.next (block s m.blk)
    let left := fun b => dropMma (modBlock s m.blk fun _ => b) core m.stamp
    (∀ b, let q := Machine.core (left b) core
      q = { k with mmaq := k.mmaq.filter (·.stamp != m.stamp), idleLim := q.idleLim } ∧
        (m.started = true → ∀ i ∈ subArrays m.desc, mget 4096 q.idleLim i = k.mxidle)) ∧
    (∀ g o b, m.started = true → Machine.group s m.gid = some g → g.st ≠ .retired → g.ops.find? (·.id == m.opId) = some o →
      o.w = some m.w → mfind s.blocks m.blk = some b →
      (∀ b' kb, m.stopping = false → run poison n = (b', kb, none) →
        ∃ t h, exec (.mmaComplete core) s = .next t ∧ Arrived m.gid o g h (left b') t ∧ Joins m.w m.eclk g h) ∧
      (∀ b' kb x, m.stopping = false → run poison n = (b', kb, some x) →
        ∃ t h, exec (.mmaComplete core) s = .next t ∧ Arrived m.gid o g h (left (recordMma b' core m x.1 kb)) t ∧
          h.due = g.due ++ [{ cause := 12, sub := x.1, scr := true, faddr := BitVec.ofNat 64 x.2 }]) ∧
      (m.stopping = true → 0 < n → (∀ r, 1 ≤ r → r ≤ n → (run poison r).2.2 = none) →
        ∃ r t h, 1 ≤ r ∧ r ≤ n ∧ exec (.mmaStop core) s = .next t ∧ h.due = g.due ∧
          Arrived m.gid o g h (left (recordMma (run poison r).1 core m 0 (m.next + r))) t) ∧
      (∀ sub off i b' kb x, i < n → mmaReads m sub off (m.next + i) = true →
        run (fun b kb => (mmaPoison b core m kb).orElse fun _ => if mmaReads m sub off kb then some (sub, off) else none) n =
          (b', kb, some x) →
        ∃ t h, exec (.mmaRuntimeFault core sub off) s = .next t ∧ Arrived m.gid o g h (left (recordMma b' core m x.1 kb)) t ∧
          h.due = g.due ++ [{ cause := 12, sub := x.1, scr := true, faddr := BitVec.ofNat 64 x.2 }]))) ∧
  (∀ core sub s, mget 4096 (Machine.core s core).idleLim sub ≠ 0 → sub < 16 →
    (∀ m rest, (Machine.core s core).mmaq = m :: rest → m.started = true → sub ∉ subArrays m.desc) →
    ∃ t gs, exec (.subarrayGate core sub) s = .next t ∧ OnlyCore core { Machine.core s core with gated := gs } s t ∧
      t.pending = s.pending ∧ ∀ i, i ∈ gs ↔ i = sub ∨ i ∈ (Machine.core s core).gated) ∧
  (∀ core s (m : MmaCmd) b kb, m.olds = [] → mmaM m.desc ≤ 128 → mmaN m.desc ≤ 128 →
    let d := m.desc
    let k := runKBlock s core m b kb
    let ea := fun r => scrRead b ((d.getD 1 0).toNat + (kb * mmaM d + r) * 4) 4 % 512
    let eb := fun c => scrRead b ((d.getD 3 0).toNat + (kb * mmaN d + c) * 4) 4 % 512
    let sum := fun r c => ((List.range 16).map fun i =>
      planeTerm b (d.getD 0 0).toNat (d.getD 1 0).toNat (mmaM d) (mmaPa d) kb r i *
        planeTerm b (d.getD 2 0).toNat (d.getD 3 0).toNat (mmaN d) (mmaPb d) kb c i).sum
    (∀ r < mmaM d, ∀ c < mmaN d,
      let acc := if kb = 0 ∧ mmaZa d then 0 else tileAt b core m.tile (r * 128 + c)
      let x : FVal := .fin (sum r c < 0) (sum r c).natAbs
        ((ea r : Int) + eb c - 510 - ((mmaPa d : Int) - 1) - ((mmaPb d : Int) - 1) - 2)
      tileAt k core m.tile (r * 128 + c) =
        if ea r = 511 ∨ eb c = 511 then 0x7FC00000 else BitVec.ofNat 32 (roundTo fp32 0 false (fAdd 0 (f32 acc) x).1 0).bits) ∧
    k = { b with tiles := k.tiles, tileBad := k.tileBad } ∧
    ∀ q, (∀ r < mmaM d, ∀ c < mmaN d, q ≠ elemKey core m.tile (r * 128 + c)) →
      mget 0 k.tiles q = mget 0 b.tiles q ∧ (q ∈ k.tileBad ↔ q ∈ b.tileBad))

/-- The scratch pager (R169, R285, R288): a page that goes to the backing store takes its bytes with it, and one that is refilled
holds them again; then groups that wait for it go on. Where a word of it is bad, a copy at the head of its queue that waited for it
parks with sub-cause 15, and an MMA is stopped with sub-cause 6. -/
def Obligations.PagerSteps : Prop :=
  ∀ b page s k, mfind s.blocks b = some k → page ∈ k.unpinned →
    (page ∉ k.paged → mrising k.scr = true → ∃ t k', exec (.scratchPageWriteback b page) s = .next t ∧
      t = { s with blocks := t.blocks } ∧ mfind t.blocks b = some k' ∧
      k' = { k with scr := k'.scr, backing := k'.backing, paged := k.paged ++ [page] } ∧
      ∀ o, (o / 16384 = page → mget 0 k'.backing o = mget 0 k.scr o ∧ mget 0 k'.scr o = 0) ∧
        (o / 16384 ≠ page → mget 0 k'.backing o = mget 0 k.backing o ∧ mget 0 k'.scr o = mget 0 k.scr o)) ∧
    (page ∈ k.paged → mrising k.backing = true → (∀ i ∈ k.scrBad, i / 2048 ≠ page) → ∃ t k', exec (.scratchPageRefill b page) s = .next t ∧
      t = { s with blocks := t.blocks, cur := t.cur, others := t.others, pending := t.pending } ∧ mfind t.blocks b = some k' ∧
      k' = { k with scr := k'.scr, backing := k'.backing, paged := k.paged.filter (· != page),
                    unpinned := k.unpinned.filter (· != page) } ∧
      (∀ o, mget 0 k'.scr o = if o / 16384 = page then mget 0 k.backing o else mget 0 k.scr o) ∧
      ∀ gid g, Machine.group s gid = some g → residentOf b g = true → inner g = .stalled 9 false →
        ∃ h, Machine.group t gid = some h ∧ inner h = .ready) ∧
    (∀ core, k.span = [core] → ∃ t, exec (.scratchPageRefill b page) s = .next t ∧
      (∀ c rest o, (Machine.core s core).cpyq = c :: rest → c.started = false → c.blk = b →
        badRefill k page (cpyRanges c.op c.flags c.desc) = some o →
        (Machine.core t core).cpyq = rest ∧ ∃ d ∈ (Machine.core t core).parkedCpy, d.stamp = c.stamp ∧ d.sub = 15 ∧ d.scr = true ∧
          d.faddr = BitVec.ofNat 64 o) ∧
      ∀ m o g, (Machine.core s core).mmaq.find? (!·.started) = some m → m.blk = b → badRefill k page (mmaRanges m.desc) = some o →
        Machine.group s m.gid = some g → (∀ x ∈ (Machine.core t core).mmaq, x.stamp ≠ m.stamp) ∧
          ∃ h, Machine.group t m.gid = some h ∧ h.due = g.due ++ [{ cause := 12, sub := 6, scr := true, faddr := BitVec.ofNat 64 o }])

/-! ## Steps of the memory system -/

/-- Lines at their slices and in the L1s (R150, R153 to R155, R158, R160, R195, R202, R247, R249, R325), where the host holds no copy: a
read is served with a shared copy and its lease, a core takes a line, an owner is recalled, an L1 line is replaced and aborts the
regions that carry it, a line leaves the L2 with EVTS at its rts, and an untracked and a direct access are placed; a request for a line
that is held waits. -/
def Obligations.LineSteps : Prop :=
  ∀ line s,
    let home := homeSlice line
    let evts := (Machine.slice s home).evts
    let wts := clamp s ((l2Line s line).elim evts (·.wts))
    let rts := clamp s ((l2Line s line).elim evts (·.rts))
    let owner := (l2Line s line).bind (·.owner)
    (servesLine s line = true → mustWait s none line true = true → ∀ core asid, exec (.ownershipRequest core asid line) s =
      .next { s with pending := s.pending ++ [.ownershipRequest core asid line] }) ∧
    (servesLine s line = true → mustWait s none line false = true → ∀ core asid x, exec (.sliceReadService core asid line x) s =
      .next { s with pending := s.pending ++ [.sliceReadService core asid line x] }) ∧
    (hostHolds s line = none → servesLine s line = true → mustWait s none line true = false → Roomy line s → ∀ core asid,
      (Machine.core s core).l1.length < l1Limit (Machine.core s core) → (∀ c, l1Copy s core asid line = some c → c.excl = false) → owner = none →
      (∀ x, l1Copy s core asid line = none → (entriesOn s line).any (·.writer) = false →
        ∃ t, exec (.sliceReadService core asid line x) s = .next t ∧
          let lease := x + BitVec.ofNat 32 (ctx s asid).lease.toNat
          l1Copy t core asid line = some {
            wts := wts, rts := ltMax rts lease, data := sliceOfMemory s.mm.mem (line * 128) 128,
            bad := s.mm.bad.filter fun p => p.1 / 16 == line, asked := some x } ∧
          (l2Line t line).any (fun y => y.wts = wts ∧ y.rts = ltMax rts lease ∧ y.owner = none) = true ∧ t.mm.mem = s.mm.mem) ∧
      ∃ t, exec (.ownershipRequest core asid line) s = .next t ∧
        l1Copy t core asid line = some { excl := true, wts := wts, rts := rts } ∧
        (l2Line t line).any (fun y => y.wts = wts ∧ y.rts = rts ∧ y.owner = some (ownerKey core asid) ∧
          y.writer = (l2Line s line).elim asid (·.writer)) = true ∧
        t.mm.mem = s.mm.mem) ∧
    (∀ x o c, l2Line s line = some x → x.owner = some o → l1Copy s (o / 64) (o % 64) line = some c →
      ∃ t, exec (.ownerRecall line) s = .next t ∧
        l2Line t line = some { x with owner := none, wts := clamp s c.wts, rts := clamp s c.rts, dirty := x.dirty || c.dirty } ∧
        l1Copy t (o / 64) (o % 64) line = some { c with
          excl := false, dirty := false, data := sliceOfMemory s.mm.mem (line * 128) 128, bad := s.mm.bad.filter fun p => p.1 / 16 == line } ∧
        t = { s with mm := { s.mm with lines := t.mm.lines }, cores := t.cores }) ∧
    (∀ core asid c, l1Copy s core asid line = some c →
      ∃ t, exec (.l1Replacement core asid line) s = .next t ∧ l1Copy t core asid line = none ∧ t.mm.mem = s.mm.mem ∧
        (c.excl = true → ∀ x, l2Line s line = some x → x.owner = some (ownerKey core asid) → asid < 64 →
          (l2Line t line).any (fun y => y.owner = none ∧ y.wts = clamp s c.wts ∧ y.rts = clamp s c.rts) = true) ∧
        ∀ gid g r, Machine.group s gid = some g → g ∈ allGroups s → g.core = core → g.ctx = asid → g.rgn = some r →
          (line ∈ r.writes ∨ line ∈ r.reads) → ∃ h, Machine.group t gid = some h ∧ h.rgn = none ∧ h.pc = r.handler ∧
            h.astat = astatAborted r.elastic (if line ∈ r.writes then 3 else 2) 0 none) ∧
    (∀ x, l2Line s line = some x → x.owner = none → ∃ t, exec (.l2Eviction line) s = .next t ∧ l2Line t line = none ∧
      (Machine.slice t home).evts = ltMax (clamp s evts) (clamp s x.rts) ∧
      (x.dirty = true ∨ mfind s.mm.sealed line = none → t.mm.mem = s.mm.mem) ∧
      (x.dirty = true → verifiedLine (keyLine s line x.key) line = true → .memoryWriteback line ∈ t.pending)) ∧
    (∀ gid g pa n data, Machine.group s gid = some g → n ∈ [1, 2, 4, 8] → pa % n = 0 → pa / 128 = line → servesLine s line = true →
      mustWait s none line true = false → Roomy line s → Quiet line s →
      (∃ t h, exec (.untrackedAccess gid pa n false (some data)) s = .next t ∧ t.mm.mem = writeBytes s.mm.mem pa n data ∧
        Machine.group t gid = some h ∧ h = { g with lclk := ltMax g.lclk (rts + 1) } ∧
        (l2Line t line).any (fun y => y.wts = rts + 1 ∧ y.rts = rts + 1 ∧ y.writer = g.ctx ∧ y.dirty = true) = true) ∧
      (l2Line s line = none → ∃ t h, exec (.untrackedAccess gid pa n true (some data)) s = .next t ∧
        t.mm.mem = writeBytes s.mm.mem pa n data ∧ Machine.group t gid = some h ∧
        h = { g with lclk := ltMax g.lclk (clamp s evts + 1) } ∧ (Machine.slice t home).evts = clamp s evts + 1 ∧
        l2Line t line = none) ∧
      ∀ direct, ∃ t, exec (.untrackedAccess gid pa n direct none) s = .next t ∧ t.mm.mem = s.mm.mem ∧
        Machine.group t gid = some g)

/-- The memory-side cache (R161 to R164): a read touches its line, which a hit alone moves to most-recently-used, goes around the cache,
or allocates with the predicted sectors, at the place that its set and its context's selector name; a line that leaves teaches the
predictor; and a grant of scratch, its
return and its refusal: no more lines stay in a set than ways are left, and the window reads 0. -/
def Obligations.MemorySideCacheSteps : Prop :=
  (∀ pa c na s, pa < hbmTop →
    let seg := pa / 2048
    let key := mscKey seg
    let set := key % 1024
    let bits := sectorBits (lineSectors pa)
    let reads := fun xs => s.pending ++ xs.map fun i => Instr.hbmRead (seg * 2048 + i * 64)
    (∀ x, mscLine s seg = some x → ∃ t, exec (.mscLineMiss pa c na) s = .next t ∧
      mscLine t seg = some { x with valid := x.valid ||| bits, acc := x.acc ||| bits } ∧
      (na = false → (lineSectors pa).all (fun i => x.valid.getLsbD i) = true → ∃ y, (mscSet t key).head? = some y ∧ y.tag = seg) ∧
      (na = true ∨ (lineSectors pa).all (fun i => x.valid.getLsbD i) = false →
        (mscSet t key).map (·.tag) = (mscSet s key).map (·.tag)) ∧
      t.pending = reads ((lineSectors pa).filter fun i => !x.valid.getLsbD i) ∧ t.mm.mem = s.mm.mem) ∧
    (mscLine s seg = none → na = true → exec (.mscLineMiss pa c na) s = .next { s with pending := reads (lineSectors pa) }) ∧
    (mscLine s seg = none → na = false → 0 < mscWays s key →
      let xs := fetchedSectors s seg (lineSectors pa)
      let x : MscLine := { tag := seg, valid := sectorBits xs, dirty := 0, acc := sectorBits (xs.take 2), ctx := c }
      let ys := (mscSet s key).take (mscWays s key - 1)
      ∃ t, exec (.mscLineMiss pa c na) s = .next t ∧ t.pending = reads xs ∧ t.mm.mem = s.mm.mem ∧
        (set % 32 = 0 → mscSet t key = x :: ys ∧ pselOf t c = min (pselOf s c + 1) 1023) ∧
        (set % 32 = 16 → mscSet t key = ys ++ [x] ∧ pselOf t c = pselOf s c - 1) ∧
        (set % 32 ≠ 0 → set % 32 ≠ 16 → pselOf t c = pselOf s c ∧
          mscSet t key = if 512 ≤ pselOf s c then ys ++ [x] else x :: ys))) ∧
  (∀ stack set tag s x, (mscSet s (stack % 8 * 1024 + set % 1024)).find? (·.tag == tag) = some x →
    ∃ t, exec (.mscEviction stack set tag) s = .next t ∧ mfind t.mm.fpred (fpredKey tag) = some (tag, x.acc) ∧
      mscSet t (stack % 8 * 1024 + set % 1024) = (mscSet s (stack % 8 * 1024 + set % 1024)).filter (·.tag != tag) ∧
      t.mm.mem = s.mm.mem) ∧
  (∀ stack val s, stack < 8 →
    let old := mget 0 s.mm.grant stack
    let zeroed := fun (g : Word) (t : State) => ∀ a, readByte t.mm.mem a =
      if (grantWindow stack g).1 ≤ a ∧ a < (grantWindow stack g).1 + (grantWindow stack g).2 then 0 else readByte s.mm.mem a
    (grantRefused old val = true → ∃ t, exec (.mscgrantConvert stack val) s = .next t ∧
      mget 0 t.mm.grant stack = old ||| 0x40000000 ∧ t.mm.mem = s.mm.mem ∧ t.mm.msc = s.mm.msc) ∧
    (grantRefused old val = false → old.getLsbD 31 = false → val.getLsbD 31 = true →
      ∃ t, exec (.mscgrantConvert stack val) s = .next t ∧ mget 0 t.mm.grant stack = val &&& 0xBFFFFFFF ∧ zeroed val t ∧
        ∀ set, val.toNat % 2 ^ 10 ≤ set → set ≤ val.toNat % 2 ^ 10 + val.toNat / 2 ^ 10 % 2 ^ 10 →
          (mscSet t (stack * 1024 + set)).length ≤ 16 - val.toNat / 2 ^ 20 % 16) ∧
    (old.getLsbD 31 = true → grantRefused old (old &&& 0x3FFFFFFF) = false →
      ∃ t, exec (.mscgrantReturn stack) s = .next t ∧ mget 0 t.mm.grant stack = old &&& 0x3FFFFFFF ∧ zeroed old t))

/-- HBM4E and verified memory (R166, R167, R247 to R251, R295, R317): a read joins its bank's queue, which the bank serves in order but for
those that pass an older one, at most 16 since its row was opened, and none within an all-bank refresh; the bank's next step is then due,
which serves one more at least, and closes the row once none waits; a refresh slot, which comes to every pseudo-channel, refreshes its bank
or, while reads are pending there, is postponed, at most 8 times; a write-back advances its line's minor and makes its MACs anew, and a
group whose minor has reached 127 is re-encrypted; a soft error and a change from outside leave what they strike poisoned, and a log
record. That such a change is not met while the line is in the L2 is log 38, the key of a 16-byte block is log 13, and what a change in a
META page does is log 59: the model's choices. -/
def Obligations.MemoryDeviceSteps : Prop :=
  (∀ pa s, pa < hbmTop →
    let key := hbmBank pa
    let b := Machine.bank s key
    let q := { b with queue := b.queue ++ [rowOf pa], pend := b.pend + 1 }
    ∃ t, exec (.hbmRead pa) s = .next t ∧ t = { s with mm := { s.mm with banks := t.mm.banks }, pending := t.pending } ∧
      t.pending = (s.pending ++ if .rowIdleClose key ∈ s.pending then [] else [.rowIdleClose key]) ∧
      ((pseudo s (pcOf pa)).refab = true → Machine.bank t key = q) ∧
      ((pseudo s (pcOf pa)).refab = false → b.queue = [] → b.row = none ∨ b.row = some (rowOf pa) → Machine.bank t key =
        { q with queue := [], row := some (rowOf pa), pass := if b.row = none then 0 else b.pass }) ∧
      (∃ n ≤ b.queue.length + 1, ∃ ahead, Machine.bank t key = serveMany ahead n q) ∧
      (b.pass ≤ 16 → (Machine.bank t key).pass ≤ 16)) ∧
  (∀ b s, ∃ t, exec (.rowIdleClose b) s = .next t ∧ t = { s with mm := { s.mm with banks := t.mm.banks }, pending := t.pending } ∧
    let k := Machine.bank s b
    (k.queue = [] → Machine.bank t b = { k with row := none, pend := 0 } ∧ t.pending = s.pending) ∧
    (k.queue ≠ [] → .rowIdleClose b ∈ t.pending) ∧
    (k.queue ≠ [] → (pseudo s (b / 16)).refab = true → t.mm = s.mm) ∧
    (k.queue ≠ [] → (pseudo s (b / 16)).refab = false →
      ∃ n < k.queue.length, ∃ first ahead, Machine.bank t b = serveMany ahead n (serveNext first k))) ∧
  (∀ pc s, pc < 512 → behind s pc = [] →
    let p := { pseudo s pc with slots := (pseudo s pc).slots + 1 }
    let b := Machine.bank s (pc * 16 + p.ptr)
    ∃ t, exec (.refreshSlot pc) s = .next t ∧
      let refreshed := pseudo t pc = { p with ptr := (p.ptr + 1) % 16 } ∧
        Machine.bank t (pc * 16 + p.ptr) = { b with row := none, pend := 0 }
      let postponed := if p.ppc < 8 then pseudo t pc = { p with ppc := p.ppc + 1 }
        else pseudo t pc = { p with ppc := 0, refab := true } ∧ .allBankRefresh pc ∈ t.pending
      (p.refab = true → pseudo t pc = p) ∧ (p.refab = false → b.queue = [] → b.pend = 0 → refreshed) ∧
      (p.refab = false → b.queue ≠ [] → postponed) ∧ (p.refab = false → b.queue = [] → refreshed ∨ postponed) ∧
      (pc + 1 < 512 → (pseudo s (pc + 1)).slots ≤ (pseudo s pc).slots → .refreshSlot (pc + 1) ∈ t.pending)) ∧
  (∀ pc s, (pseudo s pc).refab = true → ∃ t, exec (.allBankRefresh pc) s = .next t ∧
    pseudo t pc = { pseudo s pc with refab := false } ∧
    ∀ i < 16, ∃ n ≤ (Machine.bank s (pc * 16 + i)).queue.length, ∃ ahead,
      Machine.bank t (pc * 16 + i) = serveMany ahead n (closeRow (Machine.bank s (pc * 16 + i)))) ∧
  (∀ line s, verifiedLine s line = true → deadGroup s (line / 16) = false →
    let minor := mget 0 (ctrBlk s (line / 16)).minors (line % 16)
    (minor < 127 → ∃ t, exec (.memoryWriteback line) s = .next t ∧ t.mm.mem = s.mm.mem ∧
      (ctrBlk t (line / 16)).maj = (ctrBlk s (line / 16)).maj ∧
      mget 0 (ctrBlk t (line / 16)).minors (line % 16) = minor + 1 ∧
      mget 0 t.mm.macs line = Config.dataMac (mget 0 s.mm.keys line) line (readBytes s.mm.mem (line * 128) 128)
        (ctrBlk s (line / 16)).maj (minor + 1) ∧
      let stack := stackOf (line / 16 * 2048)
      (ctrBlk t (line / 16)).mac = Config.treeMac (nodeKey stack 0 (inStack (line / 16))) (ctrBlk t (line / 16)).maj
        (ctrBlk t (line / 16)).minors (parentMinor t stack 0 (inStack (line / 16)))) ∧
    (127 ≤ minor → exec (.memoryWriteback line) s =
      .next { s with pending := s.pending ++ [.groupReencryption (line / 16), .memoryWriteback line] })) ∧
  (∀ grp s, deadGroup s grp = false → (ctrBlk s grp).minors.any (fun p => p.2 == 127) = true →
    ∃ t, exec (.groupReencryption grp) s = .next t ∧ t.mm.mem = s.mm.mem ∧
      ((ctrBlk s grp).maj ≠ 2 ^ 56 - 1 → (ctrBlk t grp).maj = (ctrBlk s grp).maj + 1 ∧ (ctrBlk t grp).minors = []) ∧
      ((ctrBlk s grp).maj = 2 ^ 56 - 1 → deadGroup t grp = true)) ∧
  (∀ unit place index fatal s, s.fw.errlog.length < 4096 →
    ∃ t, exec (.softError unit place index fatal) s = .next t ∧ t.fw.errlog.length = s.fw.errlog.length + 1 ∧
      t.fw.errSeq = (s.fw.errSeq + 1) % 2 ^ 32 ∧ t.mm.mem = s.mm.mem ∧
      (fatal = false → unit ≠ .vreg → unit ≠ .greg → t = { s with fw := t.fw }) ∧
      (∀ g, Machine.group s place = some g →
        (unit = .vreg → index / 32 < g.vb → ∃ h, Machine.group t place = some h ∧ mfind h.vPoison index = some 0) ∧
        (unit = .greg → uniformLegal g index = true → ∃ h, Machine.group t place = some h ∧ mfind h.gPoison index = some 1)) ∧
      (fatal = true → unit = .scratch → ∀ b, mfind s.blocks place = some b → 8 * index < b.scrSize →
        index ∈ (block t place).scrBad) ∧
      (fatal = true → unit = .acc → ∀ b, mfind s.blocks place = some b → index ∈ (block t place).tileBad) ∧
      (fatal = true → unit = .memory → index < hbmTop → l2Line s (index / 128) = none →
        ∀ i, i / 4 = index / 32 → mfind t.mm.bad i = some 4)) ∧
  (∀ pa data s, pa < hbmTop → ∃ t, exec (.externalMemoryChange pa data) s = .next t ∧
    (metaPage s pa = true ∨ verifiedLine s (pa / 128) = true ∨ (l2Line s (pa / 128)).isSome = true → t.mm.mem = s.mm.mem) ∧
    (metaPage s pa = false → verifiedLine s (pa / 128) = true → pa / 128 ∈ t.mm.tampered) ∧
    (metaPage s pa = false → verifiedLine s (pa / 128) = false → l2Line s (pa / 128) = none →
      (∀ a, a / 16 ≠ pa / 16 → readByte t.mm.mem a = readByte s.mm.mem a) ∧
      ((∀ k, mfind s.mm.keys (pa / 128) = some k → keyMode k = 0) →
        ∀ a, readByte t.mm.mem a = if a = pa then data else readByte s.mm.mem a)))

/-! ## Steps of logical time, regions and counters -/

/-- The front (R157, R158): every holder of a time reports its latest, those of lower numbers with it; the front then rises by what R157
allows and reaches each holder by a step of its own, a region whose interval it empties aborting; slices and L1s rewrite what lies before
it, a slice by ascending address, which is the model's reading of ascending index (log 12, as is that a raise waits for the passes of the
one before); and a rebase, which waits for the requests on their way, sets every time to F, closes every region and empties the L1s. -/
def Obligations.FrontSteps : Prop :=
  ∀ s,
    let front := s.cp.front
    (∀ sender < 275, ∃ t, exec (.frontReport sender) s = .next t ∧ t = { s with cp := { s.cp with reports := t.cp.reports } } ∧
      ∀ d, d = sender ∨ (d < sender ∧ d ∈ frontDests s) →
        mfind t.cp.reports d = some (latest s (if d < 192 then coreTimes s d else if d < 256
          then sliceTimes s (d - 192) else if d = 256 then [s.io.cxlClk] else [ualClock s (d - 257)]))) ∧
    ((∀ d ∈ frontDests s, (mfind s.cp.reports d).isSome = true) →
      let h := latest s (s.cp.reports.map (·.2))
      (2 ^ 30 < (h - front).toNat → (h - front).toNat < 2 ^ 31 → mayRaise s = true →
        ∃ t, exec .frontRaise s = .next t ∧ t.cp.front = h - 0x20000000 ∧ t.cp.raised = true ∧ t.cp.reports = [] ∧
          (∀ d ∈ frontDests s, .frontBroadcast d ∈ t.pending) ∧ (∀ i, (Machine.slice t i).swept = false) ∧ t.mm = s.mm) ∧
      (mayRaise s = false ∨ (h - front).toNat ≤ 2 ^ 30 →
        exec .frontRaise s = .next { s with cp := { s.cp with reports := [] } })) ∧
    (∀ dest < 192, ∀ gid g, Machine.group s gid = some g → g.core = dest → isResident g = true →
      ∃ t h, exec (.frontBroadcast dest) s = .next t ∧ Machine.group t gid = some h ∧ h.lclk = ltMax g.lclk front ∧
        (g.rgn = none → h = { g with lclk := h.lclk, joins := h.joins, alo := ltMax g.alo front, ahi := ltMax g.ahi front }) ∧
        ∀ r, g.rgn = some r → (before g.ahi front = true → Aborted r 12 0 none h) ∧
          (before g.ahi front = false → h.rgn = some r ∧ h.alo = ltMax g.alo front ∧ h.ahi = g.ahi)) ∧
    (∀ i < 64, ∃ t, exec (.frontBroadcast (192 + i)) s = .next t ∧ t = { s with slices := t.slices } ∧
      (Machine.slice t i).evts = ltMax (Machine.slice s i).evts front) ∧
    (∃ t, exec (.frontBroadcast 256) s = .next t ∧ t = { s with io := { s.io with cxlClk := ltMax s.io.cxlClk front } }) ∧
    (∀ p < 18, ∃ t, exec (.frontBroadcast (257 + p)) s = .next t ∧ t = { s with io := { s.io with ualClk := t.io.ualClk } } ∧
      mfind t.io.ualClk p = some (ltMax (ualClock s p) front)) ∧
    (∀ i < 64,
      let k := Machine.slice s i
      let next := s.mm.lines.find? fun p => homeSlice p.1 == i && k.sweep ≤ p.1
      (∀ p, next = some p → ∃ t, exec (.sliceSweep i) s = .next t ∧ l2Line t p.1 = some (lineOf s p.1) ∧
        Machine.slice t i = { k with sweep := p.1 + 1 } ∧ t.mm.mem = s.mm.mem ∧
        t.pending = s.pending ++ if k.swept then [] else [.sliceSweep i]) ∧
      (next = none → ∃ t, exec (.sliceSweep i) s = .next t ∧ t = { s with slices := t.slices } ∧
        Machine.slice t i = { k with sweep := 0, swept := true })) ∧
    (∀ core < 192, mrising (Machine.core s core).l1 = true → ∃ t, exec (.l1Sweep core) s = .next t ∧ core ∈ t.cp.l1Swept ∧
      t.mm = s.mm ∧ ∀ asid < 64, ∀ line c, l1Copy s core asid line = some c → l1Copy t core asid line =
        if c.excl then some { c with wts := clamp s c.wts, rts := clamp s c.rts } else if before c.rts front then none else some c) ∧
    (∀ f, (requestInFlight s = true → exec (.rebase f) s = .next { s with pending := s.pending ++ [.rebase f] }) ∧
      (requestInFlight s = false → ∃ t, exec (.rebase f) s = .next t ∧ t.cp.front = f ∧ t.cp.rebases = s.cp.rebases + 1 ∧
        (∀ gid h, Machine.group t gid = some h → h.lclk = f ∧ h.rgn = none) ∧
        (∀ gid g r, Machine.group s gid = some g → g.rgn = some r → ∃ h, Machine.group t gid = some h ∧ Aborted r 13 0 none h) ∧
        (∀ i, (Machine.slice t i).evts = f) ∧ (∀ c, (Machine.core t c).l1 = []) ∧ t.io.cxlClk = f ∧
        (∀ line x, l2Line t line = some x → x.wts = f ∧ x.rts = f ∧ x.owner = none) ∧ t.mm.mem = s.mm.mem))

/-- Atomic regions (R195, R196, R198 to R203): a line that no other region uses enters a set at the position that its times allow,
within the set's and the slice's limits, and an L1 copy of it is installed, exclusive for a writer; a message narrows the interval or
aborts; a slice freezes the region's entries, and drops them when it has committed or aborted, freeing its slot when every slice has. The
narrowing of kind 1 that a reader's registration sends has cause 0: the model's choice (log 63). -/
def Obligations.RegionSteps : Prop :=
  (∀ gid line wr s g r, Machine.group s gid = some g → g.rgn = some r →
    let home := homeSlice line
    let evts := (Machine.slice s home).evts
    let x := clamp s ((l2Line s line).elim evts (fun y => if wr then y.rts else y.wts))
    let mine := (Machine.slice s home).rents.filter (·.aid == g.aid.toNat)
    let lo0 := mine.foldl (fun t e => ltMax t e.lo) g.alo
    let hi := mine.foldl (fun t e => ltMin t e.hi) g.ahi
    let lo := ltMax lo0 (if wr then x + 1 else x)
    let r' := addToSets s r line wr
    line ∉ (if wr then r.writes else r.reads) →
    (wr = true → r.writes.length = 128 →
      ∃ t h, exec (.regionRegistration gid line wr) s = .next t ∧ Machine.group t gid = some h ∧ Aborted r 3 0 none h) ∧
    (wr = false → r.reads.length = 512 →
      ∃ t h, exec (.regionRegistration gid line wr) s = .next t ∧ Machine.group t gid = some h ∧ Aborted r 2 0 none h) ∧
    ((if wr then r.writes.length ≠ 128 else r.reads.length ≠ 512) →
      (Machine.slice s home).rents.length = 2048 → entryNow s g.aid.toNat line = none →
      ∃ t h, exec (.regionRegistration gid line wr) s = .next t ∧ Machine.group t gid = some h ∧ Aborted r 4 0 none h) ∧
    ((if wr then r.writes.length ≠ 128 else r.reads.length ≠ 512) → (Machine.slice s home).rents.length ≠ 2048 →
      hostHolds s line = none → (l2Line s line).bind (·.owner) = none → (∀ o ∈ entriesOn s line, o.aid = g.aid.toNat) →
      Roomy line s → (Machine.core s g.core).l1.length < l1Limit (Machine.core s g.core) →
      ∃ t h e, exec (.regionRegistration gid line wr) s = .next t ∧ Machine.group t gid = some h ∧
        h = { g with rgn := some { r with
          reads := if wr then r.reads else r.reads ++ [line], writes := if wr then r.writes ++ [line] else r.writes,
          slices := if home ∈ r.slices then r.slices else r.slices ++ [home], seen := r'.seen } } ∧
        (wr = false → mrising r.seen = true → mfind r'.seen line = some (sliceOfMemory s.mm.mem (line * 128) 128, badOfLine s.mm.bad line)) ∧
        entryNow t g.aid.toNat line = some e ∧ e.lo = lo ∧ e.hi = hi ∧ e.gid = gid ∧ (if wr then e.writer else e.reader) = true ∧
        (lo ≠ lo0 → .narrowingMessage 1 g.aid.toNat lo home (if wr then 36 else 0) ∈ t.pending) ∧
        (∃ c, l1Copy t g.core g.ctx line = some c ∧ c.excl = e.writer) ∧
        (e.writer = true → (l2Line t line).any (fun y => y.owner = some (ownerKey g.core g.ctx) ∧
          y.writer = (l2Line s line).elim g.ctx (·.writer)) = true) ∧
        t.mm.mem = s.mm.mem)) ∧
  (∀ aid s g r, regionGroup s aid = some g → Machine.group s (gidOf g) = some g → g.rgn = some r → ∀ bound slice cause,
    let hi := ltMin g.ahi bound
    let lo := ltMax g.alo bound
    let moved := fun kind (t : State) h => exec (.narrowingMessage kind aid bound slice cause) s = .next t ∧
      Machine.group t (gidOf g) = some h
    (before hi g.alo = false → ∃ t h, moved 0 t h ∧ h = { g with ahi := hi }) ∧
    (before hi g.alo = true → ∃ t h, moved 0 t h ∧ Aborted r 1 0 (some (slice % 64)) h) ∧
    (before g.ahi lo = false → ∃ t h, moved 1 t h ∧ h = { g with alo := lo }) ∧
    (before g.ahi lo = true → ∃ t h, moved 1 t h ∧ Aborted r 1 0 (some (slice % 64)) h) ∧
    (∃ t h, moved 2 t h ∧ Aborted r cause 0 (some (slice % 64)) h)) ∧
  (∀ gid s g r cause, Machine.group s gid = some g → g.rgn = some r →
    ∃ t h, exec (.regionAbort gid cause) s = .next t ∧ Machine.group t gid = some h ∧ Aborted r cause 0 none h ∧
      t.pending = s.pending ++ r.slices.map (Instr.regionAbortMessage · { aid := g.aid.toNat, source := 0, cause := cause }) ∧ t.mm = s.mm ∧
      h.v = g.v ∧ h.g = g.g ∧ h.m = g.m ∧ h.f = g.f) ∧
  (∀ slice aid s, ∃ t, exec (.regionPrepare slice aid) s = .next t ∧ t = { s with slices := t.slices } ∧
    (Machine.slice t slice).rents = (Machine.slice s slice).rents.map fun e => if e.aid = aid then { e with frozen := true } else e) ∧
  (∀ slice aid c s,
    let ended := fun (t : State) => (∀ e ∈ (Machine.slice t slice).rents, e.aid ≠ aid) ∧
      (∀ e ∈ (Machine.slice t slice).edges, e.x ≠ aid ∧ e.y ≠ aid) ∧
      ∀ n, mfind s.cp.slots aid = some n → mfind t.cp.slots aid = if n ≤ 1 then none else some (n - 1)
    (∃ t, exec (.finalPosition slice aid c) s = .next t ∧ ended t) ∧
    (∀ source cause, ∃ t, exec (.regionAbortMessage slice { aid := aid, source := source, cause := cause }) s = .next t ∧ ended t))

/-- Counters and monitors (R139, R147, R202, R221 to R224, R226, R300): an addition at its slice, at the group's clock as it is then, or its
refusal, and its answer, while one whose line is held waits; a wait whose condition holds acquires and goes on; one that does not takes an
entry of its slice or is refused with a ticket; one that memory refuses by then ends in a trap, whose place is the model's choice (log 82);
a monitor replies, is armed again, and a reservation ends; and the last arrival of a generation releases a grid. That a refused CWAITY stays
stalled with reason 16, and is not in the lull, is the model's reading (log 47). -/
def Obligations.CounterSteps : Prop :=
  (∀ gid op s g o, Machine.group s gid = some g → g.ops.find? (·.id == op) = some o → o.kind = .cadd →
    (∀ addr amount, lineHeld s none (addr / 128) true = true → exec (.caddAtSlice gid addr amount op) s =
      .next { s with pending := s.pending ++ [.caddAtSlice gid addr amount op] }) ∧
    (∀ addr amount, lineHeld s none (addr / 128) true = false → Quiet (addr / 128) s → Roomy (addr / 128) s →
      memFault s addr (viaOf s g o.addr.toNat) = none → keyDiffers s (addr / 128) (viaOf s g o.addr.toNat) = none →
      addr % 8 = 0 → o.ulog = none →
      let evts := (Machine.slice s (homeSlice (addr / 128))).evts
      let time := ltMax (clamp s g.lclk) (clamp s ((l2Line s (addr / 128)).elim evts (·.rts)) + 1)
      let old := readBytes s.mm.mem addr 8
      (old + amount < 2 ^ 64 →
        ∃ t h, exec (.caddAtSlice gid addr amount op) s = .next t ∧ readBytes t.mm.mem addr 8 = old + amount ∧
          (∀ a, a < addr ∨ addr + 8 ≤ a → readByte t.mm.mem a = readByte s.mm.mem a) ∧
          (l2Line t (addr / 128)).any (fun y => y.wts = time ∧ y.rts = time) = true ∧
          Machine.group t gid = some h ∧ h = { g with lclk := ltMax g.lclk time } ∧ .caddAnswer gid op ∈ t.pending ∧
          ((badAt s addr 8).isSome = true → (badAt t addr 8).isSome = true)) ∧
      (2 ^ 64 ≤ old + amount → ∃ t h, exec (.caddAtSlice gid addr amount op) s = .next t ∧ t.mm.mem = s.mm.mem ∧
        Machine.group t gid = some h ∧ (∀ p ∈ h.ops, p.id = op → p.bad = true ∧ p.why = (14, 0)) ∧
        .caddAnswer gid op ∈ t.pending)) ∧
    (∀ addr amount f, lineHeld s none (addr / 128) true = false → memFault s addr (viaOf s g o.addr.toNat) = some f → o.ulog = none →
      ∃ t h, exec (.caddAtSlice gid addr amount op) s = .next t ∧ t.mm.mem = s.mm.mem ∧ Machine.group t gid = some h ∧
        (∀ p ∈ h.ops, p.id = op → p.bad = true ∧ p.why = f) ∧ .caddAnswer gid op ∈ t.pending) ∧
    (o.tag ≠ 1 → ∃ t h, exec (.caddAnswer gid op) s = .next t ∧ Arrived gid o g h s t ∧
      h.due = g.due ++ if o.bad then [{ cause := o.why.1, sub := o.why.2, fba := some o.fba, faddr := o.addr }] else [])) ∧
  (∀ gid s g r, Machine.group s gid = some g → g.req = some r → hostHolds s (r.pa / 128) = none →
    (l2Line s (r.pa / 128)).bind (·.owner) = none → Roomy (r.pa / 128) s → keyDiffers s (r.pa / 128) (viaOf s g r.va) = none →
    let home := homeSlice (r.pa / 128)
    let k := Machine.slice s home
    let wts := clamp s ((l2Line s (r.pa / 128)).elim k.evts (·.wts))
    let holds := r.target ≤ readBytes s.mm.mem r.pa 8
    let request := if g.ticket.isSome then Instr.nackRetry gid else .cwaitRequest gid
    let held := lineHeld s none (r.pa / 128) false || (g.ticket.isSome && rebasing s)
    let entry : Mon := { gid := gid, pa := r.pa, target := r.target }
    let acquired := fun (h : Group) => h.lclk = ltMax g.lclk wts ∧ h.req = none ∧ h.ticket = none ∧ h.st = .ready ∧
      h.v = g.v ∧ h.g = g.g ∧ h.m = g.m
    (held = true → exec request s = .next { s with pending := s.pending ++ [request] }) ∧
    (∀ f, held = false → waitFault s g r = some f → ∃ t h, exec request s = .next t ∧ Machine.group t gid = some h ∧ h.req = none ∧
      h.ticket = none ∧ h.due = g.due ++ [{ cause := f.1, sub := f.2, faddr := BitVec.ofNat 64 r.va }] ∧
      (∀ n b, g.st = .stalled n b → h.st = .ready) ∧ t.mm.mem = s.mm.mem) ∧
    (∀ n b, g.st = .stalled n b → held = false → waitFault s g r = none →
      (holds → ∃ t h, exec request s = .next t ∧ Machine.group t gid = some h ∧ acquired h ∧ h.pc = r.next ∧
        h.instret = g.instret + 1 ∧ h.age = g.age ∧ t.mm.mem = s.mm.mem) ∧
      (¬holds → k.mons.any (·.gid == gid) = false → mayTake k g.ticket = true →
        ∃ t h, exec request s = .next t ∧ Machine.group t gid = some h ∧ (Machine.slice t home).mons = k.mons ++ [entry] ∧
          (r.yields = none → h = { g with ticket := none, st := .stalled 5 false }) ∧
          (∀ cont, r.yields = some cont → h.st = .lull (.monitor r.pa r.target) cont ∧ h.pc = cont ∧
            h.instret = g.instret + 1)) ∧
      (¬holds → k.mons.any (·.gid == gid) = false → mayTake k g.ticket = false →
        ∃ t h, exec request s = .next t ∧ Machine.group t gid = some h ∧ h.ticket = some (g.ticket.getD k.tickNo) ∧
          h.st = .stalled 16 false ∧ h.pc = g.pc ∧ .nackRetry gid ∈ t.pending ∧ (Machine.slice t home).mons = k.mons)) ∧
    (∀ i m cont, monitorOf s gid = some (i, m) → m.due = true ∨ m.target ≤ readBytes s.mm.mem m.pa 8 → g.st = .lull (.monitor r.pa r.target) cont →
      ∃ t h, exec (.monitorReply gid) s = .next t ∧ Machine.group t gid = some h ∧ h.req = none ∧ h.st = .ready ∧
        h.lclk = ltMax g.lclk (lineOf s (r.pa / 128)).wts ∧ h.pc = cont ∧
        ∀ x ∈ (Machine.slice t i).mons, x.gid ≠ gid)) ∧
  (∀ gid s g i m, Machine.group s gid = some g → monitorOf s gid = some (i, m) →
    (walksHeld s = true → exec (.monitorRearm gid) s = .next { s with pending := s.pending ++ [.monitorRearm gid] }) ∧
    (walksHeld s = false →
      let freed := modGroup (modSlice s i (freeMons fun x => x.gid == gid)) gid fun g => { g with ticket := none }
      ∃ t h, exec (.monitorRearm gid) s = .next t ∧ Machine.group t gid = some h ∧
        h = { g with ticket := none, req := h.req } ∧ .cwaitRequest gid ∈ t.pending ∧ (∀ x ∈ (Machine.slice t i).mons, x.gid ≠ gid) ∧
        ∀ r, g.req = some r → h.req = some { r with pa :=
          match (address freed (whoOf freed { g with ticket := none }) r.va 8 { r := true }).2 with
          | .ok l => if inDevice l then l.pa else r.pa
          | .error _ => r.pa })) ∧
  (∀ i s, ∃ t, exec (.ticketReservationExpiry i) s = .next t ∧ t = { s with slices := t.slices } ∧
    Machine.slice t i = { Machine.slice s i with resv := (Machine.slice s i).resv.drop 1 }) ∧
  (∀ b id s,
    let task := (block s b).task
    let x := gridBar s b id
    let k := mget {} s.cp.grid (gridKey task id)
    let clk := if k.arrived = [] then x.clk else ltMax k.clk x.clk
    let total := k.arrived.length + 1 + (taskOf s task).retired
    x.gcount = 1 → b ∉ k.arrived →
    (total < nblk (taskOf s task).record → ∃ t, exec (.gridBlockArrival b id) s = .next t ∧
      t = { s with cp := { s.cp with grid := t.cp.grid } } ∧
      mget {} t.cp.grid (gridKey task id) = { k with arrived := k.arrived ++ [b], count := k.count + 1, clk := clk }) ∧
    (nblk (taskOf s task).record ≤ total → ∃ t, exec (.gridBlockArrival b id) s = .next t ∧
      mget {} t.cp.grid (gridKey task id) = { gen := (k.gen + 1) % 512 } ∧
      ∀ gid g c d, c ∈ taskBlocks s task → Machine.group s gid = some g → residentOf c g = true → g.priv = false →
        g.st = .lull (.grid id) d → ∃ h, Machine.group t gid = some h ∧ h.st = .ready ∧ h.pc = d ∧
          h.lclk = if g.grpib ∈ (gridBar s c id).arrived then ltMax g.lclk clk else g.lclk))

/-! ## Steps of launches -/

/-- Queues and tasks (R41, R90, R202, R209, R211 to R213, R231, R232): a record is taken, and accepted or rejected; a LAUNCH is rejected,
waits for room or enters its ring; a task is handed over with its initial clock and its first block, and no older code, and no constants of
its own banks, stay cached; it completes once nothing of it is outstanding; a step that must access memory stays due while such accesses are
held; and a system call is answered in the supervisor's place. That a rejected LAUNCH sets QIDX to the processed count is the model's
reading (log 39). -/
def Obligations.TaskSteps : Prop :=
  (∀ s n gid op, deviceHeld s = true →
    ∀ i ∈ [Instr.queueRecordRead n, .launchEnqueue gid op, .taskHandoff n, .taskComplete n, .bindNewBlock n, .bindRestore n, .ovsubSwap n,
        .lullSwap n, .preemptdlyExpiry n, .preemptionRequest n, .faultRecordPost n, .stepback gid n],
      exec i s = .next { s with pending := s.pending ++ [i] }) ∧
  (∀ q s s' tail wts, deviceHeld s = false → readTail s q = (s', some (tail, wts)) → Machine.turnOf s' = some q → queueOpen s' q = true →
    (queue s' q).processed < tail → (∀ k, .taskHandoff k ∉ s'.pending) →
    let k := queue s' q
    ∃ t, exec (.queueRecordRead q) s = .next t ∧ (queue t q).processed = k.processed + 1 ∧
      (((mfind t.cp.tasks s.cp.nextTask).isSome = true ∧ .taskHandoff s.cp.nextTask ∈ t.pending) ∨
        .queueRecordRead q ∈ t.pending) ∧
      ((ctx s' (qCtx k)).live = false → k.desc.length = 8 →
        (queue t q).desc.getD 7 0 = BitVec.ofNat 32 (8 * 2 ^ 24 + k.processed % 2 ^ 24))) ∧
  (∀ gid op s l, deviceHeld s = false → s.cp.launches.find? (·.stamp == op) = some l →
    let q := recBits l.record 23 0 10
    let k := queue s q
    (∀ x ∈ s.cp.launches, recBits x.record 23 0 10 = q → x.stamp = op) →
    (launchCode s k l ≠ 0 → ∃ t, exec (.launchEnqueue gid op) s = .next t ∧ (∀ x ∈ t.cp.launches, x.stamp ≠ op) ∧
      (k.desc.length = 8 →
        (queue t q).desc.getD 7 0 = BitVec.ofNat 32 (launchCode s k l * 2 ^ 24 + k.processed % 2 ^ 24)) ∧
      ∀ g o, isSupName l.gid = true ∨ awayGroup s l.blk l.grpib = none → Machine.group s l.gid = some g →
        g.ops.find? (·.id == l.op) = some o → o.kind = .launch →
        ∃ h, Machine.group t l.gid = some h ∧ h.ops = g.ops.filter (·.id != l.op)) ∧
    (∀ s1 tail wts s2 lf, launchCode s k l = 0 → readTail s q = (s1, some (tail, wts)) →
      cpCounter s1 (qCtx k) (qHead k) false = (s2, some lf) →
      (readBytes s2.mm.mem lf.pa 8 + 2 ^ qLog k ≤ tail → exec (.launchEnqueue gid op) s = .next s2) ∧
      (∀ s3, tail < readBytes s2.mm.mem lf.pa 8 + 2 ^ qLog k → appendLaunch s2 q tail l = (s3, true) →
        ∃ t, exec (.launchEnqueue gid op) s = .next t ∧ t.mm = s3.mm ∧ (∀ x ∈ t.cp.launches, x.stamp ≠ op) ∧
          .queueRecordRead q ∈ t.pending))) ∧
  (∀ task s k, deviceHeld s = false → mfind s.cp.tasks task = some k → k.st = .queued → mayHandOver s k = true →
    ∃ t, exec (.taskHandoff task) s = .next t ∧
      taskOf t task = { k with st := .running, clk := initialClock s k, fin := initialClock s k } ∧
      (queue t k.queue).lastTask = some task ∧ .queueRecordRead k.queue ∈ t.pending ∧
      (∀ c, (Machine.core t c).ccache = (Machine.core s c).ccache.filter (fun q => q.1 / 2 ^ 62 != task) ∧
        ∀ q ∈ (Machine.core t c).icache, q.1 / 2 ^ 51 ≠ k.ctx) ∧
      (∀ h ∈ writtenHandles k.record, ∀ x, mfind s.cp.handles h = some x →
        ∃ y, mfind t.cp.handles h = some y ∧ y.lastw = some task ∧ y.done = false) ∧
      (k.placed < nblk k.record → ∃ b, mfind t.blocks s.nextBlk = some b ∧ b.task = task ∧ b.idx = k.placed ∧ b.st = .waiting ∧
        b.ng = recGroups k.record ∧ b.scrSize = recScr k.record ∧ b.atiles = recA k.record)) ∧
  (∀ task s,
    let k := taskOf s task
    deviceHeld s = false → k.st = .running → nblk k.record ≤ k.retired →
    (taskBusy s task = true → exec (.taskComplete task) s = .next { s with pending := s.pending ++ [.taskComplete task] }) ∧
    (taskBusy s task = false → ∃ t, exec (.taskComplete task) s = .next t ∧ (taskOf t task).st = .done ∧
      (∀ h ∈ writtenHandles k.record, h ∉ readHandles k.record → ∀ x, mfind s.cp.handles h = some x →
        mfind t.cp.handles h = some { x with fin := k.fin, done := true }) ∧
      ∀ p ∈ s.cp.tasks, p.1 ≠ task → p.2.st = .queued → .taskHandoff p.1 ∈ t.pending)) ∧
  (∀ tag s f, s.cp.futures.find? (·.tag == tag) = some f →
    ∃ t x, exec (.syscallTimeout tag) s = .next t ∧ t.cp.futures = s.cp.futures.filter (·.tag != tag) ∧
      (isSupName f.gid = false → (awayGroup s f.blk f.grpib).isSome = true →
        t.cp.answers = s.cp.answers ++ [(tag, 0xFFFFFFFE, x)]) ∧
      ∀ g o, isSupName f.gid = true ∨ awayGroup s f.blk f.grpib = none → Machine.group s f.gid = some g →
        g.ops.find? (fun o => o.kind == .future && o.gregs.head? == some f.reg) = some o →
        ∃ h, Machine.group t f.gid = some h ∧ gget h f.reg = 0xFFFFFFFE ∧ gget h (f.reg + 1) = x ∧
          h.ops = g.ops.filter (·.id != o.id))

/-- Blocks (R16, R62, R210, R214 to R216, R226, R229, R246, R268, R302, R304, R324): a placement that keeps the limits takes a
slot entry; dispatch binds a new block's groups zeroed and in their first state, and a saved block's at the restore routine; a
block is swapped out for one that waits, of lulled ones that lulled longest; the split of a core, its stall counters, which the groups
that wait go on to raise, and its samples. That the first PC is CODEBASE (log 50), that a group counts as stalled until its block begins
(log 47) and the image beyond those counted (log 85) are the model's readings. -/
def Obligations.BlockSteps : Prop :=
  (∀ b core pbase seq entry n s, placeable s b core pbase seq entry n = true → b ≠ s.nextBlk →
    let image := imageOf s b
    let new := (block s b).st = .waiting
    let i := (entriesOf s b).length
    ∃ t e, exec (.placement b core pbase seq entry n) s = .next t ∧ mfind (Machine.core t core).slots entry = some e ∧
      e.blk = b ∧ e.seq = seq ∧ e.pbase = pbase ∧ e.ngM1 = n - 1 ∧ e.spanIdx = i ∧ e.saveIdx = image ∧ e.bound = false ∧
      e.trec = Config.recordCopy e.task ∧ e.task = (block s b).task ∧ e.bx = (block s b).bx ∧ e.by_ = (block s b).by_ ∧
      e.bz = (block s b).bz ∧
      (block t b).span = (if i = 0 then [core] else (block s b).span ++ [core]) ∧
      (new → .bindNewBlock core ∈ t.pending) ∧ (¬new → .bindRestore core ∈ t.pending) ∧ t.mm = s.mm) ∧
  (∀ core s e rest, deviceHeld s = false → unbound s core = e :: rest → fitsOn s core [e] = true → holders s core = [] →
    let k := block s e.blk
    let r := recordOf s e.blk
    let bound := fun (t : State) (i : Nat) (g : Group) => g ∈ allGroups t ∧ g.core = core ∧ g.ctx = e.ctx ∧ g.blk = e.blk ∧
      g.grpib = e.g0 + i ∧ g.vb = recB r ∧ g.ub = recU r ∧ g.ab = k.atiles ∧ g.sup = false ∧ g.rgn = none ∧ g.ops = [] ∧
      (g.st = .ready ∨ g.st = .stalled 1 false) ∧ g.hmask = helperMask r (e.g0 + i) ∧ g.lmask = launchMask r (e.g0 + i) ∧
      g.rix = 0
    (e.kind = 0 → ∃ t, exec (.bindNewBlock core) s = .next t ∧ ∀ i ∈ shareOf s e, ∃ g, bound t i g ∧ g.priv = false ∧
      g.pmask = launchMask r g.grpib ∧ mreg g 0 = launchMask r g.grpib ∧ g.pc = BitVec.ofNat 64 (recPair r 1) ∧
      g.lclk = (taskOf s k.task).clk ∧
      g.srs = BitVec.ofNat 64 (recPair r 18) ^^^ BitVec.ofNat 64 (k.idx * 2 ^ 32) ^^^ BitVec.ofNat 64 (g.grpib + 1) ∧
      (∀ n i, vget g n i = 0) ∧ (∀ n, 0 < n → mreg g n = 0) ∧ g.f = 0 ∧ g.fmt = 0 ∧ g.flags = 0 ∧
      (recBits r 6 16 9 = 0 → ∀ n, gget g n = 0)) ∧
    (e.kind = 1 → ∃ t, exec (.bindRestore core) s = .next t ∧ ∀ i ∈ shareOf s e, ∃ g, bound t i g ∧ g.priv = true ∧
      g.restore = true ∧ g.pc = ((Machine.core s core).pvec).setWidth 64 ∧ mreg g 0 = g.pmask ∧ g.fmt = 0 ∧
      gpair g 0 = groupRecord s e.blk g.grpib % 2 ^ 64 ∧ gget g 2 = 1 ∧ gget g 3 = 0 ∧
      ∀ i < 32, vget g 0 i = BitVec.ofNat 32 (4 * i))) ∧
  (∀ b s,
    let k := block s b
    deviceHeld s = false → k.st = .resident →
    (recOvsub (recordOf s b) = true → allGroupsAre s b (fun x => x matches .lull (.grid _) _) = true →
      (∃ p ∈ pendingBlocks s, (block s p).task = k.task ∧ hasRoom s p = false) →
      ∃ t, exec (.ovsubSwap b) s = .next t ∧ Preempted b s t) ∧
    ((ctx s (taskOf s k.task).ctx).lullmax ≠ 0 → allGroupsAre s b (fun x => x matches .lull _ _) = true →
      (∃ p ∈ pendingBlocks s, levelOf s p ≤ levelOf s b ∧ hasRoom s p = false ∧ hasRoom (withoutBlock s b) p = true) →
      (∀ p ∈ s.blocks, lullDue s p.1 = true → lulledSince s b ≤ lulledSince s p.1) →
      ∃ t, exec (.lullSwap b) s = .next t ∧ Preempted b s t)) ∧
  (∀ b s, deviceHeld s = false → mrising s.blocks = true → stillPending s b = true →
    (∃ p ∈ s.blocks, p.2.st = .resident ∧ levelOf s b < levelOf s p.1) →
    ∃ t victim, exec (.preemptdlyExpiry b) s = .next t ∧ (block s victim).st = .resident ∧ levelOf s b < levelOf s victim ∧
      (∀ p ∈ s.blocks, p.2.st = .resident → levelOf s p.1 ≤ levelOf s victim) ∧ Preempted victim s t) ∧
  (∀ core s, core < 192 →
    (∀ (x : BitVec 3), x.toNat < 6 → coreHolds s core = false → ∃ t, exec (.coresplitWrite core x) s = .next t ∧
      (Machine.core t core).scr = x ∧ (Machine.core t core).l1 = [] ∧ t.mm.mem = s.mm.mem) ∧
    (coreHolds s core = false → ∃ t, exec (.coresplitReset core) s = .next t ∧
      (Machine.core t core).scr = 2 ∧ (Machine.core t core).l1 = [] ∧ t.mm.mem = s.mm.mem) ∧
    (∀ x, coreHolds s core = true → exec (.coresplitWrite core x) s = .next s) ∧
    (∃ t, exec (.stallCounterClear core) s = .next t ∧ (∀ c, c ≠ core → Machine.core t c = Machine.core s c) ∧
      Machine.core t core = { Machine.core s core with pstall := (Machine.core t core).pstall } ∧ t.mm = s.mm ∧ t.pending = s.pending ∧
      ((∀ g ∈ allGroups s, g.core = core → isResident g = true → stallReason g = none) → (Machine.core t core).pstall = [])) ∧
    (∀ part g, part < 8 → (Machine.core s core).sampleN.toNat % 2 ^ 24 ≠ 0 →
      firstFrom (mget 0 (Machine.core s core).lastSlot part)
        ((allGroups s).filter fun g => g.core == core && g.part == part && isResident g) = some g →
      let room := s.tr.ctl.getLsbD 28 = true ∧ s.tr.ctl.toNat % 2 ^ 16 ≠ 0 ∧
        (s.tr.head - s.tr.tail).toNat < s.tr.ctl.toNat % 2 ^ 16 * 2048
      ∃ t, exec (.sample core part) s = .next t ∧ mget 0 (Machine.core t core).lastSlot part = sampleSlot g + 1 ∧
        (room → (∀ r, stallReason g = some r → t.tr.head = s.tr.head + 1) ∧
          (stallReason g = none → t.tr.head = s.tr.head + 1 ∨ ∃ h ∈ allGroups t, gidOf h = gidOf g ∧ h.sampled = true))))

/-! ## Steps of the ports, the links and the peers -/

/-- Ports (R148, R160, R178, R244, R250, R254 to R256, R297, R313): a store, a load and an atomic of a port are placed, where nothing
holds their line up, and answered; a page that the host may not reach is barred, and poison answers a fault; the host reaches the
mailbox and the capability mirror through BAR0; and the host's snoops. The ports serve memory once the device is READY. That the last
writer of a port's store is context 0, and what a store of the host's to a line that it owns leaves, are the model's choices (log 57). -/
def Obligations.PortSteps : Prop :=
  (∀ pa n s, barRange 0 pa n = true → inBar0 (pa - mmioBase) = true →
    (∀ data, exec (.portStore 0 pa n data) s = .next { s with pending := s.pending ++ [.registerWrite pa n data] }) ∧
    (∃ t, exec (.portLoad 0 pa n) s = .next t ∧ t = { s with io := t.io } ∧
      Sent [{ kind := 4, port := 0, pa := pa, data := [mmioRead s 0 pa n] }] s t)) ∧
  (∀ port pa n s, portRange port pa n = true → portUp s port = true →
    (port = 0 → hostBarred s pa = false) →
    let line := pa / 128
    let evts := (Machine.slice s (homeSlice line)).evts
    let time := ltMax (portClock s port) (clamp s ((l2Line s line).elim evts (·.rts)) + 1)
    let placed := fun x (t : State) => t.mm.mem = writeBytes s.mm.mem pa n x ∧
      (l2Line t line).any (fun y => y.wts = time ∧ y.rts = time ∧ y.writer = 0 ∧ y.dirty = true) = true ∧
      (port = 0 → t.io.cxlClk = time) ∧ (port ≠ 0 → mfind t.io.ualClk (port - 1) = some time)
    (mustWait s none line true = true → ∀ data, exec (.portStore port pa n data) s =
      .next { s with pending := s.pending ++ [.portStore port pa n data] }) ∧
    (memFault s pa = none → Quiet line s → mustWait s none line true = false → Roomy line s →
      (∀ data, ∃ t, exec (.portStore port pa n data) s = .next t ∧ placed data t ∧
        Sent [{ kind := 3, port := port, pa := pa, data := [time.toNat] }] s t) ∧
      (badAt s pa n = none → mfind s.mm.sealed line = none → port ≠ 0 ∨ (mfind (Machine.slice s (homeSlice line)).bisnp line = none ∧ (snoopEntries s line).length < 16) →
        ∃ t, exec (.portLoad port pa n) s = .next t ∧ t.mm.mem = s.mm.mem ∧
          Sent [{ kind := 4, port := port, pa := pa, data := [readBytes s.mm.mem pa n] }] s t) ∧
      (∀ aop data cmp x, port ≠ 0 → n = 4 ∨ n = 8 → pa % n = 0 → badAt s pa n = none →
        portAtom aop n (readBytes s.mm.mem pa n) (lowBytes n data) (lowBytes n cmp) = some x →
        ∃ t, exec (.portAtomic port pa aop n data cmp) s = .next t ∧ placed x t ∧
          Sent [{ kind := 6, port := port, pa := pa, data := [readBytes s.mm.mem pa n] }] s t)) ∧
    (port = 0 → memFault s pa = none → hostHolds s line = some true → (l2Line s line).bind (·.owner) = none → entriesOn s line = [] →
      mustWait s none line true = false → Roomy line s → ∀ data, ∃ t, exec (.portStore port pa n data) s = .next t ∧ placed data t ∧
        hostHolds t line = none) ∧
    (∀ x, memFault s pa = some x → mustWait s none line true = false → ∀ data, ∃ t, exec (.portStore port pa n data) s = .next t ∧
      t.mm = s.mm ∧ Sent [{ kind := 5, port := port, pa := pa, data := [] }] s t ∧
      (x.2 = 6 → Recorded s t ∧ (ctx t ((ownOf s pa).toNat / 2 ^ 8 % 64)).integ = true))) ∧
  (∀ port pa n s, portRange port pa n = true → portUp s port = false → ∀ data,
    (port = 0 → ∃ t, exec (.portStore port pa n data) s = .next t ∧ exec (.portLoad port pa n) s = .next t ∧ t = { s with io := t.io } ∧
      Sent [{ kind := 5, port := 0, pa := pa, data := [] }] s t) ∧
    (port ≠ 0 → exec (.portStore port pa n data) s = .next s ∧ exec (.portLoad port pa n) s = .next s ∧
      ∀ aop cmp, exec (.portAtomic port pa aop n data cmp) s = .next s)) ∧
  (∀ pa n s, portRange 0 pa n = true → portUp s 0 = true → hostBarred s pa = true →
    (∀ data, ∃ t, exec (.portStore 0 pa n data) s = .next t ∧ t = { s with fw := t.fw } ∧ Recorded s t) ∧
    (∃ t, exec (.portLoad 0 pa n) s = .next t ∧ t = { s with io := t.io } ∧
      Sent [{ kind := 5, port := 0, pa := pa, data := [] }] s t)) ∧
  (∀ line held s, mfind (Machine.slice s (homeSlice line)).bisnp line = some held →
    (∃ t, exec (.bisnpResponse line none) s = .next t ∧ t.mm = s.mm ∧ t.pending = s.pending ++ held ∧
      mfind (Machine.slice t (homeSlice line)).bisnp line = none ∧ hostHolds t line = none) ∧
    (∀ x, hostHolds s line = some true → (l2Line s line).bind (·.owner) = none → entriesOn s line = [] → Roomy line s →
      ∃ t, exec (.bisnpResponse line (some x)) s = .next t ∧ t.mm.mem = writeBytes s.mm.mem (line * 128) 128 x ∧
        (∀ i ∈ held, i ∈ t.pending) ∧ mfind (Machine.slice t (homeSlice line)).bisnp line = none ∧ hostHolds t line = none)) ∧
  (∀ line s, ∃ t, exec (.hostSnoop line) s = .next t ∧ t = { s with io := t.io } ∧
    Sent [{ kind := 7, port := 0, pa := line * 128, data := [] }] s t)

/-- Links and peers (R295, R297, R298, R315, R317): errors are counted against a lane, which fails at the sixteenth; a port is
retrained, goes down at the third failure, and is restored; the hop of a mesh fails after 8, and what a group or a copy asked for over it is
poison, whose sub-cause 3 is the model's choice (log 81); beats are sent and received, and a silent peer is fenced, with poison for what was
asked of it. -/
def Obligations.LinkSteps : Prop :=
  (∀ port lane s, port < 19 → ∃ t n, exec (.linkFlitCrcError port lane) s = .next t ∧
    (n = 1 ∨ n = mget 0 (link s port).crc lane + 1) ∧ link t port = { link s port with crc := mset (link s port).crc lane n } ∧
    Recorded s t ∧ (16 ≤ n → .laneFailing port lane ∈ t.pending) ∧ t.mm = s.mm) ∧
  (∀ port lane s, 16 ≤ mget 0 (link s port).crc lane → lane ∉ (link s port).failing →
    ∃ t, exec (.laneFailing port lane) s = .next t ∧ Recorded s t ∧ t.mm = s.mm ∧ link t port =
      { link s port with crc := mdel (link s port).crc lane, failing := (link s port).failing ++ [lane], half := true }) ∧
  (∀ port s, port < 19 → (link s port).down = false →
    let k := link s port
    (∃ t, exec (.linkRetrain port true) s = .next t ∧ t = { s with io := t.io } ∧
      link t port = { k with retries := 0, half := k.half || !k.failing.isEmpty }) ∧
    (k.retries < 2 → ∃ t, exec (.linkRetrain port false) s = .next t ∧ t = { s with io := t.io } ∧
      link t port = { k with retries := k.retries + 1 }) ∧
    (2 ≤ k.retries → ∃ t, exec (.linkRetrain port false) s = .next t ∧ link t port = { k with retries := 0, down := true } ∧
      Recorded s t ∧ (port ≠ 0 → ∀ p ∈ cutOff t (port - 1), .peerFence p ∈ t.pending ∧ mget 0 t.fw.missed p = 4))) ∧
  (∀ port s, (link s port).down = true → ∃ t, exec (.linkRestored port) s = .next t ∧ t = { s with io := t.io } ∧
    link t port = { link s port with down := false, retries := 0 }) ∧
  (∀ hop fails gid op s,
    (fails < 8 → ∃ t, exec (.meshFlitCrcError hop fails gid op) s = .next t ∧ t = { s with fw := t.fw } ∧ Recorded s t) ∧
    (8 ≤ fails → ∀ g o, Machine.group s gid = some g → g.ops.find? (·.id == op) = some o → o.tag ≠ 1 →
      o.kind ∈ [OpKind.load, .atom, .gld, .cread] → (∀ c ∈ (Machine.core s (gid / 2048)).cpyq, c.gid = gid → c.opId ≠ op) →
      ∃ t h, exec (.meshFlitCrcError hop fails gid op) s = .next t ∧
        Arrived gid o g h { s with fw := t.fw } t ∧ (∀ r ∈ o.vregs, ∀ i < 32, mfind h.vPoison (r * 32 + i) = some 3) ∧
        ∀ r ∈ o.gregs, mfind h.gPoison r = some 3) ∧
    (8 ≤ fails → ∀ c rest, (Machine.core s (gid / 2048)).cpyq = c :: rest → c.gid = gid → c.opId = op → c.started = true →
      unitsDone s c = false → ∃ t, exec (.meshFlitCrcError hop fails gid op) s = .next t ∧
        (Machine.core t (gid / 2048)).cpyq = rest ∧ ∃ d ∈ (Machine.core t (gid / 2048)).parkedCpy, d.stamp = c.stamp ∧ d.sub = 15)) ∧
  (∀ s, (neighbours s).Nodup → ∃ t, exec .heartbeatSend s = .next t ∧ t.io.beats = s.io.beats + 1 ∧ t.mm = s.mm ∧
    Sent ((neighbours s).map fun k => { kind := 8, port := 0, pa := k, data := [] }) s t ∧
    ∀ k ∈ neighbours s, mget 0 t.fw.missed k = mget 0 s.fw.missed k + 1 ∧
      (3 ≤ mget 0 s.fw.missed k → k ∉ s.fw.fenced → .peerFence k ∈ t.pending)) ∧
  (∀ peer s, peer ∈ neighbours s → ∃ t, exec (.heartbeatReceive peer) s = .next t ∧ mget 0 t.fw.missed peer = 0 ∧
    t = { s with fw := { s.fw with missed := t.fw.missed } }) ∧
  (∀ peer s, (mget 0 s.fw.podmap peer).getLsbD 31 = true → (mget 0 s.fw.podmap peer).getLsbD 30 = false →
    4 ≤ mget 0 s.fw.missed peer → peer ∉ s.fw.fenced → ((allGroups s).map gidOf).Nodup →
    ∃ t, exec (.peerFence peer) s = .next t ∧ t.fw.fenced = s.fw.fenced ++ [peer] ∧ t.mm.mem = s.mm.mem ∧
      ∀ gid g o, Machine.group s gid = some g → g.ops.find? (·.id == o.id) = some o → o.tag ≠ 1 →
        o.kind ∈ [OpKind.load, .atom, .gld] → (∃ m, (peer, m) ∈ o.peers) →
        ∃ h, Machine.group t gid = some h ∧ (∀ p ∈ h.ops, p.id ≠ o.id) ∧
          ∀ m r i, (peer, m) ∈ o.peers → r ∈ o.vregs → i < 32 → m.getLsbD i = true → mfind h.vPoison (r * 32 + i) = some 5)

/-! ## Steps of the debug port, of register writes and of the firmware -/

/-- The debug port (R235, R263, R266, R267, R289, R293, R294, R307): where it is attached and the context allows it, a group is
held at its boundary, released and stepped, its registers are read and written, and a rewind and a step back put back what the
undo log and the port kept; elsewhere nothing happens. That release ends the stepping and clears STEP, that step numbers run per context
and that a refused rewind puts the saved blocks back are the model's readings (log 42). -/
def Obligations.DebugSteps : Prop :=
  (∀ on s, exec (.debugPortAttach on) s = .next { s with io := { s.io with dbgOn := on } }) ∧
  (∀ gid s, debugTarget s gid = none → exec (.debugHold gid) s = .next s ∧ exec (.debugRelease gid) s = .next s ∧
    exec (.debugStep gid) s = .next s ∧ (deviceHeld s = false → ∀ k, exec (.stepback gid k) s = .next s) ∧
    ∀ c sel val, exec (.debugRegisterAccess gid c sel val) s = .next s) ∧
  (∀ gid s g, debugTarget s gid = some g →
    let onlyGroup := fun (h : Group) (t : State) => Machine.group t gid = some h ∧ OnlyGroup gid s t
    (g.st ≠ .held → g.st ≠ .parked → g.due = [] → g.rix = 0 → ∃ t h, exec (.debugHold gid) s = .next t ∧
      Machine.group t gid = some h ∧ Counted 20 { g with under := g.st, st := .held, holdReq := false } h ∧
      OnlyGroup gid s { t with cores := s.cores } ∧
      ∀ c, Machine.core t c = { Machine.core s c with pstall := (Machine.core t c).pstall }) ∧
    (g.st ≠ .held → g.st = .parked ∨ g.due ≠ [] ∨ g.rix ≠ 0 → ∃ t, exec (.debugHold gid) s = .next t ∧
      onlyGroup { g with holdReq := true } t) ∧
    (g.st = .held → exec (.debugHold gid) s = .next s) ∧
    (g.st = .held →
      (∃ t, exec (.debugRelease gid) s = .next t ∧ Machine.group t gid = some { g with
        st := g.under, under := .ready,
        holdReq := false, bpSkip := true, age := s.turn, stepReq := false, steps := [], stepNo := 0 } ∧ t.mm = s.mm ∧
        (ctx t g.ctx).ulogPol.getLsbD 29 = (allGroups t).any fun h => h.ctx == g.ctx && h.stepNo != 0) ∧
      (∃ t, exec (.debugStep gid) s = .next t ∧ (ctx t g.ctx).stepped = (ctx s g.ctx).stepped % 65535 + 1 ∧
        Machine.group t gid = some { g with
          st := g.under, under := .ready, holdReq := false, bpSkip := true, age := s.turn, stepReq := true,
          stepNo := (ctx s g.ctx).stepped % 65535 + 1,
          steps := (((ctx s g.ctx).stepped % 65535 + 1, keptStep g) :: g.steps).take 64 } ∧
        (ctx t g.ctx).ulogPol.getLsbD 29 = true ∧
        t.mm = s.mm)) ∧
    (∀ c sel, g.st = .parked ∨ g.st = .held → classBusy g c sel = false →
      (∀ x p, readClass s g c sel = some (x, p) → ∃ t, exec (.debugRegisterAccess gid c sel none) s = .next t ∧
        t = { s with io := t.io } ∧ Sent [{ kind := 9, port := 0, pa := gid, data := [x.toNat] }] s t) ∧
      (∀ x h, ¬(c = .group ∧ sel.toNat % 512 = 13) → writeClass g c sel x = some h →
        ∃ t, exec (.debugRegisterAccess gid c sel (some x)) s = .next t ∧ onlyGroup h t) ∧
      (c = .group → sel.toNat % 512 = 13 → g.st = .parked → ∃ t, exec (.debugRegisterAccess gid c sel (some 0)) s = .next t ∧
        Machine.group t gid = some { g with st := .ready, age := s.turn, bpSkip := true } ∧
        (∀ r ∈ (Machine.core t g.core).replay, r.gid = gid → r.frees = true) ∧ t.mm = s.mm)) ∧
    (∀ k kept, deviceHeld s = false → g.st = .held → 0 < k → (g.steps.take k).getLast?.map (·.2) = some kept → k ≤ g.steps.length →
      (ctx s g.ctx).ulogSize.toNat < 2 →
      ∃ t h, exec (.stepback gid k) s = .next t ∧ t.mm = s.mm ∧ Machine.group t gid = some h ∧
        h = { putBack kept g with under := .ready, steps := g.steps.drop k, due := [] } ∧
        h.v = kept.v ∧ h.g = kept.g ∧ h.m = kept.m ∧ h.vPoison = kept.vBad ∧ h.gPoison = kept.gBad ∧
        (∀ old, kept = keptStep old → codeBase old = codeBase g → h.pc = codeBase old + (pcOffset old).setWidth 64 ∧ h.fmt = old.fmt ∧
          h.flags = old.flags ∧ h.srs = old.srs ∧ h.f = old.f ∧ h.instret = old.instret ∧ h.pmask = old.pmask))) ∧
  (∀ c n s, deviceHeld s = true → s.io.dbgOn = true → (ctx s c).dbg = true →
    exec (.rewind c n) s = .next { s with pending := s.pending ++ [.rewind c n] }) ∧
  (∀ c n s, deviceHeld s = false → s.io.dbgOn = true → (ctx s c).dbg = true →
    let w := n % 2 ^ 16
    (ctxBlocks s c (· == .resident) = [] → ctxBlocks s c (· == .saving) = [] →
      (rewindRefused s c w = true → ∃ t, exec (.rewind c n) s = .next t ∧ t = { s with blocks := t.blocks }) ∧
      (rewindRefused s c w = false → ∃ t, exec (.rewind c n) s = .next t ∧ (ctx t c).window = BitVec.ofNat 16 w)) ∧
    (ctxBlocks s c (· == .resident) = [] → ctxBlocks s c (· == .saving) ≠ [] →
      exec (.rewind c n) s = .next { s with pending := s.pending ++ [.rewind c n] }))

/-- Register writes (R284, R302, R303, R306, R313, R314): an aligned word of the window acts on its register: the mailbox's data and
commands, CPYCTL, the breakpoints, the stall counters and the trace registers, whose offsets 0, 4, 12 and 16 are presumed (log 14); an
access outside the window, or not aligned, has no effect. -/
def Obligations.RegisterSteps : Prop :=
  ∀ s data,
    let x := BitVec.ofNat 32 data
    let wr := fun o => exec (.registerWrite (mmioBase + o) 4 data) s
    (∀ k, 16 ≤ k → k < 1024 → ∃ t, wr (0x1000 + 4 * k) = .next t ∧ mget 0 t.fw.data k = x ∧
      t = { s with fw := { s.fw with data := t.fw.data } }) ∧
    (s.fw.go = false → x.getLsbD 31 = true →
      (∀ e, commandOf (data % 2 ^ 16) = some e → ∃ t, wr 0x1004 = .next t ∧ t.fw.go = true ∧ t.fw.cmd = x &&& 0xFFFF ∧
        t.pending = s.pending ++ [e]) ∧
      (commandOf (data % 2 ^ 16) = none → ∃ t, wr 0x1004 = .next t ∧ Answered 4 t ∧ t.pending = s.pending)) ∧
    (s.fw.go = true → x.getLsbD 31 = true → wr 0x1004 = .next { s with fw := { s.fw with res := 1 } }) ∧
    (∀ c < 192, (x.toNat / 2 ^ 30 = 1 → wr (0x10100 + 0x1000 * c) =
        .next { s with pending := s.pending ++ [.cpyctlResolve c (data % 2 ^ 16)] }) ∧
      (x.toNat / 2 ^ 30 = 2 → wr (0x10100 + 0x1000 * c) =
        .next { s with pending := s.pending ++ [.cpyctlCancel c (data % 2 ^ 16)] }) ∧
      wr (0x103F8 + 0x1000 * c) = .next { s with pending := s.pending ++ [.stallCounterClear c] } ∧
      (∀ n < 8, ∃ t, wr (0x10300 + 0x1000 * c + 8 * n) = .next t ∧ t = { s with cores := t.cores } ∧
        mget 0 (Machine.core t c).bps n =
          (mget 0 (Machine.core s c).bps n).extractLsb' 32 32 ++ (x &&& 0xFFFFFFFD))) ∧
    (wr 0 = .next { s with tr := { s.tr with base := x } }) ∧ (wr 4 = .next { s with tr := { s.tr with ctl := x &&& 0xF000FFFF } }) ∧
    (wr 12 = .next { s with tr := { s.tr with tail := x } }) ∧
    (wr 16 = .next { s with tr := { s.tr with drop := s.tr.drop &&& ~~~x } }) ∧
    (∀ pa n, pa < mmioBase ∨ mmioTop ≤ pa ∨ n ∉ [1, 2, 4, 8] ∨ pa % n ≠ 0 → exec (.registerWrite pa n data) s = .next s)

/-- Commands of the mailbox that make and change what runs (R208, R212, R234, R235, R242 to R244, R276, R289, R311, R316): a firmware
image, a context, the supervisor, a queue, a handle and a page, each with its result; a page move, and the end of a context, wait for the
accesses on their way to the pages (R243) and drop the old owner's translations meanwhile; what is not allowed changes nothing but the
result. That the pages of a context that has ended pass to owner 0 (log 32), that a MOVEPG of a META page is BADARG (log 59) and that a
ring's count restarts (log 22) are the model's choices. -/
def Obligations.SetupCommands : Prop :=
  ∀ s,
    (Serves 0x01 s →
      let image := hostBytes s (argPair s 0) (arg s 2).toNat
      (2 ^ 24 < (arg s 2).toNat → ∃ t, exec .loadfw s = .next t ∧ Answered 3 t ∧ t.pending = s.pending) ∧
      ((arg s 2).toNat ≤ 2 ^ 24 → Config.imageGood image = true → ∃ t, exec .loadfw s = .next t ∧ Answered 0 t ∧ t.fw.flash = true ∧
        t.fw.image = image ∧ t.pending = s.pending ++ [.deviceReset]) ∧
      ((arg s 2).toNat ≤ 2 ^ 24 → Config.imageGood image = false → ∃ t, exec .loadfw s = .next t ∧ Answered 2 t ∧ t.pending = s.pending)) ∧
    (Serves 0x10 s →
      let n := (arg s 0).toNat % 64
      let w := fun k => (arg s (1 + k)).toNat
      (n = 0 ∨ ((arg s 1).getLsbD 31 = true ∧ (ctx s n).live = true) → ∃ t, exec .mkctx s = .next t ∧ Answered 3 t ∧ t = { s with fw := t.fw } ∧
        t.fw.ctxs = s.fw.ctxs) ∧
      (n ≠ 0 → (arg s 1).getLsbD 31 = true → (ctx s n).live = false → ∃ t, exec .mkctx s = .next t ∧ Answered 0 t ∧
        let c := ctx t n
        c.live = true ∧ c.key = true ∧ c.ver = (arg s 1).getLsbD 30 ∧ c.dbg = (arg s 1).getLsbD 29 ∧
        c.root = w 2 % 2 ^ 20 * 2 ^ 32 + w 1 / 2 ^ 14 * 2 ^ 14 ∧ c.tick = BitVec.ofNat 16 (w 3 / 2 ^ 16) ∧
        c.lease = BitVec.ofNat 16 (w 3) ∧ c.wdog = arg s 11 ∧ c.kshare = BitVec.ofNat 64 (w 8 + 2 ^ 32 * w 9)) ∧
      let busy := inFlight s fun pa => pa < hbmTop && (ownOf s pa).toNat / 2 ^ 8 % 64 == n
      (n ≠ 0 → (arg s 1).getLsbD 31 = false → busy = true → exec .mkctx s = .next (pend (dropAsid n s) .mkctx)) ∧
      (n ≠ 0 → (arg s 1).getLsbD 31 = false → busy = false → deviceHeld s = true →
        exec .mkctx s = .next { s with pending := s.pending ++ [.mkctx] }) ∧
      (n ≠ 0 → (arg s 1).getLsbD 31 = false → busy = false → deviceHeld s = false → ∃ t, exec .mkctx s = .next t ∧ Answered 0 t ∧ (ctx t n).live = false ∧ (ctx t n).key = false ∧
        ∀ pa, (ownOf s pa).toNat / 2 ^ 8 % 64 = n → mfind s.mm.own (pa / 2 ^ 14) ≠ none → mrising s.mm.own = true →
          ownOf t pa = ownOf s pa &&& 0x8000)) ∧
    (Serves 0x11 s →
      let len := (arg s 2).toNat
      let va := argPair s 4
      let bad := 2 ^ 24 < len ∨ (arg s 3).toNat % 4 ≠ 0 ∨ va % 2 ^ 14 ≠ 0 ∨ 2 ^ 58 ≤ va
      let entry := BitVec.ofNat 32 (va + (arg s 3).toNat)
      (bad → ∃ t, exec .loadsv s = .next t ∧ Answered 3 t ∧ t.mm = s.mm) ∧
      (¬bad → (∃ n, 0 < n ∧ n < 64 ∧ (ctx s n).live = true) → ∃ t, exec .loadsv s = .next t ∧ Answered 1 t ∧ t.mm = s.mm) ∧
      let waits := deviceHeld s || inFlight s fun pa => pa < hbmTop
      (¬bad → (∀ n, 0 < n → n < 64 → (ctx s n).live = false) → waits = true →
        exec .loadsv s = .next { s with pending := s.pending ++ [.loadsv] }) ∧
      (¬bad → (∀ n, 0 < n → n < 64 → (ctx s n).live = false) → waits = false → ∃ t, exec .loadsv s = .next t ∧ Answered 0 t ∧
        t.fw.svm = digestBytes (hostBytes s (argPair s 0) len) ∧ (ctx t 0).live = true ∧ (ctx t 0).key = true ∧ ∀ c < 192, (Machine.core t c).tvec = entry &&& 0xFFFFFFFC ∧
          ∃ g, Machine.group t (c * 2048 + 1024) = some g ∧ g.sup = true ∧ g.st = .ready ∧ g.pmask = 0xFFFFFFFF ∧
            g.pc = (entry &&& 0xFFFFFFFC).setWidth 64)) ∧
    (Serves 0x12 s →
      let n := (arg s 0).toNat % 1024
      let old := queue s n
      let q : Queue := { old with desc := (args s 1 8).take 7 ++ [BitVec.ofNat 32 (qWord old 7) &&& ~~~(arg s 8 &&& 0xFF000000)] }
      (qEnabled q = true → (ctx s (qCtx q)).live = false ∨ qLog q = 0 ∨ 16 < qLog q →
        ∃ t, exec .setq s = .next t ∧ Answered 3 t ∧ t.cp = s.cp) ∧
      ((qEnabled q = true → (ctx s (qCtx q)).live = true ∧ 1 ≤ qLog q ∧ qLog q ≤ 16) → ∃ t, exec .setq s = .next t ∧ Answered 0 t ∧
        (queue t n).desc = q.desc ∧ t.pending = s.pending ++ if qEnabled q then [.queueRecordRead n] else [])) ∧
    (Serves 0x13 s →
      let h := (arg s 0).toNat % 2 ^ 16
      (h = 0 → ∃ t, exec .regh s = .next t ∧ Answered 3 t ∧ t.cp = s.cp) ∧
      (h ≠ 0 → argPair s 4 = 0 → handleNamed s h = true → ∃ t, exec .regh s = .next t ∧ Answered 1 t ∧ t.cp = s.cp) ∧
      (h ≠ 0 → argPair s 4 = 0 → handleNamed s h = false → ∃ t, exec .regh s = .next t ∧ Answered 0 t ∧ mfind t.cp.handles h = none) ∧
      (h ≠ 0 → argPair s 4 ≠ 0 → ∃ t x, exec .regh s = .next t ∧ Answered 0 t ∧ mfind t.cp.handles h = some x ∧ x.base = argPair s 2 ∧
        x.size = argPair s 4 ∧ x.dom = (arg s 1).toNat % 4 ∧ x.ctx = (arg s 1).toNat / 4 % 64 ∧ x.done = true)) ∧
    (Serves 0x14 s →
      let pa := argPair s 0
      (pa % 2 ^ 14 ≠ 0 ∨ 2 ^ 39 ≤ pa ∨ (arg s 2).getLsbD 7 = true ∨ metaPage s pa = true → ∃ t, exec .movepg s = .next t ∧ Answered 3 t ∧ t.mm = s.mm) ∧
      let busy := deviceHeld s || inFlight s fun a => a / 2 ^ 14 == pa / 2 ^ 14
      let may := pa % 2 ^ 14 = 0 ∧ pa < 2 ^ 39 ∧ (arg s 2).getLsbD 7 = false ∧ metaPage s pa = false
      (may → busy = true → exec .movepg s = .next (pend (dropOwner s pa) .movepg)) ∧
      (may → busy = false → s.mm.sealed = [] → ∃ t, exec .movepg s = .next t ∧ Answered 0 t ∧
        ownOf t pa = (arg s 2).extractLsb' 0 16 &&& 0xFF00 ∧
        ∀ a, readByte t.mm.mem a = if pa ≤ a ∧ a < pa + 2 ^ 14 then 0 else readByte s.mm.mem a))

/-- The other commands, power and heat (R253, R260, R298, R308 to R312, R315 to R317): the pod map, an admitted peer, a report that
carries the stepping of the part and the caller's nonce, the error log, D3hot and D0; a reset boots again; a loss of power leaves nothing
but the flash; and the throttle. What D3hot leaves (log 68), what survives a reset (log 4) and how far a step of heat goes (log 37) are the
model's choices. -/
def Obligations.DeviceCommands : Prop :=
  ∀ s,
    (Serves 0x15 s →
      let entry := fun k => BitVec.ofNat 64 ((arg s (4 * k)).toNat + 2 ^ 32 * (arg s (4 * k + 1)).toNat)
      let own := (List.range 64).filter fun k => (entry k).getLsbD 31 && (entry k).getLsbD 30
      (own.length ≠ 1 → ∃ t, exec .podmap s = .next t ∧ Answered 3 t ∧ t.fw.podmap = s.fw.podmap) ∧
      (own.length = 1 → peerTraffic s = true → ∃ t, exec .podmap s = .next t ∧ Answered 1 t ∧ t.fw.podmap = s.fw.podmap) ∧
      (own.length = 1 → peerTraffic s = false → ∃ t, exec .podmap s = .next t ∧ Answered 0 t ∧ ∀ k < 64, mget 0 t.fw.podmap k = entry k)) ∧
    (Serves 0x16 s → ∃ t, exec .admitPeer s = .next t ∧ Answered 0 t ∧ (arg s 0).toNat % 64 ∉ t.fw.fenced ∧
      mget 0 t.fw.missed ((arg s 0).toNat % 64) = 0 ∧ ∀ k, k ≠ (arg s 0).toNat % 64 → (k ∈ t.fw.fenced ↔ k ∈ s.fw.fenced)) ∧
    (Serves 0x20 s → ∃ t, exec .attest s = .next t ∧ Answered 0 t ∧ t = { s with fw := t.fw } ∧ arg t 0 = 1 ∧ arg t 1 = 0x4B094100 ∧
      ∀ i < 16, arg t (2 + i) = arg s i) ∧
    (Serves 0x21 s →
      let rs := (s.fw.errlog.filter fun r => !before (r.getD 1 0) (arg s 0)).take 60
      ∃ t, exec .errlog s = .next t ∧ Answered 0 t ∧ t.fw.errlog = s.fw.errlog ∧ arg t 0 = BitVec.ofNat 32 rs.length ∧
        ∀ i < rs.flatten.length, arg t (2 + i) = rs.flatten.getD i 0) ∧
    (Serves 0x30 s →
      let held := (s.blocks.any fun p => p.2.st == .resident || p.2.st == .saving || p.2.st == .swapped) ||
        s.cp.queues.any fun p => holdsRecord s p.2
      (held = true → ∃ t, exec .d3hot s = .next t ∧ Answered 1 t ∧ t.fw.power = s.fw.power) ∧
      (held = false → ∃ t, exec .d3hot s = .next t ∧ Answered 0 t ∧ t.fw.power = .d3hot ∧ t.fw.status = 4 ∧
        t.blocks = [] ∧ t.cores = [] ∧ t.cur = supGroup 0 ∧ t.others = [] ∧ t.mm.lines = [] ∧ t.fw.ctxs = s.fw.ctxs ∧
        t.mm.own = s.mm.own ∧ (s.mm.sealed = [] → t.mm.mem = s.mm.mem))) ∧
    (Serves 0x31 s → ∃ t, exec .d0 s = .next t ∧ Answered 0 t ∧ t.fw.power = .d0 ∧ t.fw.status = 2) ∧
    (∃ t, exec .deviceReset s = .next t ∧ t.mm.mem = [] ∧ t.blocks = [] ∧ t.pending = [] ∧ t.cp.front = 0 ∧ t.cores = [] ∧
      t.cur = supGroup 0 ∧ t.others = [] ∧ t.mm.hostMem = s.mm.hostMem ∧ t.fw.flash = s.fw.flash ∧ t.fw.power = .d0 ∧
      t.fw.status = (if s.fw.flash = false then 1 else if s.fw.stackBad ≠ [] ∨ s.fw.cxlBad = true then 3 else 2)) ∧
    (∀ i ∈ [Instr.powerRemoval, .thermalShutdown], ∃ t, exec i s = .next t ∧ t.fw.power = .d3cold ∧ t.mm.mem = [] ∧ t.blocks = [] ∧
      t.pending = [] ∧ t.fw.ctxs = [] ∧ t.fw.status = 0 ∧ (s.fw.go = false → t.fw.flash = s.fw.flash)) ∧
    (exec .thermalThrottle s = .next { s with fw := { s.fw with throttle := min (s.fw.throttle + 1) 9 } }) ∧
    (exec .thermalRecover s = .next { s with fw := { s.fw with throttle := s.fw.throttle - 1 } })

end
end

