-- ==== Sys2Proof/Laws/Map.lean ====
section
/-! SUPPORT. The laws of the finite maps of Machine/Map.lean and of device memory: what a read gives after a write, and
that every operation keeps the canonical form. -/

namespace Sys2Proof.Machine

variable {α : Type}

@[simp] theorem mfind_nil (i : Nat) : mfind ([] : SMap α) i = none := rfl

theorem mfind_mset (m : SMap α) (i j : Nat) (x : α) : mfind (mset m i x) j = if j = i then some x else mfind m j := by
  induction m with
  | nil => simp [mset, mfind]
  | cons p r ih =>
    obtain ⟨k, v⟩ := p
    simp only [mset]
    split
    · subst_vars; simp only [mfind]; split <;> simp_all
    · split
      · simp only [mfind]
      · simp only [mfind, ih]; split <;> split <;> simp_all

theorem mfind_mdel (m : SMap α) (i j : Nat) : mfind (mdel m i) j = if j = i then none else mfind m j := by
  induction m with
  | nil => simp [mdel, mfind]
  | cons p r ih =>
    obtain ⟨k, v⟩ := p
    simp only [mdel]
    split
    · subst_vars; simp only [mfind, ih]; split <;> simp_all
    · simp only [mfind, ih]; split <;> split <;> simp_all

@[simp] theorem mget_nil (d : α) (i : Nat) : mget d [] i = d := rfl

theorem mget_mset (d : α) (m : SMap α) (i j : Nat) (x : α) : mget d (mset m i x) j = if j = i then x else mget d m j := by
  simp only [mget, mfind_mset]; split <;> rfl

theorem mget_mdel (d : α) (m : SMap α) (i j : Nat) : mget d (mdel m i) j = if j = i then d else mget d m j := by
  simp only [mget, mfind_mdel]; split <;> rfl

/-- A read after a write: the value written at the same key, and what was there at every other. -/
theorem mget_mput [DecidableEq α] (d : α) (m : SMap α) (i j : Nat) (x : α) :
    mget d (mput d m i x) j = if j = i then x else mget d m j := by
  unfold mput
  split
  · subst_vars; exact mget_mdel ..
  · exact mget_mset ..

@[simp] theorem mget_mput_same [DecidableEq α] (d : α) (m : SMap α) (i : Nat) (x : α) : mget d (mput d m i x) i = x := by
  simp [mget_mput]

theorem mget_mmod (d : α) (m : SMap α) (i j : Nat) (f : α → α) :
    mget d (mmod d m i f) j = if j = i then f (mget d m i) else mget d m j := mget_mset ..

/-! ## The canonical form -/

/-- Every key of a map lies above a bound. -/
def Above (n : Nat) (m : SMap α) : Prop := ∀ p ∈ m, n < p.1

theorem mrising_cons (k : Nat) (v : α) (r : SMap α) : mrising ((k, v) :: r) = true ↔ Above k r ∧ mrising r = true := by
  induction r generalizing k v with
  | nil => simp [mrising, Above]
  | cons p r ih =>
    obtain ⟨k', v'⟩ := p
    simp only [mrising, Bool.and_eq_true, decide_eq_true_eq, ih, Above, List.forall_mem_cons]
    constructor
    · rintro ⟨h, ha, hr⟩
      exact ⟨⟨h, fun p hp => Nat.lt_trans h (ha p hp)⟩, ha, hr⟩
    · rintro ⟨⟨h, -⟩, ha, hr⟩
      exact ⟨h, ha, hr⟩

theorem Above.mset {n i : Nat} {m : SMap α} {x : α} (h : Above n m) (hi : n < i) : Above n (mset m i x) := by
  induction m with
  | nil => intro p hp; simp only [Machine.mset, List.mem_singleton] at hp; subst hp; exact hi
  | cons q r ih =>
    obtain ⟨k, v⟩ := q
    simp only [Above, List.forall_mem_cons] at h
    simp only [Machine.mset]
    split
    · exact List.forall_mem_cons.2 ⟨hi, h.2⟩
    · split
      · exact List.forall_mem_cons.2 ⟨hi, List.forall_mem_cons.2 h⟩
      · exact List.forall_mem_cons.2 ⟨h.1, ih h.2⟩

theorem mem_mdel {m : SMap α} {i : Nat} {p : Nat × α} (h : p ∈ mdel m i) : p ∈ m := by
  induction m with
  | nil => exact h
  | cons q r ih =>
    simp only [mdel] at h
    split at h
    · exact List.mem_cons_of_mem _ (ih h)
    · exact (List.mem_cons.1 h).elim (· ▸ List.mem_cons_self ..) fun h => List.mem_cons_of_mem _ (ih h)

theorem mem_mset {m : SMap α} {i : Nat} {x : α} {p : Nat × α} (h : p ∈ mset m i x) : p = (i, x) ∨ p ∈ m := by
  induction m with
  | nil => exact .inl (List.mem_singleton.1 h)
  | cons q r ih =>
    simp only [mset] at h
    split at h
    · exact (List.mem_cons.1 h).imp id (List.mem_cons_of_mem _)
    · split at h
      · exact List.mem_cons.1 h
      · rcases List.mem_cons.1 h with h | h
        · exact .inr (h ▸ List.mem_cons_self ..)
        · exact (ih h).imp id (List.mem_cons_of_mem _)

theorem mrising_mdel {m : SMap α} (i : Nat) (h : mrising m = true) : mrising (mdel m i) = true := by
  induction m with
  | nil => rfl
  | cons q r ih =>
    obtain ⟨ha, hr⟩ := (mrising_cons ..).1 h
    simp only [mdel]
    split
    · exact ih hr
    · exact (mrising_cons ..).2 ⟨fun p hp => ha p (mem_mdel hp), ih hr⟩

theorem mrising_mset {m : SMap α} (i : Nat) (x : α) (h : mrising m = true) : mrising (mset m i x) = true := by
  induction m with
  | nil => rfl
  | cons q r ih =>
    obtain ⟨k, v⟩ := q
    obtain ⟨ha, hr⟩ := (mrising_cons ..).1 h
    simp only [mset]
    split
    · subst_vars; exact (mrising_cons ..).2 ⟨ha, hr⟩
    · split
      · next hk =>
        exact (mrising_cons ..).2 ⟨List.forall_mem_cons.2 ⟨hk, fun p hp => Nat.lt_trans hk (ha p hp)⟩, h⟩
      · exact (mrising_cons ..).2 ⟨ha.mset (by omega), ih hr⟩

theorem mrising_filter {m : SMap α} (f : Nat × α → Bool) (h : mrising m = true) : mrising (m.filter f) = true := by
  induction m with
  | nil => rfl
  | cons q r ih =>
    obtain ⟨ha, hr⟩ := (mrising_cons ..).1 h
    simp only [List.filter]
    split
    · exact (mrising_cons ..).2 ⟨fun p hp => ha p (List.mem_filter.1 hp).1, ih hr⟩
    · exact ih hr

/-! ## Device memory -/

theorem wf_iff (m : Memory) : Memory.wf m = true ↔ mrising m = true ∧ ∀ c ∈ m, c.2 ≠ 0 := by
  simp [Memory.wf, List.all_eq_true]

theorem wf_writeByte {m : Memory} (a : Nat) (b : Byte) (h : Memory.wf m = true) : Memory.wf (writeByte m a b) = true := by
  rw [wf_iff] at *
  unfold writeByte mput
  split
  · exact ⟨mrising_mdel a h.1, fun c hc => h.2 c (mem_mdel hc)⟩
  · next hb =>
    exact ⟨mrising_mset a b h.1, fun c hc => (mem_mset hc).elim (fun e => e ▸ hb) (h.2 c)⟩

theorem wf_writeBytes {m : Memory} (a n x : Nat) (h : Memory.wf m = true) : Memory.wf (writeBytes m a n x) = true := by
  induction n generalizing m a x with
  | zero => exact h
  | succ n ih => exact ih _ _ (wf_writeByte _ _ h)

theorem wf_filter {m : Memory} (f : Host.Cell → Bool) (h : Memory.wf m = true) : Memory.wf (m.filter f) = true := by
  rw [wf_iff] at *
  exact ⟨mrising_filter f h.1, fun c hc => h.2 c (List.mem_filter.1 hc).1⟩

theorem readByte_writeByte (m : Memory) (a b : Nat) (x : Byte) :
    readByte (writeByte m a x) b = if b = a then x else readByte m b := mget_mput ..

theorem readByte_writeBytes_out (m : Memory) (a n x b : Nat) (h : b < a ∨ a + n ≤ b) :
    readByte (writeBytes m a n x) b = readByte m b := by
  induction n generalizing m a x with
  | zero => rfl
  | succ n ih =>
    rw [writeBytes, ih _ _ _ (by omega), readByte_writeByte, if_neg (by omega)]

theorem readByte_writeBytes_in (m : Memory) (a n x i : Nat) (h : i < n) :
    readByte (writeBytes m a n x) (a + i) = BitVec.ofNat 8 (x / 256 ^ i) := by
  induction n generalizing m a x i with
  | zero => omega
  | succ n ih =>
    rw [writeBytes]
    cases i with
    | zero => rw [readByte_writeBytes_out _ _ _ _ _ (by omega), readByte_writeByte]; simp
    | succ i =>
      have := ih (writeByte m a (BitVec.ofNat 8 x)) (a + 1) (x / 256) i (by omega)
      rw [show a + (i + 1) = a + 1 + i by omega, this, Nat.div_div_eq_div_mul, Nat.pow_succ, Nat.mul_comm]

/-- A number read back from the bytes it was written to: its low `8 n` bits. -/
theorem readBytes_writeBytes (m : Memory) (a n x : Nat) : readBytes (writeBytes m a n x) a n = x % 256 ^ n := by
  induction n generalizing m a x with
  | zero => simp [readBytes, Nat.mod_one]
  | succ n ih =>
    rw [readBytes, writeBytes, ih, readByte_writeBytes_out _ _ _ _ _ (by omega), readByte_writeByte]
    simp only [if_true, BitVec.toNat_ofNat]
    rw [show 256 ^ (n + 1) = 256 * 256 ^ n from Nat.pow_succ .. |>.trans (Nat.mul_comm ..), Nat.mod_mul]

theorem readBytes_eq {m m' : Memory} (a n : Nat) (h : ∀ i < n, readByte m' (a + i) = readByte m (a + i)) :
    readBytes m' a n = readBytes m a n := by
  induction n generalizing a with
  | zero => rfl
  | succ n ih =>
    rw [readBytes, readBytes, ih (a + 1) fun i hi => by
      have := h (i + 1) (by omega); rwa [show a + (i + 1) = a + 1 + i by omega] at this]
    have := h 0 (by omega); rw [Nat.add_zero] at this; rw [this]

end Sys2Proof.Machine
end

