-- ==== Sys2Proof/Laws/State.lean ====
section
/-! SUPPORT. The state under each of its updates, field by field: what an update writes, and that it writes nothing else. -/

namespace Sys2Proof.Machine

/-! ## vset -/

@[simp] theorem vset_core (g : Group) (r t : Nat) (x : Word) : (vset g r t x).core = g.core := rfl
@[simp] theorem vset_slot (g : Group) (r t : Nat) (x : Word) : (vset g r t x).slot = g.slot := rfl
@[simp] theorem vset_seq (g : Group) (r t : Nat) (x : Word) : (vset g r t x).seq = g.seq := rfl
@[simp] theorem vset_part (g : Group) (r t : Nat) (x : Word) : (vset g r t x).part = g.part := rfl
@[simp] theorem vset_lane (g : Group) (r t : Nat) (x : Word) : (vset g r t x).lane = g.lane := rfl
@[simp] theorem vset_bound (g : Group) (r t : Nat) (x : Word) : (vset g r t x).bound = g.bound := rfl
@[simp] theorem vset_sup (g : Group) (r t : Nat) (x : Word) : (vset g r t x).sup = g.sup := rfl
@[simp] theorem vset_priv (g : Group) (r t : Nat) (x : Word) : (vset g r t x).priv = g.priv := rfl
@[simp] theorem vset_ctx (g : Group) (r t : Nat) (x : Word) : (vset g r t x).ctx = g.ctx := rfl
@[simp] theorem vset_blk (g : Group) (r t : Nat) (x : Word) : (vset g r t x).blk = g.blk := rfl
@[simp] theorem vset_grpib (g : Group) (r t : Nat) (x : Word) : (vset g r t x).grpib = g.grpib := rfl
@[simp] theorem vset_vb (g : Group) (r t : Nat) (x : Word) : (vset g r t x).vb = g.vb := rfl
@[simp] theorem vset_ub (g : Group) (r t : Nat) (x : Word) : (vset g r t x).ub = g.ub := rfl
@[simp] theorem vset_ab (g : Group) (r t : Nat) (x : Word) : (vset g r t x).ab = g.ab := rfl
@[simp] theorem vset_g (g : Group) (r t : Nat) (x : Word) : (vset g r t x).g = g.g := rfl
@[simp] theorem vset_m (g : Group) (r t : Nat) (x : Word) : (vset g r t x).m = g.m := rfl
@[simp] theorem vset_f (g : Group) (r t : Nat) (x : Word) : (vset g r t x).f = g.f := rfl
@[simp] theorem vset_w (g : Group) (r t : Nat) (x : Word) : (vset g r t x).w = g.w := rfl
@[simp] theorem vset_joins (g : Group) (r t : Nat) (x : Word) : (vset g r t x).joins = g.joins := rfl
@[simp] theorem vset_pc (g : Group) (r t : Nat) (x : Word) : (vset g r t x).pc = g.pc := rfl
@[simp] theorem vset_codebase (g : Group) (r t : Nat) (x : Word) : (vset g r t x).codebase = g.codebase := rfl
@[simp] theorem vset_fmt (g : Group) (r t : Nat) (x : Word) : (vset g r t x).fmt = g.fmt := rfl
@[simp] theorem vset_flags (g : Group) (r t : Nat) (x : Word) : (vset g r t x).flags = g.flags := rfl
@[simp] theorem vset_srs (g : Group) (r t : Nat) (x : Word) : (vset g r t x).srs = g.srs := rfl
@[simp] theorem vset_lclk (g : Group) (r t : Nat) (x : Word) : (vset g r t x).lclk = g.lclk := rfl
@[simp] theorem vset_rix (g : Group) (r t : Nat) (x : Word) : (vset g r t x).rix = g.rix := rfl
@[simp] theorem vset_xc (g : Group) (r t : Nat) (x : Word) : (vset g r t x).xc = g.xc := rfl
@[simp] theorem vset_xcv (g : Group) (r t : Nat) (x : Word) : (vset g r t x).xcv = g.xcv := rfl
@[simp] theorem vset_alo (g : Group) (r t : Nat) (x : Word) : (vset g r t x).alo = g.alo := rfl
@[simp] theorem vset_ahi (g : Group) (r t : Nat) (x : Word) : (vset g r t x).ahi = g.ahi := rfl
@[simp] theorem vset_astat (g : Group) (r t : Nat) (x : Word) : (vset g r t x).astat = g.astat := rfl
@[simp] theorem vset_aid (g : Group) (r t : Nat) (x : Word) : (vset g r t x).aid = g.aid := rfl
@[simp] theorem vset_rgn (g : Group) (r t : Nat) (x : Word) : (vset g r t x).rgn = g.rgn := rfl
@[simp] theorem vset_lmask (g : Group) (r t : Nat) (x : Word) : (vset g r t x).lmask = g.lmask := rfl
@[simp] theorem vset_pmask (g : Group) (r t : Nat) (x : Word) : (vset g r t x).pmask = g.pmask := rfl
@[simp] theorem vset_hmask (g : Group) (r t : Nat) (x : Word) : (vset g r t x).hmask = g.hmask := rfl
@[simp] theorem vset_st (g : Group) (r t : Nat) (x : Word) : (vset g r t x).st = g.st := rfl
@[simp] theorem vset_under (g : Group) (r t : Nat) (x : Word) : (vset g r t x).under = g.under := rfl
@[simp] theorem vset_barRaise (g : Group) (r t : Nat) (x : Word) : (vset g r t x).barRaise = g.barRaise := rfl
@[simp] theorem vset_ops (g : Group) (r t : Nat) (x : Word) : (vset g r t x).ops = g.ops := rfl
@[simp] theorem vset_nextOp (g : Group) (r t : Nat) (x : Word) : (vset g r t x).nextOp = g.nextOp := rfl
@[simp] theorem vset_due (g : Group) (r t : Nat) (x : Word) : (vset g r t x).due = g.due := rfl
@[simp] theorem vset_preempt (g : Group) (r t : Nat) (x : Word) : (vset g r t x).preempt = g.preempt := rfl
@[simp] theorem vset_holdReq (g : Group) (r t : Nat) (x : Word) : (vset g r t x).holdReq = g.holdReq := rfl
@[simp] theorem vset_stepReq (g : Group) (r t : Nat) (x : Word) : (vset g r t x).stepReq = g.stepReq := rfl
@[simp] theorem vset_bpSkip (g : Group) (r t : Nat) (x : Word) : (vset g r t x).bpSkip = g.bpSkip := rfl
@[simp] theorem vset_gPoison (g : Group) (r t : Nat) (x : Word) : (vset g r t x).gPoison = g.gPoison := rfl
@[simp] theorem vset_instret (g : Group) (r t : Nat) (x : Word) : (vset g r t x).instret = g.instret := rfl
@[simp] theorem vset_stall (g : Group) (r t : Nat) (x : Word) : (vset g r t x).stall = g.stall := rfl
@[simp] theorem vset_cycHi (g : Group) (r t : Nat) (x : Word) : (vset g r t x).cycHi = g.cycHi := rfl
@[simp] theorem vset_age (g : Group) (r t : Nat) (x : Word) : (vset g r t x).age = g.age := rfl
@[simp] theorem vset_req (g : Group) (r t : Nat) (x : Word) : (vset g r t x).req = g.req := rfl
@[simp] theorem vset_setF (g : Group) (r t : Nat) (x : Word) : (vset g r t x).setF = g.setF := rfl
@[simp] theorem vset_ticket (g : Group) (r t : Nat) (x : Word) : (vset g r t x).ticket = g.ticket := rfl
@[simp] theorem vset_gra (g : Group) (r t : Nat) (x : Word) : (vset g r t x).gra = g.gra := rfl
@[simp] theorem vset_restore (g : Group) (r t : Nat) (x : Word) : (vset g r t x).restore = g.restore := rfl
@[simp] theorem vset_susp (g : Group) (r t : Nat) (x : Word) : (vset g r t x).susp = g.susp := rfl
@[simp] theorem vset_steps (g : Group) (r t : Nat) (x : Word) : (vset g r t x).steps = g.steps := rfl
@[simp] theorem vset_stepNo (g : Group) (r t : Nat) (x : Word) : (vset g r t x).stepNo = g.stepNo := rfl
@[simp] theorem vset_drift (g : Group) (r t : Nat) (x : Word) : (vset g r t x).drift = g.drift := rfl
@[simp] theorem vset_walks (g : Group) (r t : Nat) (x : Word) : (vset g r t x).walks = g.walks := rfl
@[simp] theorem vset_mid (g : Group) (r t : Nat) (x : Word) : (vset g r t x).mid = g.mid := rfl
@[simp] theorem vset_tried (g : Group) (r t : Nat) (x : Word) : (vset g r t x).tried = g.tried := rfl
@[simp] theorem vset_sampled (g : Group) (r t : Nat) (x : Word) : (vset g r t x).sampled = g.sampled := rfl
@[simp] theorem vset_unsaved (g : Group) (r t : Nat) (x : Word) : (vset g r t x).unsaved = g.unsaved := rfl
@[simp] theorem vset_v (g : Group) (r t : Nat) (x : Word) : (vset g r t x).v = mput 0 g.v (r * 32 + t) x := rfl
@[simp] theorem vset_vPoison (g : Group) (r t : Nat) (x : Word) : (vset g r t x).vPoison = mdel g.vPoison (r * 32 + t) := rfl

/-! ## gset -/

@[simp] theorem gset_core (g : Group) (r : Nat) (x : Word) : (gset g r x).core = g.core := rfl
@[simp] theorem gset_slot (g : Group) (r : Nat) (x : Word) : (gset g r x).slot = g.slot := rfl
@[simp] theorem gset_seq (g : Group) (r : Nat) (x : Word) : (gset g r x).seq = g.seq := rfl
@[simp] theorem gset_part (g : Group) (r : Nat) (x : Word) : (gset g r x).part = g.part := rfl
@[simp] theorem gset_lane (g : Group) (r : Nat) (x : Word) : (gset g r x).lane = g.lane := rfl
@[simp] theorem gset_bound (g : Group) (r : Nat) (x : Word) : (gset g r x).bound = g.bound := rfl
@[simp] theorem gset_sup (g : Group) (r : Nat) (x : Word) : (gset g r x).sup = g.sup := rfl
@[simp] theorem gset_priv (g : Group) (r : Nat) (x : Word) : (gset g r x).priv = g.priv := rfl
@[simp] theorem gset_ctx (g : Group) (r : Nat) (x : Word) : (gset g r x).ctx = g.ctx := rfl
@[simp] theorem gset_blk (g : Group) (r : Nat) (x : Word) : (gset g r x).blk = g.blk := rfl
@[simp] theorem gset_grpib (g : Group) (r : Nat) (x : Word) : (gset g r x).grpib = g.grpib := rfl
@[simp] theorem gset_vb (g : Group) (r : Nat) (x : Word) : (gset g r x).vb = g.vb := rfl
@[simp] theorem gset_ub (g : Group) (r : Nat) (x : Word) : (gset g r x).ub = g.ub := rfl
@[simp] theorem gset_ab (g : Group) (r : Nat) (x : Word) : (gset g r x).ab = g.ab := rfl
@[simp] theorem gset_v (g : Group) (r : Nat) (x : Word) : (gset g r x).v = g.v := rfl
@[simp] theorem gset_m (g : Group) (r : Nat) (x : Word) : (gset g r x).m = g.m := rfl
@[simp] theorem gset_f (g : Group) (r : Nat) (x : Word) : (gset g r x).f = g.f := rfl
@[simp] theorem gset_w (g : Group) (r : Nat) (x : Word) : (gset g r x).w = g.w := rfl
@[simp] theorem gset_joins (g : Group) (r : Nat) (x : Word) : (gset g r x).joins = g.joins := rfl
@[simp] theorem gset_pc (g : Group) (r : Nat) (x : Word) : (gset g r x).pc = g.pc := rfl
@[simp] theorem gset_codebase (g : Group) (r : Nat) (x : Word) : (gset g r x).codebase = g.codebase := rfl
@[simp] theorem gset_fmt (g : Group) (r : Nat) (x : Word) : (gset g r x).fmt = g.fmt := rfl
@[simp] theorem gset_flags (g : Group) (r : Nat) (x : Word) : (gset g r x).flags = g.flags := rfl
@[simp] theorem gset_srs (g : Group) (r : Nat) (x : Word) : (gset g r x).srs = g.srs := rfl
@[simp] theorem gset_lclk (g : Group) (r : Nat) (x : Word) : (gset g r x).lclk = g.lclk := rfl
@[simp] theorem gset_rix (g : Group) (r : Nat) (x : Word) : (gset g r x).rix = g.rix := rfl
@[simp] theorem gset_xc (g : Group) (r : Nat) (x : Word) : (gset g r x).xc = g.xc := rfl
@[simp] theorem gset_xcv (g : Group) (r : Nat) (x : Word) : (gset g r x).xcv = g.xcv := rfl
@[simp] theorem gset_alo (g : Group) (r : Nat) (x : Word) : (gset g r x).alo = g.alo := rfl
@[simp] theorem gset_ahi (g : Group) (r : Nat) (x : Word) : (gset g r x).ahi = g.ahi := rfl
@[simp] theorem gset_astat (g : Group) (r : Nat) (x : Word) : (gset g r x).astat = g.astat := rfl
@[simp] theorem gset_aid (g : Group) (r : Nat) (x : Word) : (gset g r x).aid = g.aid := rfl
@[simp] theorem gset_rgn (g : Group) (r : Nat) (x : Word) : (gset g r x).rgn = g.rgn := rfl
@[simp] theorem gset_lmask (g : Group) (r : Nat) (x : Word) : (gset g r x).lmask = g.lmask := rfl
@[simp] theorem gset_pmask (g : Group) (r : Nat) (x : Word) : (gset g r x).pmask = g.pmask := rfl
@[simp] theorem gset_hmask (g : Group) (r : Nat) (x : Word) : (gset g r x).hmask = g.hmask := rfl
@[simp] theorem gset_st (g : Group) (r : Nat) (x : Word) : (gset g r x).st = g.st := rfl
@[simp] theorem gset_under (g : Group) (r : Nat) (x : Word) : (gset g r x).under = g.under := rfl
@[simp] theorem gset_barRaise (g : Group) (r : Nat) (x : Word) : (gset g r x).barRaise = g.barRaise := rfl
@[simp] theorem gset_ops (g : Group) (r : Nat) (x : Word) : (gset g r x).ops = g.ops := rfl
@[simp] theorem gset_nextOp (g : Group) (r : Nat) (x : Word) : (gset g r x).nextOp = g.nextOp := rfl
@[simp] theorem gset_due (g : Group) (r : Nat) (x : Word) : (gset g r x).due = g.due := rfl
@[simp] theorem gset_preempt (g : Group) (r : Nat) (x : Word) : (gset g r x).preempt = g.preempt := rfl
@[simp] theorem gset_holdReq (g : Group) (r : Nat) (x : Word) : (gset g r x).holdReq = g.holdReq := rfl
@[simp] theorem gset_stepReq (g : Group) (r : Nat) (x : Word) : (gset g r x).stepReq = g.stepReq := rfl
@[simp] theorem gset_bpSkip (g : Group) (r : Nat) (x : Word) : (gset g r x).bpSkip = g.bpSkip := rfl
@[simp] theorem gset_vPoison (g : Group) (r : Nat) (x : Word) : (gset g r x).vPoison = g.vPoison := rfl
@[simp] theorem gset_instret (g : Group) (r : Nat) (x : Word) : (gset g r x).instret = g.instret := rfl
@[simp] theorem gset_stall (g : Group) (r : Nat) (x : Word) : (gset g r x).stall = g.stall := rfl
@[simp] theorem gset_cycHi (g : Group) (r : Nat) (x : Word) : (gset g r x).cycHi = g.cycHi := rfl
@[simp] theorem gset_age (g : Group) (r : Nat) (x : Word) : (gset g r x).age = g.age := rfl
@[simp] theorem gset_req (g : Group) (r : Nat) (x : Word) : (gset g r x).req = g.req := rfl
@[simp] theorem gset_setF (g : Group) (r : Nat) (x : Word) : (gset g r x).setF = g.setF := rfl
@[simp] theorem gset_ticket (g : Group) (r : Nat) (x : Word) : (gset g r x).ticket = g.ticket := rfl
@[simp] theorem gset_gra (g : Group) (r : Nat) (x : Word) : (gset g r x).gra = g.gra := rfl
@[simp] theorem gset_restore (g : Group) (r : Nat) (x : Word) : (gset g r x).restore = g.restore := rfl
@[simp] theorem gset_susp (g : Group) (r : Nat) (x : Word) : (gset g r x).susp = g.susp := rfl
@[simp] theorem gset_steps (g : Group) (r : Nat) (x : Word) : (gset g r x).steps = g.steps := rfl
@[simp] theorem gset_stepNo (g : Group) (r : Nat) (x : Word) : (gset g r x).stepNo = g.stepNo := rfl
@[simp] theorem gset_drift (g : Group) (r : Nat) (x : Word) : (gset g r x).drift = g.drift := rfl
@[simp] theorem gset_walks (g : Group) (r : Nat) (x : Word) : (gset g r x).walks = g.walks := rfl
@[simp] theorem gset_mid (g : Group) (r : Nat) (x : Word) : (gset g r x).mid = g.mid := rfl
@[simp] theorem gset_tried (g : Group) (r : Nat) (x : Word) : (gset g r x).tried = g.tried := rfl
@[simp] theorem gset_sampled (g : Group) (r : Nat) (x : Word) : (gset g r x).sampled = g.sampled := rfl
@[simp] theorem gset_unsaved (g : Group) (r : Nat) (x : Word) : (gset g r x).unsaved = g.unsaved := rfl
@[simp] theorem gset_g (g : Group) (r : Nat) (x : Word) : (gset g r x).g = mput 0 g.g r x := rfl
@[simp] theorem gset_gPoison (g : Group) (r : Nat) (x : Word) : (gset g r x).gPoison = mdel g.gPoison r := rfl

/-! ## mwrite -/

@[simp] theorem mwrite_core (g : Group) (r : Nat) (x : Word) : (mwrite g r x).core = g.core := rfl
@[simp] theorem mwrite_slot (g : Group) (r : Nat) (x : Word) : (mwrite g r x).slot = g.slot := rfl
@[simp] theorem mwrite_seq (g : Group) (r : Nat) (x : Word) : (mwrite g r x).seq = g.seq := rfl
@[simp] theorem mwrite_part (g : Group) (r : Nat) (x : Word) : (mwrite g r x).part = g.part := rfl
@[simp] theorem mwrite_lane (g : Group) (r : Nat) (x : Word) : (mwrite g r x).lane = g.lane := rfl
@[simp] theorem mwrite_bound (g : Group) (r : Nat) (x : Word) : (mwrite g r x).bound = g.bound := rfl
@[simp] theorem mwrite_sup (g : Group) (r : Nat) (x : Word) : (mwrite g r x).sup = g.sup := rfl
@[simp] theorem mwrite_priv (g : Group) (r : Nat) (x : Word) : (mwrite g r x).priv = g.priv := rfl
@[simp] theorem mwrite_ctx (g : Group) (r : Nat) (x : Word) : (mwrite g r x).ctx = g.ctx := rfl
@[simp] theorem mwrite_blk (g : Group) (r : Nat) (x : Word) : (mwrite g r x).blk = g.blk := rfl
@[simp] theorem mwrite_grpib (g : Group) (r : Nat) (x : Word) : (mwrite g r x).grpib = g.grpib := rfl
@[simp] theorem mwrite_vb (g : Group) (r : Nat) (x : Word) : (mwrite g r x).vb = g.vb := rfl
@[simp] theorem mwrite_ub (g : Group) (r : Nat) (x : Word) : (mwrite g r x).ub = g.ub := rfl
@[simp] theorem mwrite_ab (g : Group) (r : Nat) (x : Word) : (mwrite g r x).ab = g.ab := rfl
@[simp] theorem mwrite_v (g : Group) (r : Nat) (x : Word) : (mwrite g r x).v = g.v := rfl
@[simp] theorem mwrite_g (g : Group) (r : Nat) (x : Word) : (mwrite g r x).g = g.g := rfl
@[simp] theorem mwrite_f (g : Group) (r : Nat) (x : Word) : (mwrite g r x).f = g.f := rfl
@[simp] theorem mwrite_w (g : Group) (r : Nat) (x : Word) : (mwrite g r x).w = g.w := rfl
@[simp] theorem mwrite_joins (g : Group) (r : Nat) (x : Word) : (mwrite g r x).joins = g.joins := rfl
@[simp] theorem mwrite_pc (g : Group) (r : Nat) (x : Word) : (mwrite g r x).pc = g.pc := rfl
@[simp] theorem mwrite_codebase (g : Group) (r : Nat) (x : Word) : (mwrite g r x).codebase = g.codebase := rfl
@[simp] theorem mwrite_fmt (g : Group) (r : Nat) (x : Word) : (mwrite g r x).fmt = g.fmt := rfl
@[simp] theorem mwrite_flags (g : Group) (r : Nat) (x : Word) : (mwrite g r x).flags = g.flags := rfl
@[simp] theorem mwrite_srs (g : Group) (r : Nat) (x : Word) : (mwrite g r x).srs = g.srs := rfl
@[simp] theorem mwrite_lclk (g : Group) (r : Nat) (x : Word) : (mwrite g r x).lclk = g.lclk := rfl
@[simp] theorem mwrite_rix (g : Group) (r : Nat) (x : Word) : (mwrite g r x).rix = g.rix := rfl
@[simp] theorem mwrite_xc (g : Group) (r : Nat) (x : Word) : (mwrite g r x).xc = g.xc := rfl
@[simp] theorem mwrite_xcv (g : Group) (r : Nat) (x : Word) : (mwrite g r x).xcv = g.xcv := rfl
@[simp] theorem mwrite_alo (g : Group) (r : Nat) (x : Word) : (mwrite g r x).alo = g.alo := rfl
@[simp] theorem mwrite_ahi (g : Group) (r : Nat) (x : Word) : (mwrite g r x).ahi = g.ahi := rfl
@[simp] theorem mwrite_astat (g : Group) (r : Nat) (x : Word) : (mwrite g r x).astat = g.astat := rfl
@[simp] theorem mwrite_aid (g : Group) (r : Nat) (x : Word) : (mwrite g r x).aid = g.aid := rfl
@[simp] theorem mwrite_rgn (g : Group) (r : Nat) (x : Word) : (mwrite g r x).rgn = g.rgn := rfl
@[simp] theorem mwrite_lmask (g : Group) (r : Nat) (x : Word) : (mwrite g r x).lmask = g.lmask := rfl
@[simp] theorem mwrite_pmask (g : Group) (r : Nat) (x : Word) : (mwrite g r x).pmask = g.pmask := rfl
@[simp] theorem mwrite_hmask (g : Group) (r : Nat) (x : Word) : (mwrite g r x).hmask = g.hmask := rfl
@[simp] theorem mwrite_st (g : Group) (r : Nat) (x : Word) : (mwrite g r x).st = g.st := rfl
@[simp] theorem mwrite_under (g : Group) (r : Nat) (x : Word) : (mwrite g r x).under = g.under := rfl
@[simp] theorem mwrite_barRaise (g : Group) (r : Nat) (x : Word) : (mwrite g r x).barRaise = g.barRaise := rfl
@[simp] theorem mwrite_ops (g : Group) (r : Nat) (x : Word) : (mwrite g r x).ops = g.ops := rfl
@[simp] theorem mwrite_nextOp (g : Group) (r : Nat) (x : Word) : (mwrite g r x).nextOp = g.nextOp := rfl
@[simp] theorem mwrite_due (g : Group) (r : Nat) (x : Word) : (mwrite g r x).due = g.due := rfl
@[simp] theorem mwrite_preempt (g : Group) (r : Nat) (x : Word) : (mwrite g r x).preempt = g.preempt := rfl
@[simp] theorem mwrite_holdReq (g : Group) (r : Nat) (x : Word) : (mwrite g r x).holdReq = g.holdReq := rfl
@[simp] theorem mwrite_stepReq (g : Group) (r : Nat) (x : Word) : (mwrite g r x).stepReq = g.stepReq := rfl
@[simp] theorem mwrite_bpSkip (g : Group) (r : Nat) (x : Word) : (mwrite g r x).bpSkip = g.bpSkip := rfl
@[simp] theorem mwrite_vPoison (g : Group) (r : Nat) (x : Word) : (mwrite g r x).vPoison = g.vPoison := rfl
@[simp] theorem mwrite_gPoison (g : Group) (r : Nat) (x : Word) : (mwrite g r x).gPoison = g.gPoison := rfl
@[simp] theorem mwrite_instret (g : Group) (r : Nat) (x : Word) : (mwrite g r x).instret = g.instret := rfl
@[simp] theorem mwrite_stall (g : Group) (r : Nat) (x : Word) : (mwrite g r x).stall = g.stall := rfl
@[simp] theorem mwrite_cycHi (g : Group) (r : Nat) (x : Word) : (mwrite g r x).cycHi = g.cycHi := rfl
@[simp] theorem mwrite_age (g : Group) (r : Nat) (x : Word) : (mwrite g r x).age = g.age := rfl
@[simp] theorem mwrite_req (g : Group) (r : Nat) (x : Word) : (mwrite g r x).req = g.req := rfl
@[simp] theorem mwrite_setF (g : Group) (r : Nat) (x : Word) : (mwrite g r x).setF = g.setF := rfl
@[simp] theorem mwrite_ticket (g : Group) (r : Nat) (x : Word) : (mwrite g r x).ticket = g.ticket := rfl
@[simp] theorem mwrite_gra (g : Group) (r : Nat) (x : Word) : (mwrite g r x).gra = g.gra := rfl
@[simp] theorem mwrite_restore (g : Group) (r : Nat) (x : Word) : (mwrite g r x).restore = g.restore := rfl
@[simp] theorem mwrite_susp (g : Group) (r : Nat) (x : Word) : (mwrite g r x).susp = g.susp := rfl
@[simp] theorem mwrite_steps (g : Group) (r : Nat) (x : Word) : (mwrite g r x).steps = g.steps := rfl
@[simp] theorem mwrite_stepNo (g : Group) (r : Nat) (x : Word) : (mwrite g r x).stepNo = g.stepNo := rfl
@[simp] theorem mwrite_drift (g : Group) (r : Nat) (x : Word) : (mwrite g r x).drift = g.drift := rfl
@[simp] theorem mwrite_walks (g : Group) (r : Nat) (x : Word) : (mwrite g r x).walks = g.walks := rfl
@[simp] theorem mwrite_mid (g : Group) (r : Nat) (x : Word) : (mwrite g r x).mid = g.mid := rfl
@[simp] theorem mwrite_tried (g : Group) (r : Nat) (x : Word) : (mwrite g r x).tried = g.tried := rfl
@[simp] theorem mwrite_sampled (g : Group) (r : Nat) (x : Word) : (mwrite g r x).sampled = g.sampled := rfl
@[simp] theorem mwrite_unsaved (g : Group) (r : Nat) (x : Word) : (mwrite g r x).unsaved = g.unsaved := rfl
@[simp] theorem mwrite_m (g : Group) (r : Nat) (x : Word) : (mwrite g r x).m = mput 0 g.m r x := rfl

/-! ## fset -/

@[simp] theorem fset_core (g : Group) (r : Nat) (b : Bool) : (fset g r b).core = g.core := rfl
@[simp] theorem fset_slot (g : Group) (r : Nat) (b : Bool) : (fset g r b).slot = g.slot := rfl
@[simp] theorem fset_seq (g : Group) (r : Nat) (b : Bool) : (fset g r b).seq = g.seq := rfl
@[simp] theorem fset_part (g : Group) (r : Nat) (b : Bool) : (fset g r b).part = g.part := rfl
@[simp] theorem fset_lane (g : Group) (r : Nat) (b : Bool) : (fset g r b).lane = g.lane := rfl
@[simp] theorem fset_bound (g : Group) (r : Nat) (b : Bool) : (fset g r b).bound = g.bound := rfl
@[simp] theorem fset_sup (g : Group) (r : Nat) (b : Bool) : (fset g r b).sup = g.sup := rfl
@[simp] theorem fset_priv (g : Group) (r : Nat) (b : Bool) : (fset g r b).priv = g.priv := rfl
@[simp] theorem fset_ctx (g : Group) (r : Nat) (b : Bool) : (fset g r b).ctx = g.ctx := rfl
@[simp] theorem fset_blk (g : Group) (r : Nat) (b : Bool) : (fset g r b).blk = g.blk := rfl
@[simp] theorem fset_grpib (g : Group) (r : Nat) (b : Bool) : (fset g r b).grpib = g.grpib := rfl
@[simp] theorem fset_vb (g : Group) (r : Nat) (b : Bool) : (fset g r b).vb = g.vb := rfl
@[simp] theorem fset_ub (g : Group) (r : Nat) (b : Bool) : (fset g r b).ub = g.ub := rfl
@[simp] theorem fset_ab (g : Group) (r : Nat) (b : Bool) : (fset g r b).ab = g.ab := rfl
@[simp] theorem fset_v (g : Group) (r : Nat) (b : Bool) : (fset g r b).v = g.v := rfl
@[simp] theorem fset_g (g : Group) (r : Nat) (b : Bool) : (fset g r b).g = g.g := rfl
@[simp] theorem fset_m (g : Group) (r : Nat) (b : Bool) : (fset g r b).m = g.m := rfl
@[simp] theorem fset_w (g : Group) (r : Nat) (b : Bool) : (fset g r b).w = g.w := rfl
@[simp] theorem fset_joins (g : Group) (r : Nat) (b : Bool) : (fset g r b).joins = g.joins := rfl
@[simp] theorem fset_pc (g : Group) (r : Nat) (b : Bool) : (fset g r b).pc = g.pc := rfl
@[simp] theorem fset_codebase (g : Group) (r : Nat) (b : Bool) : (fset g r b).codebase = g.codebase := rfl
@[simp] theorem fset_fmt (g : Group) (r : Nat) (b : Bool) : (fset g r b).fmt = g.fmt := rfl
@[simp] theorem fset_flags (g : Group) (r : Nat) (b : Bool) : (fset g r b).flags = g.flags := rfl
@[simp] theorem fset_srs (g : Group) (r : Nat) (b : Bool) : (fset g r b).srs = g.srs := rfl
@[simp] theorem fset_lclk (g : Group) (r : Nat) (b : Bool) : (fset g r b).lclk = g.lclk := rfl
@[simp] theorem fset_rix (g : Group) (r : Nat) (b : Bool) : (fset g r b).rix = g.rix := rfl
@[simp] theorem fset_xc (g : Group) (r : Nat) (b : Bool) : (fset g r b).xc = g.xc := rfl
@[simp] theorem fset_xcv (g : Group) (r : Nat) (b : Bool) : (fset g r b).xcv = g.xcv := rfl
@[simp] theorem fset_alo (g : Group) (r : Nat) (b : Bool) : (fset g r b).alo = g.alo := rfl
@[simp] theorem fset_ahi (g : Group) (r : Nat) (b : Bool) : (fset g r b).ahi = g.ahi := rfl
@[simp] theorem fset_astat (g : Group) (r : Nat) (b : Bool) : (fset g r b).astat = g.astat := rfl
@[simp] theorem fset_aid (g : Group) (r : Nat) (b : Bool) : (fset g r b).aid = g.aid := rfl
@[simp] theorem fset_rgn (g : Group) (r : Nat) (b : Bool) : (fset g r b).rgn = g.rgn := rfl
@[simp] theorem fset_lmask (g : Group) (r : Nat) (b : Bool) : (fset g r b).lmask = g.lmask := rfl
@[simp] theorem fset_pmask (g : Group) (r : Nat) (b : Bool) : (fset g r b).pmask = g.pmask := rfl
@[simp] theorem fset_hmask (g : Group) (r : Nat) (b : Bool) : (fset g r b).hmask = g.hmask := rfl
@[simp] theorem fset_st (g : Group) (r : Nat) (b : Bool) : (fset g r b).st = g.st := rfl
@[simp] theorem fset_under (g : Group) (r : Nat) (b : Bool) : (fset g r b).under = g.under := rfl
@[simp] theorem fset_barRaise (g : Group) (r : Nat) (b : Bool) : (fset g r b).barRaise = g.barRaise := rfl
@[simp] theorem fset_ops (g : Group) (r : Nat) (b : Bool) : (fset g r b).ops = g.ops := rfl
@[simp] theorem fset_nextOp (g : Group) (r : Nat) (b : Bool) : (fset g r b).nextOp = g.nextOp := rfl
@[simp] theorem fset_due (g : Group) (r : Nat) (b : Bool) : (fset g r b).due = g.due := rfl
@[simp] theorem fset_preempt (g : Group) (r : Nat) (b : Bool) : (fset g r b).preempt = g.preempt := rfl
@[simp] theorem fset_holdReq (g : Group) (r : Nat) (b : Bool) : (fset g r b).holdReq = g.holdReq := rfl
@[simp] theorem fset_stepReq (g : Group) (r : Nat) (b : Bool) : (fset g r b).stepReq = g.stepReq := rfl
@[simp] theorem fset_bpSkip (g : Group) (r : Nat) (b : Bool) : (fset g r b).bpSkip = g.bpSkip := rfl
@[simp] theorem fset_vPoison (g : Group) (r : Nat) (b : Bool) : (fset g r b).vPoison = g.vPoison := rfl
@[simp] theorem fset_gPoison (g : Group) (r : Nat) (b : Bool) : (fset g r b).gPoison = g.gPoison := rfl
@[simp] theorem fset_instret (g : Group) (r : Nat) (b : Bool) : (fset g r b).instret = g.instret := rfl
@[simp] theorem fset_stall (g : Group) (r : Nat) (b : Bool) : (fset g r b).stall = g.stall := rfl
@[simp] theorem fset_cycHi (g : Group) (r : Nat) (b : Bool) : (fset g r b).cycHi = g.cycHi := rfl
@[simp] theorem fset_age (g : Group) (r : Nat) (b : Bool) : (fset g r b).age = g.age := rfl
@[simp] theorem fset_req (g : Group) (r : Nat) (b : Bool) : (fset g r b).req = g.req := rfl
@[simp] theorem fset_setF (g : Group) (r : Nat) (b : Bool) : (fset g r b).setF = g.setF := rfl
@[simp] theorem fset_ticket (g : Group) (r : Nat) (b : Bool) : (fset g r b).ticket = g.ticket := rfl
@[simp] theorem fset_gra (g : Group) (r : Nat) (b : Bool) : (fset g r b).gra = g.gra := rfl
@[simp] theorem fset_restore (g : Group) (r : Nat) (b : Bool) : (fset g r b).restore = g.restore := rfl
@[simp] theorem fset_susp (g : Group) (r : Nat) (b : Bool) : (fset g r b).susp = g.susp := rfl
@[simp] theorem fset_steps (g : Group) (r : Nat) (b : Bool) : (fset g r b).steps = g.steps := rfl
@[simp] theorem fset_stepNo (g : Group) (r : Nat) (b : Bool) : (fset g r b).stepNo = g.stepNo := rfl
@[simp] theorem fset_drift (g : Group) (r : Nat) (b : Bool) : (fset g r b).drift = g.drift := rfl
@[simp] theorem fset_walks (g : Group) (r : Nat) (b : Bool) : (fset g r b).walks = g.walks := rfl
@[simp] theorem fset_mid (g : Group) (r : Nat) (b : Bool) : (fset g r b).mid = g.mid := rfl
@[simp] theorem fset_tried (g : Group) (r : Nat) (b : Bool) : (fset g r b).tried = g.tried := rfl
@[simp] theorem fset_sampled (g : Group) (r : Nat) (b : Bool) : (fset g r b).sampled = g.sampled := rfl
@[simp] theorem fset_unsaved (g : Group) (r : Nat) (b : Bool) : (fset g r b).unsaved = g.unsaved := rfl

/-! ## wInc -/

@[simp] theorem wInc_core (g : Group) (w : Nat) : (wInc g w).core = g.core := rfl
@[simp] theorem wInc_slot (g : Group) (w : Nat) : (wInc g w).slot = g.slot := rfl
@[simp] theorem wInc_seq (g : Group) (w : Nat) : (wInc g w).seq = g.seq := rfl
@[simp] theorem wInc_part (g : Group) (w : Nat) : (wInc g w).part = g.part := rfl
@[simp] theorem wInc_lane (g : Group) (w : Nat) : (wInc g w).lane = g.lane := rfl
@[simp] theorem wInc_bound (g : Group) (w : Nat) : (wInc g w).bound = g.bound := rfl
@[simp] theorem wInc_sup (g : Group) (w : Nat) : (wInc g w).sup = g.sup := rfl
@[simp] theorem wInc_priv (g : Group) (w : Nat) : (wInc g w).priv = g.priv := rfl
@[simp] theorem wInc_ctx (g : Group) (w : Nat) : (wInc g w).ctx = g.ctx := rfl
@[simp] theorem wInc_blk (g : Group) (w : Nat) : (wInc g w).blk = g.blk := rfl
@[simp] theorem wInc_grpib (g : Group) (w : Nat) : (wInc g w).grpib = g.grpib := rfl
@[simp] theorem wInc_vb (g : Group) (w : Nat) : (wInc g w).vb = g.vb := rfl
@[simp] theorem wInc_ub (g : Group) (w : Nat) : (wInc g w).ub = g.ub := rfl
@[simp] theorem wInc_ab (g : Group) (w : Nat) : (wInc g w).ab = g.ab := rfl
@[simp] theorem wInc_v (g : Group) (w : Nat) : (wInc g w).v = g.v := rfl
@[simp] theorem wInc_g (g : Group) (w : Nat) : (wInc g w).g = g.g := rfl
@[simp] theorem wInc_m (g : Group) (w : Nat) : (wInc g w).m = g.m := rfl
@[simp] theorem wInc_f (g : Group) (w : Nat) : (wInc g w).f = g.f := rfl
@[simp] theorem wInc_joins (g : Group) (w : Nat) : (wInc g w).joins = g.joins := rfl
@[simp] theorem wInc_pc (g : Group) (w : Nat) : (wInc g w).pc = g.pc := rfl
@[simp] theorem wInc_codebase (g : Group) (w : Nat) : (wInc g w).codebase = g.codebase := rfl
@[simp] theorem wInc_fmt (g : Group) (w : Nat) : (wInc g w).fmt = g.fmt := rfl
@[simp] theorem wInc_flags (g : Group) (w : Nat) : (wInc g w).flags = g.flags := rfl
@[simp] theorem wInc_srs (g : Group) (w : Nat) : (wInc g w).srs = g.srs := rfl
@[simp] theorem wInc_lclk (g : Group) (w : Nat) : (wInc g w).lclk = g.lclk := rfl
@[simp] theorem wInc_rix (g : Group) (w : Nat) : (wInc g w).rix = g.rix := rfl
@[simp] theorem wInc_xc (g : Group) (w : Nat) : (wInc g w).xc = g.xc := rfl
@[simp] theorem wInc_xcv (g : Group) (w : Nat) : (wInc g w).xcv = g.xcv := rfl
@[simp] theorem wInc_alo (g : Group) (w : Nat) : (wInc g w).alo = g.alo := rfl
@[simp] theorem wInc_ahi (g : Group) (w : Nat) : (wInc g w).ahi = g.ahi := rfl
@[simp] theorem wInc_astat (g : Group) (w : Nat) : (wInc g w).astat = g.astat := rfl
@[simp] theorem wInc_aid (g : Group) (w : Nat) : (wInc g w).aid = g.aid := rfl
@[simp] theorem wInc_rgn (g : Group) (w : Nat) : (wInc g w).rgn = g.rgn := rfl
@[simp] theorem wInc_lmask (g : Group) (w : Nat) : (wInc g w).lmask = g.lmask := rfl
@[simp] theorem wInc_pmask (g : Group) (w : Nat) : (wInc g w).pmask = g.pmask := rfl
@[simp] theorem wInc_hmask (g : Group) (w : Nat) : (wInc g w).hmask = g.hmask := rfl
@[simp] theorem wInc_st (g : Group) (w : Nat) : (wInc g w).st = g.st := rfl
@[simp] theorem wInc_under (g : Group) (w : Nat) : (wInc g w).under = g.under := rfl
@[simp] theorem wInc_barRaise (g : Group) (w : Nat) : (wInc g w).barRaise = g.barRaise := rfl
@[simp] theorem wInc_ops (g : Group) (w : Nat) : (wInc g w).ops = g.ops := rfl
@[simp] theorem wInc_nextOp (g : Group) (w : Nat) : (wInc g w).nextOp = g.nextOp := rfl
@[simp] theorem wInc_due (g : Group) (w : Nat) : (wInc g w).due = g.due := rfl
@[simp] theorem wInc_preempt (g : Group) (w : Nat) : (wInc g w).preempt = g.preempt := rfl
@[simp] theorem wInc_holdReq (g : Group) (w : Nat) : (wInc g w).holdReq = g.holdReq := rfl
@[simp] theorem wInc_stepReq (g : Group) (w : Nat) : (wInc g w).stepReq = g.stepReq := rfl
@[simp] theorem wInc_bpSkip (g : Group) (w : Nat) : (wInc g w).bpSkip = g.bpSkip := rfl
@[simp] theorem wInc_vPoison (g : Group) (w : Nat) : (wInc g w).vPoison = g.vPoison := rfl
@[simp] theorem wInc_gPoison (g : Group) (w : Nat) : (wInc g w).gPoison = g.gPoison := rfl
@[simp] theorem wInc_instret (g : Group) (w : Nat) : (wInc g w).instret = g.instret := rfl
@[simp] theorem wInc_stall (g : Group) (w : Nat) : (wInc g w).stall = g.stall := rfl
@[simp] theorem wInc_cycHi (g : Group) (w : Nat) : (wInc g w).cycHi = g.cycHi := rfl
@[simp] theorem wInc_age (g : Group) (w : Nat) : (wInc g w).age = g.age := rfl
@[simp] theorem wInc_req (g : Group) (w : Nat) : (wInc g w).req = g.req := rfl
@[simp] theorem wInc_setF (g : Group) (w : Nat) : (wInc g w).setF = g.setF := rfl
@[simp] theorem wInc_ticket (g : Group) (w : Nat) : (wInc g w).ticket = g.ticket := rfl
@[simp] theorem wInc_gra (g : Group) (w : Nat) : (wInc g w).gra = g.gra := rfl
@[simp] theorem wInc_restore (g : Group) (w : Nat) : (wInc g w).restore = g.restore := rfl
@[simp] theorem wInc_susp (g : Group) (w : Nat) : (wInc g w).susp = g.susp := rfl
@[simp] theorem wInc_steps (g : Group) (w : Nat) : (wInc g w).steps = g.steps := rfl
@[simp] theorem wInc_stepNo (g : Group) (w : Nat) : (wInc g w).stepNo = g.stepNo := rfl
@[simp] theorem wInc_drift (g : Group) (w : Nat) : (wInc g w).drift = g.drift := rfl
@[simp] theorem wInc_walks (g : Group) (w : Nat) : (wInc g w).walks = g.walks := rfl
@[simp] theorem wInc_mid (g : Group) (w : Nat) : (wInc g w).mid = g.mid := rfl
@[simp] theorem wInc_tried (g : Group) (w : Nat) : (wInc g w).tried = g.tried := rfl
@[simp] theorem wInc_sampled (g : Group) (w : Nat) : (wInc g w).sampled = g.sampled := rfl
@[simp] theorem wInc_unsaved (g : Group) (w : Nat) : (wInc g w).unsaved = g.unsaved := rfl
@[simp] theorem wInc_w (g : Group) (w : Nat) : (wInc g w).w = mput 0 g.w w (wget g w + 1) := rfl

/-! ## wDec -/

@[simp] theorem wDec_core (g : Group) (w : Nat) : (wDec g w).core = g.core := rfl
@[simp] theorem wDec_slot (g : Group) (w : Nat) : (wDec g w).slot = g.slot := rfl
@[simp] theorem wDec_seq (g : Group) (w : Nat) : (wDec g w).seq = g.seq := rfl
@[simp] theorem wDec_part (g : Group) (w : Nat) : (wDec g w).part = g.part := rfl
@[simp] theorem wDec_lane (g : Group) (w : Nat) : (wDec g w).lane = g.lane := rfl
@[simp] theorem wDec_bound (g : Group) (w : Nat) : (wDec g w).bound = g.bound := rfl
@[simp] theorem wDec_sup (g : Group) (w : Nat) : (wDec g w).sup = g.sup := rfl
@[simp] theorem wDec_priv (g : Group) (w : Nat) : (wDec g w).priv = g.priv := rfl
@[simp] theorem wDec_ctx (g : Group) (w : Nat) : (wDec g w).ctx = g.ctx := rfl
@[simp] theorem wDec_blk (g : Group) (w : Nat) : (wDec g w).blk = g.blk := rfl
@[simp] theorem wDec_grpib (g : Group) (w : Nat) : (wDec g w).grpib = g.grpib := rfl
@[simp] theorem wDec_vb (g : Group) (w : Nat) : (wDec g w).vb = g.vb := rfl
@[simp] theorem wDec_ub (g : Group) (w : Nat) : (wDec g w).ub = g.ub := rfl
@[simp] theorem wDec_ab (g : Group) (w : Nat) : (wDec g w).ab = g.ab := rfl
@[simp] theorem wDec_v (g : Group) (w : Nat) : (wDec g w).v = g.v := rfl
@[simp] theorem wDec_g (g : Group) (w : Nat) : (wDec g w).g = g.g := rfl
@[simp] theorem wDec_m (g : Group) (w : Nat) : (wDec g w).m = g.m := rfl
@[simp] theorem wDec_f (g : Group) (w : Nat) : (wDec g w).f = g.f := rfl
@[simp] theorem wDec_joins (g : Group) (w : Nat) : (wDec g w).joins = g.joins := rfl
@[simp] theorem wDec_pc (g : Group) (w : Nat) : (wDec g w).pc = g.pc := rfl
@[simp] theorem wDec_codebase (g : Group) (w : Nat) : (wDec g w).codebase = g.codebase := rfl
@[simp] theorem wDec_fmt (g : Group) (w : Nat) : (wDec g w).fmt = g.fmt := rfl
@[simp] theorem wDec_flags (g : Group) (w : Nat) : (wDec g w).flags = g.flags := rfl
@[simp] theorem wDec_srs (g : Group) (w : Nat) : (wDec g w).srs = g.srs := rfl
@[simp] theorem wDec_lclk (g : Group) (w : Nat) : (wDec g w).lclk = g.lclk := rfl
@[simp] theorem wDec_rix (g : Group) (w : Nat) : (wDec g w).rix = g.rix := rfl
@[simp] theorem wDec_xc (g : Group) (w : Nat) : (wDec g w).xc = g.xc := rfl
@[simp] theorem wDec_xcv (g : Group) (w : Nat) : (wDec g w).xcv = g.xcv := rfl
@[simp] theorem wDec_alo (g : Group) (w : Nat) : (wDec g w).alo = g.alo := rfl
@[simp] theorem wDec_ahi (g : Group) (w : Nat) : (wDec g w).ahi = g.ahi := rfl
@[simp] theorem wDec_astat (g : Group) (w : Nat) : (wDec g w).astat = g.astat := rfl
@[simp] theorem wDec_aid (g : Group) (w : Nat) : (wDec g w).aid = g.aid := rfl
@[simp] theorem wDec_rgn (g : Group) (w : Nat) : (wDec g w).rgn = g.rgn := rfl
@[simp] theorem wDec_lmask (g : Group) (w : Nat) : (wDec g w).lmask = g.lmask := rfl
@[simp] theorem wDec_pmask (g : Group) (w : Nat) : (wDec g w).pmask = g.pmask := rfl
@[simp] theorem wDec_hmask (g : Group) (w : Nat) : (wDec g w).hmask = g.hmask := rfl
@[simp] theorem wDec_st (g : Group) (w : Nat) : (wDec g w).st = g.st := rfl
@[simp] theorem wDec_under (g : Group) (w : Nat) : (wDec g w).under = g.under := rfl
@[simp] theorem wDec_barRaise (g : Group) (w : Nat) : (wDec g w).barRaise = g.barRaise := rfl
@[simp] theorem wDec_ops (g : Group) (w : Nat) : (wDec g w).ops = g.ops := rfl
@[simp] theorem wDec_nextOp (g : Group) (w : Nat) : (wDec g w).nextOp = g.nextOp := rfl
@[simp] theorem wDec_due (g : Group) (w : Nat) : (wDec g w).due = g.due := rfl
@[simp] theorem wDec_preempt (g : Group) (w : Nat) : (wDec g w).preempt = g.preempt := rfl
@[simp] theorem wDec_holdReq (g : Group) (w : Nat) : (wDec g w).holdReq = g.holdReq := rfl
@[simp] theorem wDec_stepReq (g : Group) (w : Nat) : (wDec g w).stepReq = g.stepReq := rfl
@[simp] theorem wDec_bpSkip (g : Group) (w : Nat) : (wDec g w).bpSkip = g.bpSkip := rfl
@[simp] theorem wDec_vPoison (g : Group) (w : Nat) : (wDec g w).vPoison = g.vPoison := rfl
@[simp] theorem wDec_gPoison (g : Group) (w : Nat) : (wDec g w).gPoison = g.gPoison := rfl
@[simp] theorem wDec_instret (g : Group) (w : Nat) : (wDec g w).instret = g.instret := rfl
@[simp] theorem wDec_stall (g : Group) (w : Nat) : (wDec g w).stall = g.stall := rfl
@[simp] theorem wDec_cycHi (g : Group) (w : Nat) : (wDec g w).cycHi = g.cycHi := rfl
@[simp] theorem wDec_age (g : Group) (w : Nat) : (wDec g w).age = g.age := rfl
@[simp] theorem wDec_req (g : Group) (w : Nat) : (wDec g w).req = g.req := rfl
@[simp] theorem wDec_setF (g : Group) (w : Nat) : (wDec g w).setF = g.setF := rfl
@[simp] theorem wDec_ticket (g : Group) (w : Nat) : (wDec g w).ticket = g.ticket := rfl
@[simp] theorem wDec_gra (g : Group) (w : Nat) : (wDec g w).gra = g.gra := rfl
@[simp] theorem wDec_restore (g : Group) (w : Nat) : (wDec g w).restore = g.restore := rfl
@[simp] theorem wDec_susp (g : Group) (w : Nat) : (wDec g w).susp = g.susp := rfl
@[simp] theorem wDec_steps (g : Group) (w : Nat) : (wDec g w).steps = g.steps := rfl
@[simp] theorem wDec_stepNo (g : Group) (w : Nat) : (wDec g w).stepNo = g.stepNo := rfl
@[simp] theorem wDec_drift (g : Group) (w : Nat) : (wDec g w).drift = g.drift := rfl
@[simp] theorem wDec_walks (g : Group) (w : Nat) : (wDec g w).walks = g.walks := rfl
@[simp] theorem wDec_mid (g : Group) (w : Nat) : (wDec g w).mid = g.mid := rfl
@[simp] theorem wDec_tried (g : Group) (w : Nat) : (wDec g w).tried = g.tried := rfl
@[simp] theorem wDec_sampled (g : Group) (w : Nat) : (wDec g w).sampled = g.sampled := rfl
@[simp] theorem wDec_unsaved (g : Group) (w : Nat) : (wDec g w).unsaved = g.unsaved := rfl
@[simp] theorem wDec_w (g : Group) (w : Nat) : (wDec g w).w = mput 0 g.w w (wget g w - 1) := rfl

/-! ## commit -/

@[simp] theorem commit_core (g : Group) (e : Eff) : (commit g e).core = g.core := rfl
@[simp] theorem commit_slot (g : Group) (e : Eff) : (commit g e).slot = g.slot := rfl
@[simp] theorem commit_seq (g : Group) (e : Eff) : (commit g e).seq = g.seq := rfl
@[simp] theorem commit_part (g : Group) (e : Eff) : (commit g e).part = g.part := rfl
@[simp] theorem commit_lane (g : Group) (e : Eff) : (commit g e).lane = g.lane := rfl
@[simp] theorem commit_bound (g : Group) (e : Eff) : (commit g e).bound = g.bound := rfl
@[simp] theorem commit_sup (g : Group) (e : Eff) : (commit g e).sup = g.sup := rfl
@[simp] theorem commit_priv (g : Group) (e : Eff) : (commit g e).priv = g.priv := rfl
@[simp] theorem commit_ctx (g : Group) (e : Eff) : (commit g e).ctx = g.ctx := rfl
@[simp] theorem commit_blk (g : Group) (e : Eff) : (commit g e).blk = g.blk := rfl
@[simp] theorem commit_grpib (g : Group) (e : Eff) : (commit g e).grpib = g.grpib := rfl
@[simp] theorem commit_vb (g : Group) (e : Eff) : (commit g e).vb = g.vb := rfl
@[simp] theorem commit_ub (g : Group) (e : Eff) : (commit g e).ub = g.ub := rfl
@[simp] theorem commit_ab (g : Group) (e : Eff) : (commit g e).ab = g.ab := rfl
@[simp] theorem commit_v (g : Group) (e : Eff) : (commit g e).v = g.v := rfl
@[simp] theorem commit_g (g : Group) (e : Eff) : (commit g e).g = g.g := rfl
@[simp] theorem commit_m (g : Group) (e : Eff) : (commit g e).m = g.m := rfl
@[simp] theorem commit_f (g : Group) (e : Eff) : (commit g e).f = g.f := rfl
@[simp] theorem commit_w (g : Group) (e : Eff) : (commit g e).w = g.w := rfl
@[simp] theorem commit_joins (g : Group) (e : Eff) : (commit g e).joins = g.joins := rfl
@[simp] theorem commit_pc (g : Group) (e : Eff) : (commit g e).pc = g.pc := rfl
@[simp] theorem commit_codebase (g : Group) (e : Eff) : (commit g e).codebase = g.codebase := rfl
@[simp] theorem commit_fmt (g : Group) (e : Eff) : (commit g e).fmt = g.fmt := rfl
@[simp] theorem commit_lclk (g : Group) (e : Eff) : (commit g e).lclk = g.lclk := rfl
@[simp] theorem commit_rix (g : Group) (e : Eff) : (commit g e).rix = g.rix := rfl
@[simp] theorem commit_xc (g : Group) (e : Eff) : (commit g e).xc = g.xc := rfl
@[simp] theorem commit_xcv (g : Group) (e : Eff) : (commit g e).xcv = g.xcv := rfl
@[simp] theorem commit_alo (g : Group) (e : Eff) : (commit g e).alo = g.alo := rfl
@[simp] theorem commit_ahi (g : Group) (e : Eff) : (commit g e).ahi = g.ahi := rfl
@[simp] theorem commit_astat (g : Group) (e : Eff) : (commit g e).astat = g.astat := rfl
@[simp] theorem commit_aid (g : Group) (e : Eff) : (commit g e).aid = g.aid := rfl
@[simp] theorem commit_rgn (g : Group) (e : Eff) : (commit g e).rgn = g.rgn := rfl
@[simp] theorem commit_lmask (g : Group) (e : Eff) : (commit g e).lmask = g.lmask := rfl
@[simp] theorem commit_pmask (g : Group) (e : Eff) : (commit g e).pmask = g.pmask := rfl
@[simp] theorem commit_hmask (g : Group) (e : Eff) : (commit g e).hmask = g.hmask := rfl
@[simp] theorem commit_st (g : Group) (e : Eff) : (commit g e).st = g.st := rfl
@[simp] theorem commit_under (g : Group) (e : Eff) : (commit g e).under = g.under := rfl
@[simp] theorem commit_barRaise (g : Group) (e : Eff) : (commit g e).barRaise = g.barRaise := rfl
@[simp] theorem commit_ops (g : Group) (e : Eff) : (commit g e).ops = g.ops := rfl
@[simp] theorem commit_nextOp (g : Group) (e : Eff) : (commit g e).nextOp = g.nextOp := rfl
@[simp] theorem commit_due (g : Group) (e : Eff) : (commit g e).due = g.due := rfl
@[simp] theorem commit_preempt (g : Group) (e : Eff) : (commit g e).preempt = g.preempt := rfl
@[simp] theorem commit_holdReq (g : Group) (e : Eff) : (commit g e).holdReq = g.holdReq := rfl
@[simp] theorem commit_stepReq (g : Group) (e : Eff) : (commit g e).stepReq = g.stepReq := rfl
@[simp] theorem commit_bpSkip (g : Group) (e : Eff) : (commit g e).bpSkip = g.bpSkip := rfl
@[simp] theorem commit_vPoison (g : Group) (e : Eff) : (commit g e).vPoison = g.vPoison := rfl
@[simp] theorem commit_gPoison (g : Group) (e : Eff) : (commit g e).gPoison = g.gPoison := rfl
@[simp] theorem commit_instret (g : Group) (e : Eff) : (commit g e).instret = g.instret := rfl
@[simp] theorem commit_stall (g : Group) (e : Eff) : (commit g e).stall = g.stall := rfl
@[simp] theorem commit_cycHi (g : Group) (e : Eff) : (commit g e).cycHi = g.cycHi := rfl
@[simp] theorem commit_age (g : Group) (e : Eff) : (commit g e).age = g.age := rfl
@[simp] theorem commit_req (g : Group) (e : Eff) : (commit g e).req = g.req := rfl
@[simp] theorem commit_setF (g : Group) (e : Eff) : (commit g e).setF = g.setF := rfl
@[simp] theorem commit_ticket (g : Group) (e : Eff) : (commit g e).ticket = g.ticket := rfl
@[simp] theorem commit_gra (g : Group) (e : Eff) : (commit g e).gra = g.gra := rfl
@[simp] theorem commit_restore (g : Group) (e : Eff) : (commit g e).restore = g.restore := rfl
@[simp] theorem commit_susp (g : Group) (e : Eff) : (commit g e).susp = g.susp := rfl
@[simp] theorem commit_steps (g : Group) (e : Eff) : (commit g e).steps = g.steps := rfl
@[simp] theorem commit_stepNo (g : Group) (e : Eff) : (commit g e).stepNo = g.stepNo := rfl
@[simp] theorem commit_drift (g : Group) (e : Eff) : (commit g e).drift = g.drift := rfl
@[simp] theorem commit_walks (g : Group) (e : Eff) : (commit g e).walks = g.walks := rfl
@[simp] theorem commit_mid (g : Group) (e : Eff) : (commit g e).mid = g.mid := rfl
@[simp] theorem commit_tried (g : Group) (e : Eff) : (commit g e).tried = g.tried := rfl
@[simp] theorem commit_sampled (g : Group) (e : Eff) : (commit g e).sampled = g.sampled := rfl
@[simp] theorem commit_unsaved (g : Group) (e : Eff) : (commit g e).unsaved = g.unsaved := rfl
@[simp] theorem commit_flags (g : Group) (e : Eff) : (commit g e).flags = g.flags ||| BitVec.ofNat 32 e.raised := rfl
@[simp] theorem commit_srs (g : Group) (e : Eff) : (commit g e).srs = e.srs := rfl

/-! ## addStall -/

@[simp] theorem addStall_core (g : Group) (reason n : Nat) : (addStall reason n g).core = g.core := rfl
@[simp] theorem addStall_slot (g : Group) (reason n : Nat) : (addStall reason n g).slot = g.slot := rfl
@[simp] theorem addStall_seq (g : Group) (reason n : Nat) : (addStall reason n g).seq = g.seq := rfl
@[simp] theorem addStall_part (g : Group) (reason n : Nat) : (addStall reason n g).part = g.part := rfl
@[simp] theorem addStall_lane (g : Group) (reason n : Nat) : (addStall reason n g).lane = g.lane := rfl
@[simp] theorem addStall_bound (g : Group) (reason n : Nat) : (addStall reason n g).bound = g.bound := rfl
@[simp] theorem addStall_sup (g : Group) (reason n : Nat) : (addStall reason n g).sup = g.sup := rfl
@[simp] theorem addStall_priv (g : Group) (reason n : Nat) : (addStall reason n g).priv = g.priv := rfl
@[simp] theorem addStall_ctx (g : Group) (reason n : Nat) : (addStall reason n g).ctx = g.ctx := rfl
@[simp] theorem addStall_blk (g : Group) (reason n : Nat) : (addStall reason n g).blk = g.blk := rfl
@[simp] theorem addStall_grpib (g : Group) (reason n : Nat) : (addStall reason n g).grpib = g.grpib := rfl
@[simp] theorem addStall_vb (g : Group) (reason n : Nat) : (addStall reason n g).vb = g.vb := rfl
@[simp] theorem addStall_ub (g : Group) (reason n : Nat) : (addStall reason n g).ub = g.ub := rfl
@[simp] theorem addStall_ab (g : Group) (reason n : Nat) : (addStall reason n g).ab = g.ab := rfl
@[simp] theorem addStall_v (g : Group) (reason n : Nat) : (addStall reason n g).v = g.v := rfl
@[simp] theorem addStall_g (g : Group) (reason n : Nat) : (addStall reason n g).g = g.g := rfl
@[simp] theorem addStall_m (g : Group) (reason n : Nat) : (addStall reason n g).m = g.m := rfl
@[simp] theorem addStall_f (g : Group) (reason n : Nat) : (addStall reason n g).f = g.f := rfl
@[simp] theorem addStall_w (g : Group) (reason n : Nat) : (addStall reason n g).w = g.w := rfl
@[simp] theorem addStall_joins (g : Group) (reason n : Nat) : (addStall reason n g).joins = g.joins := rfl
@[simp] theorem addStall_pc (g : Group) (reason n : Nat) : (addStall reason n g).pc = g.pc := rfl
@[simp] theorem addStall_codebase (g : Group) (reason n : Nat) : (addStall reason n g).codebase = g.codebase := rfl
@[simp] theorem addStall_fmt (g : Group) (reason n : Nat) : (addStall reason n g).fmt = g.fmt := rfl
@[simp] theorem addStall_flags (g : Group) (reason n : Nat) : (addStall reason n g).flags = g.flags := rfl
@[simp] theorem addStall_srs (g : Group) (reason n : Nat) : (addStall reason n g).srs = g.srs := rfl
@[simp] theorem addStall_lclk (g : Group) (reason n : Nat) : (addStall reason n g).lclk = g.lclk := rfl
@[simp] theorem addStall_rix (g : Group) (reason n : Nat) : (addStall reason n g).rix = g.rix := rfl
@[simp] theorem addStall_xc (g : Group) (reason n : Nat) : (addStall reason n g).xc = g.xc := rfl
@[simp] theorem addStall_xcv (g : Group) (reason n : Nat) : (addStall reason n g).xcv = g.xcv := rfl
@[simp] theorem addStall_alo (g : Group) (reason n : Nat) : (addStall reason n g).alo = g.alo := rfl
@[simp] theorem addStall_ahi (g : Group) (reason n : Nat) : (addStall reason n g).ahi = g.ahi := rfl
@[simp] theorem addStall_astat (g : Group) (reason n : Nat) : (addStall reason n g).astat = g.astat := rfl
@[simp] theorem addStall_aid (g : Group) (reason n : Nat) : (addStall reason n g).aid = g.aid := rfl
@[simp] theorem addStall_rgn (g : Group) (reason n : Nat) : (addStall reason n g).rgn = g.rgn := rfl
@[simp] theorem addStall_lmask (g : Group) (reason n : Nat) : (addStall reason n g).lmask = g.lmask := rfl
@[simp] theorem addStall_pmask (g : Group) (reason n : Nat) : (addStall reason n g).pmask = g.pmask := rfl
@[simp] theorem addStall_hmask (g : Group) (reason n : Nat) : (addStall reason n g).hmask = g.hmask := rfl
@[simp] theorem addStall_st (g : Group) (reason n : Nat) : (addStall reason n g).st = g.st := rfl
@[simp] theorem addStall_under (g : Group) (reason n : Nat) : (addStall reason n g).under = g.under := rfl
@[simp] theorem addStall_barRaise (g : Group) (reason n : Nat) : (addStall reason n g).barRaise = g.barRaise := rfl
@[simp] theorem addStall_ops (g : Group) (reason n : Nat) : (addStall reason n g).ops = g.ops := rfl
@[simp] theorem addStall_nextOp (g : Group) (reason n : Nat) : (addStall reason n g).nextOp = g.nextOp := rfl
@[simp] theorem addStall_due (g : Group) (reason n : Nat) : (addStall reason n g).due = g.due := rfl
@[simp] theorem addStall_preempt (g : Group) (reason n : Nat) : (addStall reason n g).preempt = g.preempt := rfl
@[simp] theorem addStall_holdReq (g : Group) (reason n : Nat) : (addStall reason n g).holdReq = g.holdReq := rfl
@[simp] theorem addStall_stepReq (g : Group) (reason n : Nat) : (addStall reason n g).stepReq = g.stepReq := rfl
@[simp] theorem addStall_bpSkip (g : Group) (reason n : Nat) : (addStall reason n g).bpSkip = g.bpSkip := rfl
@[simp] theorem addStall_vPoison (g : Group) (reason n : Nat) : (addStall reason n g).vPoison = g.vPoison := rfl
@[simp] theorem addStall_gPoison (g : Group) (reason n : Nat) : (addStall reason n g).gPoison = g.gPoison := rfl
@[simp] theorem addStall_instret (g : Group) (reason n : Nat) : (addStall reason n g).instret = g.instret := rfl
@[simp] theorem addStall_cycHi (g : Group) (reason n : Nat) : (addStall reason n g).cycHi = g.cycHi := rfl
@[simp] theorem addStall_age (g : Group) (reason n : Nat) : (addStall reason n g).age = g.age := rfl
@[simp] theorem addStall_req (g : Group) (reason n : Nat) : (addStall reason n g).req = g.req := rfl
@[simp] theorem addStall_setF (g : Group) (reason n : Nat) : (addStall reason n g).setF = g.setF := rfl
@[simp] theorem addStall_ticket (g : Group) (reason n : Nat) : (addStall reason n g).ticket = g.ticket := rfl
@[simp] theorem addStall_gra (g : Group) (reason n : Nat) : (addStall reason n g).gra = g.gra := rfl
@[simp] theorem addStall_restore (g : Group) (reason n : Nat) : (addStall reason n g).restore = g.restore := rfl
@[simp] theorem addStall_susp (g : Group) (reason n : Nat) : (addStall reason n g).susp = g.susp := rfl
@[simp] theorem addStall_steps (g : Group) (reason n : Nat) : (addStall reason n g).steps = g.steps := rfl
@[simp] theorem addStall_stepNo (g : Group) (reason n : Nat) : (addStall reason n g).stepNo = g.stepNo := rfl
@[simp] theorem addStall_walks (g : Group) (reason n : Nat) : (addStall reason n g).walks = g.walks := rfl
@[simp] theorem addStall_mid (g : Group) (reason n : Nat) : (addStall reason n g).mid = g.mid := rfl
@[simp] theorem addStall_tried (g : Group) (reason n : Nat) : (addStall reason n g).tried = g.tried := rfl
@[simp] theorem addStall_sampled (g : Group) (reason n : Nat) : (addStall reason n g).sampled = g.sampled := rfl
@[simp] theorem addStall_unsaved (g : Group) (reason n : Nat) : (addStall reason n g).unsaved = g.unsaved := rfl
@[simp] theorem addStall_stall (g : Group) (reason n : Nat) : (addStall reason n g).stall = mput 0 g.stall reason (mget 0 g.stall reason + BitVec.ofNat 32 n) := rfl
@[simp] theorem addStall_drift (g : Group) (reason n : Nat) : (addStall reason n g).drift = g.drift + n := rfl

/-! ## addIssue -/

@[simp] theorem addIssue_core (g : Group) (turn : Nat) : (addIssue turn g).core = g.core := rfl
@[simp] theorem addIssue_slot (g : Group) (turn : Nat) : (addIssue turn g).slot = g.slot := rfl
@[simp] theorem addIssue_seq (g : Group) (turn : Nat) : (addIssue turn g).seq = g.seq := rfl
@[simp] theorem addIssue_part (g : Group) (turn : Nat) : (addIssue turn g).part = g.part := rfl
@[simp] theorem addIssue_lane (g : Group) (turn : Nat) : (addIssue turn g).lane = g.lane := rfl
@[simp] theorem addIssue_bound (g : Group) (turn : Nat) : (addIssue turn g).bound = g.bound := rfl
@[simp] theorem addIssue_sup (g : Group) (turn : Nat) : (addIssue turn g).sup = g.sup := rfl
@[simp] theorem addIssue_priv (g : Group) (turn : Nat) : (addIssue turn g).priv = g.priv := rfl
@[simp] theorem addIssue_ctx (g : Group) (turn : Nat) : (addIssue turn g).ctx = g.ctx := rfl
@[simp] theorem addIssue_blk (g : Group) (turn : Nat) : (addIssue turn g).blk = g.blk := rfl
@[simp] theorem addIssue_grpib (g : Group) (turn : Nat) : (addIssue turn g).grpib = g.grpib := rfl
@[simp] theorem addIssue_vb (g : Group) (turn : Nat) : (addIssue turn g).vb = g.vb := rfl
@[simp] theorem addIssue_ub (g : Group) (turn : Nat) : (addIssue turn g).ub = g.ub := rfl
@[simp] theorem addIssue_ab (g : Group) (turn : Nat) : (addIssue turn g).ab = g.ab := rfl
@[simp] theorem addIssue_v (g : Group) (turn : Nat) : (addIssue turn g).v = g.v := rfl
@[simp] theorem addIssue_g (g : Group) (turn : Nat) : (addIssue turn g).g = g.g := rfl
@[simp] theorem addIssue_m (g : Group) (turn : Nat) : (addIssue turn g).m = g.m := rfl
@[simp] theorem addIssue_f (g : Group) (turn : Nat) : (addIssue turn g).f = g.f := rfl
@[simp] theorem addIssue_w (g : Group) (turn : Nat) : (addIssue turn g).w = g.w := rfl
@[simp] theorem addIssue_joins (g : Group) (turn : Nat) : (addIssue turn g).joins = g.joins := rfl
@[simp] theorem addIssue_pc (g : Group) (turn : Nat) : (addIssue turn g).pc = g.pc := rfl
@[simp] theorem addIssue_codebase (g : Group) (turn : Nat) : (addIssue turn g).codebase = g.codebase := rfl
@[simp] theorem addIssue_fmt (g : Group) (turn : Nat) : (addIssue turn g).fmt = g.fmt := rfl
@[simp] theorem addIssue_flags (g : Group) (turn : Nat) : (addIssue turn g).flags = g.flags := rfl
@[simp] theorem addIssue_srs (g : Group) (turn : Nat) : (addIssue turn g).srs = g.srs := rfl
@[simp] theorem addIssue_lclk (g : Group) (turn : Nat) : (addIssue turn g).lclk = g.lclk := rfl
@[simp] theorem addIssue_rix (g : Group) (turn : Nat) : (addIssue turn g).rix = g.rix := rfl
@[simp] theorem addIssue_xc (g : Group) (turn : Nat) : (addIssue turn g).xc = g.xc := rfl
@[simp] theorem addIssue_xcv (g : Group) (turn : Nat) : (addIssue turn g).xcv = g.xcv := rfl
@[simp] theorem addIssue_alo (g : Group) (turn : Nat) : (addIssue turn g).alo = g.alo := rfl
@[simp] theorem addIssue_ahi (g : Group) (turn : Nat) : (addIssue turn g).ahi = g.ahi := rfl
@[simp] theorem addIssue_astat (g : Group) (turn : Nat) : (addIssue turn g).astat = g.astat := rfl
@[simp] theorem addIssue_aid (g : Group) (turn : Nat) : (addIssue turn g).aid = g.aid := rfl
@[simp] theorem addIssue_rgn (g : Group) (turn : Nat) : (addIssue turn g).rgn = g.rgn := rfl
@[simp] theorem addIssue_lmask (g : Group) (turn : Nat) : (addIssue turn g).lmask = g.lmask := rfl
@[simp] theorem addIssue_pmask (g : Group) (turn : Nat) : (addIssue turn g).pmask = g.pmask := rfl
@[simp] theorem addIssue_hmask (g : Group) (turn : Nat) : (addIssue turn g).hmask = g.hmask := rfl
@[simp] theorem addIssue_st (g : Group) (turn : Nat) : (addIssue turn g).st = g.st := rfl
@[simp] theorem addIssue_under (g : Group) (turn : Nat) : (addIssue turn g).under = g.under := rfl
@[simp] theorem addIssue_barRaise (g : Group) (turn : Nat) : (addIssue turn g).barRaise = g.barRaise := rfl
@[simp] theorem addIssue_ops (g : Group) (turn : Nat) : (addIssue turn g).ops = g.ops := rfl
@[simp] theorem addIssue_nextOp (g : Group) (turn : Nat) : (addIssue turn g).nextOp = g.nextOp := rfl
@[simp] theorem addIssue_due (g : Group) (turn : Nat) : (addIssue turn g).due = g.due := rfl
@[simp] theorem addIssue_preempt (g : Group) (turn : Nat) : (addIssue turn g).preempt = g.preempt := rfl
@[simp] theorem addIssue_holdReq (g : Group) (turn : Nat) : (addIssue turn g).holdReq = g.holdReq := rfl
@[simp] theorem addIssue_stepReq (g : Group) (turn : Nat) : (addIssue turn g).stepReq = g.stepReq := rfl
@[simp] theorem addIssue_bpSkip (g : Group) (turn : Nat) : (addIssue turn g).bpSkip = g.bpSkip := rfl
@[simp] theorem addIssue_vPoison (g : Group) (turn : Nat) : (addIssue turn g).vPoison = g.vPoison := rfl
@[simp] theorem addIssue_gPoison (g : Group) (turn : Nat) : (addIssue turn g).gPoison = g.gPoison := rfl
@[simp] theorem addIssue_stall (g : Group) (turn : Nat) : (addIssue turn g).stall = g.stall := rfl
@[simp] theorem addIssue_cycHi (g : Group) (turn : Nat) : (addIssue turn g).cycHi = g.cycHi := rfl
@[simp] theorem addIssue_req (g : Group) (turn : Nat) : (addIssue turn g).req = g.req := rfl
@[simp] theorem addIssue_setF (g : Group) (turn : Nat) : (addIssue turn g).setF = g.setF := rfl
@[simp] theorem addIssue_ticket (g : Group) (turn : Nat) : (addIssue turn g).ticket = g.ticket := rfl
@[simp] theorem addIssue_gra (g : Group) (turn : Nat) : (addIssue turn g).gra = g.gra := rfl
@[simp] theorem addIssue_restore (g : Group) (turn : Nat) : (addIssue turn g).restore = g.restore := rfl
@[simp] theorem addIssue_susp (g : Group) (turn : Nat) : (addIssue turn g).susp = g.susp := rfl
@[simp] theorem addIssue_steps (g : Group) (turn : Nat) : (addIssue turn g).steps = g.steps := rfl
@[simp] theorem addIssue_stepNo (g : Group) (turn : Nat) : (addIssue turn g).stepNo = g.stepNo := rfl
@[simp] theorem addIssue_drift (g : Group) (turn : Nat) : (addIssue turn g).drift = g.drift := rfl
@[simp] theorem addIssue_walks (g : Group) (turn : Nat) : (addIssue turn g).walks = g.walks := rfl
@[simp] theorem addIssue_mid (g : Group) (turn : Nat) : (addIssue turn g).mid = g.mid := rfl
@[simp] theorem addIssue_tried (g : Group) (turn : Nat) : (addIssue turn g).tried = g.tried := rfl
@[simp] theorem addIssue_sampled (g : Group) (turn : Nat) : (addIssue turn g).sampled = g.sampled := rfl
@[simp] theorem addIssue_unsaved (g : Group) (turn : Nat) : (addIssue turn g).unsaved = g.unsaved := rfl
@[simp] theorem addIssue_instret (g : Group) (turn : Nat) : (addIssue turn g).instret = g.instret + 1 := rfl
@[simp] theorem addIssue_age (g : Group) (turn : Nat) : (addIssue turn g).age = turn := rfl

/-! ## withdrawInterrupted -/

@[simp] theorem withdrawInterrupted_core (g : Group) : (withdrawInterrupted g).core = g.core := rfl
@[simp] theorem withdrawInterrupted_slot (g : Group) : (withdrawInterrupted g).slot = g.slot := rfl
@[simp] theorem withdrawInterrupted_seq (g : Group) : (withdrawInterrupted g).seq = g.seq := rfl
@[simp] theorem withdrawInterrupted_part (g : Group) : (withdrawInterrupted g).part = g.part := rfl
@[simp] theorem withdrawInterrupted_lane (g : Group) : (withdrawInterrupted g).lane = g.lane := rfl
@[simp] theorem withdrawInterrupted_bound (g : Group) : (withdrawInterrupted g).bound = g.bound := rfl
@[simp] theorem withdrawInterrupted_sup (g : Group) : (withdrawInterrupted g).sup = g.sup := rfl
@[simp] theorem withdrawInterrupted_priv (g : Group) : (withdrawInterrupted g).priv = g.priv := rfl
@[simp] theorem withdrawInterrupted_ctx (g : Group) : (withdrawInterrupted g).ctx = g.ctx := rfl
@[simp] theorem withdrawInterrupted_blk (g : Group) : (withdrawInterrupted g).blk = g.blk := rfl
@[simp] theorem withdrawInterrupted_grpib (g : Group) : (withdrawInterrupted g).grpib = g.grpib := rfl
@[simp] theorem withdrawInterrupted_vb (g : Group) : (withdrawInterrupted g).vb = g.vb := rfl
@[simp] theorem withdrawInterrupted_ub (g : Group) : (withdrawInterrupted g).ub = g.ub := rfl
@[simp] theorem withdrawInterrupted_ab (g : Group) : (withdrawInterrupted g).ab = g.ab := rfl
@[simp] theorem withdrawInterrupted_v (g : Group) : (withdrawInterrupted g).v = g.v := rfl
@[simp] theorem withdrawInterrupted_g (g : Group) : (withdrawInterrupted g).g = g.g := rfl
@[simp] theorem withdrawInterrupted_m (g : Group) : (withdrawInterrupted g).m = g.m := rfl
@[simp] theorem withdrawInterrupted_f (g : Group) : (withdrawInterrupted g).f = g.f := rfl
@[simp] theorem withdrawInterrupted_joins (g : Group) : (withdrawInterrupted g).joins = g.joins := rfl
@[simp] theorem withdrawInterrupted_pc (g : Group) : (withdrawInterrupted g).pc = g.pc := rfl
@[simp] theorem withdrawInterrupted_codebase (g : Group) : (withdrawInterrupted g).codebase = g.codebase := rfl
@[simp] theorem withdrawInterrupted_fmt (g : Group) : (withdrawInterrupted g).fmt = g.fmt := rfl
@[simp] theorem withdrawInterrupted_flags (g : Group) : (withdrawInterrupted g).flags = g.flags := rfl
@[simp] theorem withdrawInterrupted_srs (g : Group) : (withdrawInterrupted g).srs = g.srs := rfl
@[simp] theorem withdrawInterrupted_lclk (g : Group) : (withdrawInterrupted g).lclk = g.lclk := rfl
@[simp] theorem withdrawInterrupted_rix (g : Group) : (withdrawInterrupted g).rix = g.rix := rfl
@[simp] theorem withdrawInterrupted_xc (g : Group) : (withdrawInterrupted g).xc = g.xc := rfl
@[simp] theorem withdrawInterrupted_xcv (g : Group) : (withdrawInterrupted g).xcv = g.xcv := rfl
@[simp] theorem withdrawInterrupted_alo (g : Group) : (withdrawInterrupted g).alo = g.alo := rfl
@[simp] theorem withdrawInterrupted_ahi (g : Group) : (withdrawInterrupted g).ahi = g.ahi := rfl
@[simp] theorem withdrawInterrupted_astat (g : Group) : (withdrawInterrupted g).astat = g.astat := rfl
@[simp] theorem withdrawInterrupted_aid (g : Group) : (withdrawInterrupted g).aid = g.aid := rfl
@[simp] theorem withdrawInterrupted_rgn (g : Group) : (withdrawInterrupted g).rgn = g.rgn := rfl
@[simp] theorem withdrawInterrupted_lmask (g : Group) : (withdrawInterrupted g).lmask = g.lmask := rfl
@[simp] theorem withdrawInterrupted_pmask (g : Group) : (withdrawInterrupted g).pmask = g.pmask := rfl
@[simp] theorem withdrawInterrupted_hmask (g : Group) : (withdrawInterrupted g).hmask = g.hmask := rfl
@[simp] theorem withdrawInterrupted_st (g : Group) : (withdrawInterrupted g).st = g.st := rfl
@[simp] theorem withdrawInterrupted_under (g : Group) : (withdrawInterrupted g).under = g.under := rfl
@[simp] theorem withdrawInterrupted_barRaise (g : Group) : (withdrawInterrupted g).barRaise = g.barRaise := rfl
@[simp] theorem withdrawInterrupted_nextOp (g : Group) : (withdrawInterrupted g).nextOp = g.nextOp := rfl
@[simp] theorem withdrawInterrupted_due (g : Group) : (withdrawInterrupted g).due = g.due := rfl
@[simp] theorem withdrawInterrupted_preempt (g : Group) : (withdrawInterrupted g).preempt = g.preempt := rfl
@[simp] theorem withdrawInterrupted_holdReq (g : Group) : (withdrawInterrupted g).holdReq = g.holdReq := rfl
@[simp] theorem withdrawInterrupted_stepReq (g : Group) : (withdrawInterrupted g).stepReq = g.stepReq := rfl
@[simp] theorem withdrawInterrupted_bpSkip (g : Group) : (withdrawInterrupted g).bpSkip = g.bpSkip := rfl
@[simp] theorem withdrawInterrupted_vPoison (g : Group) : (withdrawInterrupted g).vPoison = g.vPoison := rfl
@[simp] theorem withdrawInterrupted_gPoison (g : Group) : (withdrawInterrupted g).gPoison = g.gPoison := rfl
@[simp] theorem withdrawInterrupted_instret (g : Group) : (withdrawInterrupted g).instret = g.instret := rfl
@[simp] theorem withdrawInterrupted_stall (g : Group) : (withdrawInterrupted g).stall = g.stall := rfl
@[simp] theorem withdrawInterrupted_cycHi (g : Group) : (withdrawInterrupted g).cycHi = g.cycHi := rfl
@[simp] theorem withdrawInterrupted_age (g : Group) : (withdrawInterrupted g).age = g.age := rfl
@[simp] theorem withdrawInterrupted_req (g : Group) : (withdrawInterrupted g).req = g.req := rfl
@[simp] theorem withdrawInterrupted_setF (g : Group) : (withdrawInterrupted g).setF = g.setF := rfl
@[simp] theorem withdrawInterrupted_ticket (g : Group) : (withdrawInterrupted g).ticket = g.ticket := rfl
@[simp] theorem withdrawInterrupted_gra (g : Group) : (withdrawInterrupted g).gra = g.gra := rfl
@[simp] theorem withdrawInterrupted_restore (g : Group) : (withdrawInterrupted g).restore = g.restore := rfl
@[simp] theorem withdrawInterrupted_susp (g : Group) : (withdrawInterrupted g).susp = g.susp := rfl
@[simp] theorem withdrawInterrupted_steps (g : Group) : (withdrawInterrupted g).steps = g.steps := rfl
@[simp] theorem withdrawInterrupted_stepNo (g : Group) : (withdrawInterrupted g).stepNo = g.stepNo := rfl
@[simp] theorem withdrawInterrupted_drift (g : Group) : (withdrawInterrupted g).drift = g.drift := rfl
@[simp] theorem withdrawInterrupted_walks (g : Group) : (withdrawInterrupted g).walks = g.walks := rfl
@[simp] theorem withdrawInterrupted_mid (g : Group) : (withdrawInterrupted g).mid = g.mid := rfl
@[simp] theorem withdrawInterrupted_tried (g : Group) : (withdrawInterrupted g).tried = g.tried := rfl
@[simp] theorem withdrawInterrupted_sampled (g : Group) : (withdrawInterrupted g).sampled = g.sampled := rfl
@[simp] theorem withdrawInterrupted_unsaved (g : Group) : (withdrawInterrupted g).unsaved = g.unsaved := rfl

/-! ## atNext -/

@[simp] theorem atNext_core (g : Group) (pc : DWord) : (atNext pc g).core = g.core := rfl
@[simp] theorem atNext_slot (g : Group) (pc : DWord) : (atNext pc g).slot = g.slot := rfl
@[simp] theorem atNext_seq (g : Group) (pc : DWord) : (atNext pc g).seq = g.seq := rfl
@[simp] theorem atNext_part (g : Group) (pc : DWord) : (atNext pc g).part = g.part := rfl
@[simp] theorem atNext_lane (g : Group) (pc : DWord) : (atNext pc g).lane = g.lane := rfl
@[simp] theorem atNext_bound (g : Group) (pc : DWord) : (atNext pc g).bound = g.bound := rfl
@[simp] theorem atNext_sup (g : Group) (pc : DWord) : (atNext pc g).sup = g.sup := rfl
@[simp] theorem atNext_priv (g : Group) (pc : DWord) : (atNext pc g).priv = g.priv := rfl
@[simp] theorem atNext_ctx (g : Group) (pc : DWord) : (atNext pc g).ctx = g.ctx := rfl
@[simp] theorem atNext_blk (g : Group) (pc : DWord) : (atNext pc g).blk = g.blk := rfl
@[simp] theorem atNext_grpib (g : Group) (pc : DWord) : (atNext pc g).grpib = g.grpib := rfl
@[simp] theorem atNext_vb (g : Group) (pc : DWord) : (atNext pc g).vb = g.vb := rfl
@[simp] theorem atNext_ub (g : Group) (pc : DWord) : (atNext pc g).ub = g.ub := rfl
@[simp] theorem atNext_ab (g : Group) (pc : DWord) : (atNext pc g).ab = g.ab := rfl
@[simp] theorem atNext_v (g : Group) (pc : DWord) : (atNext pc g).v = g.v := rfl
@[simp] theorem atNext_g (g : Group) (pc : DWord) : (atNext pc g).g = g.g := rfl
@[simp] theorem atNext_m (g : Group) (pc : DWord) : (atNext pc g).m = g.m := rfl
@[simp] theorem atNext_f (g : Group) (pc : DWord) : (atNext pc g).f = g.f := rfl
@[simp] theorem atNext_w (g : Group) (pc : DWord) : (atNext pc g).w = g.w := rfl
@[simp] theorem atNext_joins (g : Group) (pc : DWord) : (atNext pc g).joins = g.joins := rfl
@[simp] theorem atNext_codebase (g : Group) (pc : DWord) : (atNext pc g).codebase = g.codebase := rfl
@[simp] theorem atNext_fmt (g : Group) (pc : DWord) : (atNext pc g).fmt = g.fmt := rfl
@[simp] theorem atNext_flags (g : Group) (pc : DWord) : (atNext pc g).flags = g.flags := rfl
@[simp] theorem atNext_srs (g : Group) (pc : DWord) : (atNext pc g).srs = g.srs := rfl
@[simp] theorem atNext_lclk (g : Group) (pc : DWord) : (atNext pc g).lclk = g.lclk := rfl
@[simp] theorem atNext_alo (g : Group) (pc : DWord) : (atNext pc g).alo = g.alo := rfl
@[simp] theorem atNext_ahi (g : Group) (pc : DWord) : (atNext pc g).ahi = g.ahi := rfl
@[simp] theorem atNext_astat (g : Group) (pc : DWord) : (atNext pc g).astat = g.astat := rfl
@[simp] theorem atNext_aid (g : Group) (pc : DWord) : (atNext pc g).aid = g.aid := rfl
@[simp] theorem atNext_rgn (g : Group) (pc : DWord) : (atNext pc g).rgn = g.rgn := rfl
@[simp] theorem atNext_lmask (g : Group) (pc : DWord) : (atNext pc g).lmask = g.lmask := rfl
@[simp] theorem atNext_pmask (g : Group) (pc : DWord) : (atNext pc g).pmask = g.pmask := rfl
@[simp] theorem atNext_hmask (g : Group) (pc : DWord) : (atNext pc g).hmask = g.hmask := rfl
@[simp] theorem atNext_st (g : Group) (pc : DWord) : (atNext pc g).st = g.st := rfl
@[simp] theorem atNext_under (g : Group) (pc : DWord) : (atNext pc g).under = g.under := rfl
@[simp] theorem atNext_barRaise (g : Group) (pc : DWord) : (atNext pc g).barRaise = g.barRaise := rfl
@[simp] theorem atNext_ops (g : Group) (pc : DWord) : (atNext pc g).ops = g.ops := rfl
@[simp] theorem atNext_nextOp (g : Group) (pc : DWord) : (atNext pc g).nextOp = g.nextOp := rfl
@[simp] theorem atNext_due (g : Group) (pc : DWord) : (atNext pc g).due = g.due := rfl
@[simp] theorem atNext_preempt (g : Group) (pc : DWord) : (atNext pc g).preempt = g.preempt := rfl
@[simp] theorem atNext_holdReq (g : Group) (pc : DWord) : (atNext pc g).holdReq = g.holdReq := rfl
@[simp] theorem atNext_stepReq (g : Group) (pc : DWord) : (atNext pc g).stepReq = g.stepReq := rfl
@[simp] theorem atNext_vPoison (g : Group) (pc : DWord) : (atNext pc g).vPoison = g.vPoison := rfl
@[simp] theorem atNext_gPoison (g : Group) (pc : DWord) : (atNext pc g).gPoison = g.gPoison := rfl
@[simp] theorem atNext_instret (g : Group) (pc : DWord) : (atNext pc g).instret = g.instret := rfl
@[simp] theorem atNext_stall (g : Group) (pc : DWord) : (atNext pc g).stall = g.stall := rfl
@[simp] theorem atNext_cycHi (g : Group) (pc : DWord) : (atNext pc g).cycHi = g.cycHi := rfl
@[simp] theorem atNext_age (g : Group) (pc : DWord) : (atNext pc g).age = g.age := rfl
@[simp] theorem atNext_req (g : Group) (pc : DWord) : (atNext pc g).req = g.req := rfl
@[simp] theorem atNext_setF (g : Group) (pc : DWord) : (atNext pc g).setF = g.setF := rfl
@[simp] theorem atNext_ticket (g : Group) (pc : DWord) : (atNext pc g).ticket = g.ticket := rfl
@[simp] theorem atNext_gra (g : Group) (pc : DWord) : (atNext pc g).gra = g.gra := rfl
@[simp] theorem atNext_restore (g : Group) (pc : DWord) : (atNext pc g).restore = g.restore := rfl
@[simp] theorem atNext_susp (g : Group) (pc : DWord) : (atNext pc g).susp = g.susp := rfl
@[simp] theorem atNext_steps (g : Group) (pc : DWord) : (atNext pc g).steps = g.steps := rfl
@[simp] theorem atNext_stepNo (g : Group) (pc : DWord) : (atNext pc g).stepNo = g.stepNo := rfl
@[simp] theorem atNext_drift (g : Group) (pc : DWord) : (atNext pc g).drift = g.drift := rfl
@[simp] theorem atNext_tried (g : Group) (pc : DWord) : (atNext pc g).tried = g.tried := rfl
@[simp] theorem atNext_sampled (g : Group) (pc : DWord) : (atNext pc g).sampled = g.sampled := rfl
@[simp] theorem atNext_unsaved (g : Group) (pc : DWord) : (atNext pc g).unsaved = g.unsaved := rfl
@[simp] theorem atNext_pc (g : Group) (pc : DWord) : (atNext pc g).pc = pc := rfl
@[simp] theorem atNext_rix (g : Group) (pc : DWord) : (atNext pc g).rix = 0 := rfl
@[simp] theorem atNext_xc (g : Group) (pc : DWord) : (atNext pc g).xc = 0 := rfl
@[simp] theorem atNext_xcv (g : Group) (pc : DWord) : (atNext pc g).xcv = false := rfl
@[simp] theorem atNext_bpSkip (g : Group) (pc : DWord) : (atNext pc g).bpSkip = false := rfl
@[simp] theorem atNext_walks (g : Group) (pc : DWord) : (atNext pc g).walks = [] := rfl
@[simp] theorem atNext_mid (g : Group) (pc : DWord) : (atNext pc g).mid = none := rfl

/-! ## modCur -/

@[simp] theorem modCur_turn (s : State) (f : Group → Group) : (modCur s f).turn = s.turn := rfl
@[simp] theorem modCur_pending (s : State) (f : Group → Group) : (modCur s f).pending = s.pending := rfl
@[simp] theorem modCur_lead (s : State) (f : Group → Group) : (modCur s f).lead = s.lead := rfl
@[simp] theorem modCur_others (s : State) (f : Group → Group) : (modCur s f).others = s.others := rfl
@[simp] theorem modCur_blocks (s : State) (f : Group → Group) : (modCur s f).blocks = s.blocks := rfl
@[simp] theorem modCur_nextBlk (s : State) (f : Group → Group) : (modCur s f).nextBlk = s.nextBlk := rfl
@[simp] theorem modCur_cores (s : State) (f : Group → Group) : (modCur s f).cores = s.cores := rfl
@[simp] theorem modCur_clusters (s : State) (f : Group → Group) : (modCur s f).clusters = s.clusters := rfl
@[simp] theorem modCur_slices (s : State) (f : Group → Group) : (modCur s f).slices = s.slices := rfl
@[simp] theorem modCur_mm (s : State) (f : Group → Group) : (modCur s f).mm = s.mm := rfl
@[simp] theorem modCur_cp (s : State) (f : Group → Group) : (modCur s f).cp = s.cp := rfl
@[simp] theorem modCur_fw (s : State) (f : Group → Group) : (modCur s f).fw = s.fw := rfl
@[simp] theorem modCur_io (s : State) (f : Group → Group) : (modCur s f).io = s.io := rfl
@[simp] theorem modCur_tr (s : State) (f : Group → Group) : (modCur s f).tr = s.tr := rfl
@[simp] theorem modCur_cur (s : State) (f : Group → Group) : (modCur s f).cur = f s.cur := rfl

/-! ## pend -/

@[simp] theorem pend_turn (s : State) (e : Instr) : (pend s e).turn = s.turn := rfl
@[simp] theorem pend_lead (s : State) (e : Instr) : (pend s e).lead = s.lead := rfl
@[simp] theorem pend_cur (s : State) (e : Instr) : (pend s e).cur = s.cur := rfl
@[simp] theorem pend_others (s : State) (e : Instr) : (pend s e).others = s.others := rfl
@[simp] theorem pend_blocks (s : State) (e : Instr) : (pend s e).blocks = s.blocks := rfl
@[simp] theorem pend_nextBlk (s : State) (e : Instr) : (pend s e).nextBlk = s.nextBlk := rfl
@[simp] theorem pend_cores (s : State) (e : Instr) : (pend s e).cores = s.cores := rfl
@[simp] theorem pend_clusters (s : State) (e : Instr) : (pend s e).clusters = s.clusters := rfl
@[simp] theorem pend_slices (s : State) (e : Instr) : (pend s e).slices = s.slices := rfl
@[simp] theorem pend_mm (s : State) (e : Instr) : (pend s e).mm = s.mm := rfl
@[simp] theorem pend_cp (s : State) (e : Instr) : (pend s e).cp = s.cp := rfl
@[simp] theorem pend_fw (s : State) (e : Instr) : (pend s e).fw = s.fw := rfl
@[simp] theorem pend_io (s : State) (e : Instr) : (pend s e).io = s.io := rfl
@[simp] theorem pend_tr (s : State) (e : Instr) : (pend s e).tr = s.tr := rfl
@[simp] theorem pend_pending (s : State) (e : Instr) : (pend s e).pending = s.pending ++ [e] := rfl

/-! ## modCore -/

@[simp] theorem modCore_turn (s : State) (c : Nat) (f : Core → Core) : (modCore s c f).turn = s.turn := rfl
@[simp] theorem modCore_pending (s : State) (c : Nat) (f : Core → Core) : (modCore s c f).pending = s.pending := rfl
@[simp] theorem modCore_lead (s : State) (c : Nat) (f : Core → Core) : (modCore s c f).lead = s.lead := rfl
@[simp] theorem modCore_cur (s : State) (c : Nat) (f : Core → Core) : (modCore s c f).cur = s.cur := rfl
@[simp] theorem modCore_others (s : State) (c : Nat) (f : Core → Core) : (modCore s c f).others = s.others := rfl
@[simp] theorem modCore_blocks (s : State) (c : Nat) (f : Core → Core) : (modCore s c f).blocks = s.blocks := rfl
@[simp] theorem modCore_nextBlk (s : State) (c : Nat) (f : Core → Core) : (modCore s c f).nextBlk = s.nextBlk := rfl
@[simp] theorem modCore_clusters (s : State) (c : Nat) (f : Core → Core) : (modCore s c f).clusters = s.clusters := rfl
@[simp] theorem modCore_slices (s : State) (c : Nat) (f : Core → Core) : (modCore s c f).slices = s.slices := rfl
@[simp] theorem modCore_mm (s : State) (c : Nat) (f : Core → Core) : (modCore s c f).mm = s.mm := rfl
@[simp] theorem modCore_cp (s : State) (c : Nat) (f : Core → Core) : (modCore s c f).cp = s.cp := rfl
@[simp] theorem modCore_fw (s : State) (c : Nat) (f : Core → Core) : (modCore s c f).fw = s.fw := rfl
@[simp] theorem modCore_io (s : State) (c : Nat) (f : Core → Core) : (modCore s c f).io = s.io := rfl
@[simp] theorem modCore_tr (s : State) (c : Nat) (f : Core → Core) : (modCore s c f).tr = s.tr := rfl
@[simp] theorem modCore_cores (s : State) (c : Nat) (f : Core → Core) : (modCore s c f).cores = mmod {} s.cores c f := rfl

/-! ## modSlice -/

@[simp] theorem modSlice_turn (s : State) (n : Nat) (f : Slice → Slice) : (modSlice s n f).turn = s.turn := rfl
@[simp] theorem modSlice_pending (s : State) (n : Nat) (f : Slice → Slice) : (modSlice s n f).pending = s.pending := rfl
@[simp] theorem modSlice_lead (s : State) (n : Nat) (f : Slice → Slice) : (modSlice s n f).lead = s.lead := rfl
@[simp] theorem modSlice_cur (s : State) (n : Nat) (f : Slice → Slice) : (modSlice s n f).cur = s.cur := rfl
@[simp] theorem modSlice_others (s : State) (n : Nat) (f : Slice → Slice) : (modSlice s n f).others = s.others := rfl
@[simp] theorem modSlice_blocks (s : State) (n : Nat) (f : Slice → Slice) : (modSlice s n f).blocks = s.blocks := rfl
@[simp] theorem modSlice_nextBlk (s : State) (n : Nat) (f : Slice → Slice) : (modSlice s n f).nextBlk = s.nextBlk := rfl
@[simp] theorem modSlice_cores (s : State) (n : Nat) (f : Slice → Slice) : (modSlice s n f).cores = s.cores := rfl
@[simp] theorem modSlice_clusters (s : State) (n : Nat) (f : Slice → Slice) : (modSlice s n f).clusters = s.clusters := rfl
@[simp] theorem modSlice_mm (s : State) (n : Nat) (f : Slice → Slice) : (modSlice s n f).mm = s.mm := rfl
@[simp] theorem modSlice_cp (s : State) (n : Nat) (f : Slice → Slice) : (modSlice s n f).cp = s.cp := rfl
@[simp] theorem modSlice_fw (s : State) (n : Nat) (f : Slice → Slice) : (modSlice s n f).fw = s.fw := rfl
@[simp] theorem modSlice_io (s : State) (n : Nat) (f : Slice → Slice) : (modSlice s n f).io = s.io := rfl
@[simp] theorem modSlice_tr (s : State) (n : Nat) (f : Slice → Slice) : (modSlice s n f).tr = s.tr := rfl
@[simp] theorem modSlice_slices (s : State) (n : Nat) (f : Slice → Slice) : (modSlice s n f).slices = mmod (sliceNew s) s.slices n f := rfl

/-! ## modCtx -/

@[simp] theorem modCtx_turn (s : State) (n : Nat) (f : Ctx → Ctx) : (modCtx s n f).turn = s.turn := rfl
@[simp] theorem modCtx_pending (s : State) (n : Nat) (f : Ctx → Ctx) : (modCtx s n f).pending = s.pending := rfl
@[simp] theorem modCtx_lead (s : State) (n : Nat) (f : Ctx → Ctx) : (modCtx s n f).lead = s.lead := rfl
@[simp] theorem modCtx_cur (s : State) (n : Nat) (f : Ctx → Ctx) : (modCtx s n f).cur = s.cur := rfl
@[simp] theorem modCtx_others (s : State) (n : Nat) (f : Ctx → Ctx) : (modCtx s n f).others = s.others := rfl
@[simp] theorem modCtx_blocks (s : State) (n : Nat) (f : Ctx → Ctx) : (modCtx s n f).blocks = s.blocks := rfl
@[simp] theorem modCtx_nextBlk (s : State) (n : Nat) (f : Ctx → Ctx) : (modCtx s n f).nextBlk = s.nextBlk := rfl
@[simp] theorem modCtx_cores (s : State) (n : Nat) (f : Ctx → Ctx) : (modCtx s n f).cores = s.cores := rfl
@[simp] theorem modCtx_clusters (s : State) (n : Nat) (f : Ctx → Ctx) : (modCtx s n f).clusters = s.clusters := rfl
@[simp] theorem modCtx_slices (s : State) (n : Nat) (f : Ctx → Ctx) : (modCtx s n f).slices = s.slices := rfl
@[simp] theorem modCtx_mm (s : State) (n : Nat) (f : Ctx → Ctx) : (modCtx s n f).mm = s.mm := rfl
@[simp] theorem modCtx_cp (s : State) (n : Nat) (f : Ctx → Ctx) : (modCtx s n f).cp = s.cp := rfl
@[simp] theorem modCtx_io (s : State) (n : Nat) (f : Ctx → Ctx) : (modCtx s n f).io = s.io := rfl
@[simp] theorem modCtx_tr (s : State) (n : Nat) (f : Ctx → Ctx) : (modCtx s n f).tr = s.tr := rfl

/-! ## modMem -/

@[simp] theorem modMem_turn (s : State) (f : Memory → Memory) : (modMem s f).turn = s.turn := rfl
@[simp] theorem modMem_pending (s : State) (f : Memory → Memory) : (modMem s f).pending = s.pending := rfl
@[simp] theorem modMem_lead (s : State) (f : Memory → Memory) : (modMem s f).lead = s.lead := rfl
@[simp] theorem modMem_cur (s : State) (f : Memory → Memory) : (modMem s f).cur = s.cur := rfl
@[simp] theorem modMem_others (s : State) (f : Memory → Memory) : (modMem s f).others = s.others := rfl
@[simp] theorem modMem_blocks (s : State) (f : Memory → Memory) : (modMem s f).blocks = s.blocks := rfl
@[simp] theorem modMem_nextBlk (s : State) (f : Memory → Memory) : (modMem s f).nextBlk = s.nextBlk := rfl
@[simp] theorem modMem_cores (s : State) (f : Memory → Memory) : (modMem s f).cores = s.cores := rfl
@[simp] theorem modMem_clusters (s : State) (f : Memory → Memory) : (modMem s f).clusters = s.clusters := rfl
@[simp] theorem modMem_slices (s : State) (f : Memory → Memory) : (modMem s f).slices = s.slices := rfl
@[simp] theorem modMem_cp (s : State) (f : Memory → Memory) : (modMem s f).cp = s.cp := rfl
@[simp] theorem modMem_fw (s : State) (f : Memory → Memory) : (modMem s f).fw = s.fw := rfl
@[simp] theorem modMem_io (s : State) (f : Memory → Memory) : (modMem s f).io = s.io := rfl
@[simp] theorem modMem_tr (s : State) (f : Memory → Memory) : (modMem s f).tr = s.tr := rfl

/-! ## clearBad -/

@[simp] theorem clearBad_turn (s : State) (a n : Nat) : (clearBad s a n).turn = s.turn := rfl
@[simp] theorem clearBad_pending (s : State) (a n : Nat) : (clearBad s a n).pending = s.pending := rfl
@[simp] theorem clearBad_lead (s : State) (a n : Nat) : (clearBad s a n).lead = s.lead := rfl
@[simp] theorem clearBad_cur (s : State) (a n : Nat) : (clearBad s a n).cur = s.cur := rfl
@[simp] theorem clearBad_others (s : State) (a n : Nat) : (clearBad s a n).others = s.others := rfl
@[simp] theorem clearBad_blocks (s : State) (a n : Nat) : (clearBad s a n).blocks = s.blocks := rfl
@[simp] theorem clearBad_nextBlk (s : State) (a n : Nat) : (clearBad s a n).nextBlk = s.nextBlk := rfl
@[simp] theorem clearBad_cores (s : State) (a n : Nat) : (clearBad s a n).cores = s.cores := rfl
@[simp] theorem clearBad_clusters (s : State) (a n : Nat) : (clearBad s a n).clusters = s.clusters := rfl
@[simp] theorem clearBad_slices (s : State) (a n : Nat) : (clearBad s a n).slices = s.slices := rfl
@[simp] theorem clearBad_cp (s : State) (a n : Nat) : (clearBad s a n).cp = s.cp := rfl
@[simp] theorem clearBad_fw (s : State) (a n : Nat) : (clearBad s a n).fw = s.fw := rfl
@[simp] theorem clearBad_io (s : State) (a n : Nat) : (clearBad s a n).io = s.io := rfl
@[simp] theorem clearBad_tr (s : State) (a n : Nat) : (clearBad s a n).tr = s.tr := rfl

@[simp] theorem withdrawInterrupted_ops (g : Group) : (withdrawInterrupted g).ops = g.ops.filter (fun o => o.tag != 1) := by
  simp [withdrawInterrupted, withdrawOps, bne]
@[simp] theorem modMem_mem (s : State) (f : Memory → Memory) : (modMem s f).mm.mem = f s.mm.mem := rfl
@[simp] theorem clearBad_mem (s : State) (a n : Nat) : (clearBad s a n).mm.mem = s.mm.mem := rfl

end Sys2Proof.Machine
end

