-- ==== Sys2Proof/Laws/Pass.lean ====
section
/-! SUPPORT. What the shared operations of Machine/Ops.lean and Machine/Operands.lean do: registers read back, an
instruction that issues, one that completes, and the pass of a vector instruction. -/

namespace Sys2Proof.Machine

/-! ## Registers read back -/

theorem vget_vset (g : Group) (r t r' t' : Nat) (x : Word) (h : t < 32) (h' : t' < 32) :
    vget (vset g r t x) r' t' = if r' = r ∧ t' = t then x else vget g r' t' := by
  have : r' * 32 + t' = r * 32 + t ↔ r' = r ∧ t' = t := by omega
  simp only [vget, vset_v, mget_mput, this]

theorem gget_gset (g : Group) (r r' : Nat) (x : Word) : gget (gset g r x) r' = if r' = r then x else gget g r' :=
  mget_mput ..

theorem mreg_mwrite (g : Group) (r r' : Nat) (x : Word) : mreg (mwrite g r x) r' = if r' = r then x else mreg g r' :=
  mget_mput ..

@[simp] theorem gget_vset (g : Group) (r t r' : Nat) (x : Word) : gget (vset g r t x) r' = gget g r' := rfl
@[simp] theorem mreg_vset (g : Group) (r t r' : Nat) (x : Word) : mreg (vset g r t x) r' = mreg g r' := rfl
@[simp] theorem vget_gset (g : Group) (r r' t : Nat) (x : Word) : vget (gset g r x) r' t = vget g r' t := rfl
@[simp] theorem mreg_gset (g : Group) (r r' : Nat) (x : Word) : mreg (gset g r x) r' = mreg g r' := rfl
@[simp] theorem vget_mwrite (g : Group) (r r' t : Nat) (x : Word) : vget (mwrite g r x) r' t = vget g r' t := rfl
@[simp] theorem gget_mwrite (g : Group) (r r' : Nat) (x : Word) : gget (mwrite g r x) r' = gget g r' := rfl

/-! ## An instruction that issues -/

/-- The checks before an instruction pass, and its effect takes place. -/
theorem withUses_runs {u : Uses} {body : State → State} {s : State} {vs gr gw ts : List Nat} (h : Issues s.cur vs gr gw ts)
    (hv : ∀ r ∈ u.vr ++ u.vw ++ u.vc.toList, r ∈ vs) (hr : ∀ r ∈ u.gr, r ∈ gr) (hw : ∀ r ∈ u.gw, r ∈ gr ++ gw)
    (ht : ∀ z ∈ u.tile, z ∈ ts) : withUses u body s = body s := by
  have hg : ∀ r ∈ u.gr ++ u.gw, r ∈ gr ++ gw := fun r hr' =>
    (List.mem_append.1 hr').elim (fun k => List.mem_append_left _ (hr r k)) (hw r)
  have h1 : u.vc.any (s.cur.vb ≤ ·) = false := by
    cases hu : u.vc with
    | none => rfl
    | some r => have := (h.vectors r (hv r (by simp [hu]))).1; simp; omega
  have h2 : usesLegal s.cur u = true := by
    simp only [usesLegal, Bool.and_eq_true, List.all_eq_true, decide_eq_true_eq, uniformLegal, Bool.or_eq_true]
    refine ⟨⟨fun r hr => (h.vectors r (hv r (List.mem_append_left _ hr))).1, fun r hr => (h.uniforms r (hg r hr)).1⟩, ?_⟩
    cases hu : u.tile with
    | none => rfl
    | some z => simpa using h.tile z (ht z (by simp [hu]))
  have h3 : interlocked s.cur u = false := by
    simp only [interlocked, vBusy, gBusy, Bool.or_eq_false_iff, List.any_eq_false, List.any_eq_true, not_exists, not_and,
      List.contains_iff_mem]
    exact ⟨fun r hr o ho => (h.vectors r (hv r hr)).2 o ho, fun r hr o ho => (h.uniforms r (hg r hr)).2 o ho⟩
  have h4 : u.gr.findSome? (mfind s.cur.gPoison ·) = none := List.findSome?_eq_none_iff.2 fun r k => h.sound r (hr r k)
  simp [withUses, h1, h2, h3, h4]

/-! ## An instruction that completes -/

theorem group_cur (s : State) : group s (gidOf s.cur) = some s.cur := by rw [group, if_pos rfl]

theorem core_modCore (s : State) (c c' : Nat) (f : Core → Core) :
    core (modCore s c f) c' = if c' = c then f (core s c) else core s c' := mget_mmod ..

theorem countStall_cur (s : State) (reason n : Nat) :
    countStall s (gidOf s.cur) reason n =
      modCore (modCur s (addStall reason n)) s.cur.core (addPart s.cur.part reason n) := by
  rw [countStall, group_cur]
  have : gidOf (addStall reason n s.cur) = gidOf s.cur := rfl
  simp only [setGroup, this, if_true]; rfl

/-- A completing instruction changes the current group and the stall counters of its partition, and nothing else. -/
theorem advance_eq (words : Nat) (s : State) :
    advance words s =
      modCore (modCur s fun g => atNext (g.pc + BitVec.ofNat 64 (4 * words)) (addStall 0 1 (addIssue s.turn g))) s.cur.core
        (addPart s.cur.part 0 1) := by
  have h := countStall_cur (modCur s (addIssue s.turn)) 0 1
  rw [show gidOf (modCur s (addIssue s.turn)).cur = gidOf s.cur from rfl] at h
  rw [advance, countIssue, h]; rfl

theorem jumpTo_eq (target : DWord) (s : State) :
    jumpTo target s =
      modCore (modCur s fun g => atNext target (addStall 0 1 (addIssue s.turn g))) s.cur.core (addPart s.cur.part 0 1) := by
  have h := countStall_cur (modCur s (addIssue s.turn)) 0 1
  rw [show gidOf (modCur s (addIssue s.turn)).cur = gidOf s.cur from rfl] at h
  rw [jumpTo, countIssue, h]; rfl

theorem advance_completed (words : Nat) (s : State) : Completed words s (advance words s) := by
  rw [advance_eq]; constructor <;> simp

theorem jumpTo_completed (pc : DWord) (s : State) : CompletedAt pc s (jumpTo pc s) := by
  rw [jumpTo_eq]; constructor <;> simp

theorem core_kept (s : State) (c : Nat) (f : Group → Group) (p r n : Nat) (k : Nat) :
    core (modCore (modCur s f) c (addPart p r n)) k =
      { core s k with pstall := (core (modCore (modCur s f) c (addPart p r n)) k).pstall } := by
  rw [core_modCore]; split
  · subst_vars; rfl
  · rfl

theorem device_kept (s : State) (c : Nat) (f : Group → Group) (p r n : Nat) :
    DeviceKept s (modCore (modCur s f) c (addPart p r n)) := by
  refine ⟨?_, fun _ => rfl, core_kept s c f p r n⟩
  rw [modCore, modCur]

theorem advance_device (words : Nat) (s : State) : DeviceKept s (advance words s) := by
  rw [advance_eq]; exact device_kept ..

theorem jumpTo_device (pc : DWord) (s : State) : DeviceKept s (jumpTo pc s) := by
  rw [jumpTo_eq]; exact device_kept ..

@[simp] theorem advance_v (words : Nat) (s : State) : (advance words s).cur.v = s.cur.v := by rw [advance_eq]; simp
@[simp] theorem advance_vPoison (words : Nat) (s : State) : (advance words s).cur.vPoison = s.cur.vPoison := by rw [advance_eq]; simp
@[simp] theorem advance_g (words : Nat) (s : State) : (advance words s).cur.g = s.cur.g := by rw [advance_eq]; simp
@[simp] theorem advance_gPoison (words : Nat) (s : State) : (advance words s).cur.gPoison = s.cur.gPoison := by rw [advance_eq]; simp
@[simp] theorem advance_m (words : Nat) (s : State) : (advance words s).cur.m = s.cur.m := by rw [advance_eq]; simp
@[simp] theorem advance_f (words : Nat) (s : State) : (advance words s).cur.f = s.cur.f := by rw [advance_eq]; simp
@[simp] theorem advance_flags (words : Nat) (s : State) : (advance words s).cur.flags = s.cur.flags := by rw [advance_eq]; simp
@[simp] theorem advance_srs (words : Nat) (s : State) : (advance words s).cur.srs = s.cur.srs := by rw [advance_eq]; simp

@[simp] theorem jumpTo_v (pc : DWord) (s : State) : (jumpTo pc s).cur.v = s.cur.v := by rw [jumpTo_eq]; simp
@[simp] theorem jumpTo_vPoison (pc : DWord) (s : State) : (jumpTo pc s).cur.vPoison = s.cur.vPoison := by rw [jumpTo_eq]; simp
@[simp] theorem jumpTo_g (pc : DWord) (s : State) : (jumpTo pc s).cur.g = s.cur.g := by rw [jumpTo_eq]; simp
@[simp] theorem jumpTo_gPoison (pc : DWord) (s : State) : (jumpTo pc s).cur.gPoison = s.cur.gPoison := by rw [jumpTo_eq]; simp
@[simp] theorem jumpTo_m (pc : DWord) (s : State) : (jumpTo pc s).cur.m = s.cur.m := by rw [jumpTo_eq]; simp
@[simp] theorem jumpTo_f (pc : DWord) (s : State) : (jumpTo pc s).cur.f = s.cur.f := by rw [jumpTo_eq]; simp
@[simp] theorem jumpTo_flags (pc : DWord) (s : State) : (jumpTo pc s).cur.flags = s.cur.flags := by rw [jumpTo_eq]; simp
@[simp] theorem jumpTo_srs (pc : DWord) (s : State) : (jumpTo pc s).cur.srs = s.cur.srs := by rw [jumpTo_eq]; simp

@[simp] theorem vget_advance (words : Nat) (s : State) (r t : Nat) : vget (advance words s).cur r t = vget s.cur r t := by
  simp only [vget, advance_v]

@[simp] theorem gget_advance (words : Nat) (s : State) (r : Nat) : gget (advance words s).cur r = gget s.cur r := by
  simp only [gget, advance_g]

@[simp] theorem mreg_advance (words : Nat) (s : State) (r : Nat) : mreg (advance words s).cur r = mreg s.cur r := by
  simp only [mreg, advance_m]

@[simp] theorem vget_jumpTo (pc : DWord) (s : State) (r t : Nat) : vget (jumpTo pc s).cur r t = vget s.cur r t := by
  simp only [vget, jumpTo_v]

@[simp] theorem gget_jumpTo (pc : DWord) (s : State) (r : Nat) : gget (jumpTo pc s).cur r = gget s.cur r := by
  simp only [gget, jumpTo_g]

@[simp] theorem mreg_jumpTo (pc : DWord) (s : State) (r : Nat) : mreg (jumpTo pc s).cur r = mreg s.cur r := by
  simp only [mreg, jumpTo_m]

theorem advance_group (words : Nat) (s : State) : GroupKept s.cur (advance words s).cur := by
  rw [advance_eq]
  refine ⟨?_, fun _ => ⟨?_, fun w => ?_⟩⟩
  · simp only [modCore_cur, modCur_cur, atNext, addStall, addIssue]
  · simp only [modCore_cur, modCur_cur, atNext_ops, addStall_ops, addIssue_ops]
  · simp only [wget, modCore_cur, modCur_cur, atNext_w, addStall_w, addIssue_w]

theorem groupKept_trans {a b c : Group} (h : GroupKept a b) (k : GroupKept b c) : GroupKept a c := by
  refine ⟨?_, fun ho => ?_⟩
  · rw [k.all, h.all]
  · have h1 := h.ops ho
    have h2 := k.ops (h1.1 ▸ ho)
    exact ⟨h2.1.trans h1.1, fun w => (h2.2 w).trans (h1.2 w)⟩

/-! ## The pass of a vector instruction -/

theorem arithTraps_or (g : Group) (a b : Nat) : arithTraps g (a ||| b) = (arithTraps g a || arithTraps g b) := by
  simp only [arithTraps, Nat.and_or_distrib_right]
  generalize a &&& fmtEnables g = x
  generalize b &&& fmtEnables g = y
  by_cases hx : x = 0
  · subst hx; simp
  · have : x ||| y ≠ 0 := fun h => hx (Nat.eq_zero_of_le_zero (h ▸ Nat.left_le_or))
    rw [show (x ||| y != 0) = true from bne_iff_ne.2 this, show (x != 0) = true from bne_iff_ne.2 hx]; rfl

/-- A group that a pass has changed: only its vector registers, their poison, FLAGS and SRS differ. -/
def PassKept (g h : Group) : Prop :=
  h = { g with v := h.v, vPoison := h.vPoison, flags := h.flags, srs := h.srs }

theorem PassKept.rfl' (g : Group) : PassKept g g := rfl

theorem PassKept.vset {g h : Group} (k : PassKept g h) (r t : Nat) (x : Word) : PassKept g (vset h r t x) := by
  unfold PassKept at *; rw [k]; rfl

theorem PassKept.commit {g h : Group} (k : PassKept g h) (e : Eff) : PassKept g (commit h e) := by
  unfold PassKept at *; rw [k]; rfl

theorem PassKept.fmt {g h : Group} (k : PassKept g h) : h.fmt = g.fmt := by rw [k]
theorem PassKept.g {g h : Group} (k : PassKept g h) : h.g = g.g := by rw [k]
theorem PassKept.m {g h : Group} (k : PassKept g h) : h.m = g.m := by rw [k]
theorem PassKept.f {g h : Group} (k : PassKept g h) : h.f = g.f := by rw [k]
theorem PassKept.pc {g h : Group} (k : PassKept g h) : h.pc = g.pc := by rw [k]
theorem PassKept.instret {g h : Group} (k : PassKept g h) : h.instret = g.instret := by rw [k]
theorem PassKept.rix {g h : Group} (k : PassKept g h) : h.rix = g.rix := by rw [k]
theorem PassKept.hmask {g h : Group} (k : PassKept g h) : h.hmask = g.hmask := by rw [k]
theorem PassKept.priv {g h : Group} (k : PassKept g h) : h.priv = g.priv := by rw [k]
theorem PassKept.grpib {g h : Group} (k : PassKept g h) : h.grpib = g.grpib := by rw [k]

theorem PassKept.arithTraps {g h : Group} (k : PassKept g h) (x : Nat) : arithTraps h x = arithTraps g x := by
  simp only [Machine.arithTraps, fmtEnables, k.fmt]

/-- What one thread of a pass delivers depends on its own registers and on the generator it finds. -/
def Local (g : Group) (op : Group → Nat → Eff) (e : DWord → Nat → Eff) : Prop :=
  ∀ h t, PassKept g h → (∀ r, vget h r t = vget g r t) → op h t = e h.srs t

theorem poisoned_congr {g h : Group} {srcs : List Nat} {t : Nat}
    (k : ∀ r, mfind h.vPoison (r * 32 + t) = mfind g.vPoison (r * 32 + t)) : poisoned h srcs t = poisoned g srcs t := by
  simp only [poisoned, k]

/-- What the pass over a list of threads leaves in register `d`: `xs` are the values delivered. -/
def Passed (act : Word) (z : Bool) (d rix : Nat) (ts : List Nat) (xs : List (Nat × Word)) (g h : Group) : Prop :=
  ∀ r t, t < 32 →
    if r = d ∧ t ∈ ts ∧ rix ≤ t ∧ (act.getLsbD t = true ∨ z = true) then
      vget h r t = (if act.getLsbD t then (mfind xs t).getD (vget g r t) else 0) ∧ mfind h.vPoison (r * 32 + t) = none
    else vget h r t = vget g r t ∧ mfind h.vPoison (r * 32 + t) = mfind g.vPoison (r * 32 + t)

theorem vPoison_vset (g : Group) (r t r' t' : Nat) (x : Word) (h : t < 32) (h' : t' < 32) :
    mfind (vset g r t x).vPoison (r' * 32 + t') = if r' = r ∧ t' = t then none else mfind g.vPoison (r' * 32 + t') := by
  have : r' * 32 + t' = r * 32 + t ↔ r' = r ∧ t' = t := by omega
  simp only [vset_vPoison, mfind_mdel, this]

theorem Passed.skip {act : Word} {z : Bool} {d rix t : Nat} {ts : List Nat} {xs : List (Nat × Word)} {g h : Group}
    (hs : t < rix ∨ (act.getLsbD t = false ∧ z = false)) (k : Passed act z d rix ts xs g h) :
    Passed act z d rix (t :: ts) xs g h := by
  intro r u hu
  have h0 := k r u hu
  by_cases hut : u = t
  · subst hut
    have hn : ¬(rix ≤ u ∧ (act.getLsbD u = true ∨ z = true)) := by
      rintro ⟨h1, h2⟩
      rcases hs with hs | ⟨h3, h4⟩
      · omega
      · simp [h3, h4] at h2
    rw [if_neg fun k => hn k.2.2] at h0
    rw [if_neg fun k => hn k.2.2]; exact h0
  · simpa only [List.mem_cons, hut, false_or] using h0

theorem Passed.cons {act : Word} {z : Bool} {d rix t : Nat} {ts : List Nat} {xs : List (Nat × Word)} {g g1 h : Group}
    {x y : Word} (h32 : t < 32) (hn : t ∉ ts) (hr : rix ≤ t) (ha : act.getLsbD t = true ∨ z = true)
    (hx : x = if act.getLsbD t then y else 0)
    (hg : ∀ r u, vget g1 r u = vget g r u ∧ mfind g1.vPoison (r * 32 + u) = mfind g.vPoison (r * 32 + u))
    (k : Passed act z d rix ts xs (vset g1 d t x) h) : Passed act z d rix (t :: ts) ((t, y) :: xs) g h := by
  intro r u hu
  have h0 := k r u hu
  rw [vget_vset _ _ _ _ _ _ h32 hu, vPoison_vset _ _ _ _ _ _ h32 hu, (hg r u).1, (hg r u).2] at h0
  by_cases hut : u = t
  · subst hut
    rw [if_neg fun k => hn k.2.1] at h0
    by_cases hrd : r = d
    · subst hrd
      rw [if_pos (by simp [hr, ha])]
      simp only [and_self, if_true] at h0
      refine ⟨h0.1.trans ?_, h0.2⟩
      rw [hx]; simp [mfind]
    · rw [if_neg (fun k => hrd k.1)]
      simpa [hrd] using h0
  · have hm : mfind ((t, y) :: xs) u = mfind xs u := by simp [mfind, hut]
    simpa only [List.mem_cons, hut, false_or, and_false, if_false, hm] using h0

/-- The pass over a list of threads, where no thread traps. -/
theorem lanePass_delivers {act : Word} {z : Bool} {d : Nat} {srcs : List Nat} {op : Group → Nat → Eff}
    {e : DWord → Nat → Eff} {g0 : Group} (hop : Local g0 op e) (ts : List Nat) :
    ∀ g : Group, PassKept g0 g → ts.Nodup → (∀ t ∈ ts, t < 32) →
    (∀ t ∈ ts, ∀ r, vget g r t = vget g0 r t ∧ mfind g.vPoison (r * 32 + t) = mfind g0.vPoison (r * 32 + t)) →
    (∀ t ∈ (ts.filter act.getLsbD).filter (g0.rix ≤ ·), helper g0 t = false → poisoned g0 srcs t = false) →
    arithTraps g0 (passOver (settled g0 srcs e) ((ts.filter act.getLsbD).filter (g0.rix ≤ ·)) g.srs).2.1 = false →
    ∃ h, lanePass act z d srcs op ts g = (h, none) ∧ PassKept g0 h ∧
      Passed act z d g0.rix ts (passOver (settled g0 srcs e) ((ts.filter act.getLsbD).filter (g0.rix ≤ ·)) g.srs).1 g h ∧
      h.flags = g.flags ||| BitVec.ofNat 32 (passOver (settled g0 srcs e) ((ts.filter act.getLsbD).filter (g0.rix ≤ ·)) g.srs).2.1 ∧
      h.srs = (passOver (settled g0 srcs e) ((ts.filter act.getLsbD).filter (g0.rix ≤ ·)) g.srs).2.2 := by
  induction ts with
  | nil => intro g k _ _ _ _ _; exact ⟨g, rfl, k, fun r t _ => by simp, by simp [passOver], rfl⟩
  | cons t ts ih =>
    intro g k hn h32 hv hp ht
    have ⟨htn, hn'⟩ := List.nodup_cons.1 hn
    have h32' := fun u hu => h32 u (List.mem_cons_of_mem _ hu)
    have t32 := h32 t (List.mem_cons_self ..)
    rw [lanePass, k.rix]
    by_cases hr : t < g0.rix
    · have hnr : ¬g0.rix ≤ t := by omega
      have hf : ((t :: ts).filter act.getLsbD).filter (g0.rix ≤ ·) = (ts.filter act.getLsbD).filter (g0.rix ≤ ·) := by
        simp only [List.filter_cons]; split <;> simp [hnr]
      rw [hf] at hp ht ⊢
      rw [if_pos hr]
      obtain ⟨h, e1, e2, e3, e4, e5⟩ := ih g k hn' h32' (fun u hu => hv u (List.mem_cons_of_mem _ hu)) hp ht
      exact ⟨h, e1, e2, e3.skip (.inl hr), e4, e5⟩
    · rw [if_neg hr]
      have hle : g0.rix ≤ t := by omega
      have key : ∀ (g1 : Group) (x : Word),
          (∀ r u, vget g1 r u = vget g r u ∧ mfind g1.vPoison (r * 32 + u) = mfind g.vPoison (r * 32 + u)) →
          ∀ u ∈ ts, ∀ r, vget (vset g1 d t x) r u = vget g0 r u ∧
            mfind (vset g1 d t x).vPoison (r * 32 + u) = mfind g0.vPoison (r * 32 + u) := by
        intro g1 x h1 u hu r
        have hne : ¬(r = d ∧ u = t) := fun h => htn (h.2 ▸ hu)
        rw [vget_vset _ _ _ _ _ _ t32 (h32' u hu), vPoison_vset _ _ _ _ _ _ t32 (h32' u hu), if_neg hne, if_neg hne,
          (h1 r u).1, (h1 r u).2]
        exact hv u (List.mem_cons_of_mem _ hu) r
      by_cases ha : act.getLsbD t = true
      · have hf : ((t :: ts).filter act.getLsbD).filter (g0.rix ≤ ·) =
            t :: (ts.filter act.getLsbD).filter (g0.rix ≤ ·) := by
          simp [ha, hle]
        rw [hf] at hp ht ⊢
        rw [if_pos ha]
        have hv0 := hv t (List.mem_cons_self ..)
        have hE : op g t = e g.srs t := hop g t k fun r => (hv0 r).1
        have hP : poisoned g srcs t = poisoned g0 srcs t := poisoned_congr fun r => (hv0 r).2
        simp only [passOver, arithTraps_or, Bool.or_eq_false_iff] at ht
        have hstep : threadStep d srcs op g t = (vset (Machine.commit g (settled g0 srcs e g.srs t)) d t
            (settled g0 srcs e g.srs t).val, none) := by
          have hh : helper g t = helper g0 t := by simp only [helper, k.hmask, k.priv]
          have h0 := hp t (List.mem_cons_self ..)
          have h1 := ht.1
          have hc : ∀ x, Machine.commit g { val := x, srs := g.srs } = g := by intro x; simp [Machine.commit]
          simp only [settled] at h1 ⊢
          simp only [threadStep, hE, hP, k.arithTraps, hh]
          clear ih key hv hp ht
          cases h2 : helper g0 t <;> cases h3 : poisoned g0 srcs t <;> cases hr : arithTraps g0 (e g.srs t).raised <;>
            simp [h2, h3, hr, hc] at h0 h1 ⊢
        rw [hstep]
        obtain ⟨h, e1, e2, e3, e4, e5⟩ := ih (vset (Machine.commit g (settled g0 srcs e g.srs t)) d t
          (settled g0 srcs e g.srs t).val) ((k.commit _).vset ..) hn' h32' (key _ _ fun _ _ => ⟨rfl, rfl⟩)
          (fun u hu => hp u (List.mem_cons_of_mem _ hu)) ht.2
        refine ⟨h, e1, e2, ?_, ?_, ?_⟩
        · exact Passed.cons t32 htn hle (.inl ha) (by rw [if_pos ha]) (fun _ _ => ⟨rfl, rfl⟩) e3
        · rw [e4]; simp [passOver, BitVec.or_assoc, BitVec.ofNat_or]
        · rw [e5]; simp [passOver]
      · have hf : ((t :: ts).filter act.getLsbD).filter (g0.rix ≤ ·) = (ts.filter act.getLsbD).filter (g0.rix ≤ ·) := by
          simp [ha]
        rw [hf] at hp ht ⊢
        rw [if_neg ha]
        by_cases hz : z = true
        · rw [if_pos hz]
          obtain ⟨h, e1, e2, e3, e4, e5⟩ := ih (vset g d t 0) (k.vset ..) hn' h32'
            (key _ _ fun _ _ => ⟨rfl, rfl⟩) hp (by simpa using ht)
          refine ⟨h, e1, e2, ?_, by simpa using e4, by simpa using e5⟩
          have := Passed.cons (y := 0) t32 htn hle (.inr hz) (by rw [if_neg ha]) (fun _ _ => ⟨rfl, rfl⟩) e3
          intro r u hu
          have h0 := this r u hu
          by_cases hut : u = t
          · subst hut; simpa [ha] using h0
          · simpa [mfind, hut] using h0
        · rw [if_neg hz]
          obtain ⟨h, e1, e2, e3, e4, e5⟩ := ih g k hn' h32' (fun u hu => hv u (List.mem_cons_of_mem _ hu)) hp ht
          exact ⟨h, e1, e2, e3.skip (.inr ⟨by simpa using ha, by simpa using hz⟩), e4, e5⟩

/-- A group that a pass over every thread has changed reads as `Delivered` says. -/
theorem passed_delivered {ms d : Nat} {z : Bool} {xs : List (Nat × Word)} {g h : Group} {val : Nat → Word}
    (hx : ∀ t ∈ visited g ms, (mfind xs t).getD (vget g d t) = val t)
    (k : Passed (activeMask g ms) (zeroing z (activeMask g ms)) d g.rix (List.range 32) xs g h) :
    Delivered z ms d val g h := by
  intro t h32
  have h0 := k d t h32
  by_cases hs : t < g.rix ∨ ((activeMask g ms).getLsbD t = false ∧ (z = false ∨ activeMask g ms = 0))
  · rw [if_pos hs]
    rwa [if_neg] at h0
    rintro ⟨-, -, h1, h2⟩
    rcases hs with hs | ⟨h3, h4⟩
    · omega
    · rcases h4 with h4 | h4 <;> simp [zeroing, h4, h3] at h2 <;> simp [h4] at h3 h2
  · rw [if_neg hs]
    have h1 : g.rix ≤ t := by omega
    have h2 : (activeMask g ms).getLsbD t = true ∨ zeroing z (activeMask g ms) = true := by
      cases hb : (activeMask g ms).getLsbD t <;> cases z <;> simp_all [zeroing]
    rw [if_pos ⟨rfl, List.mem_range.2 h32, h1, h2⟩] at h0
    refine ⟨h0.1.trans ?_, h0.2⟩
    by_cases ha : (activeMask g ms).getLsbD t = true
    · rw [if_pos ha, if_pos ha, hx t (by simp [visited, threads, h32, ha, h1])]
    · rw [if_neg ha, if_neg ha]

theorem passed_others {act : Word} {z : Bool} {d : Nat} {ts : List Nat} {xs : List (Nat × Word)} {g h : Group}
    (k : Passed act z d g.rix ts xs g h) : VectorsKept [d] g h := by
  intro r t h32 hr
  have h0 := k r t h32
  rwa [if_neg fun q => hr (List.mem_singleton.2 q.1)] at h0

/-- An instruction whose effect on the group is `h` completes: what it leaves alone. -/
theorem advance_others {words : Nat} {s : State} {h : Group} {vs gs ms : List Nat} (hv : VectorsKept vs s.cur h)
    (hg : UniformsKept gs s.cur h) (hm : MasksKept ms s.cur h) (hk : GroupKept s.cur h) :
    OthersKept vs gs ms s (advance words { s with cur := h }) where
  vector := fun r t h32 hr => by
    simpa only [vget_advance, advance_vPoison] using hv r t h32 hr
  unif := fun r hr => by
    simpa only [gget_advance, advance_gPoison] using hg r hr
  masks := fun r hr => by
    simpa only [mreg_advance] using hm r hr
  group := groupKept_trans hk (advance_group words { s with cur := h })
  device := by
    have hd := advance_device words { s with cur := h }
    generalize advance words { s with cur := h } = t at hd
    exact ⟨by rw [hd.all], hd.bytes, hd.cores⟩

theorem advance_done {words : Nat} {s : State} {h : Group} (hp : h.pc = s.cur.pc) (hi : h.instret = s.cur.instret) :
    Completed words s (advance words { s with cur := h }) := by
  have hc := advance_completed words { s with cur := h }
  exact ⟨by rw [hc.pc, hp], hc.rix, hc.xc, hc.xcv, by rw [hc.instret, hi]⟩

theorem groupKept_rfl (g : Group) : GroupKept g g := ⟨rfl, fun _ => ⟨rfl, fun _ => rfl⟩⟩

theorem PassKept.group {g h : Group} (k : PassKept g h) : GroupKept g h := by
  rw [k]; exact ⟨rfl, fun _ => ⟨rfl, fun _ => rfl⟩⟩

theorem PassKept.unif {g h : Group} (k : PassKept g h) : UniformsKept [] g h := by
  intro r _; rw [k]; exact ⟨rfl, rfl⟩

theorem PassKept.masks {g h : Group} (k : PassKept g h) : MasksKept [] g h := by
  intro r _; rw [k]; rfl

theorem passOver_finds (e : DWord → Nat → Eff) (ts : List Nat) (srs : DWord) (t : Nat) (h : t ∈ ts) :
    ∃ x, mfind (passOver e ts srs).1 t = some x := by
  induction ts generalizing srs with
  | nil => cases h
  | cons u us ih =>
    by_cases hu : u = t
    · exact ⟨(e srs u).val, by simp [passOver, mfind, hu]⟩
    · obtain ⟨x, hx⟩ := ih (e srs u).srs (by simpa [Ne.symm hu] using h)
      exact ⟨x, by simpa [passOver, mfind, Ne.symm hu] using hx⟩

/-- A vector instruction that issues and on no thread traps completes, with what its threads deliver. -/
theorem vectorPass_rounds {z : Bool} {words ms d : Nat} {srcs : List Nat} {op : Group → Nat → Eff}
    {e : DWord → Nat → Eff} {s : State} (hop : Local s.cur op e) (ht : NoTrap s.cur ms srcs e) :
    VectorRounded z ms words d srcs e s (vectorPass words ms z d srcs op s) := by
  obtain ⟨h, e1, k, e3, e4, e5⟩ := lanePass_delivers (act := activeMask s.cur ms) (z := zeroing z (activeMask s.cur ms)) (d := d) (srcs := srcs) hop
    (List.range 32) s.cur (PassKept.rfl' _) List.nodup_range (fun t ht => List.mem_range.1 ht) (fun _ _ _ => ⟨rfl, rfl⟩)
    ht.sound ht.masked
  have hvp : vectorPass words ms z d srcs op s = advance words { s with cur := h } := by
    simp [vectorPass, e1, endPass]
  rw [hvp]
  refine ⟨advance_done k.pc k.instret, ?_, by rw [advance_flags]; exact e4, by rw [advance_srs]; exact e5,
    by simpa only [FlagsKept, advance_f] using k.f, advance_others (passed_others e3) k.unif k.masks k.group⟩
  have hd := passed_delivered (val := fun i => (mfind (passOf s.cur ms srcs e).1 i).getD 0) (fun t hv => ?_) e3
  · intro t h32
    simpa only [vget_advance, advance_vPoison] using hd t h32
  · obtain ⟨x, hx⟩ := passOver_finds (settled s.cur srcs e) (visited s.cur ms) s.cur.srs t hv
    have h1 : mfind (passOf s.cur ms srcs e).1 t = some x := hx
    rw [show mfind (passOver (settled s.cur srcs e)
      (((List.range 32).filter (activeMask s.cur ms).getLsbD).filter (s.cur.rix ≤ ·)) s.cur.srs).1 t = some x from hx, h1]
    rfl

/-- A pass whose threads round nothing. -/
theorem passOver_plain {e : DWord → Nat → Eff} {val : Nat → Word} (he : ∀ srs t, e srs t = { val := val t, srs := srs })
    (ts : List Nat) (srs : DWord) : passOver e ts srs = (ts.map fun t => (t, val t), 0, srs) := by
  induction ts with
  | nil => rfl
  | cons t ts ih => simp [passOver, he, ih]

theorem mfind_map {val : Nat → Word} {ts : List Nat} {t : Nat} (h : t ∈ ts) :
    mfind (ts.map fun t => (t, val t)) t = some (val t) := by
  induction ts with
  | nil => cases h
  | cons u us ih =>
    by_cases hu : u = t
    · subst hu; simp [mfind]
    · have : t ∈ us := by simpa [Ne.symm hu] using h
      simp [mfind, ih this, Ne.symm hu]

/-- A vector instruction that issues, reads no poison but in helpers and rounds nothing completes, with a value for each
thread. -/
theorem vectorPass_done {z : Bool} {words ms d : Nat} {srcs : List Nat} {op : Group → Nat → Eff} {val : Nat → Word}
    {s : State} (hop : Local s.cur op fun srs t => { val := val t, srs := srs }) (hp : NoPoison s.cur ms srcs) :
    VectorDone z ms words d srcs val s (vectorPass words ms z d srcs op s) := by
  have hq := passOver_plain (e := settled s.cur srcs fun srs t => { val := val t, srs := srs })
    (val := fun t => if helper s.cur t && poisoned s.cur srcs t then 0 else val t)
    (fun srs t => by
      cases h : helper s.cur t <;> cases h' : poisoned s.cur srcs t <;> simp [settled, arithTraps, h, h'])
    (visited s.cur ms) s.cur.srs
  have h := vectorPass_rounds (z := z) (words := words) (d := d) hop ⟨hp, by simp [passOf, hq, arithTraps]⟩
  refine ⟨fun t h32 => ?_, h.done, ⟨?_, ?_⟩, h.flags, h.others⟩
  · have h0 := h.value t h32
    split at h0
    · rename_i hc; rwa [if_pos hc]
    · rename_i hc
      rw [if_neg hc]
      refine ⟨h0.1.trans ?_, h0.2⟩
      by_cases ha : (activeMask s.cur ms).getLsbD t = true
      · have hv : t ∈ visited s.cur ms := by
          simp only [not_or] at hc
          simp [visited, threads, h32, ha]; omega
        rw [if_pos ha, if_pos ha]
        simp only [passOf, hq, mfind_map hv, Option.getD_some]
      · rw [if_neg ha, if_neg ha]
  · rw [h.raised]; simp [passOf, hq]
  · rw [h.srs]; simp [passOf, hq]

theorem vectorOp_runs {p : Option Prefix} {d : BitVec 6} {srcs gr : List Nat} {vc : Bool} {extra : Nat}
    {op : Group → Nat → Eff} {s : State} (hi : Issues s.cur (d.toNat :: srcs ++ if vc then [vcOf p d] else []) gr []) :
    vectorOp p d srcs vc gr extra op s = vectorPass (words1 p + extra) (maskOf p) (zeroes p) d.toNat
      (srcs ++ if vc then [vcOf p d] else []) op s := by
  refine withUses_runs hi (fun r hr => ?_) (fun r h => h) (by simp) (by simp)
  cases p <;> cases vc <;> simp [vcOf, vcNamed] at hr ⊢ <;> grind

/-- A vector instruction in its usual form that rounds. -/
theorem vectorOp_rounded {p : Option Prefix} {d : BitVec 6} {srcs gr : List Nat} {vc : Bool} {extra : Nat}
    {op : Group → Nat → Eff} {e : DWord → Nat → Eff} {s : State}
    (hi : Issues s.cur (d.toNat :: srcs ++ if vc then [vcOf p d] else []) gr [])
    (ht : NoTrap s.cur (maskOf p) (srcs ++ if vc then [vcOf p d] else []) e) (hop : Local s.cur op e) :
    VectorRounded (zeroes p) (maskOf p) (words1 p + extra) d.toNat (srcs ++ if vc then [vcOf p d] else []) e s
      (vectorOp p d srcs vc gr extra op s) := by
  rw [vectorOp_runs hi]; exact vectorPass_rounds hop ht

/-- A vector instruction in its usual form that rounds nothing. -/
theorem vectorOp_done {p : Option Prefix} {d : BitVec 6} {srcs gr : List Nat} {vc : Bool} {extra : Nat}
    {op : Group → Nat → Eff} {val : Nat → Word} {s : State}
    (hi : Issues s.cur (d.toNat :: srcs ++ if vc then [vcOf p d] else []) gr [])
    (hp : NoPoison s.cur (maskOf p) (srcs ++ if vc then [vcOf p d] else []))
    (hop : Local s.cur op fun srs t => { val := val t, srs := srs }) :
    VectorDone (zeroes p) (maskOf p) (words1 p + extra) d.toNat (srcs ++ if vc then [vcOf p d] else []) val s
      (vectorOp p d srcs vc gr extra op s) := by
  rw [vectorOp_runs hi]; exact vectorPass_done hop hp

/-- The effective rounding mode does not change in a pass. -/
theorem PassKept.rmode {g h : Group} (k : PassKept g h) (p : Option Prefix) : rmode h p = rmode g p := by
  cases p <;> simp only [Machine.rmode, fmtRm, k.fmt]

end Sys2Proof.Machine
end

