-- ==== Sys2Proof/Laws/Vector.lean ====
section
/-! SUPPORT. The vector forms of Machine/VecFloat.lean: what an instruction of one, two or three sources does when it issues
and no thread of it traps. -/

namespace Sys2Proof.Machine

theorem srcVal_kept {g h : Group} (k : PassKept g h) (hv : ∀ r, vget h r t = vget g r t) (b : Src) :
    srcVal h t b = srcVal g t b := by
  cases b with
  | v r => exact hv _
  | g r => simp only [srcVal, gget, k.g]
  | w x => rfl

/-- One source, nothing rounded. -/
theorem vector1_done {p : Option Prefix} {d a : BitVec 6} {f : Group → Word → Eff} {val : Word → Word} {s : State}
    (hf : ∀ h x, f h x = { val := val x, srs := h.srs }) (hi : Issues s.cur [d.toNat, a.toNat] [] [])
    (hp : NoPoison s.cur (maskOf p) [a.toNat]) :
    VectorDone (zeroes p) (maskOf p) (words1 p) d.toNat [a.toNat] (fun i => val (vget s.cur a.toNat i)) s
      (vector1 p d a f s) := by
  have h := vectorOp_done (p := p) (d := d) (srcs := [a.toNat]) (gr := []) (vc := false) (extra := 0)
    (op := fun g t => f g (vget g a.toNat t)) (val := fun i => val (vget s.cur a.toNat i)) (s := s) (by simpa using hi)
    (by simpa using hp) fun h t k hv => by simp only [hf, hv]
  simpa [vector1] using h

/-- Two sources, nothing rounded. -/
theorem vector2_done {p : Option Prefix} {d a : BitVec 6} {b : Src} {extra : Nat} {f : Group → Word → Word → Eff}
    {val : Word → Word → Word} {s : State} (hf : ∀ h x y, f h x y = { val := val x y, srs := h.srs })
    (hi : Issues s.cur (d.toNat :: a.toNat :: srcV b) (srcG b) []) (hp : NoPoison s.cur (maskOf p) (a.toNat :: srcV b)) :
    VectorDone (zeroes p) (maskOf p) (words1 p + extra) d.toNat (a.toNat :: srcV b)
      (fun i => val (vget s.cur a.toNat i) (srcVal s.cur i b)) s (vector2 p d a b extra f s) := by
  have h := vectorOp_done (p := p) (d := d) (srcs := a.toNat :: srcV b) (gr := srcG b) (vc := false) (extra := extra)
    (op := fun g t => f g (vget g a.toNat t) (srcVal g t b)) (val := fun i => val (vget s.cur a.toNat i) (srcVal s.cur i b))
    (s := s) (by simpa using hi) (by simpa using hp) fun h t k hv => by simp only [hf, hv, srcVal_kept k hv]
  simpa [vector2] using h

/-- Two sources and the fourth operand, nothing rounded. -/
theorem vector3_done {p : Option Prefix} {d a : BitVec 6} {b : Src} {f : Group → Word → Word → Word → Eff}
    {val : Word → Word → Word → Word} {s : State} (hf : ∀ h x y z, f h x y z = { val := val x y z, srs := h.srs })
    (hi : Issues s.cur (d.toNat :: a.toNat :: (srcV b ++ [vcOf p d])) (srcG b) [])
    (hp : NoPoison s.cur (maskOf p) (a.toNat :: (srcV b ++ [vcOf p d]))) :
    VectorDone (zeroes p) (maskOf p) (words1 p) d.toNat (a.toNat :: (srcV b ++ [vcOf p d]))
      (fun i => val (vget s.cur a.toNat i) (srcVal s.cur i b) (vget s.cur (vcOf p d) i)) s (vector3 p d a b f s) := by
  have h := vectorOp_done (p := p) (d := d) (srcs := a.toNat :: srcV b) (gr := srcG b) (vc := true) (extra := 0)
    (op := fun g t => f g (vget g a.toNat t) (srcVal g t b) (vget g (vcOf p d) t))
    (val := fun i => val (vget s.cur a.toNat i) (srcVal s.cur i b) (vget s.cur (vcOf p d) i))
    (s := s) (by simpa using hi) (by simpa using hp) fun h t k hv => by simp only [hf, hv, srcVal_kept k hv]
  simpa [vector3] using h

/-- No vector source but, it may be, one operand; nothing rounded. -/
theorem vectorB_done {p : Option Prefix} {d : BitVec 6} {b : Src} {extra : Nat} {f : Group → Word → Eff}
    {val : Word → Word} {s : State} (hf : ∀ h x, f h x = { val := val x, srs := h.srs })
    (hi : Issues s.cur (d.toNat :: srcV b) (srcG b) []) (hp : NoPoison s.cur (maskOf p) (srcV b)) :
    VectorDone (zeroes p) (maskOf p) (words1 p + extra) d.toNat (srcV b) (fun i => val (srcVal s.cur i b)) s
      (vectorB p d b extra f s) := by
  have h := vectorOp_done (p := p) (d := d) (srcs := srcV b) (gr := srcG b) (vc := false) (extra := extra)
    (op := fun g t => f g (srcVal g t b)) (val := fun i => val (srcVal s.cur i b)) (s := s) (by simpa using hi)
    (by simpa using hp) fun h t k hv => by simp only [hf, srcVal_kept k hv]
  simpa [vectorB] using h

/-- One source, rounded: `e` is what `f` delivers with a generator, under the FMT that the instruction began with. -/
theorem vector1_rounded {p : Option Prefix} {d a : BitVec 6} {f : Group → Word → Eff} {e : Word → DWord → Eff} {s : State}
    (hf : ∀ h x, PassKept s.cur h → f h x = e x h.srs) (hi : Issues s.cur [d.toNat, a.toNat] [] [])
    (ht : NoTrap s.cur (maskOf p) [a.toNat] fun srs i => e (vget s.cur a.toNat i) srs) :
    VectorRounded (zeroes p) (maskOf p) (words1 p) d.toNat [a.toNat] (fun srs i => e (vget s.cur a.toNat i) srs) s
      (vector1 p d a f s) := by
  have h := vectorOp_rounded (p := p) (d := d) (srcs := [a.toNat]) (gr := []) (vc := false) (extra := 0)
    (op := fun g t => f g (vget g a.toNat t)) (e := fun srs i => e (vget s.cur a.toNat i) srs) (s := s)
    (by simpa using hi) (by simpa using ht) fun h t k hv => by simp only [hf _ _ k, hv]
  simpa [vector1] using h

/-- Two sources, rounded. -/
theorem vector2_rounded {p : Option Prefix} {d a : BitVec 6} {b : Src} {extra : Nat} {f : Group → Word → Word → Eff}
    {e : Word → Word → DWord → Eff} {s : State} (hf : ∀ h x y, PassKept s.cur h → f h x y = e x y h.srs)
    (hi : Issues s.cur (d.toNat :: a.toNat :: srcV b) (srcG b) [])
    (ht : NoTrap s.cur (maskOf p) (a.toNat :: srcV b) fun srs i => e (vget s.cur a.toNat i) (srcVal s.cur i b) srs) :
    VectorRounded (zeroes p) (maskOf p) (words1 p + extra) d.toNat (a.toNat :: srcV b)
      (fun srs i => e (vget s.cur a.toNat i) (srcVal s.cur i b) srs) s (vector2 p d a b extra f s) := by
  have h := vectorOp_rounded (p := p) (d := d) (srcs := a.toNat :: srcV b) (gr := srcG b) (vc := false) (extra := extra)
    (op := fun g t => f g (vget g a.toNat t) (srcVal g t b))
    (e := fun srs i => e (vget s.cur a.toNat i) (srcVal s.cur i b) srs) (s := s) (by simpa using hi) (by simpa using ht)
    fun h t k hv => by simp only [hf _ _ _ k, hv, srcVal_kept k hv]
  simpa [vector2] using h

/-- Two sources and the fourth operand, rounded. -/
theorem vector3_rounded {p : Option Prefix} {d a : BitVec 6} {b : Src} {f : Group → Word → Word → Word → Eff}
    {e : Word → Word → Word → DWord → Eff} {s : State} (hf : ∀ h x y z, PassKept s.cur h → f h x y z = e x y z h.srs)
    (hi : Issues s.cur (d.toNat :: a.toNat :: (srcV b ++ [vcOf p d])) (srcG b) [])
    (ht : NoTrap s.cur (maskOf p) (a.toNat :: (srcV b ++ [vcOf p d])) fun srs i =>
      e (vget s.cur a.toNat i) (srcVal s.cur i b) (vget s.cur (vcOf p d) i) srs) :
    VectorRounded (zeroes p) (maskOf p) (words1 p) d.toNat (a.toNat :: (srcV b ++ [vcOf p d]))
      (fun srs i => e (vget s.cur a.toNat i) (srcVal s.cur i b) (vget s.cur (vcOf p d) i) srs) s (vector3 p d a b f s) := by
  have h := vectorOp_rounded (p := p) (d := d) (srcs := a.toNat :: srcV b) (gr := srcG b) (vc := true) (extra := 0)
    (op := fun g t => f g (vget g a.toNat t) (srcVal g t b) (vget g (vcOf p d) t))
    (e := fun srs i => e (vget s.cur a.toNat i) (srcVal s.cur i b) (vget s.cur (vcOf p d) i) srs) (s := s)
    (by simpa using hi) (by simpa using ht) fun h t k hv => by simp only [hf _ _ _ _ k, hv, srcVal_kept k hv]
  simpa [vector3] using h

/-- The FP32 functions deliver what `rounded32` gives in the effective mode. -/
theorem float1_rounds {g h : Group} (k : PassKept g h) (p : Option Prefix) (f : Nat → FVal → XVal × Nat) (x : Word) :
    float1 p f h x = rounded32 (rmode g p) (f (rmode g p) (f32 x)) h.srs := by simp only [float1, deliver32, rounded32, k.rmode]
theorem float2_rounds {g h : Group} (k : PassKept g h) (p : Option Prefix) (f : Nat → FVal → FVal → XVal × Nat) (x y : Word) :
    float2 p f h x y = rounded32 (rmode g p) (f (rmode g p) (f32 x) (f32 y)) h.srs := by
  simp only [float2, deliver32, rounded32, k.rmode]
theorem float3_rounds {g h : Group} (k : PassKept g h) (p : Option Prefix) (f : Nat → FVal → FVal → FVal → XVal × Nat)
    (x y z : Word) : float3 p f h x y z = rounded32 (rmode g p) (f (rmode g p) (f32 x) (f32 y) (f32 z)) h.srs := by
  simp only [float3, deliver32, rounded32, k.rmode]

end Sys2Proof.Machine
end

