-- ==== Sys2Proof/Laws/Uniform.lean ====
section
/-! SUPPORT. The uniform forms (R106 to R109): what an instruction does that only writes uniform registers, a mask register
or a flag. -/

namespace Sys2Proof.Machine

/-- An instruction whose effect on the group is `h` completes, and leaves everything else alone. -/
theorem advance_only {words : Nat} {s : State} {h : Group} {vs gs ms : List Nat} (hv : VectorsKept vs s.cur h)
    (hg : UniformsKept gs s.cur h) (hm : MasksKept ms s.cur h) (hk : GroupKept s.cur h) (hp : h.pc = s.cur.pc)
    (hi : h.instret = s.cur.instret) (hs : StatusKept s.cur h) (hf : h.f = s.cur.f) :
    OnlyWrites words vs gs ms s (advance words { s with cur := h }) where
  done := advance_done hp hi
  status := by simpa only [StatusKept, advance_flags, advance_srs] using hs
  flags := by simpa only [FlagsKept, advance_f] using hf
  others := advance_others hv hg hm hk

theorem gPoison_gset (g : Group) (r r' : Nat) (x : Word) :
    mfind (gset g r x).gPoison r' = if r' = r then none else mfind g.gPoison r' := by
  simp only [gset_gPoison, mfind_mdel]

theorem uniformsKept_gset {ds : List Nat} {g h : Group} (k : UniformsKept ds g h) (d : Nat) (x : Word) :
    UniformsKept (d :: ds) g (gset h d x) := by
  intro r hr
  have ⟨h1, h2⟩ : r ≠ d ∧ r ∉ ds := by simpa using hr
  rw [gget_gset, gPoison_gset, if_neg h1, if_neg h1]
  exact k r h2

/-- One register written. -/
theorem uniformDone_gset {words d : Nat} {x : Word} {s : State} :
    UniformDone words [(d, x)] s (advance words { s with cur := gset s.cur d x }) := by
  refine ⟨?_, advance_only (fun _ _ _ _ => ⟨rfl, rfl⟩) (uniformsKept_gset (fun _ _ => ⟨rfl, rfl⟩) d x) (fun _ _ => rfl)
    ⟨rfl, fun _ => ⟨rfl, fun _ => rfl⟩⟩ rfl rfl ⟨rfl, rfl⟩ rfl⟩
  intro w hw
  obtain rfl := List.mem_singleton.1 hw
  rw [gget_advance, advance_gPoison, gget_gset, gPoison_gset, if_pos rfl, if_pos rfl]
  exact ⟨rfl, rfl⟩

/-- A pair written. -/
theorem uniformDone_pair {words d : Nat} {x y : Word} {s : State} :
    UniformDone words [(d, x), (d + 1, y)] s (advance words { s with cur := gset (gset s.cur d x) (d + 1) y }) := by
  refine ⟨?_, advance_only (fun _ _ _ _ => ⟨rfl, rfl⟩) ?_ (fun _ _ => rfl)
    ⟨rfl, fun _ => ⟨rfl, fun _ => rfl⟩⟩ rfl rfl ⟨rfl, rfl⟩ rfl⟩
  · intro w hw
    have h1 : d ≠ d + 1 := by omega
    rcases List.mem_cons.1 hw with rfl | hw
    · rw [gget_advance, advance_gPoison, gget_gset, gPoison_gset, if_neg h1, if_neg h1, gget_gset, gPoison_gset, if_pos rfl,
        if_pos rfl]
      exact ⟨rfl, rfl⟩
    · obtain rfl := List.mem_singleton.1 hw
      rw [gget_advance, advance_gPoison, gget_gset, gPoison_gset, if_pos rfl, if_pos rfl]
      exact ⟨rfl, rfl⟩
  · intro r hr
    refine uniformsKept_gset (ds := [d]) (uniformsKept_gset (ds := []) (fun _ _ => ⟨rfl, rfl⟩) d x) (d + 1) y r fun h => hr ?_
    simp only [List.map_cons, List.map_nil, List.mem_cons, List.not_mem_nil, or_false] at h ⊢
    exact h.symm

/-- A uniform instruction that issues. -/
theorem uniformOp_runs {u : Uses} {words : Nat} {f : Group → Group} {s : State} {vs gr gw : List Nat}
    (h : Issues s.cur vs gr gw) (hv : ∀ r ∈ u.vr ++ u.vw ++ u.vc.toList, r ∈ vs) (hr : ∀ r ∈ u.gr, r ∈ gr)
    (hw : ∀ r ∈ u.gw, r ∈ gr ++ gw) (ht : u.tile = none) :
    uniformOp u words f s = advance words { s with cur := f s.cur } :=
  withUses_runs h hv hr hw (by simp [ht])

/-- A uniform FP32 instruction that issues and does not trap. -/
theorem uniformRounded_gset {words d : Nat} {e : Eff} {s : State} :
    UniformRounded words d e s (advance words { s with cur := gset (commit s.cur e) d e.val }) where
  done := advance_done rfl rfl
  value := by
    rw [gget_advance, advance_gPoison, gget_gset, gPoison_gset, if_pos rfl, if_pos rfl]; exact ⟨rfl, rfl⟩
  raised := by rw [advance_flags]; rfl
  srs := by rw [advance_srs]; rfl
  flags := by rw [FlagsKept, advance_f]; rfl
  others := advance_others (fun _ _ _ _ => ⟨rfl, rfl⟩) (uniformsKept_gset (fun _ _ => ⟨rfl, rfl⟩) d e.val) (fun _ _ => rfl)
    ⟨rfl, fun _ => ⟨rfl, fun _ => rfl⟩⟩

/-- A mask register written. -/
theorem maskDone_mwrite {d : Nat} {x : Word} {s : State} :
    MaskDone d x s (advance 1 { s with cur := mwrite s.cur d x }) := by
  refine ⟨?_, advance_only (fun _ _ _ _ => ⟨rfl, rfl⟩) (fun _ _ => ⟨rfl, rfl⟩) ?_
    ⟨rfl, fun _ => ⟨rfl, fun _ => rfl⟩⟩ rfl rfl ⟨rfl, rfl⟩ rfl⟩
  · rw [mreg_advance, mreg_mwrite, if_pos rfl]
  · intro r hr
    rw [mreg_mwrite, if_neg (by simpa using hr)]

/-- A flag written. -/
theorem flagDone_fset {f raised : Nat} {b : Bool} {s : State} (hf : f < 4) :
    FlagDone f b raised s (advance 1
      { s with cur := fset { s.cur with flags := s.cur.flags ||| BitVec.ofNat 32 raised } f b }) where
  done := advance_done rfl rfl
  value := by
    intro i hi
    simp only [fget, advance_f]
    simp only [fset]
    generalize s.cur.f = x
    revert x b
    have : ∀ f < 4, ∀ i < 4, ∀ b, ∀ x : BitVec 4,
        (if b then x ||| BitVec.ofNat 4 (2 ^ f) else x &&& ~~~BitVec.ofNat 4 (2 ^ f)).getLsbD i =
          if i = f then b else x.getLsbD i := by decide
    exact fun {b} x => this f hf i hi b x
  raised := by rw [advance_flags]; rfl
  srs := by rw [advance_srs]; rfl
  others := advance_others (fun _ _ _ _ => ⟨rfl, rfl⟩) (fun _ _ => ⟨rfl, rfl⟩) (fun _ _ => rfl)
    ⟨rfl, fun _ => ⟨rfl, fun _ => rfl⟩⟩

end Sys2Proof.Machine
end

