-- ==== Sys2Proof/Tests/Slice0.lean ====
section
/-! SUPPORT. Tests: words written out from the spec's formats and the instructions they stand for; terms that are not well
formed; results from the spec's worked examples and its definitions; and for every statement with hypotheses a state and operands
that meet them (`witness_<statement>`). -/

namespace Sys2Proof.Tests

open Sys2Proof Sys2Proof.Machine

set_option Elab.async false

/-! ## Terms that are not well formed (R44, R45, R48), one for each check -/

def pfx : Prefix := { ms := 0, rnd := .fmt, vc := 0, z := false, sat := false, gx := 0, imm := 0 }

theorem test_wf_good : wellFormed (.ffma (some { pfx with ms := 3, rnd := .rtz, vc := 7, z := true }) 3 1 2) = true := by decide +kernel
theorem test_wf_event : wellFormed (.branchResolve 0) = false := by decide +kernel
theorem test_wf_ms : wellFormed (.gadd (some { pfx with ms := 1 }) 1 2 3) = false := by decide +kernel
theorem test_wf_rnd : wellFormed (.iadd (some { pfx with rnd := .rne }) 1 2 3) = false := by decide +kernel
theorem test_wf_vc : wellFormed (.fadd (some { pfx with vc := 1 }) 1 2 3) = false := by decide +kernel
theorem test_wf_z : wellFormed (.exit (some { pfx with z := true })) = false := by decide +kernel
theorem test_wf_sat : wellFormed (.fadd (some { pfx with sat := true }) 1 2 3) = false := by decide +kernel
theorem test_wf_gx : wellFormed (.gmov (some { pfx with gx := 1 }) 1 2) = false := by decide +kernel
theorem test_wf_imm : wellFormed (.lds (some { pfx with imm := 0x80 }) 4 1 0 .b32) = false := by decide +kernel
theorem test_wf_pair : wellFormed (.ldv none 5 1 2 0 .b64) = false := by decide +kernel
theorem test_wf_ldvs : wellFormed (.ldvs none 5 1 2 0 .b32) = false := by decide +kernel
theorem test_wf_cas : wellFormed (.atomCas none 6 1 2 true true) = false := by decide +kernel
theorem test_wf_gadd64 : wellFormed (.gadd64 none 2 4 7) = false := by decide +kernel
theorem test_wf_gcmp : wellFormed (.gcmp 0 .lt .i64 4 5) = false := by decide +kernel
theorem test_wf_gld64 : wellFormed (.gld64 3 1 0) = false := by decide +kernel
theorem test_wf_jg : wellFormed (.jg 4 5) = false := by decide +kernel
theorem test_wf_cwait : wellFormed (.cwait 1 3) = false := by decide +kernel
theorem test_wf_bar : wellFormed (.barSync 0 0) = false := by decide +kernel
theorem test_wf_pkpl : wellFormed (.pkplF32 1 2 0) = false := by decide +kernel
theorem test_wf_sysc : wellFormed (.syscFuture 0 0 1) = false := by decide +kernel
theorem test_wf_srr : wellFormed (.srr 3 0x024) = false := by decide +kernel

/-! ## Words written out from the formats of R42 and the opcode map of R46, and what they stand for -/

/-- Every instruction of the table is read from its words. -/
abbrev Reads (rows : List (List Word × Instr)) : Prop := ∀ row ∈ rows, decodeWords row.1 = .instr row.2 row.1.length

theorem test_decode_VF : Reads [
  ([0b0000001_010100_001001_100110_0000000], .fadd none 20 9 38),
  ([0b0000001_010100_001001_100110_0000001], .fsub none 20 9 38),
  ([0b0000001_010100_001001_100110_0000010], .fmul none 20 9 38),
  ([0b0000001_010100_001001_100110_0000011], .ffma none 20 9 38),
  ([0b0000001_010100_001001_100110_0000100], .ffms none 20 9 38),
  ([0b0000001_010100_001001_100110_0000101], .fnma none 20 9 38),
  ([0b0000001_010100_001001_100110_0000110], .fmin none 20 9 38),
  ([0b0000001_010100_001001_100110_0000111], .fmax none 20 9 38),
  ([0b0000001_010100_001001_100110_0001000], .fdiv none 20 9 38),
  ([0b0000001_010100_001001_0000000001001], .fsqrt none 20 9),
  ([0b0000001_010100_001001_0000000001010], .frcp none 20 9),
  ([0b0000001_010100_001001_0000000001011], .frsq none 20 9),
  ([0b0000001_010100_001001_0000000001100], .fexp2 none 20 9),
  ([0b0000001_010100_001001_0000000001101], .flog2 none 20 9),
  ([0b0000001_010100_001001_0000000001110], .fsigm none 20 9),
  ([0b0000001_010100_001001_0000000001111], .ftanh none 20 9),
  ([0b0000001_010100_001001_0000000010000], .fabs none 20 9),
  ([0b0000001_010100_001001_0000000010001], .fneg none 20 9),
  ([0b0000001_010100_001001_0000000010010], .frint none 20 9),
  ([0b0000001_010100_001001_100110_0010011], .fcpys none 20 9 38),
  ([0b0000001_010100_001001_0000000010100], .fclass none 20 9),
  ([0b0000001_010100_001001_100110_0010101], .fscale none 20 9 38)] := by decide +kernel

theorem test_decode_VFG : Reads [
  ([0b0000010_010100_001001_100101100_0000], .faddG none 20 9 0x12c),
  ([0b0000010_010100_001001_100101100_0001], .fsubG none 20 9 0x12c),
  ([0b0000010_010100_001001_100101100_0010], .fmulG none 20 9 0x12c),
  ([0b0000010_010100_001001_100101100_0011], .ffmaG none 20 9 0x12c),
  ([0b0000010_010100_001001_100101100_0100], .fminG none 20 9 0x12c),
  ([0b0000010_010100_001001_100101100_0101], .fmaxG none 20 9 0x12c),
  ([0b0000010_010100_001001_100101100_0110], .fdivG none 20 9 0x12c),
  ([0b0000010_010100_001001_100101100_0111], .fscaleG none 20 9 0x12c)] := by decide +kernel

theorem test_decode_VH : Reads [
  ([0b0000011_010100_001001_100110_1_000000], .hadd2 none true 20 9 38),
  ([0b0000011_010100_001001_100110_1_000001], .hsub2 none true 20 9 38),
  ([0b0000011_010100_001001_100110_1_000010], .hmul2 none true 20 9 38),
  ([0b0000011_010100_001001_100110_1_000011], .hfma2 none true 20 9 38),
  ([0b0000011_010100_001001_100110_1_000100], .hmin2 none true 20 9 38),
  ([0b0000011_010100_001001_100110_1_000101], .hmax2 none true 20 9 38),
  ([0b0000011_010100_001001_100110_1_000110], .hdot2 none true 20 9 38)] := by decide +kernel

theorem test_decode_VI : Reads [
  ([0b0000100_010100_001001_100110_0000000], .iadd none 20 9 38),
  ([0b0000100_010100_001001_100110_0000001], .isub none 20 9 38),
  ([0b0000100_010100_001001_100110_0000010], .imul none 20 9 38),
  ([0b0000100_010100_001001_100110_0000011], .imulh none 20 9 38),
  ([0b0000100_010100_001001_100110_0000100], .nmulh none 20 9 38),
  ([0b0000100_010100_001001_100110_0000101], .imad none 20 9 38),
  ([0b0000100_010100_001001_100110_0000110], .imin none 20 9 38),
  ([0b0000100_010100_001001_100110_0000111], .imax none 20 9 38),
  ([0b0000100_010100_001001_100110_0001000], .nmin none 20 9 38),
  ([0b0000100_010100_001001_100110_0001001], .nmax none 20 9 38),
  ([0b0000100_010100_001001_100110_0001010], .and none 20 9 38),
  ([0b0000100_010100_001001_100110_0001011], .or none 20 9 38),
  ([0b0000100_010100_001001_100110_0001100], .xor none 20 9 38),
  ([0b0000100_010100_001001_100110_0001101], .andn none 20 9 38),
  ([0b0000100_010100_001001_100110_0001110], .shl none 20 9 38),
  ([0b0000100_010100_001001_100110_0001111], .shr none 20 9 38),
  ([0b0000100_010100_001001_100110_0010000], .sar none 20 9 38),
  ([0b0000100_010100_001001_100110_0010001], .rotl none 20 9 38),
  ([0b0000100_010100_001001_0000000010010], .popc none 20 9),
  ([0b0000100_010100_001001_0000000010011], .clz none 20 9),
  ([0b0000100_010100_001001_0000000010100], .brev none 20 9),
  ([0b0000100_010100_001001_0000000010101], .iabs none 20 9),
  ([0b0000100_010100_001001_100110_0010110], .iadds none 20 9 38),
  ([0b0000100_010100_001001_100110_0010111], .isubs none 20 9 38),
  ([0b0000100_010100_001001_100110_0011000], .idp4 none 20 9 38)] := by decide +kernel

theorem test_decode_VIG : Reads [
  ([0b0000101_010100_001001_100101100_0000], .iaddG none 20 9 0x12c),
  ([0b0000101_010100_001001_100101100_0001], .isubG none 20 9 0x12c),
  ([0b0000101_010100_001001_100101100_0010], .imulG none 20 9 0x12c),
  ([0b0000101_010100_001001_100101100_0011], .imadG none 20 9 0x12c),
  ([0b0000101_010100_001001_100101100_0100], .andG none 20 9 0x12c),
  ([0b0000101_010100_001001_100101100_0101], .orG none 20 9 0x12c),
  ([0b0000101_010100_001001_100101100_0110], .xorG none 20 9 0x12c),
  ([0b0000101_010100_001001_100101100_0111], .shlG none 20 9 0x12c),
  ([0b0000101_010100_001001_100101100_1000], .shrG none 20 9 0x12c),
  ([0b0000101_010100_001001_100101100_1001], .sarG none 20 9 0x12c),
  ([0b0000101_010100_001001_100101100_1010], .iminG none 20 9 0x12c),
  ([0b0000101_010100_001001_100101100_1011], .imaxG none 20 9 0x12c),
  ([0b0000101_010100_001001_100101100_1100], .nminG none 20 9 0x12c),
  ([0b0000101_010100_001001_100101100_1101], .nmaxG none 20 9 0x12c)] := by decide +kernel

theorem test_decode_VCV : Reads [
  ([0b0000110_010100_001001_0000000000000], .cvtF32I32 none 20 9),
  ([0b0000110_010100_001001_0000000000001], .cvtF32N32 none 20 9),
  ([0b0000110_010100_001001_0000000000010], .cvtI32F32 none 20 9),
  ([0b0000110_010100_001001_0000000000011], .cvtN32F32 none 20 9),
  ([0b0000110_010100_001001_100110_0000100], .cvtF16x2 none 20 9 38),
  ([0b0000110_010100_001001_100110_0000101], .cvtBf16x2 none 20 9 38),
  ([0b0000110_010100_001001_0000000000110], .cvtF32F16l none 20 9),
  ([0b0000110_010100_001001_0000000000111], .cvtF32F16h none 20 9),
  ([0b0000110_010100_001001_0000000001000], .cvtF32Bf16l none 20 9),
  ([0b0000110_010100_001001_0000000001001], .cvtF32Bf16h none 20 9),
  ([0b0000110_010100_001001_100110_0001010], .cvtE4m3x2L none 20 9 38),
  ([0b0000110_010100_001001_100110_0001011], .cvtE4m3x2H none 20 9 38),
  ([0b0000110_010100_001001_100110_0001100], .cvtE5m2x2L none 20 9 38),
  ([0b0000110_010100_001001_100110_0001101], .cvtE5m2x2H none 20 9 38),
  ([0b0000110_010100_001001_0000000001110], .cvtF32E4m3B0 none 20 9),
  ([0b0000110_010100_001001_0000000001111], .cvtF32E4m3B1 none 20 9),
  ([0b0000110_010100_001001_0000000010000], .cvtF32E4m3B2 none 20 9),
  ([0b0000110_010100_001001_0000000010001], .cvtF32E4m3B3 none 20 9),
  ([0b0000110_010100_001001_0000000010010], .cvtF32E5m2B0 none 20 9),
  ([0b0000110_010100_001001_0000000010011], .cvtF32E5m2B1 none 20 9),
  ([0b0000110_010100_001001_0000000010100], .cvtF32E5m2B2 none 20 9),
  ([0b0000110_010100_001001_0000000010101], .cvtF32E5m2B3 none 20 9)] := by decide +kernel

theorem test_decode_CMP : Reads [
  ([0b0000111_101_011_001001_100110_0100_11_0], .cmp 5 .le 9 38 .bf16l .andn)] := by decide +kernel

theorem test_decode_VX : Reads [
  ([0b0001000_010100_001001_100110_0000000], .shdn none 20 9 38),
  ([0b0001000_010100_001001_100110_0000001], .shup none 20 9 38),
  ([0b0001000_010100_001001_0000000000010], .psumF none 20 9),
  ([0b0001000_010100_001001_0000000000011], .psumxF none 20 9),
  ([0b0001000_010100_001001_0000000000100], .psumI none 20 9),
  ([0b0001000_010100_001001_0000000000101], .psumxI none 20 9),
  ([0b0001000_010100_001001_0000000000110], .pmaxI none 20 9),
  ([0b0001000_010100_001001_0000000000111], .pminI none 20 9),
  ([0b0001000_010100_001001_100110_0001000], .shfl none 20 9 38),
  ([0b0001000_010100_001001_0000000001001], .qswh none 20 9),
  ([0b0001000_010100_001001_0000000001010], .qswv none 20 9),
  ([0b0001000_010100_001001_0000000001011], .qswd none 20 9),
  ([0b0001000_010100_001001_0000000001100], .zip2 none 20 9),
  ([0b0001000_010100_001001_0000000001101], .zip3 none 20 9),
  ([0b0001000_010100_001001_0000000001110], .zip4 none 20 9),
  ([0b0001000_010100_001001_0000000001111], .uzp2 none 20 9),
  ([0b0001000_010100_001001_0000000010000], .uzp3 none 20 9),
  ([0b0001000_010100_001001_0000000010001], .uzp4 none 20 9),
  ([0b0001000_010100_001001_0000000010010], .pmaxF none 20 9),
  ([0b0001000_010100_001001_0000000010011], .pminF none 20 9)] := by decide +kernel

theorem test_decode_VGV : Reads [
  ([0b0001001_100101100_001001_0000000000], .rsumF 0x12c 9),
  ([0b0001001_100101100_001001_0000100000], .rsumI 0x12c 9),
  ([0b0001001_100101100_001001_0001000000], .rmaxF 0x12c 9),
  ([0b0001001_100101100_001001_0001100000], .rminF 0x12c 9),
  ([0b0001001_100101100_001001_0010000000], .rmaxI 0x12c 9),
  ([0b0001001_100101100_001001_0010100000], .rminI 0x12c 9),
  ([0b0001001_100101100_001001_0011000000], .rand 0x12c 9),
  ([0b0001001_100101100_001001_0011100000], .ror 0x12c 9),
  ([0b0001001_100101100_001001_0100000000], .rxor 0x12c 9),
  ([0b0001001_100101100_001001_01001_10110], .vget 0x12c 9 22),
  ([0b0001001_100101100_001001_01010_10110], .vput 0x12c 9 22),
  ([0b0001001_100101100_001001_0101100000], .first 0x12c 9),
  ([0b0001001_100101100_001001_0110000000], .ballot 0x12c 9)] := by decide +kernel

theorem test_decode_VI20 : Reads [
  ([0b000101_0_10100_10110101110000111010], .faddi 20 0xb5c3a),
  ([0b000110_0_10100_10110101110000111010], .fmuli 20 0xb5c3a),
  ([0b000111_0_10100_10110101110000111010], .fmovi 20 0xb5c3a),
  ([0b001000_0_10100_10110101110000111010], .iaddi 20 0xb5c3a),
  ([0b001001_0_10100_10110101110000111010], .imovi 20 0xb5c3a)] := by decide +kernel

theorem test_decode_VFL : Reads [
  ([0b0010100_010100_001001_000000_0000000, 0x8E5C3A17], .faddL none 20 9 0x8E5C3A17),
  ([0b0010100_010100_001001_000000_0000001, 0x8E5C3A17], .fmulL none 20 9 0x8E5C3A17),
  ([0b0010100_010100_001001_100110_0000010, 0x8E5C3A17], .ffmaL none 20 9 38 0x8E5C3A17),
  ([0b0010100_010100_000000_000000_0000011, 0x8E5C3A17], .fmovL none 20 0x8E5C3A17),
  ([0b0010100_010100_001001_000000_0000100, 0x8E5C3A17], .iaddL none 20 9 0x8E5C3A17),
  ([0b0010100_010100_000000_000000_0000101, 0x8E5C3A17], .imovL none 20 0x8E5C3A17),
  ([0b0010100_010100_001001_000000_0000110, 0x8E5C3A17], .andL none 20 9 0x8E5C3A17),
  ([0b0010100_010100_001001_000000_0000111, 0x8E5C3A17], .fminL none 20 9 0x8E5C3A17),
  ([0b0010100_010100_001001_000000_0001000, 0x8E5C3A17], .fmaxL none 20 9 0x8E5C3A17)] := by decide +kernel

theorem test_decode_VVK : Reads [
  ([0b0010101_010100_001001_0110_101011001], .ffmaK 20 9 6 0x159),
  ([0b0010110_010100_001001_0110_101011001], .faddK 20 9 6 0x159),
  ([0b0010111_010100_001001_0110_101011001], .fmulK 20 9 6 0x159),
  ([0b0011000_010100_001001_0110_101011001], .iaddK 20 9 6 0x159),
  ([0b0011001_010100_000000_0110_101011001], .movK 20 6 0x159)] := by decide +kernel

theorem test_decode_VMV : Reads [
  ([0b0011010_010100_001001_0000000000000], .mov none 20 9),
  ([0b0011010_010100_001001_100110_0000001], .sel none 20 9 38),
  ([0b0011010_010100_0000000000000000010], .tidx none 20),
  ([0b0011010_010100_0000000000000000011], .qidx none 20),
  ([0b0011010_010100_0000000000000000100], .lidx none 20),
  ([0b0011011_010100_000000_100101100_0000], .movg none 20 0x12c),
  ([0b0011011_010100_001001_100101100_0001], .selG none 20 9 0x12c)] := by decide +kernel

theorem test_decode_MK : Reads [
  ([0b0011100_110_011_001_0000000000000000], .mand 6 3 1),
  ([0b0011100_110_011_001_0000000000001000], .mor 6 3 1),
  ([0b0011100_110_011_001_0000000000010000], .mxor 6 3 1),
  ([0b0011100_110_011_001_0000000000011000], .mandn 6 3 1),
  ([0b0011100_110_011_0000000000000100000], .mnot 6 3),
  ([0b0011100_000_011_000_001001101_0101000], .mtog 3 77),
  ([0b0011100_110_000000_001001101_0110000], .gtom 6 77),
  ([0b0011100_000_011_000_001001101_0111000], .mpop 3 77),
  ([0b0011100_000_011_000_001001101_1000000], .mffs 3 77),
  ([0b0011100_110_0000000000000001001000], .mall 6),
  ([0b0011100_110_0000000000000001010000], .mclr 6)] := by decide +kernel

theorem test_decode_GGG : Reads [
  ([0b0100010_11001000_10000010_01000110_0], .gadd none 200 130 70),
  ([0b0100010_11001000_10000010_01000110_1], .gsub none 200 130 70),
  ([0b0100011_11001000_10000010_01000110_0], .gmul none 200 130 70),
  ([0b0100011_11001000_10000010_01000110_1], .gmulh none 200 130 70),
  ([0b0100100_11001000_10000010_01000110_0], .gand none 200 130 70),
  ([0b0100100_11001000_10000010_01000110_1], .gor none 200 130 70),
  ([0b0100101_11001000_10000010_01000110_0], .gxor none 200 130 70),
  ([0b0100101_11001000_10000010_01000110_1], .gandn none 200 130 70),
  ([0b0100110_11001000_10000010_01000110_0], .gshl none 200 130 70),
  ([0b0100110_11001000_10000010_01000110_1], .gshr none 200 130 70),
  ([0b0100111_11001000_10000010_01000110_0], .gsar none 200 130 70),
  ([0b0100111_11001000_10000010_01000110_1], .gnmulh none 200 130 70),
  ([0b0101000_11001000_10000010_01000110_0], .gmin none 200 130 70),
  ([0b0101000_11001000_10000010_01000110_1], .gmax none 200 130 70),
  ([0b0101001_11001000_10000010_01000110_0], .gnmin none 200 130 70),
  ([0b0101001_11001000_10000010_01000110_1], .gnmax none 200 130 70),
  ([0b0101010_11001000_10000010_01000110_0], .gadd64 none 200 130 70),
  ([0b0101010_11001000_10000010_01000110_1], .gsub64 none 200 130 70),
  ([0b0101011_11001000_10000010_01000110_0], .gfadd none 200 130 70),
  ([0b0101011_11001000_10000010_01000110_1], .gfmul none 200 130 70),
  ([0b0101100_11001000_10000010_01000110_0], .gffma none 200 130 70),
  ([0b0101100_11001000_10000010_01000110_1], .gmad none 200 130 70),
  ([0b0101101_11001000_10000010_000000000], .gmov none 200 130),
  ([0b0101101_11001000_10000010_000000001], .gnot none 200 130)] := by decide +kernel

theorem test_decode_uniform : Reads [
  ([0b0101110_100101010_1010010111000011], .gmovi 0x12a 0xa5c3),
  ([0b0101111_100101010_1010010111000011], .gaddi 0x12a 0xa5c3),
  ([0b0110000_100101010_1010010111000011], .gmovhi 0x12a 0xa5c3),
  ([0b0110001_10_011_11_100000010_010000110], .gcmp 2 .le .i64 0x102 134),
  ([0b0110010_10_011_100000010_10110100011], .gcmpi 2 .le 0x102 0x5a3),
  ([0b0110011_100101010_1001101_101010101], .gld 0x12a 77 0x155),
  ([0b0110100_100101010_1001101_101010101], .gld64 0x12a 77 0x155),
  ([0b0110101_100101010_1001101_101010101], .gst 0x12a 77 0x155)] := by decide +kernel

theorem test_decode_control : Reads [
  ([0b0110110_0000000_101010010111000011], .br 0x2a5c3),
  ([0b0110110_0001_010_101010010111000011], .brF 2 0x2a5c3),
  ([0b0110110_0010_010_101010010111000011], .brNf 2 0x2a5c3),
  ([0b0110110_0011_101_101010010111000011], .brMnz 5 0x2a5c3),
  ([0b0110110_0100_101_101010010111000011], .brMz 5 0x2a5c3),
  ([0b0110110_0101_101_101010010111000011], .brMall 5 0x2a5c3),
  ([0b0110110_0110_101_101010010111000011], .brMnall 5 0x2a5c3),
  ([0b0110111_100101010_1111111111110011], .loop 0x12a 0xfff3),
  ([0b0111000_1101001011100001111100001], .call 0x1a5c3e1),
  ([0b0111001_100000010_010001100_0000000], .jg 0x102 140),
  ([0b0111010_001001_010001100_0000000000], .brx 9 140),
  ([0b0111011_0000000000000000000000000], .land),
  ([0b0111100_0000000000000000000000000], .nop),
  ([0b1001000_0000000000000000000000000], .exit none)] := by decide +kernel

theorem test_decode_MEM : Reads [
  ([0b1000000_001100_001001_1001101_1011_11], .ldv none 12 9 77 11 .b64),
  ([0b1000001_001100_001001_1001101_1011_01], .ldvs none 12 9 77 11 .b16),
  ([0b1000010_001100_001001_1001101_1011_11], .stv none 12 9 77 11 .b64),
  ([0b1000011_001100_001001_0000000_1011_11], .lds none 12 9 11 .b64),
  ([0b1000100_001100_001001_0000000_1011_11], .sts none 12 9 11 .b64),
  ([0b1000111_000000_001001_1001101_1011_11], .prf none 9 77 11 .b64)] := by decide +kernel

theorem test_decode_ATOM : Reads [
  ([0b1000101_001100_001001_1001101_0000_1_1], .atomAddI none 12 9 77 true true),
  ([0b1000101_001100_001001_1001101_00010_1], .atomAddF none 12 9 77 true),
  ([0b1000101_001100_001001_1001101_0010_1_1], .atomMinI none 12 9 77 true true),
  ([0b1000101_001100_001001_1001101_0011_1_1], .atomMaxI none 12 9 77 true true),
  ([0b1000101_001100_001001_1001101_0100_1_1], .atomMinN none 12 9 77 true true),
  ([0b1000101_001100_001001_1001101_0101_1_1], .atomMaxN none 12 9 77 true true),
  ([0b1000101_001100_001001_1001101_0110_1_1], .atomAnd none 12 9 77 true true),
  ([0b1000101_001100_001001_1001101_0111_1_1], .atomOr none 12 9 77 true true),
  ([0b1000101_001100_001001_1001101_1000_1_1], .atomXor none 12 9 77 true true),
  ([0b1000101_001100_001001_1001101_1001_1_1], .atomXchg none 12 9 77 true true),
  ([0b1000101_001100_001001_1001101_1010_1_1], .atomCas none 12 9 77 true true),
  ([0b1000101_001100_001001_1001101_10110_1], .atomMinF none 12 9 77 true),
  ([0b1000101_001100_001001_1001101_11000_1], .atomMaxF none 12 9 77 true),
  ([0b1000101_001100_001001_1001101_110100], .atomAddBf16x2 none 12 9 77)] := by decide +kernel

theorem test_decode_ATOMS : Reads [
  ([0b1000110_001100_001001_00000000000_1_1], .atomsAddI none 12 9 true true),
  ([0b1000110_001100_001001_000000000010_1], .atomsAddF none 12 9 true),
  ([0b1000110_001100_001001_00000000010_1_1], .atomsMinI none 12 9 true true),
  ([0b1000110_001100_001001_00000000011_1_1], .atomsMaxI none 12 9 true true),
  ([0b1000110_001100_001001_00000000100_1_1], .atomsMinN none 12 9 true true),
  ([0b1000110_001100_001001_00000000101_1_1], .atomsMaxN none 12 9 true true),
  ([0b1000110_001100_001001_00000000110_1_1], .atomsAnd none 12 9 true true),
  ([0b1000110_001100_001001_00000000111_1_1], .atomsOr none 12 9 true true),
  ([0b1000110_001100_001001_00000001000_1_1], .atomsXor none 12 9 true true),
  ([0b1000110_001100_001001_00000001001_1_1], .atomsXchg none 12 9 true true),
  ([0b1000110_001100_001001_00000001010_1_1], .atomsCas none 12 9 true true),
  ([0b1000110_001100_001001_000000010110_1], .atomsMinF none 12 9 true),
  ([0b1000110_001100_001001_000000011000_1], .atomsMaxF none 12 9 true),
  ([0b1000110_001100_001001_0000000110100], .atomsAddBf16x2 none 12 9)] := by decide +kernel

theorem test_decode_ordering : Reads [
  ([0b1001001_0111_000000000000000000000], .fenceFull .sys),
  ([0b1001001_0111_010000000000000000000], .fenceAcq .sys),
  ([0b1001001_0111_100000000000000000000], .fenceRel .sys),
  ([0b1001010_1001101_100000010_1011_00000], .cadd 77 0x102 11),
  ([0b1001010_1001101_100000010_000000001], .cwait 77 0x102),
  ([0b1001010_1001101_100000010_1011_00010], .cread 77 0x102 11),
  ([0b1001010_1001101_100000010_0000_00011, 0x8E5C3A17], .cwaity 77 0x102 0x8E5C3A17),
  ([0b1001011_1011_10110001_0000000000000], .wait 11 177),
  ([0b1001011_1011_10110001_1_000000000000, 0x8E5C3A17], .waity 11 177 0x8E5C3A17),
  ([0b1001100_000_1001_001001101_000000000], .barSync 9 77),
  ([0b1001100_001_1001_001001101_000000000], .barArrive 9 77),
  ([0b1001100_010_1001_001001101_000000000], .barWait 9 77),
  ([0b1001100_011_1001_111111111000000000], .barGsync 9),
  ([0b1001100_100_1001_111111111000000000], .barGarrive 9),
  ([0b1001100_101_1001_111111111000000000], .barGwait 9),
  ([0b1001101_0000000000000000000000000], .yield),
  ([0b1001110_0_100101100_000000000000000], .ltadvReg 0x12c),
  ([0b1001110_100000000_1010010111000011], .ltadvImm 0xa5c3)] := by decide +kernel

theorem test_decode_engines : Reads [
  ([0b1010000_0000000_100101_1011_000000_1_1], .cpyLoad 37 11 true true),
  ([0b1010000_0001000_100101_1011_000000_1_1], .cpyStore 37 11 true true),
  ([0b1010000_0010000_100101_1011_000000_1_1], .cpyGather 37 11 true true),
  ([0b1010000_0011000_100101_1011_000000_1_1], .cpyScatter 37 11 true true),
  ([0b1010000_0100000_100101_1011_000000_1_1], .cpyPackload 37 11 true true),
  ([0b1010000_0101000_100101_1011_000000_1_1], .cpyRemote 37 11 true true),
  ([0b1010000_0110000_100101_1011_00000_1_1_1], .cpyFill 37 11 true true true),
  ([0b1010000_0111000_100101_1011_000000_1_1], .cpyRedstore 37 11 true true),
  ([0b1010001_0000_101_100101_1011_0000000_1], .mma 5 37 11 true),
  ([0b1010010_010100_110_100000010_0000000], .acld 20 6 0x102),
  ([0b1010010_100011_110_100000010_0000001], .acst 35 6 0x102),
  ([0b1010010_100011_110_100000010_0000010], .acadd 35 6 0x102),
  ([0b1010010_000000_110_100000010_0000011], .acz 6 0x102),
  ([0b1010011_001100_100000010_1101_000000], .pkplF32 12 0x102 13),
  ([0b1010011_001100_100000010_1101_000001], .pkplBf16l 12 0x102 13)] := by decide +kernel

theorem test_decode_system : Reads [
  ([0b1100010_0000000000000000_100101_000], .syscSigret 37),
  ([0b1100010_1011_101001011100_100101_000], .syscFuture 11 0xa5c 37),
  ([0b1100011_1010110100011110000011110], .trap 0x15a3c1e),
  ([0b1100100_0000000000000000000000000], .bkpt),
  ([0b1100101_100101100_000100000010_0000], .srr 0x12c 0x102),
  ([0b1100110_100101100_000100000010_0000], .srw 0x12c 0x102),
  ([0b1100111_0000000000000000000000000], .eret),
  ([0b1101000_100101100_100000101_011_0000], .xrd 0x12c 0x105 .f),
  ([0b1101001_100101100_100000101_011_0000], .xwr 0x12c 0x105 .f),
  ([0b1101010_0000000000000000000000000], .tlbiAll),
  ([0b1101010_1001101_010000000000000000], .tlbiAsid 77),
  ([0b1101010_1001101_100000000000000000], .tlbiPage 77),
  ([0b1101011_100000010_0000000000000000], .ltset 0x102)] := by decide +kernel

theorem test_decode_regions : Reads [
  ([0b1101100_0_100101100_000000000000000, 0x8E5C3A17], .arbegFirm 0x12c 0x8E5C3A17),
  ([0b1101100_1_100101100_000000000000000, 0x8E5C3A17], .arbegElastic 0x12c 0x8E5C3A17),
  ([0b1101101_0000000000000000000000000], .arend),
  ([0b1101110_00000000000000000_10011101], .arabt 157),
  ([0b1101111_100000010_010000110_0000000], .arnrw 0x102 134),
  ([0b1110000_000000000_1010010111000011], .wmark 0xa5c3),
  ([0b1110001_1001101_1011_00000000000000], .launch 77 11)] := by decide +kernel


/-- Words of the spec with a prefix (R27 to R31, and the tables of written forms). -/
theorem test_decode_prefixed : Reads [
  ([0b1111110_000_010_000111_0_0_000_00000000, 0x02182103], .ffma (some { pfx with rnd := .rtz, vc := 7 }) 3 1 2),
  ([0b1111110_011_000_000000_1_0_000_00000000, 0x02084180], .fadd (some { pfx with ms := 3, z := true }) 1 2 3),
  ([0b1111110_000_000_000000_0_0_000_00000100, 0x8028414E], .ldv (some { pfx with imm := 4 }) 5 2 5 3 .b32),
  ([0b1111110_000_000_001001_0_0_000_00000000, 0x08282105], .imad (some { pfx with vc := 9 }) 5 1 2),
  ([0b1111110_000_000_000000_0_1_000_00000000, 0x0C61458A], .cvtE4m3x2L (some { pfx with sat := true }) 12 10 11),
  ([0b1111110_011_000_000000_0_0_000_00000000, 0x34084181], .sel (some { pfx with ms := 3 }) 1 2 3),
  ([0b1111110_000_000_000000_0_0_100_00000000, 0x44580A0C], .gadd (some { pfx with gx := 4 }) 44 5 6),
  ([0b1111110_011_000_000000_0_0_000_00000000, 0x90000000], .exit (some { pfx with ms := 3 })),
  ([0b1111110_000_000_000000_0_0_000_11111111, 0x84204147], .stv (some { pfx with imm := 0xFF }) 4 2 5 1 .b64),
  ([0b1111110_000_000_000000_0_0_000_00000011, 0x86302002], .lds (some { pfx with imm := 3 }) 6 1 0 .b32),
  ([0b1111110_010_000_000000_0_0_000_00000000, 0x28308282, 0x40200000], .ffmaL (some { pfx with ms := 2 }) 6 4 5 0x40200000)] := by
  decide +kernel

/-- The fates of R50's table that a decoder decides. -/
theorem test_fates :
    decodeWords [0x40200000] = .guard 0 ∧ decodeWords [0x3A000000] = .enc 0 ∧ decodeWords [0xFC380000] = .enc 0 ∧
    decodeWords [0xFC000000, 0x78000000] = .enc 1 ∧ decodeWords [0xFC800000, 0x3F800000] = .guard 1 := by decide +kernel

/-! ## A small state -/

/-- A user group of context 5 with whole budgets: threads 0 to 31 present and in m0; g2:g3 names device memory, g4:g5 the host,
g6:g7 a peer. -/
def g1 : Group :=
  { core := 3, slot := 7, ctx := 5, blk := 2, vb := 64, ub := 384, ab := 8, lmask := 0xFFFFFFFF, pmask := 0xFFFFFFFF,
    m := [(0, 0xFFFFFFFF)], v := [(33, 8), (34, 16), (63, 0x10)], pc := 0x10000, codebase := 0x10000, lclk := 100,
    g := [(2, 0x40000), (4, 0x44000), (6, 0x48000), (8, 3)] }

/-- A record of a launch of one block of 32 threads, B = 64, U = 384, with grid barriers. -/
def rec1 : List Word := [0x10010000, 0, 0, 0, 0, 0x0022801F, 1, 0, 0, 0, 0, 0, 0, 0, 0, 0, 0, 0, 0, 0, 0, 0, 0, 0, 0, 0, 0, 0, 0, 0, 0, 0]

/-- Its block: one group, 16 KiB of scratch, 8 tiles. -/
def b1 : Block := { task := 1, ng := 1, span := [3], atiles := 8, scrSize := 16384, st := .resident }

/-- Translations of context 5: tracked data, host, peer 1, untracked data, direct data, code. -/
def tlb1 : List TlbEnt :=
  [{ asid := 5, base := 0x40000, level := 3, ent := 0x8032D }, { asid := 5, base := 0x44000, level := 3, ent := 0x200000000008032D },
   { asid := 5, base := 0x48000, level := 3, ent := 0x400040000008032D }, { asid := 5, base := 0x4C000, level := 3, ent := 0x8436D },
   { asid := 5, base := 0x50000, level := 3, ent := 0x883AD }, { asid := 5, base := 0x10000, level := 3, ent := 0x20135 }]

/-- A core that holds the translations and the first code line of context 5. -/
def k1 : Core := { tlb := tlb1, icache := [(5 * 2 ^ 51 + 512, [(0x20003, 0x76)], [])] }

def s1 : State :=
  { State.reset with
    cur := g1
    blocks := [(2, b1)]
    cores := [(3, k1)]
    clusters := [(0, { tlb2 := tlb1 })]
    mm := { mem := [(0x20003, 0x76), (0x80000, 0x21), (0x80004, 0x10)] }
    cp := { tasks := [(1, { record := rec1, ctx := 5, st := .running, banks := [(2, 0x40000, 64)] })] }
    fw := { ctxs := [(5, { ctxReset 5 with live := true })], podmap := [(1, 0x80000000)] } }

def gid1 : Nat := 3 * 2048 + 7

/-- A CADD on its way to 0x80000, where a value stands. -/
def sCadd (v : Nat) (bad : Bool) : State :=
  { s1 with cur := { g1 with ops := [{ id := 0, kind := .cadd, w := some 1, addr := 0x40000, bad := bad }], w := [(1, 1)] }
            mm := { mem := (List.range 8).map fun i => (0x80000 + i, if i = 0 then BitVec.ofNat 8 v else 0xFF) } }

/-- The group of a supervisor, of the same registers. -/
def sup1 : State := { s1 with cur := { g1 with sup := true, slot := 1024 } }

/-- The region of a group. -/
def r1 : Region :=
  { elastic := true, handler := 0x10040, reads := [0x1000], writes := [0x1000], buf := [(0x80000, 7)], vas := [(0x10000, 0x40000)],
    slices := [0] }

/-- The group in its region, with AID 0 and the interval from 100 to 300. -/
def sRgn : State :=
  { s1 with cur := { g1 with rgn := some r1, alo := 100, ahi := 300 }, cp := { s1.cp with slots := [(0, 1)] } }

theorem issues1 (vs gr gw tiles : List Nat) (hv : ∀ r ∈ vs, r < 64) (hg : ∀ r ∈ gr ++ gw, r < 384) (hz : ∀ z ∈ tiles, z < 8) :
    Issues s1.cur vs gr gw tiles :=
  ⟨fun r h => ⟨hv r h, fun _ h => nomatch h⟩, fun r h => ⟨by have := hg r h; show r + 4 < 384 ∨ _; omega, fun _ h => nomatch h⟩,
   fun _ _ => rfl, hz⟩

theorem noPoison1 (ms : Nat) (srcs : List Nat) : NoPoison s1.cur ms srcs := by
  intro t _ _
  show (srcs.any fun r => (mfind [] (r * 32 + t)).isSome) = false
  simp [mfind]

theorem noTrap1 (ms : Nat) (srcs : List Nat) (e : DWord → Nat → Eff) : NoTrap s1.cur ms srcs e := by
  refine ⟨noPoison1 ms srcs, ?_⟩
  show (_ &&& fmtEnables g1 != 0) = false
  have : fmtEnables g1 = 0 := by decide +kernel
  simp [this]

theorem noScanTrap1 (ms : Nat) (srcs : List Nat) (raised : Nat) : NoScanTrap s1.cur ms srcs raised := by
  refine ⟨fun t _ => ?_, ?_⟩
  · show (srcs.any fun r => (mfind [] (r * 32 + t)).isSome) = false
    simp [mfind]
  · show (_ &&& fmtEnables g1 != 0) = false
    have : fmtEnables g1 = 0 := by decide +kernel
    simp [this]

/-! ## Witnesses: vector arithmetic. The state meets the hypotheses for every operand -/

theorem witness_VectorIntegerResults (p : Option Prefix) (d a b : BitVec 6) :
    Issues s1.cur [d.toNat, a.toNat, b.toNat] [] [] ∧ NoPoison s1.cur (maskOf p) [a.toNat, b.toNat] ∧
    Issues s1.cur [d.toNat, a.toNat] [] [] ∧ NoPoison s1.cur (maskOf p) [a.toNat] ∧
    Issues s1.cur [d.toNat, a.toNat, b.toNat, vcOf p d] [] [] ∧ NoPoison s1.cur (maskOf p) [a.toNat, b.toNat, vcOf p d] ∧
    Issues s1.cur [d.toNat, a.toNat] [383] [] ∧ Issues s1.cur [d.toNat, a.toNat, vcOf p d] [0] [] ∧
    NoPoison s1.cur (maskOf p) [a.toNat, vcOf p d] := by
  have hv : vcOf p d < 64 := by cases p <;> simp only [vcOf] <;> omega
  refine ⟨?_, noPoison1 _ _, ?_, noPoison1 _ _, ?_, noPoison1 _ _, ?_, ?_, noPoison1 _ _⟩ <;> apply issues1 <;> simp <;> omega

theorem witness_VectorFloatResults (p : Option Prefix) (d a b : BitVec 6) (e : DWord → Nat → Eff) :
    Issues s1.cur [d.toNat, a.toNat, b.toNat] [] [] ∧ NoTrap s1.cur (maskOf p) [a.toNat, b.toNat] e ∧
    Issues s1.cur [d.toNat, a.toNat, b.toNat, vcOf p d] [] [] ∧ NoTrap s1.cur (maskOf p) [a.toNat, b.toNat, vcOf p d] e ∧
    Issues s1.cur [d.toNat, a.toNat] [] [] ∧ NoTrap s1.cur (maskOf p) [a.toNat] e ∧ NoPoison s1.cur (maskOf p) [a.toNat] ∧
    NoPoison s1.cur (maskOf p) [a.toNat, b.toNat] ∧
    Issues s1.cur [d.toNat, a.toNat] [383] [] ∧ Issues s1.cur [d.toNat, a.toNat, vcOf p d] [0] [] ∧
    NoTrap s1.cur (maskOf p) [a.toNat, vcOf p d] e := by
  have hv : vcOf p d < 64 := by cases p <;> simp only [vcOf] <;> omega
  refine ⟨?_, noTrap1 _ _ _, ?_, noTrap1 _ _ _, ?_, noTrap1 _ _ _, noPoison1 _ _, noPoison1 _ _, ?_, ?_, noTrap1 _ _ _⟩ <;>
    apply issues1 <;> simp <;> omega

theorem witness_HalfResults (p : Option Prefix) (d a b : BitVec 6) (e : DWord → Nat → Eff) :
    Issues s1.cur [d.toNat, a.toNat, b.toNat] [] [] ∧ NoTrap s1.cur (maskOf p) [a.toNat, b.toNat] e ∧
    Issues s1.cur [d.toNat, a.toNat, b.toNat, vcOf p d] [] [] ∧ NoTrap s1.cur (maskOf p) [a.toNat, b.toNat, vcOf p d] e := by
  have hv : vcOf p d < 64 := by cases p <;> simp only [vcOf] <;> omega
  refine ⟨?_, noTrap1 _ _ _, ?_, noTrap1 _ _ _⟩ <;> apply issues1 <;> simp <;> omega

theorem witness_ConversionResults (p : Option Prefix) (d a b : BitVec 6) (e : DWord → Nat → Eff) :
    Issues s1.cur [d.toNat, a.toNat] [] [] ∧ NoTrap s1.cur (maskOf p) [a.toNat] e ∧
    Issues s1.cur [d.toNat, a.toNat, b.toNat] [] [] ∧ NoTrap s1.cur (maskOf p) [a.toNat, b.toNat] e ∧
    NoTrap s1.cur (maskOf p) [a.toNat, b.toNat, d.toNat] e := by
  refine ⟨?_, noTrap1 _ _ _, ?_, noTrap1 _ _ _, noTrap1 _ _ _⟩ <;> apply issues1 <;> simp <;> omega

theorem witness_ConstantOperandResults (p : Option Prefix) (d a b : BitVec 6) (e : DWord → Nat → Eff) :
    Issues s1.cur [d.toNat] [] [] ∧ NoTrap s1.cur 0 [d.toNat] e ∧ NoPoison s1.cur 0 [d.toNat] ∧
    Issues s1.cur [d.toNat, a.toNat] [] [] ∧ NoTrap s1.cur (maskOf p) [a.toNat] e ∧ NoPoison s1.cur (maskOf p) [a.toNat] ∧
    Issues s1.cur [d.toNat, a.toNat, b.toNat] [] [] ∧ NoTrap s1.cur (maskOf p) [a.toNat, b.toNat] e ∧
    Issues s1.cur [d.toNat] [383] [] ∧ NoPoison s1.cur 0 [a.toNat, b.toNat] ∧
    Issues s1.cur [d.toNat, a.toNat] [0] [] ∧ NoPoison s1.cur 0 [a.toNat] := by
  refine ⟨?_, noTrap1 _ _ _, noPoison1 _ _, ?_, noTrap1 _ _ _, noPoison1 _ _, ?_, noTrap1 _ _ _, ?_, noPoison1 _ _, ?_,
    noPoison1 _ _⟩ <;> apply issues1 <;> simp <;> omega

theorem witness_CompareMaskResults (a b : BitVec 6) (e : DWord → Nat → Eff) :
    Issues s1.cur [a.toNat, b.toNat] [] [] ∧ NoTrap s1.cur 0 [a.toNat, b.toNat] e ∧
    Issues s1.cur [] [383] [] ∧ Issues s1.cur [] [] [0] := by
  refine ⟨?_, noTrap1 _ _ _, ?_, ?_⟩ <;> apply issues1 <;> simp <;> omega

/-! ## Uniform arithmetic -/

theorem witness_UniformIntegerResults (d a b : BitVec 8) :
    Issues s1.cur [] [gaOf none a, gbOf none b] [gdOf none d] ∧ Issues s1.cur [] [gaOf none a] [gdOf none d] ∧
    Issues s1.cur [] [gaOf none a, gbOf none b, gdOf none d] [] ∧
    Issues s1.cur [] [gaOf none a, gaOf none a + 1, gbOf none b, gbOf none b + 1] [gdOf none d, gdOf none d + 1] ∧
    Issues s1.cur [] [] [383] ∧ Issues s1.cur [] [383] [] := by
  refine ⟨?_, ?_, ?_, ?_, ?_, ?_⟩ <;> apply issues1 <;> simp [gaOf, gbOf, gdOf, raisedBy] <;> omega

/-- With the prefix's gx the three names reach g256 to g383. -/
theorem witness_UniformIntegerResults_gx :
    let p : Option Prefix := some { pfx with gx := 7 }
    Issues s1.cur [] [gaOf p 127, gbOf p 0] [gdOf p 127] := by
  apply issues1 <;> decide +kernel

/-- A group with every exception enabled, g0 a signalling NaN and g1 = 1.0. -/
def sNan : State := { s1 with cur := { g1 with fmt := 0xF8, g := [(0, 0x7F800001), (1, 0x3F800000)] } }

theorem witness_UniformFloatResults (a b d : BitVec 8) :
    Issues s1.cur [] [gaOf none a, gbOf none b] [gdOf none d] ∧ Issues s1.cur [] [gaOf none a, gbOf none b, gdOf none d] [] ∧
    Issues s1.cur [] [a.toNat, b.toNat] [] ∧ Issues s1.cur [] [a.toNat, a.toNat + 1, b.toNat, b.toNat + 1] [] ∧
    Issues s1.cur [] [a.toNat] [] := by
  refine ⟨?_, ?_, ?_, ?_, ?_⟩ <;> apply issues1 <;> simp [gaOf, gbOf, gdOf, raisedBy] <;> omega

/-- Both branches: a signalling NaN traps where exceptions are enabled, 1.0 + 1.0 does not; a compare likewise. -/
theorem witness_UniformFloatResults_trap :
    (Issues sNan.cur [] [0, 1] [2] ∧
      arithTraps sNan.cur (rounded32 0 (fAdd 0 (f32 (gget sNan.cur 0)) (f32 (gget sNan.cur 1))) 0).raised = true) ∧
    arithTraps sNan.cur (rounded32 0 (fAdd 0 (f32 (gget sNan.cur 1)) (f32 (gget sNan.cur 1))) 0).raised = false ∧
    arithTraps sNan.cur (condRaises .lt (f32 (gget sNan.cur 1)) (f32 (gget sNan.cur 1))) = false ∧
    isNaN (f32 (gget sNan.cur 0)) = true := by
  refine ⟨⟨⟨?_, ?_, ?_, ?_⟩, ?_⟩, ?_⟩ <;> decide +kernel

/-! ## Exchange and transfers -/

theorem witness_FoldScanResults (p : Option Prefix) (d a : BitVec 6) (raised : Nat) :
    Issues s1.cur [d.toNat, a.toNat] [] [] ∧ NoScanTrap s1.cur (maskOf p) [a.toNat] raised ∧
    Issues s1.cur [a.toNat] [] [383] ∧ NoScanTrap s1.cur 0 [a.toNat] raised := by
  refine ⟨?_, noScanTrap1 _ _ _, ?_, noScanTrap1 _ _ _⟩ <;> apply issues1 <;> simp <;> omega

theorem witness_ExchangeResults (p : Option Prefix) (d a b : BitVec 6) :
    Issues s1.cur [d.toNat, a.toNat, b.toNat] [] [] ∧ Issues s1.cur [d.toNat, a.toNat] [] [] ∧
    (∀ i r, poisoned s1.cur [r] i = false) ∧ (∀ i, poisoned s1.cur [a.toNat, b.toNat] i = false) ∧ NoPoison s1.cur (maskOf p) [a.toNat] ∧
    Issues s1.cur [a.toNat] [] [383] ∧ Issues s1.cur [a.toNat] [383] [] ∧ s1.cur.rix ≤ 31 := by
  refine ⟨?_, ?_, ?_, ?_, noPoison1 _ _, ?_, ?_, Nat.zero_le _⟩
  rotate_left 2
  · intro i r; simp [poisoned, s1, g1, mfind]
  · intro i; simp [poisoned, s1, g1, mfind]
  all_goals apply issues1 <;> simp <;> omega

/-- ZIP4 and UZP4 of the top registers, and a VGET of a thread before RIX. -/
theorem witness_ExchangeResults_edges :
    Issues s1.cur ((List.range 4).map (60 + ·) ++ (List.range 4).map (0 + ·)) [] [] ∧
    (∀ i ∈ threads (activeMask s1.cur 0), helper s1.cur i = false → poisoned s1.cur ((List.range 4).map (0 + ·)) i = false) ∧
    (let s := modCur s1 fun g => { g with rix := 32 }
     (31 : BitVec 5).toNat < s.cur.rix ∧ Issues s.cur [63] [] [0]) := by
  refine ⟨issues1 _ _ _ _ ?_ ?_ ?_, ?_, ?_, ⟨?_, ?_, ?_, ?_⟩⟩ <;> decide +kernel

/-- A constant bank that is not bound; an offset at the bank's size; the last word of the bank, its line held. -/
theorem witness_ConstantBankResults (d a : BitVec 6) (e : DWord → Nat → Eff) :
    Issues s1.cur [d.toNat, a.toNat] [] [] ∧ NoTrap s1.cur 0 [a.toNat] e ∧ NoTrap s1.cur 0 [d.toNat, a.toNat] e ∧
    Issues s1.cur [d.toNat] [] [] ∧ NoGst s1.cur := by
  refine ⟨?_, noTrap1 _ _ _, noTrap1 _ _ _, ?_, fun _ h => nomatch h⟩ <;> apply issues1 <;> simp <;> omega

/-- The state with the constant line of bank 2 held. -/
def sBank : State := modCore s1 3 fun k => { k with ccache := [(2 ^ 62 + 0x1000, [(0x80000, 0x21), (0x80004, 0x10)], [])] }

theorem witness_ConstantBankResults_words :
    bankWord sBank 1 0 = some (0, sBank) ∧ bankWord sBank 2 16 = some (0, sBank) ∧
    (bankWord sBank 2 1).map (·.1) = some 0x10 ∧ (bankWord sBank 2 15).map (·.1) = some 0 := by
  refine ⟨?_, ?_, ?_, ?_⟩ <;> decide +kernel

/-! ## Control -/

theorem witness_BranchResults (d : BitVec 9) (h : d.toNat < 384) :
    Issues s1.cur [] [d.toNat] [] ∧ Issues s1.cur [] [] [380, 381] := by
  refine ⟨?_, ?_⟩ <;> apply issues1 <;> simp <;> omega

/-- JG and BRX to offset 0, where LAND stands, with a link of g382:g383 and without one; BRX with no thread. -/
theorem witness_BranchResults_land :
    (match targetWord s1 s1.cur (codeBase s1.cur + (gget s1.cur 0).setWidth 64).toNat with
      | .word _ w => w == 0x76000000
      | _ => false) = true ∧
    (codeBase s1.cur + (gget s1.cur 0).setWidth 64).toNat % 4 = 0 ∧
    Issues s1.cur [] [0] [382, 383] ∧ Issues s1.cur [] [0] [] ∧ Issues s1.cur [0] [] [383] ∧
    (threads (activeMask s1.cur 0)).find? (fun i => !helper s1.cur i) = some 0 ∧
    (∀ i ∈ threads (activeMask s1.cur 0), helper s1.cur i = false → poisoned s1.cur [0] i = false) ∧
    (let s := modCur s1 fun g => { g with m := [] }
     Issues s.cur [0] [] [383] ∧ ∀ i ∈ threads (activeMask s.cur 0), helper s.cur i = true) := by
  refine ⟨?_, ?_, issues1 _ _ _ _ ?_ ?_ ?_, issues1 _ _ _ _ ?_ ?_ ?_, issues1 _ _ _ _ ?_ ?_ ?_, ?_, ?_, ⟨?_, ?_, ?_, ?_⟩, ?_⟩ <;>
    decide +kernel

/-- EXIT with one thread left, and with none. -/
theorem witness_ExitResults :
    (let s := modCur s1 fun g => { g with m := [(0, 0x7FFFFFFF)] }
     privileged s.cur = false ∧ s.cur.pmask &&& ~~~mreg s.cur (maskOf none) ≠ 0) ∧
    privileged s1.cur = false ∧ s1.cur.pmask &&& ~~~mreg s1.cur (maskOf none) = 0 ∧ s1.cur.pmask ≠ 0 ∧
    (∀ o ∈ s1.cur.ops, o.kind ≠ .cadd ∧ o.kind ≠ .future) := by decide +kernel

/-! ## Memory instructions -/

/-- An address translates, and the access it names is done. -/
noncomputable def loads (s : State) (va n : Nat) : Bool :=
  match address s (whoOf s s.cur) va n { r := true } with
  | (t, .ok l) => (match groupLoad t t.cur l n with
    | .done .. => true
    | _ => false)
  | _ => false

noncomputable def stores (s : State) (va n x : Nat) : Bool :=
  match address s (whoOf s s.cur) va n { w := true } with
  | (t, .ok l) => t.cur == s.cur && (match groupStore t t.cur l va n x with
    | .done .. => true
    | _ => false)
  | _ => false

theorem noGst1 : NoGst s1.cur := fun _ h => nomatch h

/-- GLD at g2:g3 − 4 × 0, GLD64 at the last 8 bytes of the page, GST; and an immediate of each sign. -/
theorem witness_UniformMemoryResults (d : BitVec 9) (h : d.toNat < 379) :
    Issues s1.cur [] [2, 3] [d.toNat, d.toNat + 1] ∧ Issues s1.cur [] [d.toNat, 2, 3] [] ∧ NoGst s1.cur ∧
    loads s1 0x40000 4 = true ∧ loads s1 0x40038 8 = true ∧ loads s1 0x43FF8 8 = true ∧ stores s1 0x403FC 4 7 = true := by
  refine ⟨issues1 _ _ _ _ ?_ ?_ ?_, issues1 _ _ _ _ ?_ ?_ ?_, noGst1, ?_, ?_, ?_, ?_⟩
  · simp
  · simp; omega
  · simp
  · simp
  · simp; omega
  · simp
  all_goals decide +kernel

/-- Every form of LDV, LDVS and STV on a page, the last thread at displacement 16; a form with no active thread; every thread of LDS and
STS. -/
theorem witness_VectorMemoryIssue :
    Issues s1.cur [1, 62, 63] [2, 3] [] ∧ NoGst s1.cur ∧ wget s1.cur 15 < 255 ∧ interruptedOp s1.cur = none ∧
    activeMask s1.cur (maskOf none) ≠ 0 ∧
    (performed none [62, 63] [1] 0 (loadThread none 62 1 1 8 false) (openOp .load (some 15) s1).1).isSome = true ∧
    (performed none [63] [1] 0 (loadThread none 63 1 1 2 true) (openOp .load (some 15) s1).1).isSome = true ∧
    (performed none [] [1, 62, 63] 0 (storeThread none 62 1 1 8) (openOp .store (some 15) s1).1).isSome = true ∧
    (block s1 s1.cur.blk).unpinned = [] ∧
    (performed none [62, 63] [1] 0 (ldsThread none 62 1 8) (openOp .scrLoad (some 15) s1).1).isSome = true ∧
    (performed none [] [1, 62, 63] 0 (stsThread none 62 1 8) (openOp .scrStore (some 15) s1).1).isSome = true := by
  refine ⟨issues1 _ _ _ _ ?_ ?_ ?_, noGst1, ?_⟩ <;> decide +kernel

theorem witness_VectorMemoryIssue_idle :
    let s := modCur s1 fun g => { g with m := [] }
    Issues s.cur [1, 62, 63] [2, 3] [] ∧ NoGst s.cur ∧ wget s.cur 15 < 255 ∧ interruptedOp s.cur = none ∧
    activeMask s.cur (maskOf none) = 0 := by
  refine ⟨⟨?_, ?_, ?_, ?_⟩, fun _ h => (nomatch h), ?_⟩ <;> decide +kernel

/-- What one thread's access finds: memory for a load and a store, an address refused (a misaligned one, an unmapped one), a
helper. -/
theorem witness_ThreadAccess :
    (match address s1 (whoOf s1 s1.cur) 0x40008 4 { r := true } with
      | (t, .ok l) => decide (l.loc ≠ 2) && (match servedLoad {} t l 4 with
        | (_, .done ..) => true
        | _ => false)
      | _ => false) = true ∧
    (match address s1 (whoOf s1 s1.cur) 0x40008 8 { w := true } with
      | (t, .ok l) => decide (l.loc ≠ 2) && t.cur == s1.cur && (match groupStore t t.cur l 0x40008 8 (2 ^ 64 - 1) with
        | .done .. => true
        | _ => false)
      | _ => false) = true ∧
    (match (address s1 (whoOf s1 s1.cur) 0x40004 8 { r := true }).2 with
      | .error c => c == (4, 0)
      | _ => false) = true ∧
    (match (address s1 (whoOf s1 s1.cur) 0x60000 8 { w := true }).2 with
      | .error c => c == (2, 0)
      | _ => false) = true ∧
    helper s1.cur 1 = false ∧ helper (modCur s1 fun g => { g with hmask := 2 }).cur 1 = true := by decide +kernel

/-- Scratch: the last word of the scratchpad, the first word beyond it, an offset that is not aligned. -/
theorem witness_ThreadAccess_scratch :
    s1.cur.sup = false ∧ mfind s1.blocks s1.cur.blk = some b1 ∧
    (let o := fun x : Word => x.toNat
     o 0x3FFC % 4 = 0 ∧ o 0x3FFC + 4 ≤ b1.scrSize ∧ o 0x4000 % 4 = 0 ∧ b1.scrSize < o 0x4000 + 4 ∧ o 0x3FFE % 4 ≠ 0) := by
  decide +kernel

/-! ## Atomics -/

/-- The shapes of ATOM ADD.I, of a 64-bit CAS and of ADD.F that returns, as their statements name them. -/
def addShape : AtomShape := { f := fun _ gen old x _ => (some ((old + x) % 2 ^ 32), gen), n := 4, ret := true }
def casShape : AtomShape := { f := fun _ gen old x y => (if old = x then some y else none, gen), n := 8, ret := true, two := true }

theorem witness_AtomicIssue :
    Issues s1.cur [1, 60, 61, 62, 63] [] [] ∧ Issues s1.cur [] [2, 3] [] ∧ NoGst s1.cur ∧ interruptedOp s1.cur = none ∧
    activeMask s1.cur (maskOf none) ≠ 0 ∧ (block s1 s1.cur.blk).unpinned = [] ∧
    (performed none [60] [1, 60] 0 (atomThread addShape none 60 1 1) (openOp .atom none s1).1).isSome = true ∧
    (performed none [60, 61] [1, 60, 61, 62, 63] 0 (atomThread casShape none 60 1 1) (openOp .atom none s1).1).isSome = true ∧
    (performed none [60] [1, 60] 0 (atomsThread addShape none 60 1) (openOp .atom none s1).1).isSome = true ∧
    (performed none [60, 61] [1, 60, 61, 62, 63] 0 (atomsThread casShape none 60 1) (openOp .atom none s1).1).isSome = true := by
  refine ⟨issues1 _ _ _ _ ?_ ?_ ?_, issues1 _ _ _ _ ?_ ?_ ?_, noGst1, ?_⟩ <;> decide +kernel

/-- The same with no active thread. -/
theorem witness_AtomicIssue_idle :
    let s := modCur s1 fun g => { g with m := [] }
    Issues s.cur [1, 60, 61, 62, 63] [] [] ∧ Issues s.cur [] [2, 3] [] ∧ NoGst s.cur ∧ interruptedOp s.cur = none ∧
    activeMask s.cur (maskOf none) = 0 ∧ (block s s.cur.blk).unpinned = [] := by
  refine ⟨⟨?_, ?_, ?_, ?_⟩, ⟨?_, ?_, ?_, ?_⟩, fun _ h => (nomatch h), ?_⟩ <;> decide +kernel

/-- PRF, of every word of its address pair, outside a region and in one. -/
theorem witness_AtomicIssue_prf :
    Issues s1.cur [63] [] [2, 3] ∧ wget s1.cur 15 < 255 ∧ activeMask s1.cur (maskOf none) ≠ 0 ∧ s1.cur.rgn = none ∧
    Issues sRgn.cur [63] [] [2, 3] ∧ wget sRgn.cur 15 < 255 ∧ sRgn.cur.rgn = some r1 := by
  refine ⟨issues1 _ _ _ _ ?_ ?_ ?_, ?_, ?_, ?_, ⟨?_, ?_, ?_, ?_⟩, ?_⟩ <;> decide +kernel

theorem witness_ThreadAtomic :
    (match address s1 (whoOf s1 s1.cur) 0x40008 8 { r := true, w := true } with
      | (t, .ok l) => decide (l.loc ≠ 2) && t.cur == s1.cur && (match groupAtomic t t.cur l 0x40008 8 true false (fun old => some (old + 1)) with
        | .done .. => true
        | _ => false)
      | _ => false) = true ∧
    helper s1.cur 31 = false ∧ helper (modCur s1 fun g => { g with hmask := 0x80000000 }).cur 31 = true ∧
    s1.cur.sup = false ∧ mfind s1.blocks s1.cur.blk = some b1 ∧ 0x3FF8 % 8 = 0 ∧ 0x3FF8 + 8 ≤ b1.scrSize := by decide +kernel

/-! ## Ordering and waiting -/

/-- With nothing outstanding, and with each kind of operation that a release or an acquire waits for. -/
def fenceOps : List OpRec :=
  [{ id := 0, kind := .store, untr := true }, { id := 1, kind := .store, host := true }, { id := 2, kind := .atom, vregs := [9], peers := [(1, 1)] },
   { id := 3, kind := .load }, { id := 4, kind := .scrLoad }]

theorem witness_FenceWaitResults :
    NoGst s1.cur ∧ s1.cur.rgn = none ∧ s1.cur.ops = [] ∧
    (∀ o ∈ fenceOps, let s := modCur s1 fun g => { g with ops := [o] }
      s.cur.rgn = none ∧ (∀ o ∈ s.cur.ops, o.kind ≠ .gst ∧ ∀ p ∈ o.peers, p.1 ∉ s.fw.fenced)) ∧
    (∀ o ∈ fenceOps, o.kind ≠ .copy) ∧ (fenceOps.map fun o => decide (o.untr = false)) = [false, true, true, true, true] ∧
    (fenceOps.map fun o => decide (o.host = false)) = [true, false, true, true, true] ∧
    (fenceOps.map fun o => decide (o.peers = [])) = [true, true, false, true, true] ∧
    (fenceOps.map fun o => decide (o.kind ≠ .load ∧ o.kind ≠ .gld ∧ o.kind ≠ .scrLoad ∧ (o.kind = .atom → o.vregs = []))) =
      [true, true, false, false, false] ∧ (∀ o ∈ fenceOps, o.tag ≠ 1) ∧
    wget s1.cur 15 ≤ (0 : BitVec 8).toNat ∧ Issues s1.cur [] [383] [] := by
  refine ⟨noGst1, ?_, ?_, ?_, ?_, ?_, ?_, ?_, ?_, ?_, ?_, issues1 _ _ _ _ ?_ ?_ ?_⟩ <;> decide +kernel

/-- Waits: a threshold that holds, one that does not, and one that does once what a trap interrupted is withdrawn. -/
theorem witness_FenceWaitResults_waits :
    let s := modCur s1 fun g => { g with w := [(15, 3)], joins := [(15, 200)], ops := [{ id := 0, kind := .load, w := some 15, tag := 1 }] }
    wget s.cur 15 ≤ (3 : BitVec 8).toNat ∧ (2 : BitVec 8).toNat < wget s.cur 15 ∧ s.cur.rgn = none ∧
    (let g := { s.cur with ops := s.cur.ops.map (fun o => if o.tag = 1 then { o with w := none } else o),
                           w := mput 0 s.cur.w 15 (wget s.cur 15 - (s.cur.ops.filter (·.tag == 1)).length) }
     wget g 15 ≤ (2 : BitVec 8).toNat ∧ (1 : BitVec 8).toNat < wget g 15) ∧
    (∀ o ∈ s.cur.ops, o.tag = 1 → o.w = some 15) := by decide +kernel

/-- A counter of device memory as CADD finds it, and one of a peer. -/
noncomputable def counterAtPlace (s : State) (va : Nat) (n : Need) (write : Bool) (p : Place) : Bool :=
  match address s (whoOf s s.cur) va 8 n with
  | (t, .ok l) =>
    let u := sliceReady t s.cur.ctx (l.pa / 128) write l.via
    placeOf l == p && t.cur == s.cur && !ulogOn (ctx t s.cur.ctx) && !mustWait t none (l.pa / 128) write && (memFault t l.pa l.via).isNone &&
      u.cur == s.cur && !ulogOn (ctx u s.cur.ctx) && (badAt u l.pa 8).isNone
  | _ => false

theorem witness_CounterResults :
    Issues s1.cur [] [383, 2, 3] [] ∧ Issues s1.cur [] [2, 3] [382, 383] ∧ Issues s1.cur [] [2, 3, 382, 383] [] ∧ NoGst s1.cur ∧
    s1.cur.rgn = none ∧ wget s1.cur 15 < 255 ∧ counterAtPlace s1 0x40000 { r := true, w := true } true .tracked = true ∧
    counterAtPlace s1 0x4C000 { r := true, w := true } true .untracked = true ∧
    counterAtPlace s1 0x50000 { r := true, w := true } true .direct = true ∧
    counterAtPlace s1 0x48000 { r := true, w := true } true .peer = true ∧
    counterAtPlace s1 0x40000 { r := true } false .tracked = true ∧
    counterAtPlace s1 0x4C000 { r := true } false .untracked = true ∧ counterAtPlace s1 0x50000 { r := true } false .direct = true := by
  refine ⟨issues1 _ _ _ _ ?_ ?_ ?_, issues1 _ _ _ _ ?_ ?_ ?_, issues1 _ _ _ _ ?_ ?_ ?_, noGst1, ?_⟩ <;> decide +kernel

/-- A counter's line held: for a rebase that waits, for a region frozen on it, for the re-encryption of its group. -/
noncomputable def sHeld (k : Nat) : State :=
  { s1 with
    pending := if k = 0 then [.rebase 9] else if k = 1 then [] else [.groupReencryption 0x100]
    slices := if k = 1 then [(homeSlice 0x1000, { rents := [{ aid := 11, gid := 0, line := 0x1000, reader := true, writer := true, elastic := true,
                                                              lo := 0, hi := 9, frozen := true }] })] else [] }

theorem witness_CounterResults_held : ∀ k ∈ [0, 1, 2], ∀ wr ∈ [false, true],
    (match address (sHeld k) (whoOf (sHeld k) (sHeld k).cur) 0x40000 8 { r := true, w := true } with
      | (t, .ok l) => mustWait t none (l.pa / 128) wr && t.cur == (sHeld k).cur && !ulogOn (ctx t 5) && placeOf l == .tracked
      | _ => false) = true := by decide +kernel

/-- A block of two groups: the first arrival, the last one, a second arrival of a group, gcount 511. -/
def sBar (count gcount : Nat) (arrived : List Nat) : State :=
  { s1 with blocks := [(2, { b1 with ng := 2, bars := [(15, { gcount := gcount, count := count, arrived := arrived })] })] }

theorem witness_BarrierResults :
    NoGst s1.cur ∧ s1.cur.rgn = none ∧ s1.cur.sup = false ∧ s1.cur.st = .ready ∧ mreg s1.cur 0 = s1.cur.lmask ∧
    (mfind s1.blocks s1.cur.blk).isSome = true ∧ s1.cur.grpib ∉ (barrierOf s1 2 15).arrived ∧
    s1.cur.grpib ∈ (barrierOf (sBar 1 2 [0]) 2 15).arrived ∧ (barrierOf s1 2 15).count = 0 ∧ 0 + 1 < 2 ∧
    (barrierOf (sBar 1 2 [1]) 2 15).gcount = 2 ∧ 2 ≤ (barrierOf (sBar 1 2 [1]) 2 15).count + 1 ∧
    (barrierOf (sBar 1 511 [1]) 2 15).gcount = 511 ∧
    2 - (block (sBar 1 511 [1]) 2).gone.length ≤ (barrierOf (sBar 1 511 [1]) 2 15).count + 1 ∧ scratchDue s1 = false ∧
    scratchDue (sBar 1 2 [1]) = false := by
  refine ⟨noGst1, ?_⟩; decide +kernel

/-- A store to scratch that stands in the queue; and the group of a supervisor. -/
theorem witness_BarrierResults_waits :
    (let s := modCore (modCur s1 fun g => { g with ops := [{ id := 0, kind := .scrStore }] }) 3 fun k => { k with scq := [(gidOf g1, 0)] }
     scratchDue s = true ∧ s.cur.sup = false ∧ s.cur.rgn = none ∧ s.cur.st = .ready ∧ (∀ o ∈ s.cur.ops, o.kind ≠ .gst) ∧
      recGbar (launchOf s s.cur) = true) ∧
    sup1.cur.sup = true ∧ sup1.cur.rgn = none ∧ sup1.cur.st = .ready ∧ sup1.cur.ops = [] := by decide +kernel

/-- A launch with grid barriers and one without; a group that has arrived and one that has not; a block of one group. -/
theorem witness_BarrierResults_grid :
    NoGst s1.cur ∧ s1.cur.rgn = none ∧ s1.cur.sup = false ∧ s1.cur.st = .ready ∧ mfind s1.blocks s1.cur.blk = some b1 ∧
    recGbar (launchOf s1 s1.cur) = true ∧ recGbar (launchOf { s1 with cp := {} } s1.cur) = false ∧
    s1.cur.grpib ∉ (gridBar s1 2 15).arrived ∧ scratchDue s1 = false ∧
    s1.cur.grpib ∈ (gridBar { s1 with blocks := [(2, { b1 with gbars := [(15, { arrived := [0] })] })] } 2 15).arrived ∧
    (gridBar s1 2 15).gcount = 0 ∧ s1.others = [] ∧ b1.gone = [] ∧ b1.ng = 1 ∧ (gridBar s1 2 15).arrived = [] := by
  refine ⟨noGst1, ?_⟩; decide +kernel

/-! ## The engines' instructions -/

/-- A group whose g16 to g26 describe a copy of one row of 128 bytes, or a PACKLOAD of one K-block. -/
def sCpy (op : Nat) : State :=
  let d : List Word := [0x40000, 0, if op = 4 then 0xC00000 else 0, if op = 4 then 1 else 0x80, 0x80,
    if op = 4 then 0x1000 else if op = 2 ∨ op = 3 then 0x100 else 0x80, 0x40000, 0, if op = 5 then 0x40000 else 0, 0, 0]
  { s1 with cur := { g1 with g := (List.range 11).filterMap fun i => if d.getD i 0 = 0 then none else some (16 + i, d.getD i 0) } }

/-- The command that CPY makes of it, as its statement says. -/
noncomputable def cmdOf (s : State) (op flags : Nat) (resume : Bool) : CopyCmd :=
  let d := (blockOf 2).map (gget s.cur)
  let n := extCount op flags d
  let r0 := (gget s.cur (24 + n.1)).toNat
  { gid := gidOf s.cur, opId := s.cur.nextOp, ctx := s.cur.ctx, blk := s.cur.blk, grpib := s.cur.grpib, user := !privileged s.cur,
    op := op, w := 15, flags := flags, desc := captureDesc op d (if resume then 0 else fmtKxp s.cur) (fmtFp8 s.cur),
    ext := (List.range n.1).map (fun i => gget s.cur (24 + i)), rm := if resume then r0 / 2 ^ 29 else fmtRm s.cur,
    gen := if resume then BitVec.ofNat 64 (gpair s.cur (24 + n.1 + 1)) else 0, next := if resume then r0 % 2 ^ 29 else 0,
    eclk := s.cur.lclk, pc := s.cur.pc, stamp := s.turn }

/-- Each of the eight, plain, with a counter, and resumed. -/
theorem witness_CopyIssue : ∀ op ∈ List.range 8, ∀ cnt ∈ [false, true], ∀ resume ∈ [false, true],
    let s := sCpy op
    let flags := (if cnt then 1 else 0) + (if resume then 2 else 0)
    let d := (blockOf 2).map (gget s.cur)
    cpyCheck s resume d (cpyPm1 (cmdOf s op flags resume).desc + 1) (cmdOf s op flags resume) = none ∧
    (∀ r ∈ blockOf 2 ++ (List.range ((extCount op flags d).1 + (extCount op flags d).2)).map (24 + ·), r < 384) ∧
    s.cur.ops = [] ∧ s.cur.gPoison = [] ∧ s.cur.rgn = none ∧ wget s.cur 15 < 255 ∧
    (Machine.core s 3).cpyq.length + (Machine.core s 3).parkedCpy.length < 32 := by decide +kernel

/-- A group whose g16 to g23 describe an MMA of one K-block, and one resumed at its second. -/
def sMma (resume : Bool) : State :=
  { s1 with cur := { g1 with g := [(17, 0x400), (18, 0x800), (19, 0xC00), (20, if resume then 0x21010 else 0x11010), (21, 0x11)] ++
                                   (if resume then [(22, 1)] else []) } }

theorem witness_MatrixIssue : ∀ resume ∈ [false, true],
    let s := sMma resume
    mmaCheck s ((blockOf 2).map (gget s.cur)) resume = none ∧ s.cur.ops = [] ∧ s.cur.gPoison = [] ∧ s.cur.rgn = none ∧
    wget s.cur 15 < 255 ∧ (∀ r ∈ blockOf 2, r < 384) ∧ (7 : BitVec 3).toNat < s.cur.ab ∧ (Machine.core s 3).mmaq.length < 32 ∧
    ((Machine.core s 3).mmaq.filter fun m => m.blk == s.cur.blk && m.tile == 7).length < 2 ∧ (∀ o ∈ s.cur.ops, o.kind ≠ .gst) := by decide +kernel

/-- The first and the last quarter row of a tile, and the header. -/
theorem witness_AccumulatorResults :
    (∀ x ∈ [0, 0x607F], let s := modCur s1 fun g => { g with g := if x = 0 then [] else [(383, BitVec.ofNat 32 x)] }
      Issues s.cur [63] [383] [] [7] ∧ (gget s.cur 383).toNat < 2 ^ 15 ∧ (gget s.cur 383).toNat / 2 ^ 7 % 2 ^ 6 = 0 ∧
      tileBusy s s.cur.core s.cur.blk 7 = false ∧ mfind s.blocks s.cur.blk = some b1 ∧ b1.tileBad = []) ∧
    (let s := modCur s1 fun g => { g with g := [(383, 0x8000)] }
     Issues s.cur [63] [383] [] [7] ∧ (gget s.cur 383).toNat = 2 ^ 15) ∧ NoPoison s1.cur 0 [63] := by
  refine ⟨?_, ⟨⟨?_, ?_, ?_, ?_⟩, ?_⟩, noPoison1 _ _⟩
  · intro x hx
    simp only [List.mem_cons, List.not_mem_nil, or_false] at hx
    rcases hx with rfl | rfl <;> refine ⟨⟨?_, ?_, ?_, ?_⟩, ?_⟩ <;> decide +kernel
  all_goals decide +kernel

/-- PKPL of 32 zeros into blocks at 0 with p = 2. -/
def sPk : State := { s1 with cur := { g1 with g := [(17, 0x20), (18, 0x400), (19, 0x200)] } }

theorem witness_PackPlanesResults :
    let val := fun i => if (activeMask sPk.cur 0).getLsbD i && !poisoned sPk.cur [63] i then datum fp32 0 (Machine.vget sPk.cur 63 i) else .fin false 0 0
    let b0 := roundKx ((List.range 16).map val) 2 0 0
    let b1 := roundKx ((List.range 16).map fun i => val (16 + i)) 2 0 b0.gen
    Issues sPk.cur [63] ((List.range 4).map (16 + ·)) [] ∧ NoGst sPk.cur ∧ (mfind sPk.blocks sPk.cur.blk).any (fun b => b.unpinned.isEmpty) = true ∧
    (∀ x ∈ pkplWrites sPk.cur 16 2 [b0.blk, b1.blk], scrFault sPk sPk.cur x.1 x.2.1 = none) ∧
    (∀ i ∈ threads (activeMask sPk.cur 0), helper sPk.cur i = false → poisoned sPk.cur [63] i = false) ∧
    arithTraps sPk.cur (b0.ex ||| b1.ex) = false := by
  refine ⟨⟨?_, ?_, ?_, ?_⟩, fun _ h => (nomatch h), ?_⟩ <;> decide +kernel

/-! ## Traps and system instructions -/

/-- The group held to a context in which the debug port may act, the port attached. -/
def sDbg : State :=
  { s1 with fw := { s1.fw with ctxs := [(5, { ctxReset 5 with live := true, dbg := true })] }, io := { dbgOn := true } }

theorem witness_TrapInstructions :
    s1.cur.sup = false ∧ s1.cur.rgn = none ∧ ((ctx s1 s1.cur.ctx).dbg && s1.io.dbgOn) = false ∧
    sDbg.cur.sup = false ∧ sDbg.cur.rgn = none ∧ ((ctx sDbg sDbg.cur.ctx).dbg && sDbg.io.dbgOn) = true ∧
    (∀ r ∈ (List.range 8).map (8 * (46 : BitVec 6).toNat + ·), r < 380) ∧ s1.cur.ops = [] ∧
    sRgn.cur.sup = false ∧ sRgn.cur.rgn = some r1 ∧ sRgn.cur.st = .ready ∧ sup1.cur.sup = true ∧
    sup1.fw.errlog.length < 4096 := by decide +kernel

/-- The context's window is 0: the window itself and one 2^15 ahead, the next one and the last ahead; with the log off and on. -/
def sLog : State := { s1 with fw := { s1.fw with ctxs := [(5, { ctxReset 5 with live := true, ulogPol := 0x80000000 })] } }

theorem witness_WindowMark :
    let ahead := fun i : BitVec 16 => (i - (ctx s1 (scopeCtx s1 s1.cur)).window).toNat
    s1.cur.rgn = none ∧ ahead 0 = 0 ∧ 2 ^ 15 ≤ ahead 0x8000 ∧ 0 < ahead 1 ∧ ahead 1 < 2 ^ 15 ∧ ahead 0x7FFF < 2 ^ 15 ∧
    s1.cur.ops = [] ∧ (ctx s1 (scopeCtx s1 s1.cur)).ulogPol.getLsbD 31 = false ∧ sLog.cur.rgn = none ∧
    (ctx sLog (scopeCtx sLog sLog.cur)).ulogPol.getLsbD 31 = true ∧ sLog.cur.sup = false ∧
    (let s := modCur s1 fun g => { g with ops := [{ id := 0, kind := .atom }] }
     s.cur.rgn = none ∧ ∃ o ∈ s.cur.ops, o.tag ≠ 1 ∧ o.kind ∈ [OpKind.store, .atom, .gst]) := by decide +kernel

/-- At user privilege and in a save routine (PRIV); every clause's condition. -/
theorem witness_SystemRegisterReads :
    s1.cur.sup = false ∧ Issues s1.cur [] [] [383] ∧ Issues s1.cur [] [] [382] ∧ s1.cur.ops = [] ∧ s1.cur.priv = false ∧ 382 % 2 = 0 ∧
    (0x200 ≤ (0x200 : BitVec 12).toNat) ∧ (0x00F : BitVec 12).toNat < 0x10 ∧
    (let s := modCur s1 fun g => { g with priv := true }
     s.cur.sup = false ∧ Issues s.cur [] [] [383] ∧ privileged s.cur = true) ∧
    (sup1.cur.sup = true ∧ Issues sup1.cur [] [] [383] ∧ privileged sup1.cur = true) ∧
    (let s := modCur s1 fun g => { g with ops := [{ id := 0, kind := .cread, gregs := [20, 21] }] }
     Issues s.cur [] [] [383] ∧ ∃ o ∈ s.cur.ops, o.tag ≠ 1 ∧ o.kind ∈ [OpKind.load, .store, .atom, .gld, .gst, .cadd, .cread]) := by
  refine ⟨?_, issues1 _ _ _ _ ?_ ?_ ?_, issues1 _ _ _ _ ?_ ?_ ?_, ?_, ?_, ?_, ?_, ?_, ⟨?_, ⟨?_, ?_, ?_, ?_⟩, ?_⟩, ⟨?_, ⟨?_, ?_, ?_, ?_⟩, ?_⟩,
    ⟨?_, ?_, ?_, ?_⟩, ?_⟩ <;> decide +kernel

/-- A legal FMT, RM = 6, FP8 = 2; both privileges. -/
theorem witness_SystemRegisterWrites :
    Issues s1.cur [] [383] [] ∧ privileged s1.cur = false ∧ (gget s1.cur 383).toNat % 8 ≤ 5 ∧ (gget s1.cur 383).toNat / 2 ^ 13 % 4 ≤ 1 ∧
    (∀ x ∈ [6, 0x4000], let s := modCur s1 fun g => { g with g := [(383, BitVec.ofNat 32 x)] }
      (5 < (gget s.cur 383).toNat % 8 ∨ 1 < (gget s.cur 383).toNat / 2 ^ 13 % 4) ∧ s.cur.ops = [] ∧ s.cur.gPoison = []) ∧
    (0x01F : BitVec 12).toNat < 0x20 ∧ 0x23 < (0x024 : BitVec 12).toNat ∧ privileged sup1.cur = true ∧ Issues sup1.cur [] [383] [] := by
  refine ⟨issues1 _ _ _ _ ?_ ?_ ?_, ?_, ?_, ?_, ?_, ?_, ?_, ?_, ⟨?_, ?_, ?_, ?_⟩⟩ <;> decide +kernel

/-! ## Another group, pre-emption, translations, the front -/

/-- The supervisor of core 3 beside a parked and a held group of the core; g0 holds the handle, g1 the selector. -/
def gPark : Group := { g1 with st := .parked, seq := 9 }
def sX (handle sel v : Word) (st : GState) : State :=
  { sup1 with
    cur := { sup1.cur with g := [(0, handle), (1, sel), (2, v)].filter fun p => p.2 != 0 }
    others := [{ gPark with st := st }]
    cp := { sup1.cp with futures := [{ tag := 4, gid := 3 * 2048 + 7, blk := 2, grpib := 0, w := 1, reg := 40 }] } }

theorem witness_ForeignRegisters :
    privileged s1.cur = false ∧
    (let s := sX (handleOf gPark) 0 0 .parked
     privileged s.cur = true ∧ Issues s.cur [] [0, 1] [2] ∧ Issues s.cur [] [2, 0, 1] [] ∧ s.cur.st = .ready ∧
     targetOf s (gget s.cur 0) = some gPark) ∧
    (let s := sX (handleOf gPark) 0 0 .held
     (targetOf s (gget s.cur 0)).isSome = true) ∧
    (let s := sX (handleOf gPark + 1) 0 0 .parked
     targetOf s (gget s.cur 0) = none) := by
  refine ⟨?_, ⟨?_, ⟨?_, ?_, ?_, ?_⟩, ⟨?_, ?_, ?_, ?_⟩, ?_, ?_⟩, ?_, ?_⟩ <;> decide +kernel

/-- The rows' conditions at the ends of their ranges: v63, g379, g380, the last group register; and just beyond them. -/
theorem witness_ForeignRegisters_rows :
    let n := fun sel : Word => sel.toNat % 512
    n 63 < gPark.vb ∧ gPark.vb ≤ n 64 ∧ n 379 + 4 < gPark.ub ∧ (380 ≤ n 383 ∧ n 383 < 384) ∧ (gPark.ub ≤ n 384 + 4 ∧ 384 ≤ n 384) ∧
    gPark.ops = [] ∧ n 0x1F000E = 14 ∧ 15 ≤ n 15 ∧ n 13 = 13 ∧ (7 ≤ n 7 ∧ n 10 ≤ 10) ∧ 16 ≤ n 16 ∧
    (0x44 : Word).toNat % 4 = 0 ∧ (0x42 : Word).toNat % 4 ≠ 0 ∧ (32 : Word).toNat ≤ 32 ∧ 32 < (33 : Word).toNat := by decide +kernel

/-- Answering the future of tag 4, and a tag that no future has. -/
theorem witness_ForeignRegisters_future :
    let s := sX 0 0x4000F 0 .parked
    (gget s.cur 1).toNat % 512 = 15 ∧ 2 + 1 + 4 < s.cur.ub ∧
    s.cp.futures.find? (fun f => f.tag == (gget s.cur 1).toNat / 2 ^ 16) =
      some { tag := 4, gid := 3 * 2048 + 7, blk := 2, grpib := 0, w := 1, reg := 40 } ∧
    Machine.group s (3 * 2048 + 7) = some gPark ∧ gidOf gPark ≠ gidOf s.cur ∧ awayGroup s 2 0 = none ∧
    (∀ f ∈ s.cp.futures, f.tag ≠ (gget (sX 0 0x5000F 0 .parked).cur 1).toNat / 2 ^ 16) ∧
    (s.cur.ub ≤ (383 : BitVec 9).toNat + 1 + 4 ∧ 384 ≤ (383 : BitVec 9).toNat + 1) := by decide +kernel

/-- The group in its save routine, and in its restore routine with g0:g1 at a frame of version 1 and of version 0. -/
def sRest (version : Byte) : State :=
  { s1 with
    cur := { g1 with priv := true, restore := true, ctx := 0, g := [(0, 0x40000)] }
    cores := [(3, { tlb := [{ asid := 0, base := 0x40000, level := 3, ent := 0x8032D }] })], clusters := []
    mm := { mem := if version = 0 then [] else [(0x80000, version)] } }

theorem witness_PreemptionReturn :
    (sup1.cur.sup = true ∧ s1.cur.priv = false) ∧
    (let s := modCur s1 fun g => { g with priv := true }
     s.cur.sup = false ∧ s.cur.priv = true ∧ s.cur.restore = false ∧ s.cur.ops = []) ∧
    (∀ v ∈ [(0 : Byte), 1], let s := sRest v
      s.cur.sup = false ∧ s.cur.priv = true ∧ s.cur.restore = true ∧ s.cur.ops = [] ∧ s.cur.gPoison = [] ∧
      (match frameWhole s with
        | .ok t ws => fw ws 0 == v.setWidth 32 && t.cur.rgn.isNone && !t.cur.sup && t.cur.rix ≤ 32 && fw ws 28 == 0 &&
            (List.range 8).all (fun k => !(fw ws (40 + k)).getLsbD 0) && (awayGroup t t.cur.blk t.cur.grpib).isNone
        | _ => false) = true) := by decide +kernel

/-- In the save routine with a store outstanding; and with a piece of the image that no page takes. -/
theorem witness_PreemptionReturn_save :
    (let s := modCur s1 fun g => { g with priv := true, ops := [{ id := 0, kind := .store }] }
     s.cur.sup = false ∧ s.cur.priv = true ∧ s.cur.restore = false ∧
      ∃ o ∈ s.cur.ops, o.kind = .cadd ∨ (o.tag ≠ 1 ∧ o.kind ∈ [OpKind.store, .atom, .gst])) ∧
    (let s := modCur s1 fun g => { g with priv := true, unsaved := [{ va := 0x40000, n := 4, val := 1 }, { va := 0x60000, n := 4, val := 2 }] }
     s.cur.ops = [] ∧ (writeUnsaved (imageAgent s.cur.core s.cur.ctx s.cur.lclk) s.cur.unsaved s).2 =
       some ((2, 0), [{ va := 0x60000, n := 4, val := 2 }])) := by
  refine ⟨?_, ?_⟩ <;> decide +kernel

/-- No request on its way; and a CADD whose page TLBI.ASID and TLBI.PAGE drop. -/
theorem witness_TranslationDrop :
    privileged s1.cur = false ∧ privileged sup1.cur = true ∧ Issues sup1.cur [] [254, 255] [] ∧ sup1.pending = [] ∧
    (let s := { sCadd 1 false with pending := [.caddAtSlice gid1 0x80000 1 0] }
     usesDropped (fun _ => true) s (.caddAtSlice gid1 0x80000 1 0) = true ∧
      usesDropped (fun t => t.asid == 5) s (.caddAtSlice gid1 0x80000 1 0) = true ∧
      usesDropped (fun t => t.asid == 6) s (.caddAtSlice gid1 0x80000 1 0) = false ∧
      usesDropped (tlbHit 5 0x44000) s (.caddAtSlice gid1 0x80000 1 0) = false) := by
  refine ⟨?_, ?_, ⟨?_, ?_, ?_, ?_⟩, ?_, ?_, ?_, ?_, ?_⟩ <;> decide +kernel

/-- LTSET by a supervisor: the front itself, 2^30 after it, one more. -/
theorem witness_FrontSet :
    privileged s1.cur = false ∧
    (∀ f ∈ [0, 1, 0x40000000, 0x40000001], let s := { sup1 with cur := { sup1.cur with g := [(383, BitVec.ofNat 32 f)] } }
      privileged s.cur = true ∧ s.cur.ops = [] ∧ s.cur.gPoison = [] ∧ (gget s.cur 383 - s.cp.front).toNat = f ∧ mayRaise s = true ∧
      rebasing s = false ∧ requestInFlight s = false ∧ s.cur.rgn = none) ∧
    (let s := { sup1 with cp := { sup1.cp with raised := true }, mm := { sup1.mm with lines := [(0x1000, {})] } }
     mayRaise s = false ∧ rebasing s = false) ∧
    (let s := { sup1 with pending := [.rebase 9] }
     rebasing s = true ∧ privileged s.cur = true) ∧
    (let s := { sup1 with pending := [.cwaitRequest gid1] }
     requestInFlight s = true ∧ rebasing s = false) := by decide +kernel

/-! ## Regions -/

/-- ARBEG with a slot free, with none free, and nested. -/
def sFull : State := { s1 with cp := { s1.cp with slots := (List.range' 0 4096).map fun i => (i, 1) } }

theorem witness_RegionResults_begin :
    (let s := modCur s1 fun g => { g with ops := [{ id := 0, kind := .load, vregs := [9] }] }
     s.cur.rgn = none ∧ (∃ o ∈ s.cur.ops, o.tag ≠ 1 ∧ o.kind ∈ [OpKind.load, .scrLoad, .gld, .cread, .store, .atom, .gst]) ∧
      Issues s.cur [] [383] []) ∧
    Issues s1.cur [] [383] [] ∧ s1.cur.rgn = none ∧ s1.cur.ops = [] ∧ (∃ i < 4096, mfind s1.cp.slots i = none) ∧
    (s1.cp.front + 0x3FFFFFFF - s1.cur.lclk).toNat < 2 ^ 31 ∧ sRgn.cur.rgn = some r1 := by
  refine ⟨⟨?_, ?_, ⟨?_, ?_, ?_, ?_⟩⟩, issues1 _ _ _ _ ?_ ?_ ?_, ?_, ?_, ⟨0, ?_, ?_⟩, ?_, ?_⟩ <;> decide +kernel

theorem slots_taken (n m i : Nat) (h : m ≤ i) (h' : i < m + n) : mfind ((List.range' m n).map fun i => (i, 1)) i = some 1 := by
  induction n generalizing m with
  | zero => omega
  | succ n ih =>
    simp only [List.range'_succ, List.map_cons, mfind]
    split
    · rfl
    · exact ih (m + 1) (by omega) (by omega)

theorem witness_RegionResults_full : sFull.cur.rgn = none ∧ ∀ i < 4096, mfind sFull.cp.slots i ≠ none := by
  refine ⟨rfl, fun i hi => ?_⟩
  simp only [sFull, slots_taken 4096 0 i (Nat.zero_le _) (by omega), ne_eq, reduceCtorEq, not_false_eq_true]

/-- AREND, ARABT and ARNRW outside a region, in one that commits, and in one whose interval is empty or becomes so. -/
theorem witness_RegionResults_end :
    s1.cur.rgn = none ∧ Issues s1.cur [] [382, 383] [] ∧ sRgn.cur.rgn = some r1 ∧ messageDue sRgn 0 = false ∧
    before sRgn.cur.ahi sRgn.cur.alo = false ∧ (ctx sRgn sRgn.cur.ctx).ulogPol.getLsbD 31 = false ∧
    (∀ l ∈ r1.writes, hostHolds sRgn l = none) ∧ (r1.buf.map (·.1)).Nodup ∧ sRgn.mm.sealed = [] ∧
    messageDue { sRgn with pending := [.narrowingMessage 1 0 150 0 0] } 0 = true ∧
    (let s := modCur sRgn fun g => { g with ahi := 99 }
     messageDue s 0 = false ∧ before s.cur.ahi s.cur.alo = true) ∧
    (let s := modCur sRgn fun g => { g with g := [(382, 200), (383, 200)] }
     Issues s.cur [] [382, 383] [] ∧ before (ltMin s.cur.ahi (gget s.cur 383)) (ltMax s.cur.alo (gget s.cur 382)) = false) ∧
    (let s := modCur sRgn fun g => { g with g := [(382, 201), (383, 200)] }
     before (ltMin s.cur.ahi (gget s.cur 383)) (ltMax s.cur.alo (gget s.cur 382)) = true) := by
  refine ⟨?_, issues1 _ _ _ _ ?_ ?_ ?_, ?_, ?_, ?_, ?_, ?_, ?_, ?_, ?_, ?_, ⟨⟨?_, ?_, ?_, ?_⟩, ?_⟩, ?_⟩ <;> decide +kernel

/-! ## Calls and launches -/

/-- Seven futures held and eight. -/
def sFut (n : Nat) : State := modCur s1 fun g => { g with ops := (List.range n).map fun i => { id := i, kind := .future, gregs := [100 + 2 * i, 101 + 2 * i] } }

theorem witness_CallLaunchIssue :
    (∀ n ∈ [7, 8], let s := sFut n
      (∀ r ∈ (List.range 8).map (8 * 46 + ·) ++ [368, 369], r < 380 ∧ ∀ o ∈ s.cur.ops, r ∉ o.gregs) ∧ s.cur.gPoison = [] ∧
      (∀ o ∈ s.cur.ops, o.kind ≠ .gst) ∧ s.cur.rgn = none ∧ (s.cur.ops.filter fun o => o.kind == .future).length = n ∧
      wget s.cur 15 < 255 ∧ (ctx s s.cur.ctx).ulogPol.getLsbD 31 = false ∧ s.cp.futures.length + s.cp.answers.length < 2 ^ 16) ∧
    Issues s1.cur [] [2, 3] [] ∧ NoGst s1.cur ∧ s1.cur.rgn = none ∧ wget s1.cur 15 < 255 ∧
    (match address s1 (whoOf s1 s1.cur) (pairVal s1.cur 1) 128 { r := true } with
      | (t, .ok l) =>
        let r := trackedLine t (whoOf t t.cur) (l.pa / 128) l.via
        decide (placeOf l ≠ .host ∧ placeOf l ≠ .peer ∧ placeOf l ≠ .mmio) && !mustWait t none (l.pa / 128) false && (memFault t l.pa l.via).isNone &&
          (copyBad r.1 r.2.1 l.pa 128).isNone && !(ctx r.1 r.1.cur.ctx).ulogPol.getLsbD 31
      | _ => false) = true := by
  refine ⟨?_, issues1 _ _ _ _ ?_ ?_ ?_, noGst1, ?_, ?_, ?_⟩ <;> decide +kernel

/-! ## Decoding, stepping, invariants -/

theorem witness_DecodeEncode :
    wellFormed (.atomAddBf16x2 (some { pfx with ms := 7, rnd := .rsto, imm := 0xFF }) 63 63 127) = true ∧
    wellFormed (.arbegElastic 511 0xFFFFFFFF) = true := by decide +kernel

/-- The majors at the ends of the ranges. -/
theorem witness_SampleWords :
    (∀ w ∈ [0x01FFFFFF, 0x3C000000, 0x43FFFFFF, 0xBC000000, 0xC3FFFFFF, 0xFE000000],
      let m := (BitVec.ofNat 32 w).toNat / 2 ^ 25
      m = 0 ∨ (0x1E ≤ m ∧ m ≤ 0x21) ∨ (0x5E ≤ m ∧ m ≤ 0x61) ∨ m = 0x7F) ∧
    (∀ w ∈ [0x3A000000, 0x7A000000, 0x7FFFFFFF, 0x9E000000, 0xA8000000, 0xBBFFFFFF, 0xE4000000, 0xFBFFFFFF],
      let m := (BitVec.ofNat 32 w).toNat / 2 ^ 25
      m = 0x1D ∨ (0x3D ≤ m ∧ m ≤ 0x3F) ∨ m = 0x4F ∨ (0x54 ≤ m ∧ m ≤ 0x5D) ∨ (0x72 ≤ m ∧ m ≤ 0x7D)) := by decide +kernel

/-- The group has the next turn, at LAND, before a word of zeros and at RIX 32. -/
def sTurn : State := { s1 with lead := some (gidOf g1) }

theorem takesTurn1 : TakesTurn sTurn := by
  refine ⟨?_, ?_, ?_, ?_, ?_, ?_⟩ <;> decide +kernel

/-- A translation that changes nothing, from its evaluation. -/
theorem address_kept {s : State} {w : Who} {va n : Nat} {nd : Need} {l : Leaf}
    (h : (match address s w va n nd with
      | (t, .ok k) => t == s && k == l
      | _ => false) = true) : address s w va n nd = (s, .ok l) := by
  revert h
  cases address s w va n nd with
  | mk t r =>
    cases r with
    | error c => intro h; cases h
    | ok k =>
      intro h
      simp only [Bool.and_eq_true, beq_iff_eq] at h
      rw [h.1, h.2]

theorem codeWords1 : CodeWord (nextTurn sTurn) 0 0x76000000 ∧ CodeWord (nextTurn sTurn) 1 0 := by
  constructor <;> unfold CodeWord
  · refine ⟨.inl (by decide +kernel), { pa := 0x20000, mt := 0, loc := 0, via := { na := false, key := some 0 } }, address_kept ?_, ?_, ?_⟩ <;>
      decide +kernel
  · refine ⟨.inl (by decide +kernel), { pa := 0x20004, mt := 0, loc := 0, via := { na := false, key := some 0 } }, address_kept ?_, ?_, ?_⟩ <;>
      decide +kernel

theorem witness_StepRunsDecoded :
    TakesTurn sTurn ∧ CodeWord (nextTurn sTurn) 0 0x76000000 ∧ CodeWord (nextTurn sTurn) 1 0 ∧
    decodeWords [0x76000000] = .instr .land 1 ∧ decodeWords [0x00000000] = .guard 0 ∧ sTurn.cur.rix ≠ 32 ∧ sTurn.cur.stepReq = false ∧
    TakesTurn (modCur sTurn fun g => { g with rix := 32 }) := by
  refine ⟨takesTurn1, codeWords1.1, codeWords1.2, ?_, ?_, ?_, ?_, ⟨?_, ?_, ?_, ?_, ?_, ?_⟩⟩ <;> decide +kernel

/-- A fold, which has an effect at RIX 32; a GLD before which a CADD of the group is due; a state whose boot is due, and one that
nothing follows. -/
theorem witness_StepRunsDecoded_more :
    endsAt32 (.rsumI 40 3) = true ∧ endsAt32 .land = false ∧ accessesMemory (.gld 12 5 2) = true ∧ accessesMemory .land = false ∧
    caddDue (nextTurn { sTurn with pending := [.yieldExpiry 0, .caddAtSlice (gidOf g1) 0x80000 1 0] }) (gidOf g1) = some 1 ∧
    caddDue (nextTurn sTurn) (gidOf g1) = none ∧ (∀ g ∈ allGroups s1, g.stepReq = false) ∧ s1.fw.status = 0 ∧
    s1.fw.power = .d0 ∧ ∀ g ∈ allGroups { s1 with fw := { s1.fw with status := 1 } },
      tickDue { s1 with fw := { s1.fw with status := 1 } } g = false := by
  refine ⟨?_, ?_, ?_, ?_, ?_, ?_, ?_, ?_, ?_, ?_⟩ <;> decide +kernel

theorem steps1 : ∃ t, step sTurn = .next t := by
  have : (match step sTurn with
    | .next _ => true
    | _ => false) = true := by decide +kernel
  revert this
  cases step sTurn <;> simp

theorem witness_MemoryStaysCanonical : MemoryCanonical sTurn ∧ ∃ t, step sTurn = .next t := by
  exact ⟨by show Memory.wf _ = true; decide +kernel, steps1⟩

theorem witness_DataStaysOrdered : Ordered sTurn ∧ ∃ t, step sTurn = .next t := by
  refine ⟨⟨?_, ?_, ?_, ?_, ?_, ?_⟩, steps1⟩ <;> decide +kernel

/-! ## Steps of groups -/

/-- The group in a state, with operations outstanding, at a PC. -/
def sG (st : GState) (ops : List OpRec := []) (pc : DWord := 0x10000) : State :=
  { s1 with cur := { g1 with st := st, ops := ops, pc := pc, w := [(1, 1)] } }

/-- An address translates and nothing changes. -/
noncomputable def kept (s : State) (w : Who) (va n : Nat) (nd : Need) : Bool :=
  match address s w va n nd with
  | (t, .ok l) => t == s && (lineFault s l).isNone
  | _ => false

theorem witness_GroupSteps :
    (Machine.group (sG (.stalled 4 false)) gid1).any (fun g => g.st == .stalled 4 false) = true ∧
    (∀ k ∈ [OpKind.load, .atom, .prf, .gld, .cread, .store, .gst, .scrLoad, .scrStore],
      let s := sG .ready [{ id := 0, kind := k, w := some 1, vregs := [63], gregs := [383] }]
      (Machine.group s gid1).any (fun g => (g.ops.find? (·.id == 0)).any fun o => o.kind == k && o.tag != 1) = true) ∧
    (let s := modCore (sG .ready [{ id := 0, kind := .scrLoad, w := some 1 }]) 3 fun k => { k with scq := [(gid1, 0)] }
     (Machine.core s 3).scq = [(gid1, 0)]) ∧
    (let s := sG (.stalled 9 false)
     s.cur.st = .stalled 9 false ∧ kept s (whoOf s s.cur) 0x40004 4 { r := true } = true ∧ rebasing s = false ∧
      rebasing { s with pending := [.rebase 9] } = true) ∧
    (let s := sG (.stalled 18 false) [] 0x13F80
     s.cur.st = .stalled 18 false ∧ missingWord s s.cur = some 0x13F80 ∧
      kept s (fetcher s s.cur) 0x13F80 4 { x := true } = true) ∧
    (∀ drift ∈ [255, 256], let s := modCur s1 fun g => { g with drift := drift }
      isResident s.cur = true ∧ (ctx s s.cur.ctx).tickNow ≠ 0 ∧ ((ctx s s.cur.ctx).tickNow.toNat ≤ s.cur.drift ↔ drift = 256)) ∧
    wget (sG (.lull (.count 1 1) 0x10044)).cur 1 ≤ 1 ∧
    (let s := sG (.lull (.barrier 15) 0x10044)
     s.cur.grpib ∉ (barrierOf s s.cur.blk 15).arrived) ∧
    (sG (.lull .yielded 0x10044)).cur.st = .lull .yielded 0x10044 := by decide +kernel

/-- A scratch request of two parts: the other part stands in the queue of another core, or does not. -/
theorem witness_GroupSteps_parts :
    let s := { sG .ready [{ id := 0, kind := .scrLoad, w := some 1 }] with cores := [(3, k1), (4, { scq := [(gid1, 0)] })] }
    scratchQueued s gid1 0 = true ∧ scratchQueued (modCore s 4 fun k => { k with scq := [] }) gid1 0 = false := by decide +kernel

/-- A supervisor's ring of 16 records at the page 0x40000 of context 0, and a record that has not been posted. -/
def sRing : State :=
  { s1 with
    cores := [(3, { faultq := 0x1004, tlb := [{ asid := 0, base := 0x40000, level := 3, ent := 0x8032D }],
                    replay := [{ words := List.replicate 16 3, gid := gid1, posted := false, frees := false }] })]
    clusters := [], mm := {} }

theorem witness_TrapSteps :
    (let s := sG (.stalled 5 true)
     let s := { s with fw := { s.fw with ctxs := [(5, { ctxReset 5 with live := true, wdog := 1000 })] } }
     s.cur.sup = false ∧ s.cur.rgn = none ∧ s.cur.preempt = false ∧ (ctx s s.cur.ctx).wdog ≠ 0 ∧
      (ctx s s.cur.ctx).wdog.toNat < 1001) ∧
    (s1.cur.st = .ready ∧ s1.cur.priv = false ∧ ((ctx s1 5).dbg && s1.io.dbgOn) = false ∧ ((ctx sDbg 5).dbg && sDbg.io.dbgOn) = true) ∧
    (let s := modCur s1 fun g => { g with preempt := true }
     isResident s.cur = true ∧ mayVector s s.cur = true) ∧
    (let s := modCur (sG .ready [{ id := 0, kind := .load }]) fun g => { g with preempt := true }
     isResident s.cur = true ∧ mayVector s s.cur = false) ∧
    (match translate s1 { core := 3, asid := 5, clk := 0, user := false } 0x40000 { w := true } with
      | (_, .ok _) => true
      | _ => false) = true ∧
    (block s1 2).st = .resident := by decide +kernel

theorem witness_TrapSteps_post :
    (Machine.core sRing 3).replay.find? (fun r => !r.posted) =
      some { words := List.replicate 16 3, gid := gid1, posted := false, frees := false, bad := [] } ∧ ringLog sRing 3 ≠ 0 ∧
    (match ringCounter sRing 3 (ringBase sRing 3) with
      | some (t, tail, lt) => (match ringCounter t 3 (ringBase sRing 3 + 8) with
        | some (u, head, _) => decide (tail - head < 2 ^ ringLog sRing 3) &&
          (match writeRecord { ringAgent 3 with clk := 3 } (ringRecord u 3 tail) (List.replicate 16 3) u with
            | some (v, clk) => (counterAdd v 0 clk lt.pa 1 lt.via).isSome
            | none => false)
        | none => false)
      | none => false) = true := by decide +kernel

/-! ## Steps of the engines -/

/-- The copy of `sCpy` at the head of its core's queue, its group waiting on w15. -/
noncomputable def sCopy (started cnt : Bool) (next : Nat) : State :=
  let s := sCpy 0
  let c := { cmdOf s 0 (if cnt then 1 else 0) false with started := started, next := next }
  modCore (modCur s fun g => { g with ops := [{ id := 0, kind := .copy, w := some 15 }], nextOp := 1, w := [(15, 1)] }) 3
    fun k => { k with cpyq := [c] }

/-- A copy from an address that nothing maps. -/
noncomputable def sCopyBad : State :=
  modCore (sCopy true false 0) 3 fun k => { k with cpyq := k.cpyq.map fun c => { c with desc := c.desc.set 0 0x60000 } }

/-- A parked copy whose record stands at index 3 of the ring. -/
noncomputable def sParked : State :=
  modCore (sCopy false false 0) 3 fun k => { k with cpyq := [], parkedCpy := k.cpyq.map fun c => { c with ring := some 3, sub := 13 } }

theorem witness_CopySteps :
    ((Machine.core (sCopy false false 0) 3).cpyq.map (·.started) = [false] ∧ accessBefore (sCopy false false 0) gid1 0 = false ∧
      ∀ c ∈ (Machine.core (sCopy false false 0) 3).cpyq, copyBlocked (sCopy false false 0) 3 c = false ∧
        missingPage (sCopy false false 0) c.blk (cpyRanges c.op c.flags c.desc) = none) ∧
    (∀ c ∈ (Machine.core (sCopy true false 0) 3).cpyq, c.started = true ∧ unitsDone (sCopy true false 0) c = false ∧
      (match performUnit 3 (sCopy true false 0) c with
        | .ok .. => true
        | _ => false) = true) ∧
    (∀ c ∈ (Machine.core sCopyBad 3).cpyq, c.started = true ∧ unitsDone sCopyBad c = false ∧
      (match performUnit 3 sCopyBad c with
        | .fault .. => true
        | _ => false) = true) ∧
    (let s := { sCopy true false 0 with pending := [.rebase 9] }
     ∀ c ∈ (Machine.core s 3).cpyq, c.started = true ∧ unitsDone s c = false ∧
      (match performUnit 3 s c with
        | .wait => true
        | _ => false) = true) := by
  refine ⟨?_, ?_, ?_, ?_⟩ <;> decide +kernel

theorem witness_CopySteps_end :
    (∀ c ∈ (Machine.core (sCopy true false 1) 3).cpyq, c.started = true ∧ unitsDone (sCopy true false 1) c = true ∧ flagCnt c.flags = false ∧
      (Machine.group (sCopy true false 1) c.gid).any (fun g => g.st != .retired && (g.ops.find? (·.id == c.opId)).any fun o => o.w == some c.w) = true) ∧
    (∀ c ∈ (Machine.core (sCopy true true 1) 3).cpyq, c.started = true ∧ unitsDone (sCopy true true 1) c = true ∧ flagCnt c.flags = true ∧
      (match addCounter 3 (sCopy true true 1) c with
        | .ok t _ => (Machine.group t c.gid).any fun g => g.st != .retired && (g.ops.find? (·.id == c.opId)).any fun o => o.w == some c.w
        | _ => false) = true) ∧
    (parkedAt sParked 3 3).isSome = true ∧ (parkedAt sParked 3 2).isNone = true ∧
    (Machine.group sParked gid1).any (fun g => g.st != .retired && (g.ops.find? (·.id == 0)).any fun o => o.w == some 15) = true := by
  refine ⟨?_, ?_, ?_, ?_, ?_⟩ <;> decide +kernel

/-- The MMA of `sMma` at the head of its core's queue. -/
noncomputable def sMm (started stopping : Bool) (gated : List Nat) : State :=
  let s := sMma false
  let m : MmaCmd := { gid := gid1, opId := 0, blk := 2, grpib := 0, w := 15, tile := 7, desc := (blockOf 2).map (gget s.cur), eclk := 100,
                      started := started, stopping := stopping }
  modCore (modCur s fun g => { g with ops := [{ id := 0, kind := .mma, w := some 15 }], nextOp := 1, w := [(15, 1)] }) 3
    fun k => { k with mmaq := [m], gated := gated }

theorem witness_MatrixSteps :
    (∀ gated ∈ [[], [0]], let s := sMm false false gated
      ∀ m ∈ (Machine.core s 3).mmaq, m.started = false ∧ accessBefore s m.gid m.opId = false ∧ mmaBlocked s 3 m = false ∧
        (subArrays m.desc).any gated.contains = !gated.isEmpty ∧ missingPage s m.blk (mmaRanges m.desc) = none ∧
        (Machine.core s 3).mmaq.any (·.started) = false ∧ (Machine.core s 3).mmaq.find? (!·.started) = some m) ∧
    (∀ stopping ∈ [false, true], let s := sMm true stopping []
      ∀ m ∈ (Machine.core s 3).mmaq, m.started = true ∧ m.stopping = stopping ∧ 0 < mmaKb m.desc - m.next ∧
        (Machine.group s m.gid).any (fun g => g.st != .retired && (g.ops.find? (·.id == m.opId)).any fun o => o.w == some m.w) = true ∧
        (mfind s.blocks m.blk).isSome = true ∧ mmaReads m 6 0 m.next = true) ∧
    mget 4096 (Machine.core (sMm true false []) 3).idleLim 15 ≠ 0 ∧ (15 : Nat) < 16 ∧
    (∀ m ∈ (Machine.core (sMm true false []) 3).mmaq, 15 ∉ subArrays m.desc) := by
  refine ⟨?_, ?_, ?_⟩ <;> decide +kernel

/-- A run that meets nothing, and one that meets a bad word of scratch before its first K-block. -/
theorem witness_MatrixSteps_runs :
    (∀ m ∈ (Machine.core (sMm true false []) 3).mmaq,
      (runKBlocks (sMm true false []) 3 m (fun b kb => mmaPoison b 3 m kb) 1 0 b1).2.2 = none) ∧
    (∀ m ∈ (Machine.core (sMm true false []) 3).mmaq,
      (runKBlocks (sMm true false []) 3 m (fun b kb => mmaPoison b 3 m kb) 1 0 { b1 with scrBad := [0] }).2.2 = some (6, 0)) ∧
    (∀ m ∈ (Machine.core (sMm true false []) 3).mmaq,
      (runKBlocks (sMm true false []) 3 m
        (fun b kb => (mmaPoison b 3 m kb).orElse fun _ => if mmaReads m 6 0 kb then some (6, 0) else none) 1 0 b1).2.2 = some (6, 0)) := by
  refine ⟨?_, ?_, ?_⟩ <;> decide +kernel

theorem witness_PagerSteps : ∀ paged ∈ [false, true],
    let k := { b1 with unpinned := [0], paged := if paged then [0] else [], scr := if paged then [] else [(16383, 5)],
                       backing := if paged then [(16383, 5)] else [] }
    let s := { s1 with blocks := [(2, k)] }
    mfind s.blocks 2 = some k ∧ 0 ∈ k.unpinned ∧ (0 ∈ k.paged ↔ paged = true) ∧ mrising k.scr = true ∧ mrising k.backing = true ∧
    (∀ i ∈ k.scrBad, i / 2048 ≠ 0) ∧ inner (sG (.stalled 9 false)).cur = .stalled 9 false := by decide +kernel

/-- A copy and an MMA at the heads of their queues, and a page that both name in which a word is bad; and one in which none is. -/
theorem witness_PagerSteps_bad :
    (∀ bad ∈ [[], [2047]], let k := { b1 with unpinned := [0], paged := [0], scrBad := bad }
     let s := { sCopy false false 0 with blocks := [(2, k)] }
     k.span = [3] ∧ ∀ c ∈ (Machine.core s 3).cpyq, c.started = false ∧ c.blk = 2 ∧
       badRefill k 0 (cpyRanges c.op c.flags c.desc) = if bad = [] then none else some 16376) ∧
    (let k := { b1 with unpinned := [0], paged := [0], scrBad := [2047] }
     let s := { sMm false false [] with blocks := [(2, k)] }
     ∀ m ∈ (Machine.core s 3).mmaq, m.started = false ∧ m.blk = 2 ∧ badRefill k 0 (mmaRanges m.desc) = some 16376 ∧
       (Machine.group s m.gid).isSome = true) := by
  refine ⟨?_, ?_⟩ <;> decide +kernel

/-! ## Steps of the memory system -/

/-- A line resident in the L2, its owner core 3 in context 5 or none. -/
def sLine (owner : Option Nat) (excl : Bool) (copy : Bool := true) : State :=
  { s1 with
    mm := { s1.mm with lines := [(0x1000, { wts := 7, rts := 9, owner := owner, dirty := true })], own := [(0x20, 0xC500)] }
    cores := [(3, { l1 := if copy then [(l1Key 0x1000 5, { excl := excl, dirty := true, wts := 8, rts := 9 })] else [] })] }

/-- The same line in both sets of the group's open region. -/
noncomputable def sCarried (rd wr : List Nat) : State :=
  modCur (sLine none false) fun g => { g with rgn := some { elastic := true, handler := 0x10080, reads := rd, writes := wr, buf := [],
                                                            vas := [], slices := [] } }

theorem witness_LineSteps :
    (∀ line ∈ [0, 0x1000, 2 ^ 32 - 1], ∀ s ∈ [s1, sLine none false],
      (hostHolds s line).isNone = true ∧ servesLine s line = true ∧ (entriesOn s line).isEmpty = true ∧
        ((l2Line s line).bind (·.owner)).isNone = true ∧ mustWait s none line true = false ∧ Roomy line s ∧
        (Machine.core s 3).l1.length < l1Limit (Machine.core s 3)) ∧
    (∀ k ∈ [0, 1, 2], ∀ wr ∈ [false, true], servesLine (sHeld k) 0x1000 = true ∧ mustWait (sHeld k) none 0x1000 wr = true) ∧
    ((l1Copy (sLine none false) 3 5 0x1000).any (fun c => !c.excl) = true ∧ (l1Copy s1 3 5 0x1000).isNone = true) ∧
    (let s := sLine (some (ownerKey 3 5)) true
     (l2Line s 0x1000).any (fun x => x.owner == some (3 * 64 + 5)) = true ∧ (l1Copy s (197 / 64) (197 % 64) 0x1000).any (·.excl) = true) ∧
    ((l2Line (sLine none false) 0x1000).any (fun x => x.owner.isNone && x.dirty) = true ∧
      verifiedLine (keyLine (sLine none false) 0x1000 none) 0x1000 = true ∧
      verifiedLine (keyLine (sLine none false) 0x1000 (some 128)) 0x1000 = true ∧ verifiedLine (keyLine s1 0x1000 none) 0x1000 = false) ∧
    mfind s1.mm.sealed 0x1000 = none ∧
    ((∀ n ∈ [1, 2, 4, 8], (0x80000 + 128 - n) % n = 0 ∧ (0x80000 + 128 - n) / 128 = 0x1000) ∧ (l2Line s1 0x1000).isNone = true ∧
      (Machine.group s1 gid1).isSome = true) := by
  refine ⟨?_, ?_, ?_, ?_, ?_, ?_, ?_⟩ <;> decide +kernel

/-- A group whose region has a line in its read set, or in its write set, and whose core's copy of it is replaced. -/
theorem witness_LineSteps_carried : ∀ wr ∈ [false, true],
    let s := sCarried (if wr then [] else [0x1000]) (if wr then [0x1000] else [])
    (l1Copy s 3 5 0x1000).isSome = true ∧ s.cur.core = 3 ∧ s.cur.ctx = 5 ∧
      s.cur.rgn.any (fun r => if wr then r.writes.contains 0x1000 else r.reads.contains 0x1000) = true := by decide +kernel

/-- The cache's set `set` of stack 0 holds the line of its first segment, or is empty. -/
def sMsc (set grant : Nat) (held : Bool := false) (psel : List (Nat × Nat) := []) : State :=
  { s1 with mm := { s1.mm with msc := if held then [(set, [{ tag := set / 64 * 512 + set % 64, valid := 1 }])] else [], psel := psel,
                               grant := if grant = 0 then [] else [(0, BitVec.ofNat 32 grant)] } }

/-- The sample sets 0 and 16, another one at either side of the selector, and the last set. -/
theorem witness_MemorySideCacheSteps :
    (∀ set ∈ [0, 16, 17, 1023],
      let pa := (set / 64 * 512 + set % 64) * 2048
      pa < hbmTop ∧ mscKey (pa / 2048) = set ∧ (mscLine (sMsc set 0) (pa / 2048)).isNone = true ∧ 0 < mscWays (sMsc set 0) set ∧
        (mscLine (sMsc set 0 true) (pa / 2048)).any (fun x => !(lineSectors pa).all fun i => x.valid.getLsbD i) = true ∧
        (mscLine (sMsc set 0 true) (pa / 2048)).any (fun x => (lineSectors pa).all fun i => { x with valid := 3 }.valid.getLsbD i) = true ∧
        ((mscSet (sMsc set 0 true) (0 % 8 * 1024 + set % 1024)).find? (·.tag == pa / 2048)).isSome = true) ∧
    (pselOf (sMsc 17 0 false [(5, 511)]) 5 = 511 ∧ pselOf (sMsc 17 0) 5 = 512 ∧ mscKey ((hbmTop - 1) / 2048) = 7 * 1024 + 1023) := by
  decide +kernel

/-- Grants of 0, 1, 12 and 13 ways, of sets up to 1023 and beyond; the return of one; and what is left of a set. -/
theorem witness_MemorySideCacheSteps_grant :
    grantRefused 0 0x80000000 = true ∧ grantRefused 0 0x80100000 = false ∧ grantRefused 0 0x80CFFC00 = false ∧
    grantRefused 0 0x80D00000 = true ∧ grantRefused 0 0x801003FF = false ∧ grantRefused 0 0x801007FF = true ∧
    grantRefused 0x80100000 0x80200000 = true ∧ (0x80CFFC00 : Word).getLsbD 31 = true ∧ (0 : Word).getLsbD 31 = false ∧
    (let old := mget 0 (sMsc 0 0x80CFFC00).mm.grant 0
     old.getLsbD 31 = true ∧ grantRefused old (old &&& 0x3FFFFFFF) = false ∧ mscWays (sMsc 0 0x80CFFC00) 1023 = 4) := by decide +kernel

/-- Pseudo-channel 511 with a postpone count, and a read pending at its next bank or none. -/
def sRef (ppc : Nat) (refab : Bool) (pend : Nat) : State :=
  { s1 with mm := { s1.mm with pcs := (List.range 511).map (fun i => (i, { slots := 1 })) ++ [(511, { ppc := ppc, ptr := 15, refab := refab })],
                               banks := if pend = 0 then [] else [(511 * 16 + 15, { pend := pend, queue := if pend = 2 then [7] else [] })] } }

/-- A line of a verified page whose minor stands at a value, in a group whose major stands at one; and that group poisoned. -/
def sCtr (minor maj : Nat) (dead : Bool := false) : State :=
  { s1 with mm := { s1.mm with own := [(0x20, 0xC500)], ctrs := [(0x100, { maj := maj, minors := [(0, minor)] })],
                               dead := if dead then [{ stack := 4, level := 0, idx := 0 }] else [] } }

theorem mfind_first {α : Type} (c : α) (i : Nat) (m : SMap α) : ∀ xs : List Nat, i ∈ xs → mfind (xs.map (fun j => (j, c)) ++ m) i = some c
  | x :: xs, h => by
    by_cases e : i = x
    · simp [mfind, e]
    · simp only [List.map_cons, List.cons_append, mfind, if_neg e]
      exact mfind_first c i m xs ((List.mem_cons.mp h).resolve_left e)

theorem mfind_rest {α : Type} (c : α) (i : Nat) (m : SMap α) :
    ∀ xs : List Nat, i ∉ xs → mfind (xs.map (fun j => (j, c)) ++ m) i = mfind m i
  | [], _ => rfl
  | x :: xs, h => by
    simp only [List.map_cons, List.cons_append, mfind, if_neg (List.ne_of_not_mem_cons h)]
    exact mfind_rest c i m xs (List.not_mem_of_not_mem_cons h)

theorem behindRef (ppc pend : Nat) (refab : Bool) : behind (sRef ppc refab pend) 511 = [] := by
  have top : (pseudo (sRef ppc refab pend) 511).slots = 0 := by
    simp only [pseudo, mget, sRef]
    rw [mfind_rest _ _ _ _ List.not_mem_range_self]
    rfl
  refine List.filter_eq_nil_iff.mpr fun q h => ?_
  have low : pseudo (sRef ppc refab pend) q = { slots := 1 } := by
    simp only [pseudo, mget, sRef]
    rw [mfind_first ({ slots := 1 } : PseudoCh) q _ _ h]
    rfl
  rw [top, low]
  decide

theorem witness_MemoryDeviceSteps :
    (0 < hbmTop ∧ hbmTop - 1 < hbmTop) ∧
    (∀ ppc ∈ [7, 8], ∀ pend ∈ [0, 1, 2], let s := sRef ppc false pend
      (pseudo s 511).ppc = ppc ∧ (pseudo s 511).refab = false ∧ (pseudo s 511).slots ≤ (pseudo s 510).slots ∧
      (bank s (511 * 16 + 15)).pend = pend ∧ ((bank s (511 * 16 + 15)).queue = [] ↔ pend ≠ 2)) ∧
    ((pseudo (sRef 8 true 0) 511).refab = true ∧ behind s1 0 = []) ∧
    (let b := bank s1 (hbmBank (hbmTop - 1))
     b.queue = [] ∧ b.row = none ∧ b.pass ≤ 16 ∧ (pseudo s1 (pcOf (hbmTop - 1))).refab = false ∧ pcOf (hbmTop - 1) = 511 ∧
      (pseudo (sRef 8 true 0) (pcOf (hbmTop - 1))).refab = true) ∧
    (∀ minor ∈ [126, 127], let s := sCtr minor 1
      verifiedLine s 0x1000 = true ∧ deadGroup s 0x100 = false ∧ mget 0 (ctrBlk s 0x100).minors 0 = minor) ∧
    (∀ maj ∈ [0, 2 ^ 56 - 1], let s := sCtr 127 maj
      deadGroup s 0x100 = false ∧ (ctrBlk s 0x100).minors.any (fun p => p.2 == 127) = true ∧ (ctrBlk s 0x100).maj = maj) ∧
    deadGroup (sCtr 127 1 true) 0x100 = true := by decide +kernel

/-- A log with room, a group's registers, a scratch word, a tile, and a word of memory with nothing above it. -/
theorem witness_MemoryDeviceSteps_errors :
    s1.fw.errlog.length < 4096 ∧ (Machine.group s1 gid1).any (fun g => (63 * 32 + 31) / 32 < g.vb && uniformLegal g 383) = true ∧
    (mfind s1.blocks 2).any (fun b => 8 * 2047 < b.scrSize) = true ∧ (l2Line s1 (0x80000 / 128)).isNone = true ∧
    (0x80000 < hbmTop ∧ verifiedLine s1 0x1000 = false ∧ verifiedLine (sCtr 0 0) 0x1000 = true ∧ metaPage s1 0x80000 = false ∧
      mfind s1.mm.keys 0x1000 = none ∧ metaPage { s1 with mm := { s1.mm with metaFrom := some 0x80000 } } 0x80000 = true) := by decide +kernel

/-! ## Steps of logical time, regions and counters -/

/-- Every holder has reported; the latest time it holds is `h`, the front 0. -/
def sFront (h : Word) : State :=
  { s1 with slices := [(5, { evts := 3 })], cp := { s1.cp with reports := (frontDests { s1 with slices := [(5, { evts := 3 })] }).map fun d => (d, h) } }

/-- A group in an open region of an interval, under a front. -/
def sOpen (lo hi front : Word) (r : Region := { elastic := true, handler := 0x10080, reads := [], writes := [], buf := [], vas := [], slices := [] }) :
    State :=
  { s1 with cur := { g1 with rgn := some r, alo := lo, ahi := hi, aid := 9 }, cp := { s1.cp with front := front, slots := [(9, 2)] } }

/-- A core with an exclusive line, an expired shared copy and one that has not, under a front of 50. -/
def sL1 : State :=
  { s1 with
    cores := [(3, { l1 := [(l1Key 0x1000 5, { excl := true, wts := 1, rts := 2 }), (l1Key 0x1001 5, { wts := 1, rts := 49 }),
                           (l1Key 0x1002 5, { wts := 1, rts := 50 })] })]
    mm := { s1.mm with lines := [(0x1000, { wts := 1, rts := 2 })] }
    cp := { s1.cp with front := 50 } }

theorem witness_FrontSteps :
    ((frontDests (sFront 0)).all (fun d => (mfind (sFront 0).cp.reports d).isSome) = true ∧ mayRaise (sFront 0) = true ∧
      mayRaise { sL1 with cp := { sL1.cp with raised := true } } = false) ∧
    (∀ h ∈ [2 ^ 30, 2 ^ 30 + 1, 2 ^ 31 - 1], (latest (sFront (BitVec.ofNat 32 h)) ((sFront (BitVec.ofNat 32 h)).cp.reports.map (·.2))).toNat = h) ∧
    (∀ front ∈ [200, 201], let s := sOpen 100 200 (BitVec.ofNat 32 front)
      (Machine.group s gid1).any (fun g => g.core == 3 && isResident g && g.rgn.isSome && before g.ahi s.cp.front == (front == 201)) = true) ∧
    (homeSlice 0x1000 < 64 ∧ (sL1.mm.lines.find? fun p => homeSlice p.1 == homeSlice 0x1000 && (Machine.slice sL1 (homeSlice 0x1000)).sweep ≤ p.1).isSome = true ∧
      (sL1.mm.lines.find? fun p => homeSlice p.1 == 63 && (Machine.slice sL1 63).sweep ≤ p.1).isNone = true) := by
  refine ⟨?_, ?_, ?_, ?_⟩ <;> decide +kernel

theorem witness_FrontSteps_passes :
    (mrising (Machine.core sL1 3).l1 = true ∧ (l1Copy sL1 3 5 0x1000).any (·.excl) = true ∧
      (l1Copy sL1 3 5 0x1001).any (fun c => !c.excl && before c.rts sL1.cp.front) = true ∧
      (l1Copy sL1 3 5 0x1002).any (fun c => !c.excl && !before c.rts sL1.cp.front) = true) ∧
    (requestInFlight s1 = false ∧ requestInFlight { s1 with pending := [.caddAtSlice gid1 0x80000 1 0] } = true ∧
      (Machine.group (sOpen 100 200 0) gid1).any (fun g => g.rgn.isSome) = true) := by decide +kernel

/-- The region of a group with full sets, or the slice of a line full of entries. -/
def sSets (reads writes : Nat) : State :=
  sOpen 100 200 0 { elastic := true, handler := 0x10080, reads := List.range reads, writes := List.range writes, buf := [],
                       vas := [], slices := [] }

def sEntries (n : Nat) : State :=
  let e : RgnEnt := { aid := 11, gid := 0, line := 0x2000, reader := true, writer := false, elastic := true, lo := 0, hi := 9 }
  { sOpen 100 200 0 with slices := [(homeSlice 0x1000, { rents := List.replicate n e })] }

theorem witness_RegionSteps :
    (∀ n ∈ [511, 512], (Machine.group (sSets n 0) gid1).any (fun g => g.rgn.any fun r => r.reads.length == n && !r.reads.contains 0x1000) = true) ∧
    (∀ n ∈ [127, 128], (Machine.group (sSets 0 n) gid1).any (fun g => g.rgn.any fun r => r.writes.length == n && !r.writes.contains 0x1000) = true) ∧
    (∀ n ∈ [2047, 2048], (Machine.slice (sEntries n) (homeSlice 0x1000)).rents.length = n ∧ (entryNow (sEntries n) 9 0x1000).isNone = true ∧
      (hostHolds (sEntries n) 0x1000).isNone = true ∧ ((l2Line (sEntries n) 0x1000).bind (·.owner)).isNone = true ∧
      (entriesOn (sEntries n) 0x1000).isEmpty = true ∧ Roomy 0x1000 (sEntries n) ∧
      (Machine.core (sEntries n) 3).l1.length < l1Limit (Machine.core (sEntries n) 3) ∧
      (Machine.group (sEntries n) gid1).any (fun g => g.rgn.any fun r => mrising r.seen) = true) := by
  refine ⟨?_, ?_, ?_⟩ <;> decide +kernel

/-- A region of the interval [100, 200] and bounds on either side of its ends; and the slices where it is registered. -/
theorem witness_RegionSteps_messages :
    (let s := sOpen 100 200 0
     (regionGroup s 9).any (fun g => g == s.cur) = true ∧ (Machine.group s (gidOf s.cur)).any (fun g => g == s.cur && g.rgn.isSome) = true) ∧
    before (ltMin 200 100) 100 = false ∧ before (ltMin 200 99) 100 = true ∧ before 200 (ltMax 100 200) = false ∧
    before 200 (ltMax 100 201) = true ∧ mfind (sOpen 100 200 0).cp.slots 9 = some 2 := by decide +kernel

theorem witness_CounterSteps :
    (∀ v ∈ [254, 255], let s := sCadd v false
      (Machine.group s gid1).any (fun g => (g.ops.find? (·.id == 0)).any fun o => o.kind == .cadd && o.tag != 1) = true ∧
      (hostHolds s (0x80000 / 128)).isNone = true ∧ (entriesOn s (0x80000 / 128)).isEmpty = true ∧
      ((l2Line s (0x80000 / 128)).bind (·.owner)).isNone = true ∧ lineHeld s none (0x80000 / 128) true = false ∧
      Roomy (0x80000 / 128) s ∧ keyDiffers s (0x80000 / 128) (viaOf s s.cur 0x40000) = none ∧ s.cur.ops.all (fun o => o.ulog.isNone) = true ∧
      (readBytes s.mm.mem 0x80000 8 + 1 < 2 ^ 64 ↔ v = 254)) ∧
    (Machine.group (sCadd 0 true) gid1).any (fun g => (g.ops.find? (·.id == 0)).any fun o => o.bad && o.tag != 1) = true ∧
    (∀ k ∈ [1, 2], lineHeld (sHeld k) none (0x80000 / 128) true = true) := by
  decide +kernel

/-- A group that waits for a counter to reach a target, with or without a ticket and a continuation, and monitors in its slice;
the counter is 0x21. -/
def sWait (target : Nat) (ticket : Option Nat) (mons : Nat) (yields : Option DWord) (st : GState) : State :=
  { s1 with cur := { g1 with st := st, ticket := ticket, req := some { va := 0x40008, pa := 0x80008, target := target, next := 0x10008, yields := yields } }
            mm := { mem := [(0x80008, 0x21)] }
            slices := [(homeSlice 0x1000, { mons := List.replicate mons { gid := 0, pa := 0, target := 9 } })] }

theorem witness_CounterSteps_waits :
    (∀ target ∈ [0x21, 0x22], ∀ ticket ∈ [none, some 4], ∀ mons ∈ [127, 128], ∀ y ∈ [0, 1],
      let s := sWait target ticket mons (if y = 0 then none else some 0x10044) (.stalled 5 false)
      let k := Machine.slice s (homeSlice (0x80008 / 128))
      (Machine.group s gid1).any (fun g => g.st == .stalled 5 false && g.req.any fun r => r.pa == 0x80008 && r.target == target) = true ∧
      (hostHolds s (0x80008 / 128)).isNone = true ∧ ((l2Line s (0x80008 / 128)).bind (·.owner)).isNone = true ∧
      Roomy (0x80008 / 128) s ∧ keyDiffers s (0x80008 / 128) (viaOf s s.cur 0x40008) = none ∧
      (target ≤ readBytes s.mm.mem 0x80008 8 ↔ target = 0x21) ∧ k.mons.any (·.gid == gid1) = false ∧
      mayTake k ticket = decide (mons = 127)) ∧
    (let s := sWait 0x21 none 0 (some 0x10044) (.lull (.monitor 0x80008 0x21) 0x10044)
     let s := { s with slices := [(homeSlice 0x1000, { mons := [{ gid := gid1, pa := 0x80008, target := 0x21 }] })] }
     (monitorOf s gid1).any (fun p => p.2.target == 0x21) = true ∧ readBytes s.mm.mem 0x80008 8 = 0x21 ∧
      s.cur.st = .lull (.monitor 0x80008 0x21) 0x10044) ∧
    (let s := sWait 0x22 none 0 (some 0x10044) (.lull (.monitor 0x80008 0x22) 0x10044)
     let s := { s with slices := [(homeSlice 0x1000, { mons := [{ gid := gid1, pa := 0x80008, target := 0x22, due := true }] })] }
     (monitorOf s gid1).any (fun p => p.2.due) = true ∧ s.cur.st = .lull (.monitor 0x80008 0x22) 0x10044) := by
  decide +kernel

/-- A grid of two blocks: the second block's groups have arrived; the first block's arrival is counted or not. -/
def sGrid (arrived : List Nat) : State :=
  let bars : SMap Barrier := [(3, { gcount := 1, arrived := [0], clk := 90 })]
  { s1 with
    blocks := [(2, { b1 with gbars := bars }), (4, { b1 with idx := 1, gbars := bars })]
    cur := { g1 with st := .lull (.grid 3) 0x10044 }
    cp := { s1.cp with tasks := [(1, { record := rec1.set 3 1, ctx := 5, st := .running })],
                       grid := [(gridKey 1 3, { arrived := arrived, count := arrived.length, clk := 80, gen := 511 })] } }

theorem witness_CounterSteps_grid : ∀ arrived ∈ [[], [2]],
    let s := sGrid arrived
    (gridBar s 4 3).gcount = 1 ∧ 4 ∉ (mget {} s.cp.grid (gridKey (block s 4).task 3)).arrived ∧
    (nblk (taskOf s 1).record ≤ arrived.length + 1 + (taskOf s 1).retired ↔ arrived = [2]) ∧ 2 ∈ taskBlocks s 1 ∧
    (Machine.group s gid1).any (fun g => residentOf 2 g && !g.priv && g.st == .lull (.grid 3) 0x10044 &&
      (gridBar s 2 3).arrived.contains g.grpib) = true := by decide +kernel

/-! ## Steps of launches -/

/-- The command processor's translations of two pages of a context: the second holds TAIL, then HEAD, of queue 3 and its ring of
two records. -/
def kCp (c : Nat) : Core :=
  { tlb := [{ asid := c, base := 0x40000, level := 3, ent := 0x8032D }, { asid := c, base := 0x10000, level := 3, ent := 0x20135 }] }

/-- Queue 3 of context 5, of the device or of the host, enabled, level 1, with a ring of two records at 0x41000. -/
def q3 (dev : Bool) (processed : Nat) : Queue :=
  { desc := [0x41000, 0, BitVec.ofNat 32 (2 ^ 31 + (if dev then 2 ^ 30 else 0) + 2 ^ 27 + 5 * 2 ^ 21 + 1), 0x40100, 0, 0x40108, 0, 0]
    processed := processed }

/-- The queue, with its counters at two values. -/
def sQueue (live dev : Bool) (processed tail head : Nat) : State :=
  { s1 with
    cores := [(192, kCp 5)]
    clusters := []
    mm := { mem := (if tail = 0 then [] else [(0x80100, BitVec.ofNat 8 tail)]) ++ if head = 0 then [] else [(0x80108, BitVec.ofNat 8 head)] }
    fw := { ctxs := [(5, { ctxReset 5 with live := live })] }
    cp := { s1.cp with queues := [(3, q3 dev processed)] } }

/-- The reading of TAIL succeeds and gives a value; the queue has the turn and may be read. -/
noncomputable def takes3 (s : State) (tail : Nat) : Bool :=
  match readTail s 3 with
  | (t, some (x, _)) => x == tail && turnOf t == some 3 && queueOpen t 3 && (queue t 3).processed < x &&
      !t.pending.any (fun i => i matches .taskHandoff _)
  | _ => false

theorem witness_TaskSteps_read :
    takes3 (sQueue true true 1 2 1) 2 = true ∧ takes3 (sQueue false false 0 1 0) 1 = true ∧
    (ctx (sQueue false false 0 1 0) (qCtx (queue (sQueue false false 0 1 0) 3))).live = false ∧
    (queue (sQueue false false 0 1 0) 3).desc.length = 8 := by
  refine ⟨?_, ?_, ?_, ?_⟩ <;> decide +kernel

/-- A LAUNCH to queue 3 that has not entered it, its group waiting for it. -/
def l3 : Launch := { gid := 3 * 2048 + 7, op := 0, stamp := 8, blk := 2, grpib := 0, ctx := 5, clk := 100, record := rec1.set 23 3 }
noncomputable def sLaunch (dev : Bool) (tail head : Nat) : State :=
  let s := sQueue true dev 0 tail head
  { s with cur := { g1 with ops := [{ id := 0, kind := .launch, w := some 1 }], w := [(1, 1)] }, cp := { s.cp with launches := [l3] } }

/-- What the LAUNCH finds: HEAD plus the size of the ring, and TAIL, where both can be read; and whether it can be appended. -/
noncomputable def roomAndTail (s : State) : Option (Nat × Nat × Bool) :=
  match readTail s 3 with
  | (t, some (tail, _)) =>
    match cpCounter t 5 (qHead (queue s 3)) false with
    | (u, some lf) => some (readBytes u.mm.mem lf.pa 8 + 2 ^ qLog (queue s 3), tail, (appendLaunch u 3 tail l3).2)
    | _ => none
  | _ => none

/-- A queue of the host refuses it; one of the device has no room for it, or has. -/
theorem witness_TaskSteps_launch :
    (let s := sLaunch false 0 0
     launchCode s (queue s 3) l3 = 7 ∧ recBits l3.record 23 0 10 = 3 ∧ (s.cp.launches.find? (·.stamp == 8)).isSome = true ∧
      (∀ x ∈ s.cp.launches, recBits x.record 23 0 10 = 3 → x.stamp = 8) ∧ (awayGroup s l3.blk l3.grpib).isNone = true ∧
      (Machine.group s l3.gid).any (fun g => (g.ops.find? (·.id == l3.op)).any fun o => o.kind == .launch) = true) ∧
    launchCode (sLaunch true 2 0) (queue (sLaunch true 2 0) 3) l3 = 0 ∧
    roomAndTail (sLaunch true 2 0) = some (2, 2, true) ∧ roomAndTail (sLaunch true 1 0) = some (2, 1, true) := by
  refine ⟨?_, ?_, ?_, ?_⟩ <;> decide +kernel

/-- A task that waits, reading handle 7 and writing handle 8, with its queue's last task complete; one that runs to its end; and
one that waits for it. -/
noncomputable def sTask (st : TaskState) (retired : Nat) (busy : Bool) : State :=
  let s := sQueue true true 1 1 0
  { s with
    cur := { g1 with st := .retired, ops := if busy then [{ id := 0, kind := .store }] else [] }
    cp := { s.cp with
      tasks := [(1, { record := ((rec1.set 0 0x10030000).set 20 7).set 22 8, ctx := 5, queue := 3, st := st, retired := retired }), (2, { record := rec1, queue := 3 })]
      handles := [(7, {}), (8, { done := st == .queued })] } }

theorem mayHandOver1 : mayHandOver (sTask .queued 0 false) (taskOf (sTask .queued 0 false) 1) = true := by decide +kernel

theorem taskBlocks1 : (taskOf (sTask .queued 0 false) 1).placed < nblk (taskOf (sTask .queued 0 false) 1).record := by decide +kernel

theorem taskHandles1 : writtenHandles (taskOf (sTask .queued 0 false) 1).record = [8] := by decide +kernel

theorem witness_TaskSteps :
    mayHandOver (sTask .queued 0 false) (taskOf (sTask .queued 0 false) 1) = true ∧
    (taskOf (sTask .queued 0 false) 1).placed < nblk (taskOf (sTask .queued 0 false) 1).record ∧
    writtenHandles (taskOf (sTask .queued 0 false) 1).record = [8] ∧ (mfind (sTask .queued 0 false).cp.handles 8).isSome = true :=
  ⟨mayHandOver1, taskBlocks1, taskHandles1, by decide +kernel⟩

theorem witness_TaskSteps_end : ∀ busy ∈ [false, true], let s := sTask .running 1 busy
    (taskOf s 1).st = .running ∧ nblk (taskOf s 1).record = (taskOf s 1).retired ∧ taskBusy s 1 = busy ∧
    8 ∉ readHandles (taskOf s 1).record := by
  decide +kernel

/-- A future of a group on its lane; and a group that is away. -/
theorem witness_TaskSteps_future :
    (let s := modCur s1 fun g => { g with ops := [{ id := 0, kind := .future, w := some 1, gregs := [20, 21] }] }
     let s := { s with cp := { s.cp with futures := [{ tag := 0, gid := gid1, blk := 2, grpib := 0, w := 1, reg := 20 }] } }
     (s.cp.futures.find? (·.tag == 0)).any (fun f => !isSupName f.gid && (awayGroup s f.blk f.grpib).isNone &&
      (Machine.group s f.gid).any fun g => (g.ops.find? fun o => o.kind == .future && o.gregs.head? == some f.reg).isSome) = true) ∧
    (let s := { s1 with blocks := [(2, { b1 with st := .swapped, waiting := [(0, g1)] })] }
     (awayGroup s 2 0).isSome = true) := by
  refine ⟨?_, ?_⟩ <;> decide +kernel

/-! ## Blocks -/

/-- A record of blocks of `n` groups of 64 vector registers and 384 uniform ones, with `pages` pages of scratch; over-subscription
allowed. -/
def recOf (n pages : Nat) : List Word :=
  [0x10030000, 0x10000, 0, 1, 0, BitVec.ofNat 32 (0x28000 + 32 * n - 1), BitVec.ofNat 32 pages] ++ List.replicate 25 0

/-- Block 6, new or swapped, of a task of its own and of queue 3, with nothing else on the device but the supervisors. -/
def sBlk (n pages : Nat) (st : BlkState) (slots : SMap BindRec := []) : State :=
  { State.reset with
    blocks := [(6, { task := 1, ng := n, scrSize := 16384 * pages, st := st, saveIdx := 1, waiting := if st = .swapped then [(0, g1)] else [] })]
    nextBlk := 7
    cores := if slots = [] then [] else [(3, { slots := slots })]
    cp := { tasks := [(1, { record := recOf n pages, ctx := 5, queue := 3, st := .running, clk := 77 })] } }

/-- Block 6 of 257 groups, all but two of which have retired, whose first group has its entry on core 3. -/
def sTwo : State :=
  let s := sBlk 257 0 .swapped
  let k : Block := { task := 1, ng := 257, st := .swapped, saveIdx := 1, gone := List.range 255, waiting := [(255, g1)] }
  { s with blocks := [(6, k)], cores := [(3, { slots := [(0, bindRec { s with blocks := [(6, k)] } 6 0 1 0 1)] })] }

/-- A block of one core, new or to be restored; the first entry of a new one of two cores; and the second of one restored. -/
theorem witness_BlockSteps_placement :
    (∀ st ∈ [.waiting, .swapped], let s := sBlk 1 1 st
      placeable s 6 191 7 65535 511 1 = true ∧ 6 ≠ s.nextBlk) ∧
    (let s := sBlk 257 0 .waiting
     spanM s 6 = 2 ∧ placeable s 6 3 0 1 0 1 = true) ∧
    (placeable sTwo 6 4 0 2 0 256 = true ∧ (entriesOf sTwo 6).length = 1) := by
  refine ⟨?_, ?_, ?_⟩ <;> decide +kernel

theorem witness_BlockSteps_bind : ∀ st ∈ [.waiting, .swapped],
    let s := sBlk 1 1 st [(511, bindRec (sBlk 1 1 st) 6 0 1 7 65535)]
    (unbound s 3).map (·.kind) = [if st = .waiting then 0 else 1] ∧ (∀ e ∈ unbound s 3, fitsOn s 3 [e] = true ∧ shareOf s e = [0]) ∧
    (holders s 3).length = 0 ∧ recBits (recordOf s 6) 6 16 9 = 0 := by decide +kernel

/-- A resident block on core 3, the only core with 48 pages, whose one group waits at a grid barrier; and a pending block that
asks for 48 pages, of the same task. -/
def sSwap : State :=
  { sBlk 1 48 .waiting with
    blocks := [(2, { task := 1, ng := 1, scrSize := 786432, st := .resident, span := [3] }), (6, { task := 1, ng := 1, scrSize := 786432, idx := 1 })]
    cur := { g1 with st := .lull (.grid 3) 0x10044 }
    cores := [(3, { scr := 3, slots := [(0, { ctx := 5, blk := 2, bound := true })] })]
    fw := { ctxs := [(5, { ctxReset 5 with live := true })] } }

theorem witness_BlockSteps_swap :
    (block sSwap 2).st = .resident ∧ recOvsub (recordOf sSwap 2) = true ∧
    allGroupsAre sSwap 2 (fun x => x matches .lull (.grid _) _) = true ∧ allGroupsAre sSwap 2 (fun x => x matches .lull _ _) = true ∧
    6 ∈ pendingBlocks sSwap ∧ (block sSwap 6).task = (block sSwap 2).task ∧ levelOf sSwap 6 ≤ levelOf sSwap 2 ∧
    hasRoom sSwap 6 = false ∧ hasRoom (withoutBlock sSwap 2) 6 = true ∧
    (ctx sSwap (taskOf sSwap (block sSwap 2).task).ctx).lullmax ≠ 0 ∧
    (∀ p ∈ sSwap.blocks, lullDue sSwap p.1 = true → lulledSince sSwap 2 ≤ lulledSince sSwap p.1) := by
  refine ⟨?_, ?_, ?_, ?_, ?_, ?_, ?_, ?_, ?_, ?_, ?_⟩ <;> decide +kernel

/-- A pending block of a task of level 0, and a resident one of a task of level 1. -/
def sLevels : State :=
  { sSwap with
    blocks := [(2, { task := 2, ng := 1, st := .resident, span := [3] }), (6, { task := 1, ng := 1 })]
    cp := { tasks := [(1, { record := recOf 1 0, ctx := 5, queue := 4, st := .running }), (2, { record := recOf 1 0, ctx := 5, queue := 3, st := .running })]
            queues := [(3, q3 true 0)] } }

theorem witness_BlockSteps_levels :
    mrising sLevels.blocks = true ∧ stillPending sLevels 6 = true ∧ (block sLevels 2).st = .resident ∧
    levelOf sLevels 6 < levelOf sLevels 2 := by decide +kernel

theorem witness_BlockSteps_core :
    coreHolds s1 4 = false ∧ coreHolds s1 3 = true ∧ (5 : BitVec 3).toNat < 6 ∧
    (let s := modCore s1 3 fun k => { k with sampleN := 1 }
     let s := { s with tr := { ctl := 0x10000001 } }
     (Machine.core s 3).sampleN.toNat % 2 ^ 24 ≠ 0 ∧
     (firstFrom (mget 0 (Machine.core s 3).lastSlot 0) ((allGroups s).filter fun g => g.core == 3 && g.part == 0 && isResident g)).isSome = true ∧
     s.tr.ctl.getLsbD 28 = true ∧ s.tr.ctl.toNat % 2 ^ 16 ≠ 0 ∧ (s.tr.head - s.tr.tail).toNat < s.tr.ctl.toNat % 2 ^ 16 * 2048) := by
  decide +kernel

/-! ## Steps of the ports, the links and the peers -/

/-- The first and the last bytes of device memory that a port may reach, at the CXL port and the last UALink port. -/
theorem witness_PortSteps :
    (∀ port ∈ [0, 1, 18], ∀ n ∈ [1, 4, 8, 128], ∀ pa ∈ [0, hbmTop - n], portRange port pa n = true ∧ portUp { s1 with fw := { s1.fw with status := 2 } } port = true ∧ portUp s1 port = false ∧
      hostBarred s1 pa = false ∧ (memFault s1 pa).isNone = true ∧ (badAt s1 pa n).isNone = true ∧ (hostHolds s1 (pa / 128)).isNone = true ∧
      ((l2Line s1 (pa / 128)).bind (·.owner)).isNone = true ∧ (entriesOn s1 (pa / 128)).isEmpty = true ∧
      (mfind (Machine.slice s1 (homeSlice (pa / 128))).bisnp (pa / 128)).isNone = true ∧ (snoopEntries s1 (pa / 128)).length < 16 ∧
      mustWait s1 none (pa / 128) true = false ∧ Roomy (pa / 128) s1 ∧ (mfind s1.mm.sealed (pa / 128)).isNone = true) ∧
    (∀ k ∈ [0, 1, 2], portRange 1 0x80000 4 = true ∧ mustWait (sHeld k) none (0x80000 / 128) true = true) ∧
    portRange 19 0 1 = false ∧ portRange 0 hbmTop 1 = false ∧ portRange 0 127 2 = false ∧
    (∀ aop ∈ [0, 2, 3, 4, 5, 6, 7, 8, 9, 10], (portAtom aop 4 1 2 3).isSome = true) ∧
    ((memFault (sCtr 0 0 true) 0x80000).isSome = true ∧ mustWait (sCtr 0 0 true) none (0x80000 / 128) true = false) ∧
    ((memFault { sCtr 0 0 with mm := { (sCtr 0 0).mm with tampered := [0x1000] } } 0x80000).any (·.2 == 6) = true) ∧ hostBarred (sCtr 0 0) 0x80000 = true ∧
    hostBarred { s1 with mm := { s1.mm with own := [(0x20, 0x500)] } } 0x80000 = true ∧
    (∀ o ∈ [0x1000, 0x23FC], barRange 0 (mmioBase + o) 4 = true ∧ inBar0 o = true) := by
  refine ⟨?_, ?_, ?_, ?_, ?_, ?_, ?_, ?_, ?_, ?_, ?_⟩ <;> decide +kernel

/-- A line under back-invalidation that the host owns, with a load held for it. -/
noncomputable def sSnoop : State :=
  { s1 with slices := [(homeSlice 0x1000, { snoop := [(0x1000, { owned := true, filled := 1 })], bisnp := [(0x1000, [.portLoad 0 0x80000 4])] })] }

theorem witness_PortSteps_snoop :
    mfind (Machine.slice sSnoop (homeSlice 0x1000)).bisnp 0x1000 = some [.portLoad 0 0x80000 4] ∧ hostHolds sSnoop 0x1000 = some true ∧
    (l2Line sSnoop 0x1000).isNone = true ∧ (entriesOn sSnoop 0x1000).isEmpty = true ∧ Roomy 0x1000 sSnoop := by decide +kernel

/-- UALink port 0, the only one that leads to peer 1, with errors counted on a lane, retrainings and a state. -/
def sLink (errors retries : Nat) (down : Bool) (missed : Nat) : State :=
  { s1 with io := { links := [(1, { crc := [(15, errors)], retries := retries, down := down })] }
            fw := { s1.fw with podmap := [(1, 0xA0000001)], missed := [(1, missed)] }
            cur := { g1 with ops := [{ id := 0, kind := .load, w := some 1, vregs := [9], peers := [(1, 1)] }] } }

theorem witness_LinkSteps :
    16 ≤ mget 0 (link (sLink 16 0 false 0) 1).crc 15 ∧ 15 ∉ (link (sLink 16 0 false 0) 1).failing ∧
    (∀ retries ∈ [1, 2], (link (sLink 0 retries false 0) 1).down = false ∧ (link (sLink 0 retries false 0) 1).retries = retries) ∧
    cutOff (sLink 0 2 true 0) 0 = [1] ∧ (link (sLink 0 0 true 0) 1).down = true ∧
    (Machine.group (sLink 0 0 false 0) gid1).any (fun g => (g.ops.find? (·.id == 0)).any fun o =>
      o.tag != 1 && o.kind == .load && o.peers.any (·.1 == 1)) = true ∧
    (∀ missed ∈ [2, 3], neighbours (sLink 0 0 false missed) = [1] ∧ mget 0 (sLink 0 0 false missed).fw.missed 1 = missed) ∧
    (let s := sLink 0 0 false 4
     (mget 0 s.fw.podmap 1).getLsbD 31 = true ∧ (mget 0 s.fw.podmap 1).getLsbD 30 = false ∧ 4 ≤ mget 0 s.fw.missed 1 ∧
      1 ∉ s.fw.fenced ∧ ((allGroups s).map gidOf).Nodup) := by
  decide +kernel

/-- What a hop that fails stands between: a CREAD with no copy of its group in the queue; and the copy at the head of the queue. -/
theorem witness_LinkSteps_mesh :
    (let s := sG .ready [{ id := 0, kind := .cread, w := some 1, gregs := [383] }]
     (Machine.group s gid1).any (fun g => (g.ops.find? (·.id == 0)).any fun o => o.tag != 1 && o.kind == .cread) = true ∧
      (Machine.core s (gid1 / 2048)).cpyq = []) ∧
    (∀ c ∈ (Machine.core (sCopy true false 0) (gid1 / 2048)).cpyq, c.gid = gid1 ∧ c.opId = 0 ∧ c.started = true ∧
      unitsDone (sCopy true false 0) c = false) ∧ (Machine.core (sCopy true false 0) (gid1 / 2048)).cpyq.length = 1 := by
  refine ⟨?_, ?_, ?_⟩ <;> decide +kernel

/-! ## Steps of the debug port, of register writes and of the firmware -/

/-- The debug port over the group in a state, with two steps kept and a trap due or not. -/
def sPort (st : GState) (due : Bool) : State :=
  { sDbg with cur := { g1 with st := st, due := if due then [{ cause := 14, sub := 0, faddr := 0 }] else [],
                               steps := [(2, keptStep g1), (1, keptStep { g1 with v := [] })] } }

theorem witness_DebugSteps :
    (debugTarget s1 gid1).isNone = true ∧
    (∀ st ∈ [GState.ready, .parked, .held], ∀ due ∈ [false, true], ∀ rix ∈ [0, 32],
      (debugTarget (modCur (sPort st due) fun g => { g with rix := rix }) gid1).any (fun g => g.st == st && g.due.isEmpty == !due && g.rix == rix) = true) ∧
    (let g := (sPort .held false).cur
     (∀ c ∈ [RegClass.v, .g, .m, .f, .w, .group], classBusy g c 1 = false ∧ (readClass (sPort .held false) g c 1).isSome = true) ∧
     (∀ c ∈ [RegClass.v, .g, .m, .f], (writeClass g c 1 5).isSome = true) ∧ (2 : Nat) ≤ g.steps.length ∧
     deviceHeld (sPort .held false) = false ∧ (g.steps.take 2).getLast?.map (·.2) = some (keptStep { g1 with v := [] }) ∧
     (ctx (sPort .held false) g.ctx).ulogSize.toNat < 2) ∧ (13 : Word).toNat % 512 = 13 := by
  refine ⟨?_, ?_, ?_, ?_⟩ <;> decide +kernel

/-- A context of one block in a state, whose undo log has a checkpoint for window 1 or not. -/
def sWin (st : BlkState) (ckpt : Bool) : State :=
  { sDbg with
    blocks := [(2, { b1 with st := st })]
    mm := { mem := if ckpt then [(0xC1018, 1)] else [] }
    fw := { ctxs := [(5, { ctxReset 5 with live := true, dbg := true, window := 1, ulogBase := 0x30, ulogSize := 2 })] } }

theorem witness_DebugSteps_rewind :
    (∀ ckpt ∈ [false, true], let s := sWin .swapped ckpt
      s.io.dbgOn = true ∧ (ctx s 5).dbg = true ∧ ctxBlocks s 5 (· == .resident) = [] ∧ ctxBlocks s 5 (· == .saving) = [] ∧
      rewindRefused s 5 1 = !ckpt) ∧
    (ctxBlocks (sWin .saving true) 5 (· == .resident) = [] ∧ ctxBlocks (sWin .saving true) 5 (· == .saving) = [2]) := by decide +kernel

/-- Both states of GO, a command that is served and one that is not, and both kinds of CPYCTL. -/
theorem witness_RegisterSteps :
    s1.fw.go = false ∧ { s1.fw with go := true }.go = true ∧ (BitVec.ofNat 32 0x80000001).getLsbD 31 = true ∧
    (commandOf (0x80000001 % 2 ^ 16)).isSome = true ∧ (commandOf (0x80000002 % 2 ^ 16)).isNone = true ∧
    (BitVec.ofNat 32 0x4000FFFF).toNat / 2 ^ 30 = 1 ∧ (BitVec.ofNat 32 0x8000FFFF).toNat / 2 ^ 30 = 2 := by decide +kernel

/-- A command that GO started, under a status, with argument words. -/
def sCmd (code status : Nat) (ws : List (Nat × Nat)) (s : State := s1) : State :=
  { s with fw := { s.fw with go := true, cmd := BitVec.ofNat 32 code, status := status, data := ws.map fun p => (16 + p.1, BitVec.ofNat 32 p.2) } }

theorem serves1 (code status : Nat) (ws : List (Nat × Nat)) (s : State) (h : code < 2 ^ 32) (hs : servedIn status code = true) :
    Serves code (sCmd code status ws s) := ⟨rfl, by simp [sCmd]; omega, hs⟩

/-- Every command is served under a status, whatever its arguments. -/
theorem witness_commands : ∀ p ∈ [(0x01, 1), (0x10, 2), (0x11, 2), (0x12, 2), (0x13, 2), (0x14, 2), (0x15, 2), (0x16, 2), (0x20, 2), (0x21, 3),
    (0x30, 2), (0x31, 4)], ∀ ws s, Serves p.1 (sCmd p.1 p.2 ws s) := by
  intro p hp ws s
  have h : ∀ p ∈ [(0x01, 1), (0x10, 2), (0x11, 2), (0x12, 2), (0x13, 2), (0x14, 2), (0x15, 2), (0x16, 2), (0x20, 2), (0x21, 3), (0x30, 2), (0x31, 4)],
      p.1 < 2 ^ 32 ∧ servedIn p.2 p.1 = true := by decide +kernel
  exact serves1 _ _ _ _ (h p hp).1 (h p hp).2

/-- LOADFW of 2^24 and of one byte more (which images are good is the implementation's: every image is or is not); MKCTX of context 0,
of one that is live, of a new one, and of one to be torn down that owns a page; LOADSV that is refused for each reason, busy, and done. -/
theorem witness_SetupCommands :
    ((arg (sCmd 1 1 [(2, 2 ^ 24)]) 2).toNat ≤ 2 ^ 24 ∧ 2 ^ 24 < (arg (sCmd 1 1 [(2, 2 ^ 24 + 1)]) 2).toNat ∧
      ∀ image, Config.imageGood image = true ∨ Config.imageGood image = false) ∧
    ((arg (sCmd 0x10 2 [(0, 64)]) 0).toNat % 64 = 0 ∧
      (∀ n ∈ [5, 63], let s := sCmd 0x10 2 [(0, n), (1, 0x80000000)]
        (arg s 0).toNat % 64 = n ∧ (arg s 1).getLsbD 31 = true ∧ (ctx s n).live = decide (n = 5)) ∧
      (let s := sCmd 0x10 2 [(0, 5)] { s1 with mm := { s1.mm with own := [(0x20, 0xC500)] } }
       (arg s 1).getLsbD 31 = false ∧ (ownOf s 0x80000).toNat / 2 ^ 8 % 64 = 5 ∧ (mfind s.mm.own (0x80000 / 2 ^ 14)).isSome = true ∧
        mrising s.mm.own = true ∧ (inFlight s fun pa => pa < hbmTop && (ownOf s pa).toNat / 2 ^ 8 % 64 == 5) = false ∧
        (let s := { s with pending := [.memoryWriteback 0x1000] }
         (inFlight s fun pa => pa < hbmTop && (ownOf s pa).toNat / 2 ^ 8 % 64 == 5) = true))) ∧
    (let bad := fun s => decide (2 ^ 24 < (arg s 2).toNat ∨ (arg s 3).toNat % 4 ≠ 0 ∨ argPair s 4 % 2 ^ 14 ≠ 0 ∨ 2 ^ 58 ≤ argPair s 4)
     bad (sCmd 0x11 2 [(2, 2 ^ 24 + 1)]) = true ∧ bad (sCmd 0x11 2 [(3, 2)]) = true ∧ bad (sCmd 0x11 2 [(4, 1)]) = true ∧
      bad (sCmd 0x11 2 [(5, 2 ^ 26)]) = true ∧ bad (sCmd 0x11 2 [(2, 2 ^ 24), (3, 4), (4, 2 ^ 14), (5, 2 ^ 26 - 1)]) = false ∧
      (ctx (sCmd 0x11 2 []) 5).live = true ∧ ∀ n < 64, 0 < n → (ctx (sCmd 0x11 2 [] State.reset) n).live = false) := by
  refine ⟨⟨?_, ?_, ?_⟩, ?_, ?_⟩
  · decide +kernel
  · decide +kernel
  · intro image; cases Config.imageGood image <;> simp
  · decide +kernel
  · decide +kernel

/-- SETQ of a ring of 2^0, 2^1, 2^16 and 2^17 records, of a context that is not live, and of a queue that is not enabled; REGH of handle 0,
of one that a task names, of one that none does, and of a new one; MOVEPG of the last page and of what is not one. -/
theorem witness_SetupCommands_more :
    (let q := fun w => let s := sCmd 0x12 2 [(0, 3), (3, w)]
      ({ queue s 3 with desc := (args s 1 8).take 7 ++ [BitVec.ofNat 32 (qWord (queue s 3) 7) &&& ~~~(arg s 8 &&& 0xFF000000)] } : Queue)
     (∀ log ∈ [0, 1, 16, 17], let x := q (2 ^ 31 + 5 * 2 ^ 21 + log)
       qEnabled x = true ∧ (ctx s1 (qCtx x)).live = true ∧ qLog x = log) ∧
     (ctx s1 (qCtx (q (2 ^ 31 + 6 * 2 ^ 21 + 1)))).live = false ∧ qEnabled (q 1) = false) ∧
    (let s := fun ws => sCmd 0x13 2 ws (sTask .queued 0 false)
     (arg (s []) 0).toNat % 2 ^ 16 = 0 ∧ handleNamed (s []) 7 = true ∧ handleNamed (s []) 65535 = false ∧
      argPair (s [(0, 7)]) 4 = 0 ∧ argPair (s [(0, 7), (4, 1)]) 4 ≠ 0) ∧
    (let s := fun ws => sCmd 0x14 2 ws
     argPair (s [(0, 1)]) 0 % 2 ^ 14 ≠ 0 ∧ 2 ^ 39 ≤ argPair (s [(1, 2 ^ 7)]) 0 ∧ (arg (s [(2, 0x80)]) 2).getLsbD 7 = true ∧
      argPair (s [(0, 2 ^ 32 - 2 ^ 14), (1, 2 ^ 7 - 1), (2, 0xFF00)]) 0 = 2 ^ 39 - 2 ^ 14 ∧
      (arg (s [(0, 2 ^ 32 - 2 ^ 14), (1, 2 ^ 7 - 1), (2, 0xFF00)]) 2).getLsbD 7 = false ∧ (s []).mm.sealed = [] ∧
      metaPage (s []) (2 ^ 39 - 2 ^ 14) = false ∧ metaPage { s1 with mm := { s1.mm with metaFrom := some 0 } } 0 = true ∧
      inFlight (s []) (fun a => a / 2 ^ 14 == 0x20) = false ∧
      inFlight { s [] with pending := [.caddAtSlice gid1 0x80000 1 0] } (fun a => a / 2 ^ 14 == 0x20) = true) := by
  refine ⟨?_, ?_, ?_⟩ <;> decide +kernel

/-- PODMAP of no device of its own, of one, and of two, with and without an access to a peer on its way; D3hot with a block and without;
the flash with an image and without, a stack that fails and a CXL port that does. -/
theorem witness_DeviceCommands :
    (let own := fun s => ((List.range 64).filter fun k =>
        let e : DWord := BitVec.ofNat 64 ((arg s (4 * k)).toNat + 2 ^ 32 * (arg s (4 * k + 1)).toNat)
        e.getLsbD 31 && e.getLsbD 30).length
     own (sCmd 0x15 2 []) = 0 ∧ own (sCmd 0x15 2 [(252, 0xC0000000)]) = 1 ∧ own (sCmd 0x15 2 [(0, 0xC0000000), (4, 0xC0000000)]) = 2) ∧
    peerTraffic s1 = false ∧ peerTraffic (sLink 0 0 false 0) = true ∧
    (let held := fun s : State => (s.blocks.any fun p => p.2.st == .resident || p.2.st == .saving || p.2.st == .swapped) ||
        s.cp.queues.any fun p => holdsRecord s p.2
     held (sCmd 0x30 2 []) = true ∧ held (sCmd 0x30 2 [] State.reset) = false ∧
      held { sQueue true true 0 1 0 with blocks := [] } = true) ∧
    (sCmd 0x30 2 [] State.reset).mm.sealed = [] ∧ State.reset.fw.flash = true ∧ { s1.fw with flash := false, stackBad := [7], cxlBad := true }.flash = false := by
  refine ⟨?_, ?_, ?_, ?_, ?_, ?_, ?_⟩ <;> decide +kernel

/-! ## Witnesses: walks, accesses of device memory, and what holds a step up -/

/-- A page that is in a TLB; one whose walk has ended for the group; one that no TLB holds; and accesses held up. -/
noncomputable def sWalked : State := modCur s1 fun g => { g with walks := [pageNo 0x60000] }
noncomputable def sReenc : State := { s1 with pending := [.groupReencryption 0x400] }

theorem witness_walks :
    (∀ nd ∈ [{ r := true }, { w := true }, ({ r := true, w := true } : Need)], walksDone s1 nd [0x40000, 0x43FF8] = true ∧
      walksDone sWalked nd [0x60000] = true ∧ walksDone s1 nd [0x60000] = false ∧ tlbFind s1 (whoOf s1 s1.cur) 0 nd = none) ∧
    pageNo 0 ∉ s1.cur.walks ∧ pairVal s1.cur 10 = 0 ∧ s1.cur.ops = [] ∧ s1.cur.gPoison = [] ∧
    (let vas := fun srcs mute n => threadAddrs s1.cur (activeMask s1.cur 0) srcs mute n fun t => globalAddr s1.cur none 1 1 n t
     walksDone s1 { r := true } (vas [1] false 8) = true ∧ walksDone s1 { w := true } (vas [1, 62, 63] true 8) = true ∧
      walksDone s1 { r := true, w := true } (vas [1, 60, 61, 62, 63] true 8) = true) ∧
    (∀ v ∈ [(0 : Byte), 1], (∀ o ∈ (sRest v).cur.ops, o.kind ≠ .gst) ∧
      walksDone (sRest v) { r := true } ((frameParts (sRest v).cur).flatMap fun p => [p.1, p.1 + 4 * p.2 - 4]) = true) := by
  refine ⟨?_, ?_, ?_, ?_, ?_, ?_, ?_⟩ <;> decide +kernel

theorem witness_held :
    deviceHeld s1 = false ∧ deviceHeld sReenc = true ∧ walksHeld s1 = false ∧ walksHeld sReenc = true ∧
    (let s := modCur sReenc fun g => { g with priv := true, unsaved := [{ va := 0x40000, n := 4, val := 1 }] }
     s.cur.ops = [] ∧ s.cur.unsaved ≠ [] ∧ deviceHeld s = true) ∧
    (∀ s ∈ [sTask .queued 0 false, sTask .running 1 true, sLaunch true 2 0, sBlk 1 1 .waiting, sSwap, sLevels, sWin .swapped true],
      deviceHeld s = false) ∧
    (let s := modCur sReenc fun g => { g with preempt := true }
     isResident s.cur = true ∧ mayVector s s.cur = true ∧ deviceHeld s = true) ∧
    (let s := modCur sRgn fun g => { g with ops := [{ id := 0, kind := .gst }] }
     s.cur.rgn = some r1 ∧ ∃ o ∈ s.cur.ops, o.kind = .gst) ∧
    (peerReached s1 1 = false ∧ peerReached { s1 with fw := { s1.fw with podmap := [(1, 0x80000001)] } } 1 = true) := by
  refine ⟨?_, ?_, ?_, ?_, ?_, ?_, ?_, ?_, ?_⟩ <;> decide +kernel

/-- The core's copy of the line at 0x80000: exclusive, shared and valid at the group's clock, or expired. -/
noncomputable def sCopies (excl : Bool) (rts : Word) : State :=
  { sLine (if excl then some (ownerKey 3 5) else none) excl with
    cores := [(3, { l1 := [(l1Key 0x1000 5, { excl := excl, dirty := excl, wts := 8, rts := rts })] })] }

/-- Accesses of every place and size at the ends of a line; the copies that its core may have. -/
theorem witness_Reaches :
    (∀ mt ∈ [0, 1, 2], ∀ n ∈ [1, 2, 4, 8], ∀ wr ∈ [false, true], ∀ s ∈ [s1, sCopies true 9, sCopies false 9, sCopies false 200],
      let l : Leaf := { pa := 0x80080 - n, mt := mt, loc := 0 }
      inDevice l = true ∧ l.pa % n = 0 ∧ s.cur.rgn = none ∧ mustWait s none (l.pa / 128) wr = false ∧ memFault s l.pa l.via = none ∧
        hostHolds s (l.pa / 128) = none ∧ keyDiffers s (l.pa / 128) l.via = none ∧ Roomy (l.pa / 128) s ∧
        ulogOn (ctx s s.cur.ctx) = false) ∧
    (let l : Leaf := { pa := 0x80000, mt := 0, loc := 0 }
     (ownCopy (sCopies true 9) s1.cur l).any (·.excl) = true ∧
      (ownCopy (sCopies false 9) s1.cur l).any (fun c => !c.excl && before c.rts s1.cur.lclk) = true ∧
      (ownCopy (sCopies false 200) s1.cur l).any (fun c => !c.excl && !before c.rts s1.cur.lclk) = true ∧
      (ownCopy s1 s1.cur l).isNone = true ∧ ((l2Line (sCopies false 9) 0x1000).bind (·.owner)).isNone = true) := by
  refine ⟨?_, ?_⟩ <;> decide +kernel

/-- Stores of an instruction: admitted, outside a region and in one; a line that was read for a thread before. -/
theorem witness_ThreadAccess_stores :
    (match address s1 (whoOf s1 s1.cur) 0x40008 8 { w := true } with
      | (t, .ok l) => t.cur == s1.cur && (match admitStore t t.cur l [] with
        | .ok (_, log) => log.isNone
        | .error _ => false)
      | _ => false) = true ∧
    (match address sRgn (whoOf sRgn sRgn.cur) 0x40008 8 { w := true } with
      | (t, .ok l) => t.cur == sRgn.cur && (match regionStore t t.cur l 0x40008 8 7 with
        | .done .. => true
        | _ => false)
      | _ => false) = true ∧
    (let l : Leaf := { pa := 0x80008, mt := 0, loc := 0 }
     placeOf l = .tracked ∧ groupWaits s1 l false = false ∧ mfind ({ lines := [(0x1000, {})] } : Served).lines (l.pa / 128) = some {}) := by
  refine ⟨?_, ?_, ?_⟩ <;> decide +kernel

/-- A pass of the accumulators that stands before thread 5, and the last; and a group of the block in another partition. -/
theorem witness_AccumulatorResults_turns :
    (∀ k ∈ [5, 31], let s := modCur s1 fun g => { g with mid := some (7, k), g := [(383, 0x607F)] }
      s.cur.mid ≠ none ∧ s.cur.ops = [] ∧ (gget s.cur 383).toNat < 2 ^ 15 ∧
        (threads (activeMask s.cur 0)).filter (((s.cur.mid.map (·.2)).getD s.cur.rix) ≤ ·) ≠ []) ∧
    (∀ h ∈ allGroups s1, h.core = s1.cur.core → h.blk = s1.cur.blk → h.part = s1.cur.part ∨ h.st = .retired ∨ h.st = .swapped) ∧
    (let s := { s1 with others := [{ g1 with slot := 135, part := 1 }] }
     ∃ h ∈ allGroups s, h.core = s.cur.core ∧ h.blk = s.cur.blk ∧ h.part ≠ s.cur.part ∧ h.st ≠ .retired ∧ h.st ≠ .swapped) := by
  refine ⟨?_, ?_, ?_⟩ <;> decide +kernel

/-- Data that waits for the read of its line, and data that does not; a fill that nothing holds; a group that waits for a walk. -/
theorem witness_GroupSteps_awaited :
    (let s := sG .ready [{ id := 0, kind := .load, w := some 1, lines := [0x1000] }]
     dataAwaited s gid1 0 = false ∧ dataAwaited { s with pending := [.hbmRead 0x80000] } gid1 0 = true) ∧
    (let l : Leaf := { pa := 0x80004, mt := 0, loc := 0 }
     fillHeld s1 l = false ∧ lineFault s1 l = none ∧ fillHeld sReenc l = true) ∧
    (let s := sG (.stalled 10 false)
     (allGroups s).any (fun g => g.st == .stalled 10 false && g.core / 8 == 0) = true ∧ walksHeld s = false) := by
  refine ⟨?_, ?_, ?_⟩ <;> decide +kernel

/-- The unit of each kind of copy reaches device memory: its bytes, and the leaf of its destination. -/
theorem witness_CopySteps_units :
    (∀ c ∈ (Machine.core (sCopy true false 0) 3).cpyq,
      let s := sCopy true false 0
      mfind s.blocks c.blk = some b1 ∧ s.mm.lines.length + 4 < sliceLines ∧ 0 < cpyRows c.desc ∧
      (∀ va ∈ [0x40000, 0x4007F], (match engineAddr s (cpyWho s 3 c) va { r := true, w := true } with
        | (t, .ok l) => t == s && inDevice l && !groupWaits s l true && (memFault s l.pa l.via).isNone && (badAt s l.pa 1).isNone &&
            (hostHolds s (l.pa / 128)).isNone && (keyDiffers s (l.pa / 128) l.via).isNone && (l1Copy s 3 c.ctx (l.pa / 128)).isNone
        | _ => false) = true) ∧ ulogOn (ctx s c.ctx) = false) ∧
    (∀ op ∈ [2, 3], let c := cmdOf (sCpy op) op 0 false
      c.idx = none ∧ (scrBadAt b1 (cpyAux21 c.desc) 4).isNone = true ∧ (match rowIndex (sCpy op) c 0 with
        | .ok _ => true
        | .error _ => false) = true) ∧
    (let c := cmdOf (sCpy 4) 4 0 false
     cpyFsel c.desc < 5 ∧ (match packUnit 3 (sCpy 4) c 0 0 with
        | .ok .. => true
        | _ => false) = true) ∧
    (let b := { b1 with scrBad := [0] }
     let c := cmdOf (sCpy 1) 1 0 false
     (match rowSrc c.op c.desc c.ext 0 0 with
        | .scr q => (scrBadAt b q 4).isSome
        | _ => false) = true) := by
  refine ⟨?_, ?_, ?_, ?_⟩ <;> decide +kernel

/-- The MMA of one K-block; its scales are zeros, or a NaN. -/
theorem witness_MatrixSteps_block :
    (∀ m ∈ (Machine.core (sMm true false []) 3).mmaq, m.olds = [] ∧ 0 < mmaM m.desc ∧ mmaM m.desc ≤ 128 ∧ 0 < mmaN m.desc ∧
      mmaN m.desc ≤ 128 ∧ scrRead b1 (m.desc.getD 1 0).toNat 4 % 512 = 0 ∧
      scrRead { b1 with scr := [((m.desc.getD 1 0).toNat, 0xFF), ((m.desc.getD 1 0).toNat + 1, 1)] } (m.desc.getD 1 0).toNat 4 % 512 = 511) ∧
    tileInPass (sMm true false []) 3 2 7 = false := by
  refine ⟨?_, ?_⟩ <;> decide +kernel

/-- A bank with reads queued, within an all-bank refresh and not; and reports that other holders have. -/
theorem witness_MemoryDeviceSteps_queue :
    (let s := sRef 8 false 2
     (bank s (511 * 16 + 15)).queue ≠ [] ∧ (pseudo s ((511 * 16 + 15) / 16)).refab = false) ∧
    (let s := sRef 8 true 2
     (bank s (511 * 16 + 15)).queue ≠ [] ∧ (pseudo s ((511 * 16 + 15) / 16)).refab = true) ∧
    3 ∈ frontDests s1 := by
  refine ⟨?_, ?_, ?_⟩ <;> decide +kernel

/-- A counter that memory refuses by the time a CADD or a wait reaches it; one whose line is held; and a monitor's translation. -/
theorem witness_CounterSteps_refused :
    (let s := { sCadd 1 false with mm := { (sCadd 1 false).mm with tampered := [0x1000] } }
     lineHeld s none 0x1000 true = false ∧ memFault s 0x80000 (viaOf s s.cur 0x40000) = some (13, 6)) ∧
    (memFault (sCadd 1 false) 0x80000 (viaOf (sCadd 1 false) (sCadd 1 false).cur 0x40000)).isNone = true ∧
    (∀ ticket ∈ [none, some 3], let r : CtrReq := { pa := 0x80000, va := 0x40000, target := 1, next := 0x10004, yields := none }
     let s := modCur s1 fun g => { g with st := .stalled 5 false, req := some r, ticket := ticket }
     waitFault s s.cur r = none ∧ lineHeld s none 0x1000 false = false ∧ rebasing s = false ∧
      waitFault { s with mm := { s.mm with tampered := [0x1000] } } s.cur r = some (13, 6) ∧
      lineHeld { s with pending := [.groupReencryption 0x100] } none 0x1000 false = true ∧ rebasing { s with pending := [.rebase 9] } = true) := by
  refine ⟨?_, ?_, ?_⟩ <;> decide +kernel

/-- A port that serves, whose line the host owns. -/
theorem witness_PortSteps_owned :
    let s := { sSnoop with fw := { sSnoop.fw with status := 2 } }
    portUp s 0 = true ∧ hostBarred s 0x80000 = false ∧ memFault s 0x80000 = none ∧ mustWait s none 0x1000 true = false := by
  decide +kernel

/-! ## Results of the spec's worked examples -/

/-- The state after an instruction. -/
noncomputable def after (i : Instr) (s : State) : State :=
  match exec i s with
  | .next t => t
  | _ => s

/-- Threads 0 and 1 of the group present, with registers; of the "narrowing pair" (R83), v10, v11 and v12. -/
def sV (m0 : Word) (v : SMap Word) : State := { s1 with cur := { g1 with v := v, m := [(0, m0)] } }
def sNarrow : State := sV 3 [(320, 0x43960000), (321, 0xBA83126F), (352, 0x43FA0000), (353, 0x7F800000), (384, 0xAAAABBBB)]

theorem test_cvt_e4m3x2 : let t := (after (.cvtE4m3x2L none 12 10 11) sNarrow).cur
    vget t 12 0 = 0xAAAA7F79 ∧ vget t 12 1 = 0x00007F81 ∧ t.flags = 0xE8 := by decide +kernel
theorem test_cvt_e4m3x2_sat : let t := (after (.cvtE4m3x2L (some { pfx with sat := true }) 12 10 11) sNarrow).cur
    vget t 12 0 = 0xAAAA7E79 ∧ vget t 12 1 = 0x00007E81 ∧ t.flags = 0xE0 ∧ t.pc = 0x10008 := by decide +kernel
theorem test_cvt_e4m3x2_trap : let t := (after (.cvtE4m3x2L none 12 10 11) (modCur sNarrow fun g => { g with fmt := 0x20 })).cur
    t.st = .parked ∧ t.rix = 0 ∧ vget t 12 0 = 0xAAAABBBB ∧ t.flags = 0 := by decide +kernel

/-- R84: −0.4 and −0.6 under RNE. -/
theorem test_cvt_n32 : let t := fun x => (after (.cvtN32F32 none 12 10) (sV 1 [(320, x)])).cur
    vget (t 0xBECCCCCD) 12 0 = 0 ∧ (t 0xBECCCCCD).flags = 0x80 ∧ vget (t 0xBF19999A) 12 0 = 0 ∧ (t 0xBF19999A).flags = 0x08 := by
  decide +kernel

/-- "A worked draw" (R61, R62). -/
theorem test_fadd_sto : let s := modCur (sV 3 [(64, 0x3F800000), (65, 0x3F800000), (96, 0x33C00000), (97, 0x33000000)]) fun g =>
      { g with srs := 0x8000000000000000 }
    let t := (after (.fadd (some { pfx with rnd := .rsto }) 1 2 3) s).cur
    vget t 1 0 = 0x3F800001 ∧ vget t 1 1 = 0x3F800000 ∧ t.flags = 0x80 ∧ t.srs = 0x8002000000000000 := by decide +kernel
theorem test_fadd_sto_exact : let s := modCur (sV 3 [(64, 0x3F800000), (65, 0x3F800000), (96, 0x33C00000)]) fun g =>
      { g with srs := 0x8000000000000000 }
    (after (.fadd (some { pfx with rnd := .rsto }) 1 2 3) s).cur.srs = 0x8100000000000000 := by decide +kernel

/-- The KX4 pack of R64. -/
theorem test_pack_kx4 :
    let r := roundKx ((([0x40400000, 0xBFA00000, 0x3ED00000, 0x3E200000, 0x407E0000] : List Word) ++ List.replicate 11 0).map (datum fp32 0)) 4 0 0
    r.blk.e = 0x101 ∧ r.blk.pb = [false, true, false, true, true, true, true, true] ∧ r.blk.q.take 5 = [6, 2, 2, 1, 8] ∧
      r.blk.s.take 5 = [false, true, false, false, false] ∧ r.ex = 0x80 := by decide +kernel

/-- R87: the immediate of #0.1. -/
theorem test_fmovi : vget (after (.fmovi 2 0x3DCCC) s1).cur 2 31 = 0x3DCCC000 := by decide +kernel

/-- R102: ZIP2 and UZP2 of four threads. -/
theorem test_zip2 : let s := sV 15 ((List.range 8).map fun i => (320 + i / 4 * 32 + i % 4, BitVec.ofNat 32 (10 + i)))
    let t := after (.zip2 none 8 10) s
    let u := after (.uzp2 none 20 8) t
    (List.range 4).map (vget t.cur 8) = [10, 14, 11, 15] ∧ (List.range 4).map (vget t.cur 9) = [12, 16, 13, 17] ∧
      (List.range 4).map (vget u.cur 20) = [10, 11, 12, 13] ∧ (List.range 4).map (vget u.cur 21) = [14, 15, 16, 17] := by decide +kernel

/-- R103: results of an empty active set. -/
theorem test_fold_empty : let t := fun i => gget (after i (sV 0 [])).cur 40
    t (.rmaxF 40 3) = 0xFF800000 ∧ t (.rmaxI 40 3) = 0x80000000 ∧ t (.rand 40 3) = 0xFFFFFFFF ∧ t (.rsumI 40 3) = 0 := by decide +kernel

/-- The walk of VA 0x0000_0040_1000_2000 (R236 to R240): its leaf, with A and D set by a store. -/
theorem test_walk :
    let e : List (Nat × Nat) := [(0x100000000, 0x100004003), (0x100004020, 0x100008003), (0x100008040, 0x10000C003), (0x10000C000, 0x23456C02D)]
    let s := { s1 with clusters := []
                       cores := []
                       mm := { mem := e.foldl (fun m p => writeBytes m p.1 8 p.2) [] }
                       fw := { ctxs := [(5, { ctxReset 5 with live := true, root := 0x100000000 })] } }
    (match address s (whoOf s s.cur) 0x4010002000 4 { w := true } with
      | (t, .ok l) => decide (l.pa = 0x23456E000 ∧ readBytes t.mm.mem 0x10000C000 8 = 0x23456C32D)
      | _ => false) = true := by decide +kernel

/-- Re-encryption (R249): the second write-back of line 5 of a group with MIN5 = 126. -/
theorem test_minors : let s := { s1 with mm := { s1.mm with own := [(0x20, 0xC500)], ctrs := [(0x100, { maj := 0x41, minors := [(5, 126)] })] } }
    let line := 0x1005
    let t := after (.memoryWriteback line) s
    let u := after (.memoryWriteback line) (after (.groupReencryption 0x100) t)
    mget 0 (ctrBlk t 0x100).minors 5 = 127 ∧ (ctrBlk u 0x100).maj = 0x42 ∧ (ctrBlk u 0x100).minors = [(5, 1)] := by decide +kernel

/-- The sizes of R270 for B = 32, U = 192, G = 4 and A = 2; the offset of group 2's record, and the register of slot 189. -/
theorem test_image : let r : List Word := [0, 0, 0, 0, 0, 127 + 2 ^ 14 + 2 ^ 16 + 2 * 2 ^ 18]
    recordSize r = 5376 ∧ imageSize r 1 = 156800 ∧ 2048 * (1 + 1) + 2 * recordSize r = 0x3A00 ∧
      slotReg 192 189 = 381 := by decide +kernel

/-- The handle of R265: sequence 0, core 4, slot 35. -/
theorem test_handle : handleOf { core := 4, slot := 35 } = 0x1023 := by decide +kernel

/-- Two regions that cross (R195 to R203), lines P and Q at times 100: the entries after steps 2 and 4, the slices' own. -/
def sCross : State :=
  let r : Region := { elastic := true, handler := 0, reads := [], writes := [], buf := [], vas := [], slices := [] }
  { s1 with
    cur := { g1 with core := 0, rgn := some r, alo := 100, ahi := 149, aid := 0x11 }
    others := [{ g1 with core := 4, rgn := some r, alo := 105, ahi := 154, aid := 0x22 }]
    mm := { lines := [(0x1000, { wts := 100, rts := 100 }), (0x1001, { wts := 100, rts := 100 })] }
    cp := { s1.cp with slots := [(0x11, 0), (0x22, 0)] } }

/-- The state after steps of the device, each followed by the steps that it made due. -/
noncomputable def deliver : Nat → State → State
  | 0, s => s
  | n + 1, s =>
    match s.pending with
    | [] => s
    | i :: is => deliver n (after i { s with pending := is })
noncomputable def stepAll (s : State) (is : List Instr) : State := is.foldl (fun s i => deliver 8 (after i s)) s

theorem test_regions_cross :
    let bounds := fun (s : State) gid => (Machine.group s gid).map fun g => (g.alo, g.ahi)
    let s := stepAll sCross [.regionRegistration 7 0x1000 false, .regionRegistration (4 * 2048 + 7) 0x1000 true]
    let t := stepAll s [.regionRegistration (4 * 2048 + 7) 0x1001 false, .regionRegistration 7 0x1001 true]
    bounds s 7 = some (100, 104) ∧ bounds s (4 * 2048 + 7) = some (105, 154) ∧
      (Machine.group t 7).any (fun g => g.rgn.isNone && g.astat.toNat / 2 ^ 16 % 1024 == 1) = true ∧
      bounds t (4 * 2048 + 7) = some (105, 105) := by decide +kernel

end Sys2Proof.Tests
end

/-! SUPPORT. SRW (R51, R52, R257 to R261): the access that a privilege level has to a register, the value written, and what the
instruction leaves as it was. -/

namespace Sys2Proof.Machine

/-! ## What a completing instruction leaves alone beyond the current group -/

@[simp] theorem advance_fmt (words : Nat) (s : State) : (advance words s).cur.fmt = s.cur.fmt := by rw [advance_eq]; simp
@[simp] theorem advance_mm (words : Nat) (s : State) : (advance words s).mm = s.mm := by rw [advance_eq]; simp
@[simp] theorem advance_fw (words : Nat) (s : State) : (advance words s).fw = s.fw := by rw [advance_eq]; simp
@[simp] theorem advance_pending (words : Nat) (s : State) : (advance words s).pending = s.pending := by rw [advance_eq]; simp

@[simp] theorem ctx_advance (words : Nat) (s : State) (n : Nat) : ctx (advance words s) n = ctx s n := by
  simp only [ctx, advance_fw]

@[simp] theorem core_pend (s : State) (e : Instr) (c : Nat) : core (pend s e) c = core s c := rfl

@[simp] theorem ctx_pend (s : State) (e : Instr) (n : Nat) : ctx (pend s e) n = ctx s n := rfl

theorem ctx_modCtx_same (s : State) (n : Nat) (f : Ctx → Ctx) : ctx (modCtx s n f) n = f (ctx s n) :=
  (mget_mmod ..).trans (if_pos rfl)

/-- An instruction whose effect leaves the current group alone completes. -/
theorem advance_completed_of_cur {words : Nat} {s u : State} (h : u.cur = s.cur) : Completed words s (advance words u) := by
  have done := advance_completed words u
  exact ⟨h ▸ done.pc, done.rix, done.xc, done.xcv, h ▸ done.instret⟩

/-- An instruction without an effect of its own. -/
theorem advance_onlyWrites_nothing (words : Nat) (s : State) : OnlyWrites words [] [] [] s (advance words s) :=
  advance_only (h := s.cur) (fun _ _ _ _ => ⟨rfl, rfl⟩) (fun _ _ => ⟨rfl, rfl⟩) (fun _ _ => rfl)
    ⟨rfl, fun _ => ⟨rfl, fun _ => rfl⟩⟩ rfl rfl ⟨rfl, rfl⟩ rfl

/-! ## The group's own status registers: with the register put back, the instruction is one without an effect -/

theorem advance_fmt_restored (words : Nat) (s : State) (x : Word) :
    modCur (advance words (modCur s fun g => { g with fmt := x })) (fun g => { g with fmt := s.cur.fmt }) = advance words s := by
  simp only [advance_eq, modCur, modCore, atNext, addStall, addIssue]

theorem advance_flags_restored (words : Nat) (s : State) (x : Word) :
    modCur (advance words (modCur s fun g => { g with flags := x })) (fun g => { g with flags := s.cur.flags }) =
      advance words s := by
  simp only [advance_eq, modCur, modCore, atNext, addStall, addIssue]

theorem advance_srs_restored (words : Nat) (s : State) (f : DWord → DWord) :
    modCur (advance words (modCur s fun g => { g with srs := f g.srs })) (fun g => { g with srs := s.cur.srs }) =
      advance words s := by
  simp only [advance_eq, modCur, modCore, atNext, addStall, addIssue]

/-! ## The values written -/

theorem fmtLegal_iff (x : Word) : fmtLegal x = true ↔ x.toNat % 8 ≤ 5 ∧ x.toNat / 2 ^ 13 % 4 ≤ 1 := by
  simp only [fmtLegal, Bool.and_eq_true, decide_eq_true_eq]

theorem append_eq_ofNat (hi lo : Word) : hi ++ lo = BitVec.ofNat 64 (hi.toNat * 2 ^ 32 + lo.toNat) := by
  apply BitVec.eq_of_toNat_eq
  have hh := hi.isLt
  have hl := lo.isLt
  rw [BitVec.toNat_append, ← Nat.shiftLeft_add_eq_or_of_lt hl, Nat.shiftLeft_eq, BitVec.toNat_ofNat]
  omega

theorem srs_low_written (r : DWord) (x : Word) :
    BitVec.ofNat 64 (r.toNat / 2 ^ 32 * 2 ^ 32 + x.toNat) = r.extractLsb' 32 32 ++ x := by
  have h : (r.extractLsb' 32 32).toNat = r.toNat / 2 ^ 32 := by
    rw [BitVec.extractLsb'_toNat, Nat.shiftRight_eq_div_pow]
    have := r.isLt
    omega
  rw [append_eq_ofNat, h]

theorem srs_high_written (r : DWord) (x : Word) :
    BitVec.ofNat 64 (x.toNat * 2 ^ 32 + r.toNat % 2 ^ 32) = x ++ r.extractLsb' 0 32 := by
  rw [append_eq_ofNat, BitVec.extractLsb'_toNat, Nat.shiftRight_zero]

/-- A LOG2N that R259 does not allow: FAULTQ keeps its value. -/
theorem writeFaultq_ignored {s : State} {c : Nat} {x : Word} (h : ¬(x.toNat % 16 = 0 ∨ (4 ≤ x.toNat % 16 ∧ x.toNat % 16 ≤ 12))) :
    writeFaultq s c x = s :=
  if_pos (by omega)

theorem writeFaultq_taken {s : State} {c : Nat} {x : Word} (h : x.toNat % 16 = 0 ∨ (4 ≤ x.toNat % 16 ∧ x.toNat % 16 ≤ 12)) :
    writeFaultq s c x = pend (modCore s c fun k => { k with faultq := x &&& 0xFFFFFFCF }) (.faultRecordPost c) :=
  if_neg (by omega)

theorem writeFaultq_cur (s : State) (c : Nat) (x : Word) : (writeFaultq s c x).cur = s.cur := by
  by_cases h : x.toNat % 16 = 0 ∨ (4 ≤ x.toNat % 16 ∧ x.toNat % 16 ≤ 12)
  · rw [writeFaultq_taken h, pend_cur, modCore_cur]
  · rw [writeFaultq_ignored h]

theorem core_writeFaultq_faultq (s : State) (c : Nat) (x : Word) :
    (core (writeFaultq s c x) c).faultq =
      if x.toNat % 16 = 0 ∨ (4 ≤ x.toNat % 16 ∧ x.toNat % 16 ≤ 12) then x &&& 0xFFFFFFCF else (core s c).faultq := by
  split
  · next h => rw [writeFaultq_taken h, core_pend, core_modCore, if_pos rfl]
  · next h => rw [writeFaultq_ignored h]

/-! ## The effect of a write, register by register -/

section

variable (s : State) (x : Word)

theorem sysWrite_fmt : sysWrite s 0x20 x = modCur s fun g => { g with fmt := fmtWritten x } := rfl
theorem sysWrite_flags : sysWrite s 0x21 x = modCur s fun g => { g with flags := flagsWritten x } := rfl
theorem sysWrite_srsLow : sysWrite s 0x22 x = modCur s fun g => { g with srs := g.srs.extractLsb' 32 32 ++ x } := by
  simp only [← srs_low_written]; rfl
theorem sysWrite_srsHigh : sysWrite s 0x23 x = modCur s fun g => { g with srs := x ++ g.srs.extractLsb' 0 32 } := by
  simp only [← srs_high_written]; rfl
theorem sysWrite_lease :
    sysWrite s 0x31 x = modCtx s (scopeCtx s s.cur) fun c => { c with lease := x.extractLsb' 0 16 } := by
  rw [← BitVec.setWidth_eq_extractLsb' (by decide)]; rfl
theorem sysWrite_tick :
    sysWrite s 0x32 x = pend (modCtx s (scopeCtx s s.cur) fun c => { c with tick := x.extractLsb' 0 16 })
      (.tickRestart (scopeCtx s s.cur)) := by
  rw [← BitVec.setWidth_eq_extractLsb' (by decide)]; rfl
theorem sysWrite_tvec : sysWrite s 0x200 x = modCore s s.cur.core fun k => { k with tvec := x &&& 0xFFFFFFFC } := rfl
theorem sysWrite_pvec : sysWrite s 0x201 x = modCore s s.cur.core fun k => { k with pvec := x &&& 0xFFFFFFFC } := rfl
theorem sysWrite_savebase : sysWrite s 0x202 x = modCore s s.cur.core fun k => { k with savebase := x } := rfl
theorem sysWrite_faultq : sysWrite s 0x203 x = writeFaultq s s.cur.core x := rfl
theorem sysWrite_rootLow :
    sysWrite s 0x205 x = modCtx s (core s s.cur.core).asid fun c =>
      { c with root := c.root / 2 ^ 32 * 2 ^ 32 + x.toNat / 2 ^ 14 * 2 ^ 14 } := rfl
theorem sysWrite_rootHigh :
    sysWrite s 0x206 x = modCtx s (core s s.cur.core).asid fun c =>
      { c with root := x.toNat % 2 ^ 20 * 2 ^ 32 + c.root % 2 ^ 32 } := rfl
theorem sysWrite_mxidle : sysWrite s 0x207 x = modCore s s.cur.core fun k => { k with mxidle := x } := rfl
theorem sysWrite_lullmax : sysWrite s 0x221 x = modCtx s (scopeCtx s s.cur) fun c => { c with lullmax := x } := rfl
theorem sysWrite_sampleN : sysWrite s 0x222 x = modCore s s.cur.core fun k => { k with sampleN := x &&& 0x00FFFFFF } := rfl

end

/-! ## SRW -/

theorem exec_srw (g : BitVec 9) (i : BitVec 12) (s : State) : exec (.srw g i) s = execSrw g i s := rfl

/-- User code writes none but FMT, FLAGS and SRS (R51, R52). -/
theorem idAccess_user_ne_two {id : Nat} (h : id < 0x20 ∨ 0x23 < id) : idAccess false id ≠ 2 := by
  simp only [idAccess, if_neg (show ¬(0x20 ≤ id ∧ id ≤ 0x23) by omega), Bool.false_eq_true, if_false, Bool.not_false, if_true]
  split
  · decide
  · split <;> decide

theorem idAccess_own (sup : Bool) {id : Nat} (h : 0x20 ≤ id ∧ id ≤ 0x23) : idAccess sup id = 2 := if_pos h

/-- A register that may not be written. -/
theorem srw_refused {g : BitVec 9} {i : BitVec 12} {s : State} (h : idAccess (privileged s.cur) i.toNat ≠ 2) :
    exec (.srw g i) s = .next (illEnc 0 s) := by
  rw [exec_srw, execSrw, if_pos h]

section

variable {g : BitVec 9} {i : BitVec 12} {s : State} (hi : Issues s.cur [] [g.toNat] [])
include hi

/-- An SRW that issues, to a register that may be written: its effect is a check of FMT, then the write. -/
theorem srw_checked (ha : idAccess (privileged s.cur) i.toNat = 2) :
    exec (.srw g i) s = .next (if i.toNat = 0x20 ∧ !fmtLegal (gget s.cur g.toNat) then illEnc 0 s
      else advance 1 (sysWrite s i.toNat (gget s.cur g.toNat))) := by
  rw [exec_srw, execSrw, if_neg fun h => h ha,
    withUses_runs (u := { gr := [g.toNat] }) hi (fun _ h => absurd h List.not_mem_nil) (fun _ h => h)
      (fun _ h => absurd h List.not_mem_nil) (fun _ h => nomatch h)]

/-- An illegal FMT (R69). -/
theorem srw_fmt_illegal (hx : fmtLegal (gget s.cur g.toNat) = false) : exec (.srw g 0x20) s = .next (illEnc 0 s) := by
  rw [srw_checked hi (idAccess_own _ (by decide)), if_pos ⟨rfl, by rw [hx]; rfl⟩]

theorem srw_fmt_legal (hx : fmtLegal (gget s.cur g.toNat) = true) :
    exec (.srw g 0x20) s =
      .next (advance 1 (modCur s fun h => { h with fmt := fmtWritten (gget s.cur g.toNat) })) := by
  rw [srw_checked hi (idAccess_own _ (by decide)), if_neg (fun h => by rw [hx] at h; exact nomatch h.2), ← sysWrite_fmt]; rfl

/-- Every other register takes the write. -/
theorem srw_writes {id : Nat} {u : State} (hid : i.toNat = id) (ha : idAccess (privileged s.cur) id = 2) (hn : id ≠ 0x20)
    (hw : sysWrite s id (gget s.cur g.toNat) = u) : exec (.srw g i) s = .next (advance 1 u) := by
  subst hid
  rw [srw_checked hi ha, if_neg fun h => hn h.1, hw]

/-- A write of SRS, which `f` changes. -/
theorem srw_srs {id : Nat} {f : DWord → DWord} (hid : i.toNat = id) (ha : idAccess (privileged s.cur) id = 2) (hn : id ≠ 0x20)
    (hw : sysWrite s id (gget s.cur g.toNat) = modCur s fun h => { h with srs := f h.srs }) :
    ∃ t, exec (.srw g i) s = .next t ∧ t.cur.srs = f s.cur.srs ∧
      OnlyWrites 1 [] [] [] s (modCur t fun h => { h with srs := s.cur.srs }) := by
  refine ⟨_, srw_writes hi hid ha hn hw, advance_srs .., ?_⟩
  rw [advance_srs_restored]
  exact advance_onlyWrites_nothing 1 s

/-! ### At supervisor privilege -/

variable (hp : privileged s.cur = true) {id : Nat} (hid : i.toNat = id) (ha : idAccess true id = 2) (hn : id ≠ 0x20)
include hp hid ha hn

/-- A write that leaves the current group alone. -/
theorem srw_supervisor {u : State} (hw : sysWrite s id (gget s.cur g.toNat) = u) (hc : u.cur = s.cur) :
    exec (.srw g i) s = .next (advance 1 u) ∧ Completed 1 s (advance 1 u) :=
  ⟨srw_writes hi hid (hp ▸ ha) hn hw, advance_completed_of_cur hc⟩

/-- A register of the core: beyond the write, only the stall counters of the core's partitions change. -/
theorem srw_core {f : Core → Core} (hw : sysWrite s id (gget s.cur g.toNat) = modCore s s.cur.core f) :
    ∃ t, exec (.srw g i) s = .next t ∧
      core t s.cur.core = { f (core s s.cur.core) with pstall := (core t s.cur.core).pstall } ∧ Completed 1 s t ∧
      t.mm = s.mm ∧ t.fw = s.fw := by
  obtain ⟨he, hd⟩ := srw_supervisor hi hp hid ha hn hw rfl
  refine ⟨_, he, ?_, hd, advance_mm .., advance_fw ..⟩
  have written : core (modCore s s.cur.core f) s.cur.core = f (core s s.cur.core) := (core_modCore ..).trans (if_pos rfl)
  rw [← written]
  exact (advance_device ..).cores s.cur.core

/-- A register of a context. -/
theorem srw_ctx {n : Nat} {f : Ctx → Ctx} (hw : sysWrite s id (gget s.cur g.toNat) = modCtx s n f) :
    ∃ t, exec (.srw g i) s = .next t ∧ ctx t n = f (ctx s n) ∧ Completed 1 s t ∧ t.mm = s.mm := by
  obtain ⟨he, hd⟩ := srw_supervisor hi hp hid ha hn hw rfl
  exact ⟨_, he, (ctx_advance ..).trans (ctx_modCtx_same ..), hd, advance_mm ..⟩

end

/-- TICK, whose counting starts again. -/
theorem srw_tick {g : BitVec 9} {s : State} (hi : Issues s.cur [] [g.toNat] []) (hp : privileged s.cur = true) :
    ∃ t, exec (.srw g 0x32) s = .next t ∧ (ctx t (scopeCtx s s.cur)).tick = (gget s.cur g.toNat).extractLsb' 0 16 ∧
      Completed 1 s t ∧ t.mm = s.mm ∧ t.pending = s.pending ++ [.tickRestart (scopeCtx s s.cur)] := by
  obtain ⟨he, hd⟩ := srw_supervisor (i := 0x32) hi hp rfl rfl (by decide) (sysWrite_tick s _) rfl
  refine ⟨_, he, ?_, hd, advance_mm .., advance_pending ..⟩
  rw [ctx_advance, ctx_pend, ctx_modCtx_same]

/-- FAULTQ, whose value is kept where R259 refuses the new one. -/
theorem srw_faultq {g : BitVec 9} {s : State} (hi : Issues s.cur [] [g.toNat] []) (hp : privileged s.cur = true) :
    let x := gget s.cur g.toNat
    ∃ t, exec (.srw g 0x203) s = .next t ∧ Completed 1 s t ∧ (core t s.cur.core).faultq =
      if x.toNat % 16 = 0 ∨ (4 ≤ x.toNat % 16 ∧ x.toNat % 16 ≤ 12) then x &&& 0xFFFFFFCF else (core s s.cur.core).faultq := by
  obtain ⟨he, hd⟩ := srw_supervisor (i := 0x203) hi hp rfl rfl (by decide) (sysWrite_faultq s _) (writeFaultq_cur ..)
  refine ⟨_, he, hd, ?_⟩
  rw [(advance_device ..).cores s.cur.core]
  exact core_writeFaultq_faultq ..

/-! ## O29 -/

/-- Settles O29: with a group's own register put back, SRW has no effect beyond completing; every other register is read back
from the core or the context that holds it. -/
theorem systemRegisterWrites : Obligations.SystemRegisterWrites := by
  intro g s x n k hi
  refine ⟨fun hr h8 => ?fmt, fun hx => ?illegal, ?flags, ?srs, fun hu i h => ?user, fun hp => ⟨?tvec, ?pvec, ?savebase, ?faultq,
    ?rootLow, ?rootHigh, ?mxidle, ?sampleN, ?lease, ?tick, ?lullmax⟩⟩
  case fmt =>
    refine ⟨_, srw_fmt_legal hi ((fmtLegal_iff _).2 ⟨hr, h8⟩), advance_fmt .., ?_⟩
    rw [advance_fmt_restored]
    exact advance_onlyWrites_nothing 1 s
  case illegal =>
    refine srw_fmt_illegal hi (Bool.eq_false_iff.2 fun h => ?_)
    obtain ⟨hr, h8⟩ := (fmtLegal_iff _).1 h
    exact hx.elim (Nat.not_lt.2 hr) (Nat.not_lt.2 h8)
  case flags =>
    refine ⟨_, srw_writes hi rfl (idAccess_own _ (by decide)) (by decide) (sysWrite_flags ..), advance_flags .., ?_⟩
    rw [advance_flags_restored]
    exact advance_onlyWrites_nothing 1 s
  case srs =>
    simp only [List.forall_mem_cons]
    refine ⟨?low, ?high, fun _ h => nomatch h⟩
    case low =>
      exact srw_srs (i := 0x22) (f := fun r => r.extractLsb' 32 32 ++ x) hi rfl (idAccess_own _ (by decide)) (by decide)
        (sysWrite_srsLow s x)
    case high =>
      exact srw_srs (i := 0x23) (f := fun r => x ++ r.extractLsb' 0 32) hi rfl (idAccess_own _ (by decide)) (by decide)
        (sysWrite_srsHigh s x)
  case user => exact srw_refused (hu ▸ idAccess_user_ne_two h)
  case faultq => exact srw_faultq hi hp
  case tick => exact srw_tick hi hp
  case tvec =>
    obtain ⟨t, he, hk, hd, hm, hf⟩ := srw_core (i := 0x200) hi hp rfl rfl (by decide) (sysWrite_tvec s x)
    exact ⟨t, he, congrArg Core.tvec hk, hd, hm, hf⟩
  case pvec =>
    obtain ⟨t, he, hk, hd, hm, hf⟩ := srw_core (i := 0x201) hi hp rfl rfl (by decide) (sysWrite_pvec s x)
    exact ⟨t, he, congrArg Core.pvec hk, hd, hm, hf⟩
  case savebase =>
    obtain ⟨t, he, hk, hd, hm, hf⟩ := srw_core (i := 0x202) hi hp rfl rfl (by decide) (sysWrite_savebase s x)
    exact ⟨t, he, congrArg Core.savebase hk, hd, hm, hf⟩
  case mxidle =>
    obtain ⟨t, he, hk, hd, hm, hf⟩ := srw_core (i := 0x207) hi hp rfl rfl (by decide) (sysWrite_mxidle s x)
    exact ⟨t, he, congrArg Core.mxidle hk, hd, hm, hf⟩
  case sampleN =>
    obtain ⟨t, he, hk, hd, hm, hf⟩ := srw_core (i := 0x222) hi hp rfl rfl (by decide) (sysWrite_sampleN s x)
    exact ⟨t, he, congrArg Core.sampleN hk, hd, hm, hf⟩
  case lease =>
    obtain ⟨t, he, hc, hd, hm⟩ := srw_ctx (i := 0x31) hi hp rfl rfl (by decide) (sysWrite_lease s x)
    exact ⟨t, he, congrArg Ctx.lease hc, hd, hm⟩
  case lullmax =>
    obtain ⟨t, he, hc, hd, hm⟩ := srw_ctx (i := 0x221) hi hp rfl rfl (by decide) (sysWrite_lullmax s x)
    exact ⟨t, he, congrArg Ctx.lullmax hc, hd, hm⟩
  case rootLow =>
    obtain ⟨t, he, hc, hd, hm⟩ := srw_ctx (i := 0x205) hi hp rfl rfl (by decide) (sysWrite_rootLow s x)
    exact ⟨t, he, hd, hm, congrArg Ctx.root hc⟩
  case rootHigh =>
    obtain ⟨t, he, hc, hd, hm⟩ := srw_ctx (i := 0x206) hi hp rfl rfl (by decide) (sysWrite_rootHigh s x)
    exact ⟨t, he, hd, hm, congrArg Ctx.root hc⟩

end Sys2Proof.Machine
